-- ==== Sys2Proof/Word.lean ====
section
/-! DEFINITION. The words of the FL4 and the packing of fields into them.
A word is a list of fields from its least significant bit upward (01 R9, R17). -/

namespace Sys2Proof

/-- One byte (R2: the smallest addressable unit). -/
abbrev Byte := BitVec 8

/-- A scalar register's value, an address, a CSR's value (R287). -/
abbrev Word := BitVec 64

/-- One instruction word of 128 bits (R8). -/
abbrev IWord := BitVec 128

/-- Fields laid one above the other from bit 0; each is a width and a value. -/
def packFields : List (Nat × Nat) → Nat
  | [] => 0
  | (w, v) :: rest => v % 2 ^ w + 2 ^ w * packFields rest

/-- The fields of the given widths, from bit 0 upward. -/
def splitFields : List Nat → Nat → List Nat
  | [], _ => []
  | w :: ws, n => n % 2 ^ w :: splitFields ws (n / 2 ^ w)

/-- Bits `[lo + len - 1 : lo]` of a number. -/
def bits (n lo len : Nat) : Nat := n / 2 ^ lo % 2 ^ len

/-- One bit of a number. -/
def bit (n k : Nat) : Bool := n / 2 ^ k % 2 == 1

/-- A Boolean as a one-bit field. -/
def bitOf (b : Bool) : Nat := if b then 1 else 0

/-- A number read as signed in `w` bits. -/
def signed (w n : Nat) : Int :=
  if n % 2 ^ w < 2 ^ (w - 1) then (n % 2 ^ w : Nat) else (n % 2 ^ w : Nat) - (2 ^ w : Nat)

/-- An integer reduced modulo `2^w`. -/
def wrap (w : Nat) (x : Int) : Nat := (x % (2 ^ w : Nat)).toNat

/-- Bytes of a number, least significant first (R3). -/
def bytesLE : Nat → Nat → List Byte
  | 0, _ => []
  | k + 1, n => BitVec.ofNat 8 n :: bytesLE k (n / 256)

/-- The number whose bytes, least significant first, are given (R3). -/
def ofBytesLE : List Byte → Nat
  | [] => 0
  | b :: bs => b.toNat + 256 * ofBytesLE bs

end Sys2Proof
end

