-- ==== Sys2Proof/Syntax.lean ====
section
/-! DEFINITION. The instructions of the FL4: one constructor for each row of spec/opcode_table.json.
The first 201 are the forms of R41; the rest are the steps of the part that no word names (spec/95). -/

namespace Sys2Proof

/-- A scalar register field, `s0` to `s63` (R17). -/
abbrev Reg := Fin 64
/-- A mask register, `k0` to `k11` (R17). -/
abbrev Mask := Fin 12

/-- The element types (R67). `b8 uns fin p` is the binary8 type of precision `p + 1`:
`b8pP` (code 32+P), `b8pPf` (40+P), `ub8pP` (48+P), `ub8pPf` (56+P). -/
inductive Ty where
  | i8 | n8 | i16 | n16 | i32 | n32 | i64 | n64 | i4 | n4
  | e2m1 | e3m2 | e2m3 | e4m3 | e5m2
  | f64 | f32 | f16 | bf16
  | b8 (uns fin : Bool) (p : Fin 7)
  deriving DecidableEq, Repr

/-- A type field; `none` is code 0 (R25, R46). -/
abbrev TyF := Option Ty

/-- Block geometries (R73). -/
inductive Geom where
  | mx32 | mx16
  deriving DecidableEq, Repr

/-- The rounding modes of `RM` (R76). -/
inductive RMode where
  | rne | rtz | rup | rdn | rna | sr | rto
  deriving DecidableEq, Repr

/-- Comparisons of `SUB` (R45, R212). -/
inductive Cmp where
  | eq | ne | lt | le | gt | ge | un
  deriving DecidableEq, Repr

/-- Reductions of `VRED` (R215). -/
inductive RedOp where
  | add | min | max | and | or | xor
  deriving DecidableEq, Repr

/-- Scopes of `FENCE` (R45). -/
inductive Scope where
  | plot | bed | span | dev | dom
  deriving DecidableEq, Repr

/-- `SUB` of `MULH` (R295). -/
inductive MulhKind where
  | ss | uu | su
  deriving DecidableEq, Repr

/-- Addressing modes of a vector operand (R21). -/
inductive Mode where
  | unit | stride | once | indexed
  deriving DecidableEq, Repr

/-- A vector operand (R21). -/
structure Opnd where
  base : Reg
  mode : Mode
  off : BitVec 16
  deriving DecidableEq, Repr

/-- A guard (R28): the mask and its polarity. `none` in a field of this type is `GUARD` = 15. -/
structure Guard where
  k : Mask
  neg : Bool
  deriving DecidableEq, Repr

/-- Header of class V and VI words (R9). `set` = none is 7; `wait` omits the bit that must be 0. -/
structure VHdr where
  skew : BitVec 4
  cede : Bool
  land : Bool
  set : Option (Fin 7)
  wait : BitVec 7
  reuse : BitVec 3
  deriving DecidableEq, Repr

/-- Header of the other broadcast words, M forms, `VXFORM` and `VXPOS` (R172). -/
structure BHdr where
  skew : BitVec 4
  cede : Bool
  land : Bool
  deriving DecidableEq, Repr

/-! The shapes of R42. `land` is W[122]. -/

structure S1 where
  land : Bool
  a : Reg
  deriving DecidableEq, Repr

structure S2 where
  land : Bool
  d : Reg
  a : Reg
  deriving DecidableEq, Repr

structure S3 where
  land : Bool
  d : Reg
  a : Reg
  b : Reg
  deriving DecidableEq, Repr

structure S4 where
  land : Bool
  d : Reg
  a : Reg
  b : Reg
  c : Reg
  deriving DecidableEq, Repr

structure SF where
  land : Bool
  d : Reg
  a : Reg
  b : Reg
  ty : Ty
  deriving DecidableEq, Repr

structure SF2 where
  land : Bool
  d : Reg
  a : Reg
  ty : Ty
  deriving DecidableEq, Repr

structure SF4 where
  land : Bool
  d : Reg
  a : Reg
  b : Reg
  c : Reg
  ty : Ty
  deriving DecidableEq, Repr

/-- `FCVT`: `ty` is the result type, `src` the source type, whose code stands in `SRCB` (R42). -/
structure SFC where
  land : Bool
  d : Reg
  a : Reg
  ty : Ty
  src : Ty
  deriving DecidableEq, Repr

structure SI2 where
  land : Bool
  d : Reg
  a : Reg
  imm : BitVec 32
  deriving DecidableEq, Repr

structure SIM where
  land : Bool
  d : Reg
  a : Reg
  ty : Ty
  imm : BitVec 32
  deriving DecidableEq, Repr

structure L1 where
  land : Bool
  d : Reg
  imm : BitVec 64
  deriving DecidableEq, Repr

structure B0 where
  land : Bool
  off : BitVec 32
  deriving DecidableEq, Repr

structure B1 where
  land : Bool
  a : Reg
  off : BitVec 32
  deriving DecidableEq, Repr

structure B2 where
  land : Bool
  a : Reg
  b : Reg
  off : BitVec 32
  deriving DecidableEq, Repr

structure BC where
  land : Bool
  lnk : Reg
  off : BitVec 32
  deriving DecidableEq, Repr

structure BJ where
  land : Bool
  a : Reg
  lnk : Reg
  deriving DecidableEq, Repr

/-- The prefix word (R20): each setting is present exactly when its valid bit is 1. -/
structure PfxF where
  land : Bool
  rm : Option RMode
  sat : Option (Fin 3)
  seed : Option Reg
  deriving DecidableEq, Repr

structure ForkF where
  land : Bool
  a : Reg
  b : Reg
  d : Reg
  off : BitVec 32
  deriving DecidableEq, Repr

structure V3 where
  h : VHdr
  d : Opnd
  a : Opnd
  b : Opnd
  ty1 : TyF
  ty2 : TyF
  g : Option Guard
  ntf : Bool
  deriving DecidableEq, Repr

structure V2 where
  h : VHdr
  d : Opnd
  a : Opnd
  ty1 : TyF
  g : Option Guard
  ntf : Bool
  deriving DecidableEq, Repr

structure V2X where
  h : VHdr
  d : Opnd
  a : Opnd
  ty1 : TyF
  ty2 : TyF
  g : Option Guard
  ntf : Bool
  deriving DecidableEq, Repr

structure V1 where
  h : VHdr
  d : Opnd
  ty1 : TyF
  g : Option Guard
  ntf : Bool
  deriving DecidableEq, Repr

/-- Shapes VC and VL: a mask destination (R18). -/
structure VC where
  h : VHdr
  k : Mask
  a : Opnd
  b : Opnd
  ty1 : TyF
  ty2 : TyF
  g : Option Guard
  deriving DecidableEq, Repr

/-- `VRED`: a scalar destination (R18). -/
structure VRs where
  h : VHdr
  sd : Reg
  a : Opnd
  ty1 : TyF
  g : Option Guard
  deriving DecidableEq, Repr

structure I2 where
  h : VHdr
  d : Opnd
  a : Opnd
  imm : BitVec 32
  ty1 : TyF
  g : Option Guard
  ntf : Bool
  deriving DecidableEq, Repr

structure I1 where
  h : VHdr
  d : Opnd
  imm : BitVec 32
  ty1 : TyF
  g : Option Guard
  ntf : Bool
  deriving DecidableEq, Repr

structure IC where
  h : VHdr
  k : Mask
  a : Opnd
  imm : BitVec 32
  ty1 : TyF
  g : Option Guard
  deriving DecidableEq, Repr

structure M1 where
  h : BHdr
  d : Mask
  g : Option Guard
  deriving DecidableEq, Repr

structure M2 where
  h : BHdr
  d : Mask
  a : Mask
  g : Option Guard
  deriving DecidableEq, Repr

structure M3 where
  h : BHdr
  d : Mask
  a : Mask
  b : Mask
  g : Option Guard
  deriving DecidableEq, Repr

structure MS where
  h : BHdr
  sd : Reg
  a : Mask
  g : Option Guard
  deriving DecidableEq, Repr

/-- E forms named by their register operands. -/
structure EA where
  land : Bool
  a : Reg
  deriving DecidableEq, Repr

structure ED where
  land : Bool
  d : Reg
  deriving DecidableEq, Repr

structure EAD where
  land : Bool
  a : Reg
  d : Reg
  deriving DecidableEq, Repr

structure EABD where
  land : Bool
  a : Reg
  b : Reg
  d : Reg
  deriving DecidableEq, Repr

structure EABC where
  land : Bool
  a : Reg
  b : Reg
  c : Reg
  deriving DecidableEq, Repr

structure EABCD where
  land : Bool
  a : Reg
  b : Reg
  c : Reg
  d : Reg
  deriving DecidableEq, Repr

structure XformF where
  h : BHdr
  a : Reg
  b : Reg
  deriving DecidableEq, Repr

/-- `VXPOS`: `perm` is `IMML`[23:0] (R129). -/
structure XposF where
  h : BHdr
  a : Reg
  b : Reg
  perm : BitVec 24
  deriving DecidableEq, Repr

/-- `CALLOC` (R153); `run` = none is the span form, else the register of the run word. -/
structure CallocF where
  land : Bool
  a : Reg
  run : Option Reg
  c : Reg
  d : Reg
  keep : Bool
  geom : Option Geom
  ty : TyF
  deriving DecidableEq, Repr

/-- `CTAG`; `tag` = none is `.clr` (R153). -/
structure CtagF where
  land : Bool
  a : Reg
  tag : Option Reg
  deriving DecidableEq, Repr

/-- Checksum modes of a Runner command (R137). -/
inductive SumMode where
  | none | sum | crc
  deriving DecidableEq, Repr

/-- `RCOPY` and `RFILL` (R137). -/
structure RunF where
  land : Bool
  a : Reg
  b : Reg
  c : Reg
  d : Reg
  mode : SumMode
  chn : Bool
  cmp : Bool
  seed : BitVec 32
  expect : BitVec 32
  deriving DecidableEq, Repr

/-- `RGATH` and `RSCAT`; elements are `2^w` bytes (R137). -/
structure RunXF where
  run : RunF
  w : Fin 9
  deriving DecidableEq, Repr

/-- `TZERO` (R232): `none` is `.b.auto`; otherwise mode B or D and E0. -/
structure TzeroF where
  land : Bool
  set : Option (Bool × BitVec 32)
  deriving DecidableEq, Repr

/-- What an `ARRIVE` stands for (R264). -/
inductive ArriveKind where
  | stream | run | trl
  deriving DecidableEq, Repr

/-- `TLBI` (R122). -/
inductive TlbiKind where
  | all | ctx (a : Reg) | page (a b : Reg) | range (a b c : Reg)
  deriving DecidableEq, Repr

/-! What the steps without a word are told (spec/95). Numbers are plain. -/

/-- A PCIe function or remote access kind (R373). -/
inductive Access where
  | read | write | atomic
  deriving DecidableEq, Repr

/-- Accesses of the host through a window (R368): reads, writes, and the AtomicOps. -/
inductive HostOp where
  | read | write | fetchAdd | swap | cas
  deriving DecidableEq, Repr

/-- The bodies of the Lodge's `INJECT` command (R344, R374). -/
structure InjectF where
  kind : Nat
  target : Nat
  off : Nat
  arg : Nat
  deriving DecidableEq, Repr

/-- What a write or an atomic from outside brings: its bytes, and whether they arrive poisoned (R109, R115, R117). -/
structure Payload where
  bytes : List Byte
  poisoned : Bool
  deriving DecidableEq, Repr

/-- An access to a register (R367, R373): the master's class, the address, and the length in bytes. -/
structure RegF where
  cls : Nat
  pa : Nat
  len : Nat
  deriving DecidableEq, Repr

/-- A turn of a Bandstand's Trellises: the oldest command whole, or the first rows or steps of it (R248, R355). -/
structure TrlTurn where
  band : Fin 64
  part : Option Nat
  deriving DecidableEq, Repr

/-- A write of the mask bit of a vector of a function (R369). -/
structure MsixF where
  fn : Fin 32
  mask : Bool
  deriving DecidableEq, Repr

/-- A signed boot image as it lies in a slot (R375, R376). -/
structure Image where
  version : Nat
  body : List Byte
  sig : List Byte
  deriving DecidableEq, Repr, Inhabited

inductive Instr where
  -- group 0: scalar integer (R295, R296)
  | add (x : S3) | addi (x : SI2) | sub (x : S3) | mul (x : S3) | mulh (k : MulhKind) (x : S3)
  | div (x : S3) | divu (x : S3) | rem (u : Bool) (x : S3)
  | and (x : S3) | or (x : S3) | xor (x : S3) | andn (x : S3)
  | shl (x : S3) | shr (x : S3) | sar (x : S3) | clz (x : S2) | popc (x : S2)
  | seq (x : S3) | slt (x : S3) | sltu (x : S3) | sel (x : S4)
  | min (u : Bool) (x : S3) | max (u : Bool) (x : S3) | li (x : L1) | la (x : L1)
  -- group 1: scalar floating point and memory (R297 to R299)
  | fadd (x : SF) | fsub (x : SF) | fmul (x : SF) | ffma (x : SF4) | fdiv (x : SF) | fsqrt (x : SF2)
  | fmin (x : SF) | fmax (x : SF) | fcmp (c : Cmp) (x : SF) | fcvt (x : SFC) | ld (x : SIM) | st (x : SIM)
  -- group 2: control (R300 to R318, R358)
  | br (x : B0) | beq (x : B2) | bne (x : B2) | blt (x : B2) | bge (x : B2) | bltu (x : B2) | bgeu (x : B2)
  | call (x : BC) | ret (x : S1) | jr (x : BJ) | loop (x : B1) | setvl (x : S2) | pfx (x : PfxF)
  | fork (x : ForkF) | rvz (x : S1) | span (x : S1) | yield (land : Bool) | halt (land : Bool) | exit (land : Bool)
  | csrr (land : Bool) (d : Reg) (csr : BitVec 16) | csrw (land : Bool) (csr : BitVec 16) (a : Reg)
  | trap (land : Bool) (imm : BitVec 32) | eret (land : Bool) | wait (x : S1) | nop (land : Bool)
  | preempt (land out : Bool) (d : Reg) (b : Fin 64) | preemptPark (x : S2) | preemptRenew (x : S2)
  | cres (x : S2) | kill (x : S2) | wdog (x : SI2)
  -- group 3: vector arithmetic (R196 to R200)
  | vadd (x : V3) | vsub (x : V3) | vmul (x : V3) | vfma (x : V3) | vfms (x : V3) | vfnma (x : V3) | vdiv (x : V3)
  | vsqrt (x : V2) | vrcp (x : V2) | vrsq (x : V2) | vexp2 (x : V2) | vlog2 (x : V2) | vtanh (x : V2)
  | vmin (x : V3) | vmax (x : V3) | vabs (x : V2) | vneg (x : V2) | vclamp (x : V3)
  | vmulw (x : V3) | vfmaw (x : V3) | vmulh (x : V3) | vand (x : V3) | vor (x : V3) | vxor (x : V3) | vnot (x : V2)
  | vshl (x : V3) | vshr (x : V3) | vsar (x : V3)
  | vaddImm (x : I2) | vsubImm (x : I2) | vmulImm (x : I2) | vfmaImm (x : I2) | vfmsImm (x : I2) | vfnmaImm (x : I2)
  | vminImm (x : I2) | vmaxImm (x : I2) | vandImm (x : I2) | vorImm (x : I2) | vxorImm (x : I2)
  | vshlImm (x : I2) | vshrImm (x : I2) | vsarImm (x : I2)
  -- group 4: conversion and moves (R201 to R209, R129)
  | vcvt (x : V2X) | vbq (nov : Bool) (x : V2X) | vbdq (scale : Bool) (x : V2X) | vclass (x : V2X)
  | vmov (x : V2) | vsel (x : V3) | viota (x : V1) | vcomp (x : V2) | vexpd (x : V2)
  | vgath (x : V2) | vgathFF (x : V2) | vscat (x : V2) | vxform (x : XformF) | vxpos (x : XposF) | vmovImm (x : I1)
  -- group 5: compares, masks, reductions (R210 to R216, R190, R191)
  | vcmp (c : Cmp) (x : VC) | vcmpImm (c : Cmp) (x : IC)
  | mand (x : M3) | mor (x : M3) | mxor (x : M3) | mandn (x : M3) | mnot (x : M2) | mmov (x : M2)
  | mset (x : M1) | mclr (x : M1) | mpop (vl : Bool) (x : MS) | mfirst (x : MS) | mbef (x : M2)
  | vred (op : RedOp) (x : VRs) | vscan (max : Bool) (x : V2) | own (x : S2) | vloc (x : VC)
  -- group 6: Coldframe and visibility (R153, R264, R272, R273)
  | calloc (x : CallocF) | cfree (x : EAD) | crenew (lost : Bool) (x : EABD) | cage (x : EAD) | clook (x : EAD)
  | ctag (x : CtagF) | ckeep (x : EABD) | lgate (x : EAD) | vbret (x : EAD)
  | bind (x : EABCD) | unbind (x : EABD) | acq (shared : Bool) (x : EAD) | rel (x : EAD)
  | binit (force : Bool) (x : EABD) | arrive (k : ArriveKind) (x : EAD) | await (x : EABD) | awaitGe (x : EABD)
  | fence (land : Bool) (sc : Scope) | shadow (x : EABD) | pub (x : EAD) | bar (land : Bool)
  | aadd (x : SF) | aand (x : SF) | aor (x : SF) | axor (x : SF) | amin (x : SF) | amax (x : SF) | axchg (x : SF)
  | acas (x : SF4) | vaadd (x : V3) | vamin (x : V3) | vamax (x : V3) | vacas (x : V3)
  -- group 7: Trellis, Runner, graph, pages (R232, R137, R165, R328, R120 to R122)
  | tatt (x : EAD) | tdet (land : Bool) | tclaim (x : ED) | trel (x : EA) | tlda (x : EABC) | tldb (x : EABC)
  | tzero (x : TzeroF) | tstep (x : EABC) | tdrain (x : EABCD) | tsave (x : EA) | trest (x : EA) | tstat (x : ED)
  | rcopy (x : RunF) | rfill (x : RunF) | rgath (x : RunXF) | rscat (x : RunXF) | rpark (x : EABD) | runpark (x : EABD)
  | rqwait (x : ED) | recf (land : Bool) (a : Option Reg) | garm (x : EABD) | grel (x : EAD)
  | pswap (x : EABD) | pswq (pair : Bool) (x : EAD) | tlbi (land : Bool) (k : TlbiKind)
  -- the steps that no word names (spec/95); a Bandstand is named by its number
  | nodeStage (b : Fin 64) (node : Nat) | nodeLaunch | nodeComplete (node : Nat) | headAgeing (q : Fin 256)
  | arbourPreempt | watchdogExpiry (q : Fin 256) | systemEventEntry | trapEntry (b : Fin 64)
  | dataFault (b : Fin 64) (seq plot : Nat) | stripRewind (b : Fin 64)
  | checkingLaneMismatch (b : Fin 64) (seq plot : Nat)
  | streamPreemption (b : Fin 64) (out : Bool) | streamResume (entry : Nat) | contextKill (ctx : Nat)
  | elementGroupPerform (b : Fin 64) (seq plot : Nat)
  | pullRequest (b : Fin 64) (seq plot group : Nat) | pullResponse (b : Fin 64) (seq plot group : Nat)
  | pullRetry (b : Fin 64) (seq plot group : Nat) | horizonUpdate (b : Fin 64)
  | requestPacket (b : Fin 64) (seq plot group : Nat) | farReturn (b : Fin 64) (seq plot group : Nat)
  | writePacket (b : Fin 64) (key : Nat)
  | remoteAccess (source : Nat) (kind : Access) (pa : Nat) (op : Nat) (data : Payload) (len : Nat)
  | remoteAnswer (b : Fin 64) (seq elem : Nat)
  | runnerLine (b : Fin 64) (cmd line : Nat) | runnerComplete (b : Fin 64) (cmd : Nat)
  | queuedArrival (b : Fin 64) (trl : Bool) | trellisComplete (b : TrlTurn)
  | acqGrant (b : Fin 64) | waitWake (b : Fin 64)
  | swapLineExchange (q : Fin 64) | swapFlip (q : Fin 64)
  | frameZeroed (ctx slot : Nat) | keeperRenewal (ctx slot : Nat) | overtemp (garden : Fin 4)
  | railDown (rail : Fin 24) | railUp (rail : Fin 24)
  | retpend (bus : Nat) | busFail (bus : Nat) | zynfyPortChange (port : Fin 48) (up : Bool)
  | hostBarAccess (fn : Fin 32) (bar0 : Bool) (op : HostOp) (off : Nat) (data : Payload) (len : Nat)
  | hostFetchadd (fn : Fin 32) (off : Nat) (addend : BitVec 32) | msixUnmask (fn : MsixF) (vec : Nat)
  | feataWrite (v : Word) | chpalWrite (ch : Fin 256) (k : Fin 14) (v : Word) | accessTableWrite (cls pa : Nat) (v : Word)
  | registerWrite (pa : RegF) (v : Option Word)
  | readSensors | readErrorLog (first : Option Nat) | reset (domain : Nat)
  | firmwareStage (slot : Nat) (off : Nat) (data : List Byte) | firmwareCommit (slot : Nat)
  | setPowerCap (watts : Nat) | inject (x : InjectF) | attest (nonce : List Byte)
  | romBoot | stage1Verify | deviceFirmwareInit | pavilionStart
  | spanWideReduction (b : Fin 64) (seq : Nat)
  deriving DecidableEq, Repr

end Sys2Proof
end

