-- ==== Sys2Proof/Config.lean ====
section
/-! DEFINITION. What the spec leaves open: free values, which nothing in Lean can evaluate, and the constants
that an implementation fixes. Each is named in notes/assumptions. -/

namespace Sys2Proof.Config

/-- `EADDR` of a cause that names no address (R348 gives none for `ILLEGAL`, `PRIV`, `MASKCAP`): a fresh value for
each trap entry, by a counter of State (notes/assumptions/11.md, DESIGN CHOICE). -/
opaque freeAddr : Nat → Word

/-- The result of an empty reduction whose type nothing resolves (R27; notes/assumptions/16.md, DESIGN CHOICE), by the same counter. -/
opaque freeResult : Nat → Word

/-- What an integer form stores where the exact value of its result is no whole number, or NaN, as a block source may
make it (R64, R196 name no such value): by the width and the value as m·2^e, none for NaN
(notes/assumptions/78.md, DESIGN CHOICE). -/
opaque freeWhole : Nat → Option (Int × Int) → Nat

/-- The identifier that a stream would give an object as its exclusive holder (R262): by the stream's number
(notes/assumptions/10.md, DESIGN CHOICE). -/
opaque freeId : Nat → BitVec 32

/-- A byte that a refused read delivers, poisoned, to an engine or a peer (R117, R373): by its key (notes/assumptions/29.md and
105.md, DESIGN CHOICE). -/
opaque refusedByte : Nat → BitVec 8

/-- What a sensor shows when it is read (R374): 0 to 3 the junction temperature of a Garden, 4 the module's power; by the
counter of free values (notes/assumptions/8.md, DESIGN CHOICE). -/
opaque sensor : Nat → Nat → Nat

/-- A digit of a function of R92 that no precision of the model's list decides; never reached by the known
arguments (notes/assumptions/12.md, DESIGN CHOICE). -/
opaque undecided : Nat → Nat

/-- Whether the device `dev` grants this device an access of the kind at an address of its memory (R117): its
access table is not part of this machine (notes/assumptions/13.md, DESIGN CHOICE). -/
opaque remoteGrants : Nat → Nat → Access → Nat → Bool

/-- The signature over an attestation report (R377), 384 bytes long: the key never leaves the part (notes/assumptions/14.md, DESIGN CHOICE). -/
opaque attestSignature : List Byte → Vector Byte 384

/-- The certificate of the identity key, as flash holds it (R377; notes/assumptions/14.md, DESIGN CHOICE). -/
opaque certificate : List Byte

/-- The fused hash of the signing key and the fused security counter (R375; notes/assumptions/14.md, DESIGN CHOICE). -/
opaque fusedKeyHash : List Byte
opaque fusedCounter : Nat

/-- How the bytes staged for a flash slot divide into the signing key, stage 1, device firmware and Pavilion OS (R374,
R375; notes/assumptions/14.md, DESIGN CHOICE). -/
opaque slotImages : List (Nat × Byte) → List Byte × Image × Image × Image

/-- The guaranteed retention in ns that bring-up characterises, less the least value that R148 allows
(notes/assumptions/5.md, DESIGN CHOICE). -/
opaque retentionSpare : Nat

/-- The holes that bring-up's bus tests find (R171, R375), as section numbers (notes/assumptions/5.md, DESIGN CHOICE). -/
opaque bringUpHoles : List Nat

/-- Fused at manufacture: whether this is a development part, which offers error injection (R370). -/
opaque developmentPart : Bool

/-- How Pavilion OS starts the supervisor stream (R375, step 5): its entry, its argument, its context's page-table
root and its span entry (notes/assumptions/15.md, DESIGN CHOICE). -/
opaque supervisorEntry : Word
opaque supervisorArg : Word
opaque supervisorRoot : Nat
opaque supervisorSpan : Nat

/-- The HDM decoder configuration (R115): the CXL port, 0 to 7, that serves an address (notes/assumptions/13.md, DESIGN CHOICE). -/
opaque cxlPort : Nat → Nat

end Sys2Proof.Config
end

