-- ==== Sys2Proof/WellFormed.lean ====
section
/-! DEFINITION. When an instruction's encoding is legal beyond the shape of its class (R10, R40):
the types a form accepts (R92, R194, R200 to R203, R272, R297), the operands (R21, R23) and the
modifier rules of single forms. A word that fails a check raises `ILLEGAL`. -/

namespace Sys2Proof

namespace Ty

/-- Width of an element in bits (R67). -/
def width : Ty → Nat
  | i4 | n4 | e2m1 => 4
  | e3m2 | e2m3 => 6
  | i8 | n8 | e4m3 | e5m2 | b8 _ _ _ => 8
  | i16 | n16 | f16 | bf16 => 16
  | i32 | n32 | f32 => 32
  | i64 | n64 | f64 => 64

def isInt : Ty → Bool
  | i8 | n8 | i16 | n16 | i32 | n32 | i64 | n64 | i4 | n4 => true
  | _ => false

def isSigned : Ty → Bool
  | i8 | i16 | i32 | i64 | i4 => true
  | _ => false

def isFloat (t : Ty) : Bool := !t.isInt

def isB8 : Ty → Bool
  | b8 _ _ _ => true
  | _ => false

/-- Types narrower than 8 bits (R23). -/
def subByte (t : Ty) : Bool := t.width < 8

/-- The element types that a block geometry may hold (R73). -/
def mxCapable : Ty → Bool
  | e2m1 | e2m3 | e3m2 | e4m3 | e5m2 | i8 => true
  | _ => false

def isMxFloat : Ty → Bool
  | e2m1 | e2m3 | e3m2 | e4m3 | e5m2 => true
  | _ => false

/-- `f32`, `f16`, `bf16`: the types of the functions of R92. -/
def isR92 : Ty → Bool
  | f32 | f16 | bf16 => true
  | _ => false

def isIeee : Ty → Bool
  | f64 | f32 | f16 | bf16 => true
  | _ => false

/-- Memory types of `LD` and `ST`: codes 1 to 8 and 16 to 19 (R299). -/
def isScalarMem : Ty → Bool
  | i8 | n8 | i16 | n16 | i32 | n32 | i64 | n64 | f64 | f32 | f16 | bf16 => true
  | _ => false

/-- Codes 5 to 8 (R272). -/
def isWide : Ty → Bool
  | i32 | n32 | i64 | n64 => true
  | _ => false

/-- Types of the atomics: codes 5 to 8, 16 and 17 (R272). -/
def isAtomic : Ty → Bool
  | i32 | n32 | i64 | n64 | f64 | f32 => true
  | _ => false

end Ty

/-- The rows of R194, R200 and R273: what a form accepts in `TY1` and `TY2`. -/
inductive TyRule where
  | arith | r92 (f64 : Bool) | minmax | any | widen | ints | same | cvt | bq | bdq | cls | cmp | atom
  deriving DecidableEq, Repr

namespace TyRule

/-- `TY2` and `TY1` of the widening forms (R200). -/
def widens : Ty → Ty → Bool
  | .i4, .i8 | .i8, .i16 | .i16, .i32 | .i32, .i64 => true
  | .n4, .n8 | .n8, .n16 | .n16, .n32 | .n32, .n64 => true
  | .f16, .f32 | .bf16, .f32 | .f32, .f64 => true
  | t2, t1 => (t2.isMxFloat || t2.isB8) && t1.isR92

/-- Types that the form accepts in `TY1`. -/
def ok1 : TyRule → Ty → Bool
  | arith, _ | minmax, _ | any, _ | same, _ | cvt, _ | cmp, _ => true
  | r92 wide, t => t.isR92 || (wide && t == .f64)
  | widen, t => [Ty.i8, .i16, .i32, .i64, .n8, .n16, .n32, .n64, .f16, .bf16, .f32, .f64].contains t
  | ints, t => t.isInt
  | bq, t => t.mxCapable
  | bdq, t => t.isIeee
  | cls, t => [Ty.i16, .n16, .i32, .n32, .i64, .n64].contains t
  | atom, t => t.isAtomic

/-- Types that the form accepts in `TY2`. -/
def ok2 : TyRule → Ty → Bool
  | arith, _ | minmax, _ | any, _ | same, _ | cvt, _ | cmp, _ => true
  | r92 wide, t => t.isR92 || (wide && t == .f64)
  | widen, t => [Ty.i4, .i8, .i16, .i32, .n4, .n8, .n16, .n32, .f16, .bf16, .f32].contains t
      || t.isMxFloat || t.isB8
  | ints, t => t.isInt
  | bq, t => t.isR92
  | bdq, t => t.mxCapable
  | cls, t => t.isFloat
  | atom, t => t.isAtomic

/-- Pairs of the two types that the form accepts, judged on explicit types before decode is done and
on resolved types before issue (R194). -/
def okPair : TyRule → Ty → Ty → Bool
  | arith, t1, t2 => t1.isFloat || t2.isInt
  | minmax, t1, t2 => t1.isFloat == t2.isFloat
  | r92 _, t1, t2 | same, t1, t2 | atom, t1, t2 => t1 == t2
  | widen, t1, t2 => widens t2 t1
  | any, _, _ | ints, _, _ | cvt, _, _ | bq, _, _ | bdq, _, _ | cls, _, _ | cmp, _, _ => true

/-- The check of the written types: `t2` = none means that the form has no second type, or that its
field is 0. -/
def okFields (r : TyRule) (t1 t2 : TyF) : Bool :=
  (t1.all r.ok1) && (t2.all r.ok2) &&
    (match t1, t2 with
     | some x, some y => r.okPair x y
     | _, _ => true)

end TyRule

namespace Opnd

/-- R21, R23: modes 1 and 3 take a base below 63 and no explicit sub-byte type. -/
def ok (o : Opnd) (t : TyF) : Bool :=
  match o.mode with
  | .unit | .once => true
  | .stride | .indexed => o.base.val != 63 && !(t.any Ty.subByte)

end Opnd

/-- The type field that governs operand B: `TY2`, or `TY1` when `TY2` is 0 (R17, R25). -/
def tyB (t1 t2 : TyF) : TyF := if t2.isSome then t2 else t1

def V3.ok (r : TyRule) (x : V3) : Bool :=
  r.okFields x.ty1 x.ty2 && x.d.ok x.ty1 && x.a.ok x.ty1 && x.b.ok (tyB x.ty1 x.ty2)

/-- `VMULW` and `VFMAW`: both sources are of type `TY2`, and 0 is illegal (R194, R200). -/
def V3.okWiden (x : V3) : Bool :=
  TyRule.widen.okFields x.ty1 x.ty2 && x.ty2.isSome && x.d.ok x.ty1 && x.a.ok x.ty2 && x.b.ok x.ty2

def V2.ok (r : TyRule) (x : V2) : Bool :=
  r.okFields x.ty1 none && x.d.ok x.ty1 && x.a.ok x.ty1

def V2X.ok (r : TyRule) (x : V2X) : Bool :=
  r.okFields x.ty1 x.ty2 && x.d.ok x.ty1 && x.a.ok x.ty2

def V1.ok (x : V1) : Bool := x.d.ok x.ty1

def VC.ok (x : VC) : Bool := x.a.ok x.ty1 && x.b.ok (tyB x.ty1 x.ty2)

def I2.ok (r : TyRule) (x : I2) : Bool :=
  r.okFields x.ty1 none && x.d.ok x.ty1 && x.a.ok x.ty1

def RunF.ok (x : RunF) : Bool :=
  (x.mode != .none || (!x.chn && !x.cmp)) &&
  (x.seed == 0 || (!x.chn && x.mode != .none)) &&
  (x.expect == 0 || x.cmp)

def RunXF.ok (x : RunXF) : Bool := x.run.ok && x.run.c.val != 63

def CallocF.ok (x : CallocF) : Bool :=
  x.geom.isNone || x.ty.any Ty.mxCapable

/-- `E0` of `TZERO` lies in [-2048, 2047] (R232). -/
def TzeroF.ok (x : TzeroF) : Bool :=
  match x.set with
  | none => true
  | some (_, e0) => -2048 ≤ e0.toInt && e0.toInt ≤ 2047

/-- The checks of every form. The steps without a word have no encoding, and nothing to check. -/
def Instr.wf : Instr → Bool
  | add _ | addi _ | sub _ | mul _ | mulh _ _ | div _ | divu _ | rem _ _ | and _ | or _ | xor _ | andn _
  | shl _ | shr _ | sar _ | clz _ | popc _ | seq _ | slt _ | sltu _ | sel _ | min _ _ | max _ _ | li _ | la _ => true
  | fadd x | fsub x | fmul x | fdiv x | fmin x | fmax x | fcmp _ x => x.ty.isIeee
  | ffma x => x.ty.isIeee
  | fsqrt x => x.ty.isIeee
  | fcvt x => x.src.isIeee && (x.ty.isIeee || x.ty.isWide)
  | ld x | st x => x.ty.isScalarMem
  | br _ | beq _ | bne _ | blt _ | bge _ | bltu _ | bgeu _ | call _ | ret _ | jr _ | loop _ | setvl _ | pfx _
  | fork _ | rvz _ | span _ | yield _ | halt _ | exit _ | csrr _ _ _ | csrw _ _ _ | trap _ _ | eret _ | wait _
  | nop _ | preempt _ _ _ _ | preemptPark _ | preemptRenew _ | cres _ | kill _ | wdog _ => true
  | vadd x | vsub x | vmul x | vfma x | vfms x | vfnma x => x.ok .arith
  | vdiv x => x.ok (.r92 true)
  | vsqrt x => x.ok (.r92 true)
  | vrcp x | vrsq x | vexp2 x | vlog2 x | vtanh x => x.ok (.r92 false)
  | vmin x | vmax x | vclamp x => x.ok .minmax
  | vabs x | vneg x => x.ok .any
  | vmulw x | vfmaw x => x.okWiden
  | vmulh x | vshl x | vshr x | vsar x => x.ok .ints
  | vand x | vor x | vxor x => x.ok .same
  | vnot x => x.ok .any
  | vaddImm x | vsubImm x | vmulImm x | vfmaImm x | vfmsImm x | vfnmaImm x
  | vminImm x | vmaxImm x | vandImm x | vorImm x | vxorImm x => x.ok .any
  | vshlImm x | vshrImm x | vsarImm x => x.ok .ints
  | vcvt x => x.ok .cvt
  | vbq _ x => x.ok .bq && x.g.isNone
  | vbdq _ x => x.ok .bdq
  | vclass x => x.ok .cls
  | vmov x | vcomp x | vexpd x => x.ok .any
  | vsel x => x.ok .same
  | viota x => x.ok
  | vgath x | vgathFF x => x.ok .any && x.a.mode == .indexed
  | vscat x => x.ok .any && x.d.mode == .indexed
  | vxform _ | vxpos _ => true
  | vmovImm x => x.d.ok x.ty1
  | vcmp _ x => x.ok
  | vcmpImm _ x => x.a.ok x.ty1
  | mand _ | mor _ | mxor _ | mandn _ | mnot _ | mmov _ | mset _ | mclr _ | mpop _ _ | mfirst _ | mbef _ => true
  | vred op x =>
    x.a.ok x.ty1 && (match op with
      | .add | .min | .max => true
      | .and | .or | .xor => x.ty1.all Ty.isInt)
  | vscan _ x => x.ok .any
  | own _ => true
  | vloc x => x.ok
  | calloc x => x.ok
  | cfree _ | crenew _ _ | cage _ | clook _ | ctag _ | ckeep _ | lgate _ | vbret _ | bind _ | unbind _ | acq _ _
  | rel _ | binit _ _ | arrive _ _ | await _ | awaitGe _ | fence _ _ | shadow _ | pub _ | bar _ => true
  | aadd x | amin x | amax x | axchg x => x.ty.isAtomic
  | aand x | aor x | axor x => x.ty.isWide
  | acas x => x.ty.isAtomic
  | vaadd x | vamin x | vamax x | vacas x => x.ok .atom
  | tatt _ | tdet _ | tclaim _ | trel _ | tlda _ | tldb _ | tstep _ | tdrain _ | tsave _ | trest _ | tstat _ => true
  | tzero x => x.ok
  | rcopy x | rfill x => x.ok
  | rgath x | rscat x => x.ok
  | rpark _ | runpark _ | rqwait _ | recf _ _ | garm _ | grel _ | pswap _ | pswq _ _ | tlbi _ _ => true
  | nodeStage _ _ | nodeLaunch | nodeComplete _ | headAgeing _ | arbourPreempt | watchdogExpiry _ | systemEventEntry
  | trapEntry _ | dataFault _ _ _ | stripRewind _ | checkingLaneMismatch _ _ _ | streamPreemption _ _
  | streamResume _ | contextKill _ | elementGroupPerform _ _ _ | pullRequest _ _ _ _ | pullResponse _ _ _ _
  | pullRetry _ _ _ _ | horizonUpdate _ | requestPacket _ _ _ _ | farReturn _ _ _ _ | writePacket _ _
  | remoteAccess _ _ _ _ _ _ | remoteAnswer _ _ _ | runnerLine _ _ _ | runnerComplete _ _ | queuedArrival _ _
  | trellisComplete _ | acqGrant _ | waitWake _ | swapLineExchange _ | swapFlip _ | frameZeroed _ _
  | keeperRenewal _ _ | overtemp _ | railDown _ | railUp _ | retpend _ | busFail _ | zynfyPortChange _ _
  | hostBarAccess _ _ _ _ _ _ | hostFetchadd _ _ _ | msixUnmask _ _ | feataWrite _ | chpalWrite _ _ _
  | accessTableWrite _ _ _ | registerWrite _ _ | readSensors | readErrorLog _ | reset _ | firmwareStage _ _ _
  | firmwareCommit _ | setPowerCap _ | inject _ | attest _ | romBoot | stage1Verify | deviceFirmwareInit
  | pavilionStart | spanWideReduction _ _ => true

/-- Whether the row of the table has a word: the forms of R41, not the steps of spec/95. -/
def Instr.isWord : Instr → Bool
  | nodeStage _ _ | nodeLaunch | nodeComplete _ | headAgeing _ | arbourPreempt | watchdogExpiry _ | systemEventEntry
  | trapEntry _ | dataFault _ _ _ | stripRewind _ | checkingLaneMismatch _ _ _ | streamPreemption _ _
  | streamResume _ | contextKill _ | elementGroupPerform _ _ _ | pullRequest _ _ _ _ | pullResponse _ _ _ _
  | pullRetry _ _ _ _ | horizonUpdate _ | requestPacket _ _ _ _ | farReturn _ _ _ _ | writePacket _ _
  | remoteAccess _ _ _ _ _ _ | remoteAnswer _ _ _ | runnerLine _ _ _ | runnerComplete _ _ | queuedArrival _ _
  | trellisComplete _ | acqGrant _ | waitWake _ | swapLineExchange _ | swapFlip _ | frameZeroed _ _
  | keeperRenewal _ _ | overtemp _ | railDown _ | railUp _ | retpend _ | busFail _ | zynfyPortChange _ _
  | hostBarAccess _ _ _ _ _ _ | hostFetchadd _ _ _ | msixUnmask _ _ | feataWrite _ | chpalWrite _ _ _
  | accessTableWrite _ _ _ | registerWrite _ _ | readSensors | readErrorLog _ | reset _ | firmwareStage _ _ _
  | firmwareCommit _ | setPowerCap _ | inject _ | attest _ | romBoot | stage1Verify | deviceFirmwareInit
  | pavilionStart | spanWideReduction _ _ => false
  | _ => true

end Sys2Proof
end

