-- ==== Sys2Proof/Machine/Numbers.lean ====
section
/-! DEFINITION. Numbers (03): decoding a pattern to its exact value, exact arithmetic, and the one rounding that
encodes a result (R64 to R91). -/

namespace Sys2Proof.Machine

/-! ### Flags (R85) -/

abbrev Flags := BitVec 8
def fNV : Flags := 1
def fDZ : Flags := 2
def fOF : Flags := 4
def fUF : Flags := 8
def fNX : Flags := 16
def fALN : Flags := 32
def fUFL : Flags := 64
def fOVF : Flags := 128

/-! ### Formats (R67 to R70) -/

/-- Trailing significand bits. -/
def mantBits : Ty → Nat
  | .f64 => 52 | .f32 => 23 | .f16 => 10 | .bf16 => 7 | .e5m2 => 2 | .e4m3 => 3 | .e3m2 => 2 | .e2m3 => 3 | .e2m1 => 1
  | .b8 _ _ p => p.val
  | _ => 0

def bias : Ty → Int
  | .f64 => 1023 | .f32 => 127 | .f16 => 15 | .bf16 => 127 | .e5m2 => 15 | .e4m3 => 7 | .e3m2 => 3 | .e2m3 => 1 | .e2m1 => 1
  | .b8 false _ p => (2 ^ (6 - p.val) : Nat)
  | .b8 true _ p => (2 ^ (7 - p.val) : Nat)
  | _ => 0

def isUnsignedF : Ty → Bool
  | .b8 true _ _ => true
  | _ => false

/-- The code of the largest finite magnitude (R67). -/
def maxCode : Ty → Nat
  | .f64 => 2047 * 2 ^ 52 - 1 | .f32 => 255 * 2 ^ 23 - 1 | .f16 => 31 * 2 ^ 10 - 1 | .bf16 => 255 * 2 ^ 7 - 1
  | .e5m2 => 31 * 4 - 1 | .e4m3 => 0x7E | .e3m2 => 31 | .e2m3 => 31 | .e2m1 => 7
  | .b8 false false _ => 0x7E | .b8 false true _ => 0x7F | .b8 true false _ => 0xFD | .b8 true true _ => 0xFE
  | _ => 0

/-- The canonical NaN, where the type has one (R66, R67). -/
def nanCode : Ty → Option Nat
  | .f64 => some 0x7FF8000000000000 | .f32 => some 0x7FC00000 | .f16 => some 0x7E00 | .bf16 => some 0x7FC0
  | .e5m2 => some 0x7E | .e4m3 => some 0x7F
  | .b8 false _ _ => some 0x80 | .b8 true _ _ => some 0xFF
  | _ => none

/-- The code of an infinity of the given sign, where the type has it (R67, R70). -/
def infCode (t : Ty) (neg : Bool) : Option Nat :=
  match t with
  | .f64 | .f32 | .f16 | .bf16 | .e5m2 => some (maxCode t + 1 + (if neg then 2 ^ (t.width - 1) else 0))
  | .b8 false false _ => some (if neg then 0xFF else 0x7F)
  | .b8 true false _ => if neg then none else some 0xFE
  | _ => none

def hasNegZero (t : Ty) : Bool := t.isFloat && !t.isB8

/-! ### Exact values -/

/-- A decoded value (R64): `fin neg m e` is ±m·2^e, and m = 0 keeps the sign of a zero. -/
inductive Num where
  | nan
  | inf (neg : Bool)
  | fin (neg : Bool) (m : Nat) (e : Int)
  deriving DecidableEq, Repr

namespace Num

def ofInt (x : Int) : Num := .fin (x < 0) x.natAbs 0

def zero : Num := .fin false 0 0

def isNaN : Num → Bool
  | nan => true
  | _ => false

def isInf : Num → Bool
  | inf _ => true
  | _ => false

def isZero : Num → Bool
  | fin _ m _ => m == 0
  | _ => false

def neg? : Num → Bool
  | nan => false
  | inf n => n
  | fin n _ _ => n

def negate : Num → Num
  | nan => nan
  | inf n => inf !n
  | fin n m e => fin (!n) m e

def abs : Num → Num
  | nan => nan
  | inf _ => inf false
  | fin _ m e => fin false m e

/-- The value in units of `2^u`, when it is a whole number of them. -/
def scaled (u : Int) : Num → Int
  | fin n m e => (if n then -1 else 1) * ((m * 2 ^ (e - u).toNat : Nat) : Int)
  | _ => 0

/-- The whole number that a value is, if it is one. -/
def whole : Num → Option Int
  | fin n m e =>
    let x : Int := if n then -(m : Int) else m
    if 0 ≤ e then some (x * (2 ^ e.toNat : Nat))
    else if m % 2 ^ (-e).toNat = 0 then some (x / (2 ^ (-e).toNat : Nat)) else none
  | _ => none

/-- The greatest whole number of units of `2^u` that is not above a finite value. -/
def floorAt (u : Int) : Num → Int
  | fin n m e =>
    let x : Int := if n then -(m : Int) else m
    if u ≤ e then x * (2 ^ (e - u).toNat : Nat) else x / (2 ^ (u - e).toNat : Nat)
  | _ => 0

/-- Compare two numbers that are not NaN: negative, zero or positive as `a` is below, equal to or above `b`;
`-0` equals `+0`. -/
def cmp (a b : Num) : Int :=
  match a, b with
  | inf x, inf y => if x == y then 0 else if x then -1 else 1
  | inf x, _ => if x then -1 else 1
  | _, inf y => if y then 1 else -1
  | fin n m e, fin n' m' e' =>
    let u := min e e'
    (fin n m e).scaled u - (fin n' m' e').scaled u
  | nan, _ | _, nan => 0

def lt (a b : Num) : Bool := !a.isNaN && !b.isNaN && a.cmp b < 0
def le (a b : Num) : Bool := !a.isNaN && !b.isNaN && a.cmp b ≤ 0
def eq (a b : Num) : Bool := !a.isNaN && !b.isNaN && a.cmp b == 0

/-- Value order with `-0` below `+0` (R197). -/
def below (a b : Num) : Bool := a.cmp b < 0 || (a.isZero && b.isZero && a.neg? && !b.neg?)

/-- The smaller by R197. -/
def minR (a b : Num) : Num :=
  if a.isNaN then b else if b.isNaN then a else if b.below a then b else a

/-- The larger by R197. -/
def maxR (a b : Num) : Num :=
  if a.isNaN then b else if b.isNaN then a else if a.below b then b else a

/-- `VCLAMP` for signed and floating types: `a` limited to [-|b|, +|b|] (R197). -/
def clampR (a b : Num) : Num :=
  if a.isNaN || b.isNaN then nan
  else if (b.abs).below a then b.abs else if a.below (b.abs.negate) then b.abs.negate else a

/-- An exact sum; the sign of a zero sum follows R89. -/
def add (rm : RMode) (a b : Num) : Num × Flags :=
  match a, b with
  | inf x, inf y => if x == y then (inf x, 0) else (nan, fNV)
  | nan, _ | _, nan => (nan, 0)
  | inf x, _ => (inf x, 0)
  | _, inf y => (inf y, 0)
  | fin n m e, fin n' m' e' =>
    let u := min e e'
    let v := (fin n m e).scaled u + (fin n' m' e').scaled u
    if v = 0 then
      (fin ((n && n' && m == 0 && m' == 0) || (rm == .rdn && !(m == 0 && m' == 0 && !n && !n'))) 0 0, 0)
    else (fin (v < 0) v.natAbs u, 0)

def sub (rm : RMode) (a b : Num) : Num × Flags := add rm a b.negate

/-- An exact product. -/
def mul (a b : Num) : Num × Flags :=
  match a, b with
  | nan, _ | _, nan => (nan, 0)
  | inf x, fin n m _ => if m = 0 then (nan, fNV) else (inf (x != n), 0)
  | fin n m _, inf y => if m = 0 then (nan, fNV) else (inf (n != y), 0)
  | inf x, inf y => (inf (x != y), 0)
  | fin n m e, fin n' m' e' => (fin (n != n') (m * m') (e + e'), 0)

/-- A fused product and sum, exact (R196). -/
def fma (rm : RMode) (a b c : Num) : Num × Flags :=
  let p := mul a b
  let s := add rm p.1 c
  (s.1, p.2 ||| s.2)

end Num

/-! ### Decode (R68 to R70, R75) -/

/-- `Decode(ty, bits)`. -/
def decodeTy (t : Ty) (n : Nat) : Num :=
  if t.isInt then
    if t.isSigned then Num.ofInt (signed t.width n) else Num.ofInt (n % 2 ^ t.width : Nat)
  else
    let n := n % 2 ^ t.width
    let uns := isUnsignedF t
    let neg := !uns && bit n (t.width - 1)
    let c := if uns then n else n % 2 ^ (t.width - 1)
    if t.isB8 && nanCode t == some n then .nan
    else if infCode t neg == some n then .inf neg
    else if c > maxCode t then .nan
    else
      let mb := mantBits t
      let e := c / 2 ^ mb
      let f := c % 2 ^ mb
      if e = 0 then .fin neg f (1 - bias t - mb) else .fin neg (2 ^ mb + f) (e - bias t - mb)

/-- The value of a scale byte (R73). -/
def decodeScale (g : Geom) (c : Nat) : Num :=
  match g with
  | .mx32 => if c % 256 = 255 then .nan else .fin false 1 ((c % 256 : Nat) - 127)
  | .mx16 => if c % 256 ≥ 128 then .nan else decodeTy .e4m3 (c % 128)

/-- `DecodeBlock` (R75); an `i8` element means its value times 2^-6. -/
def decodeBlock (g : Geom) (t : Ty) (scale n : Nat) : Num :=
  let s := decodeScale g scale
  let v := match t, decodeTy t n with
    | .i8, .fin neg m e => .fin neg m (e - 6)
    | _, v => v
  if s.isNaN || v.isNaN then .nan
  else if s.isZero then
    if v.isInf then .nan else .fin (v.neg? && hasNegZero t) 0 0
  else (Num.mul s v).1

/-! ### Exact results and their rounding (R76 to R83) -/

/-- The magnitude of a nonzero result: floor of its base-2 logarithm, and for each k the floor of the magnitude
times `2^k` with whether that product is a whole number. -/
structure Mag where
  lg : Int
  dig : Int → Nat × Bool

inductive Exact where
  | nan
  | inf (neg : Bool)
  | zero (neg : Bool)
  | val (neg : Bool) (m : Mag)

/-- `floor(a / b * 2^k)` and whether it is exact. -/
def divScaled (a b : Nat) (k : Int) : Nat × Bool :=
  let n := a * 2 ^ k.toNat
  let d := b * 2 ^ (-k).toNat
  (n / d, n % d == 0)

/-- The magnitude m·2^e of a nonzero m. -/
def magDyadic (m : Nat) (e : Int) : Mag := ⟨(Nat.log2 m : Int) + e, fun k => divScaled m 1 (e + k)⟩

/-- The magnitude of (m/m')·2^e, both nonzero. -/
def magQuot (m m' : Nat) (e : Int) : Mag :=
  let l : Int := (Nat.log2 m : Int) - Nat.log2 m'
  let below := decide (m * 2 ^ (-l).toNat < m' * 2 ^ l.toNat)
  ⟨(if below then l - 1 else l) + e, fun k => divScaled m m' (e + k)⟩

/-- An exact value reduced modulo 2^w (R91, R196); a value that is no whole number is left open
(notes/assumptions/78.md, DESIGN CHOICE). -/
def wrapNum (w : Nat) (x : Num) : Nat :=
  match x.whole, x with
  | some v, _ => wrap w v
  | none, .fin n m e => Config.freeWhole w (some (if n then -(m : Int) else m, e)) % 2 ^ w
  | none, _ => Config.freeWhole w none % 2 ^ w

def Num.exact : Num → Exact
  | .nan => .nan
  | .inf n => .inf n
  | .fin n m e => if m = 0 then .zero n else .val n (magDyadic m e)

/-- What `Encode` rounds with: the mode, the saturation setting and the stochastic word (R76, R77, R80). -/
structure RCtl where
  rm : RMode
  sat : Nat
  h : Nat
  deriving DecidableEq, Repr

/-- The stochastic rounding word (R77). -/
def srHash (seed : BitVec 32) (n i : Nat) : Nat :=
  let x : BitVec 32 := seed ^^^ (BitVec.ofNat 32 n * 0x9E3779B9#32) ^^^ (BitVec.ofNat 32 i * 0x85EBCA6B#32)
  let x := x ^^^ (x >>> 16)
  let x := x * 0x7FEB352D#32
  let x := x ^^^ (x >>> 15)
  let x := x * 0x846CA68B#32
  let x := x ^^^ (x >>> 16)
  x.toNat

/-- Whether `RoundGrid` takes the step away from zero: `lo` the floor, `fr` the first 32 bits of the fraction,
`ex` whether nothing follows them (R76). -/
def roundUp (rm : RMode) (h : Nat) (neg : Bool) (lo fr : Nat) (ex : Bool) : Bool :=
  let half := 2 ^ 31
  match rm with
  | .rne => fr > half || (fr == half && (!ex || lo % 2 == 1))
  | .rna => fr ≥ half
  | .rtz => false
  | .rup => !neg
  | .rdn => neg
  | .sr => fr + h ≥ 2 ^ 32
  | .rto => lo % 2 == 0

/-- `RoundGrid` at quantum `2^qe`: the rounded multiple, and whether rounding changed the value. -/
def roundGrid (c : RCtl) (neg : Bool) (m : Mag) (qe : Int) : Nat × Bool :=
  let t := m.dig (32 - qe)
  let lo := t.1 / 2 ^ 32
  let fr := t.1 % 2 ^ 32
  if fr = 0 ∧ t.2 = true then (lo, false)
  else (lo + (if roundUp c.rm c.h neg lo fr t.2 then 1 else 0), true)

/-- The pattern of a magnitude code with a sign; types without -0 have one zero (R67, R81). -/
def signCode (t : Ty) (neg : Bool) (code : Nat) : Nat :=
  if neg && !isUnsignedF t && (code != 0 || hasNegZero t) then code + 2 ^ (t.width - 1) else code

/-- A negative value in an unsigned binary8 type (R81). -/
def negUnsigned (t : Ty) (sat : Nat) : Nat × Flags :=
  if sat = 0 then ((nanCode t).getD 0, fNV) else (0, fNV)

/-- An infinite candidate or result (R80, R81). -/
def storeInf (t : Ty) (neg : Bool) (sat : Nat) : Nat × Flags :=
  if neg && isUnsignedF t then negUnsigned t sat
  else if sat = 0 then
    match infCode t neg, nanCode t with
    | some c, _ => (c, 0)
    | none, some n => (n, fNV)
    | none, none => (signCode t neg (maxCode t), fOF ||| fNX)
  else (signCode t neg (maxCode t), fOF ||| fNX)

/-- Whether an overflow of the sign gives an infinite candidate (R79). -/
def overflowInf (rm : RMode) (neg : Bool) : Bool :=
  match rm with
  | .rne | .rna | .sr => true
  | .rtz | .rto => false
  | .rup => !neg
  | .rdn => neg

/-- `Encode` into a floating type (R76, R79 to R82). -/
def encodeF (t : Ty) (x : Exact) (c : RCtl) : Nat × Flags :=
  match x with
  | .nan =>
    match nanCode t with
    | some n => if c.sat = 2 then (0, fNV) else (n, 0)
    | none => (0, fNV)
  | .inf neg => storeInf t neg c.sat
  | .zero neg => (signCode t neg 0, 0)
  | .val neg m =>
    let emin := 1 - bias t
    let qe := max m.lg emin - (mantBits t : Int)
    let r := roundGrid c neg m qe
    let code := ((qe + bias t + (mantBits t : Int) - 1) * (2 ^ mantBits t : Nat)).toNat + r.1
    let fl : Flags := if r.2 then fNX ||| (if m.lg < emin then fUF else 0) else 0
    if code > maxCode t then
      let s := if neg && isUnsignedF t then negUnsigned t c.sat
        else if overflowInf c.rm neg then storeInf t neg c.sat else (signCode t neg (maxCode t), 0)
      (s.1, s.2 ||| fOF ||| fNX)
    else if neg && isUnsignedF t && code != 0 then
      let s := negUnsigned t c.sat
      (s.1, s.2 ||| fl)
    else (signCode t neg code, fl)

def intMax (t : Ty) : Nat := if t.isSigned then 2 ^ (t.width - 1) - 1 else 2 ^ t.width - 1
def intMin (t : Ty) : Int := if t.isSigned then -(2 ^ (t.width - 1) : Nat) else 0

/-- An integer limited to the type's range (R83, R197). -/
def clampInt (t : Ty) (x : Int) : Nat := wrap t.width (max (intMin t) (min x (intMax t)))

/-- `Encode` into an integer type of a value that is no integer source's (R83). -/
def encodeI (t : Ty) (x : Exact) (c : RCtl) : Nat × Flags :=
  match x with
  | .nan => (0, fNV)
  | .inf neg => (if neg then clampInt t (intMin t) else clampInt t (intMax t), fNV)
  | .zero _ => (0, 0)
  | .val neg m =>
    let r := roundGrid c neg m 0
    let v : Int := if neg then -(r.1 : Int) else r.1
    if v < intMin t ∨ (intMax t : Int) < v then (clampInt t v, fNV) else (wrap t.width v, if r.2 then fNX else 0)

/-- `Encode` of a result of floating or mixed arithmetic, or of a conversion from a floating type. -/
def encodeX (t : Ty) (x : Exact) (c : RCtl) : Nat × Flags :=
  if t.isInt then encodeI t x c else encodeF t x c

/-- `Encode(dst, Decode(src, bits))` with the row of R83 that the source's class gives. -/
def convert (dst : Ty) (fromInt : Bool) (x : Num) (c : RCtl) : Nat × Flags :=
  if dst.isInt && fromInt then
    (match x with
     | .fin n m e => clampInt dst ((Num.fin n m e).scaled 0)
     | _ => 0, 0)
  else encodeX dst x.exact c

/-- `Round(x, ty, rm)`: the value that the encoding with saturation 0 represents (R6). -/
def roundNum (t : Ty) (x : Num) (c : RCtl) : Num × Flags :=
  let r := encodeX t x.exact { c with sat := 0 }
  (decodeTy t r.1, r.2)

/-! ### Division and roots (R92, R93) -/

/-- Square root of a number, rounded down, built bit by bit. -/
def isqrtFrom : Nat → Nat → Nat → Nat
  | 0, n, r => if (r + 1) * (r + 1) ≤ n then r + 1 else r
  | b + 1, n, r => isqrtFrom b n (if (r + 2 ^ (b + 1)) * (r + 2 ^ (b + 1)) ≤ n then r + 2 ^ (b + 1) else r)

def isqrt (n : Nat) : Nat := isqrtFrom (Nat.log2 n / 2) n 0

def Num.div (a b : Num) : Exact × Flags :=
  match a, b with
  | .nan, _ | _, .nan => (.nan, 0)
  | .inf _, .inf _ => (.nan, fNV)
  | .inf x, .fin n _ _ => (.inf (x != n), 0)
  | .fin n _ _, .inf y => (.zero (n != y), 0)
  | .fin n m e, .fin n' m' e' =>
    if m' = 0 then (if m = 0 then (.nan, fNV) else (.inf (n != n'), fDZ))
    else if m = 0 then (.zero (n != n'), 0)
    else (.val (n != n') (magQuot m m' (e - e')), 0)

/-- `floor(sqrt(m * 2^e) * 2^k)`. -/
def sqrtScaled (m : Nat) (e k : Int) : Nat × Bool :=
  let t := divScaled m 1 (e + 2 * k)
  let r := isqrt t.1
  (r, t.2 && r * r == t.1)

def Num.sqrt (a : Num) : Exact × Flags :=
  match a with
  | .nan => (.nan, 0)
  | .inf n => if n then (.nan, fNV) else (.inf false, 0)
  | .fin n m e =>
    if m = 0 then (.zero n, 0)
    else if n then (.nan, fNV)
    else (.val false ⟨((Nat.log2 m : Int) + e) / 2, sqrtScaled m e⟩, 0)

def Num.rcp (a : Num) : Exact × Flags :=
  match a with
  | .fin n m e => if m = 0 then (.inf n, fDZ) else (.val n (magQuot 1 m (-e)), 0)
  | .inf n => (.zero n, 0)
  | .nan => (.nan, 0)

/-- `floor(2^k / sqrt(m * 2^e))`. -/
def rsqrtScaled (m : Nat) (e k : Int) : Nat × Bool :=
  let t := divScaled 1 m (2 * k - e)
  let r := isqrt t.1
  (r, t.2 && r * r == t.1)

def Num.rsq (a : Num) : Exact × Flags :=
  match a with
  | .nan => (.nan, 0)
  | .inf n => if n then (.nan, fNV) else (.zero false, 0)
  | .fin n m e =>
    if m = 0 then (.inf n, fDZ)
    else if n then (.nan, fNV)
    else
      let l : Int := (Nat.log2 m : Int) + e
      let square := m == 2 ^ Nat.log2 m && l % 2 == 0
      (.val false ⟨if square then -l / 2 else (-l - 1) / 2, rsqrtScaled m e⟩, 0)

/-! ### Exact sums (R88, R89, R352) -/

/-- What a sum has seen: a total in units of 2^-160, and the special terms. -/
structure RunningSum where
  total : Int
  pinf : Bool
  ninf : Bool
  nan : Bool
  nonempty : Bool
  allNegZero : Bool
  allPosZero : Bool
  deriving DecidableEq, Repr

def RunningSum.empty : RunningSum := ⟨0, false, false, false, false, true, true⟩

def RunningSum.push (s : RunningSum) (x : Num) : RunningSum :=
  let z := x.isZero
  { total := s.total + x.scaled (-160),
    pinf := s.pinf || (x.isInf && !x.neg?), ninf := s.ninf || (x.isInf && x.neg?), nan := s.nan || x.isNaN,
    nonempty := true, allNegZero := s.allNegZero && z && x.neg?, allPosZero := s.allPosZero && z && !x.neg? }

/-- The sum of two lists, one after the other. -/
def RunningSum.append (a b : RunningSum) : RunningSum :=
  ⟨a.total + b.total, a.pinf || b.pinf, a.ninf || b.ninf, a.nan || b.nan, a.nonempty || b.nonempty,
    a.allNegZero && b.allNegZero, a.allPosZero && b.allPosZero⟩

/-- The exact sum (R6, R89): ∞ − ∞ sets NV whether or not a NaN is present. -/
def RunningSum.result (rm : RMode) (s : RunningSum) : Num × Flags :=
  if s.pinf && s.ninf then (.nan, fNV)
  else if s.nan then (.nan, 0)
  else if s.pinf then (.inf false, 0)
  else if s.ninf then (.inf true, 0)
  else if s.total = 0 then
    (.fin (s.nonempty && (s.allNegZero || (rm == .rdn && !s.allPosZero))) 0 0, 0)
  else (.fin (s.total < 0) s.total.natAbs (-160), 0)

end Sys2Proof.Machine
end

