-- ==== Sys2Proof/Decode.lean ====
section
/-! DEFINITION. From the 128 bits of a word to an instruction (01 R9 to R20, 02 R41, R42) and back.
The decoder is total: it answers an instruction or the reason why the word raises `ILLEGAL` (R10). -/

namespace Sys2Proof

/-- Why a word raises `ILLEGAL` (R10, R40). -/
inductive Reject where
  | unassigned   -- the opcode is not assigned (R43)
  | field        -- a must-be-zero bit, a reserved value, or an unused field that is nonzero
  | form         -- a check of the form's own description (types, operands, modifiers)
  deriving DecidableEq, Repr

/-! ### Field codes -/

/-- The code of a type (R46, R67). -/
def Ty.code : Ty → Nat
  | .i8 => 1 | .n8 => 2 | .i16 => 3 | .n16 => 4 | .i32 => 5 | .n32 => 6 | .i64 => 7 | .n64 => 8
  | .i4 => 9 | .n4 => 10 | .e2m1 => 11 | .e3m2 => 12 | .e2m3 => 13 | .e4m3 => 14 | .e5m2 => 15
  | .f64 => 16 | .f32 => 17 | .f16 => 18 | .bf16 => 19
  | .b8 uns fin p => 33 + p.val + (if fin then 8 else 0) + (if uns then 16 else 0)

/-- The type of a code; 0 and the reserved codes 20-32, 40, 48, 56 have none (R25, R46). -/
def Ty.ofCode (n : Nat) : Option Ty :=
  match n with
  | 1 => some .i8 | 2 => some .n8 | 3 => some .i16 | 4 => some .n16 | 5 => some .i32 | 6 => some .n32
  | 7 => some .i64 | 8 => some .n64 | 9 => some .i4 | 10 => some .n4 | 11 => some .e2m1 | 12 => some .e3m2
  | 13 => some .e2m3 | 14 => some .e4m3 | 15 => some .e5m2 | 16 => some .f64 | 17 => some .f32
  | 18 => some .f16 | 19 => some .bf16
  | _ =>
    if h : 32 ≤ n ∧ n < 64 ∧ n % 8 ≠ 0 then
      some (.b8 (n / 16 % 2 == 1) (n / 8 % 2 == 1) ⟨n % 8 - 1, by omega⟩)
    else none

def tyFCode : TyF → Nat
  | none => 0
  | some t => t.code

def tyFOf (n : Nat) : Option TyF :=
  if n = 0 then some none else (Ty.ofCode n).map some

def regOf (n : Nat) : Reg := ⟨n % 64, Nat.mod_lt _ (by decide)⟩

def maskOf (n : Nat) : Option Mask := if h : n < 12 then some ⟨n, h⟩ else none

/-- `GUARD` and `GNEG` (R17, R40). -/
def guardOf (g neg : Nat) : Option (Option Guard) :=
  if g = 15 then (if neg = 0 then some none else none)
  else (maskOf g).map fun k => some ⟨k, neg == 1⟩

def guardCode : Option Guard → Nat
  | none => 15
  | some g => g.k.val

def gnegCode : Option Guard → Nat
  | none => 0
  | some g => bitOf g.neg

def Mode.code : Mode → Nat
  | .unit => 0 | .stride => 1 | .once => 2 | .indexed => 3

def modeOf (n : Nat) : Mode :=
  match n with
  | 0 => .unit | 1 => .stride | 2 => .once | _ => .indexed

/-- The 24 bits of a vector operand (R21). -/
def Opnd.code (o : Opnd) : Nat := packFields [(16, o.off.toNat), (2, o.mode.code), (6, o.base.val)]

def opndOf (n : Nat) : Opnd := ⟨regOf (bits n 18 6), modeOf (bits n 16 2), BitVec.ofNat 16 n⟩

def Cmp.code : Cmp → Nat
  | .eq => 0 | .ne => 1 | .lt => 2 | .le => 3 | .gt => 4 | .ge => 5 | .un => 6

def cmpOf (n : Nat) : Option Cmp :=
  match n with
  | 0 => some .eq | 1 => some .ne | 2 => some .lt | 3 => some .le | 4 => some .gt | 5 => some .ge | 6 => some .un
  | _ => none

def RedOp.code : RedOp → Nat
  | .add => 0 | .min => 1 | .max => 2 | .and => 3 | .or => 4 | .xor => 5

def redOf (n : Nat) : Option RedOp :=
  match n with
  | 0 => some .add | 1 => some .min | 2 => some .max | 3 => some .and | 4 => some .or | 5 => some .xor
  | _ => none

def Scope.code : Scope → Nat
  | .plot => 0 | .bed => 1 | .span => 2 | .dev => 3 | .dom => 4

def scopeOf (n : Nat) : Option Scope :=
  match n with
  | 0 => some .plot | 1 => some .bed | 2 => some .span | 3 => some .dev | 4 => some .dom
  | _ => none

def MulhKind.code : MulhKind → Nat
  | .ss => 0 | .uu => 1 | .su => 2

def mulhOf (n : Nat) : Option MulhKind :=
  match n with
  | 0 => some .ss | 1 => some .uu | 2 => some .su
  | _ => none

/-- A one-bit modifier held in a wider field: only 0 and 1 are defined. -/
def flagOf (n : Nat) : Option Bool :=
  match n with
  | 0 => some false | 1 => some true
  | _ => none

def RMode.code : RMode → Nat
  | .rne => 0 | .rtz => 1 | .rup => 2 | .rdn => 3 | .rna => 4 | .sr => 5 | .rto => 6

def rmOf (n : Nat) : Option RMode :=
  match n with
  | 0 => some .rne | 1 => some .rtz | 2 => some .rup | 3 => some .rdn | 4 => some .rna | 5 => some .sr | 6 => some .rto
  | _ => none

def Geom.code : Geom → Nat
  | .mx32 => 1 | .mx16 => 2

def geomFCode : Option Geom → Nat
  | none => 0
  | some g => g.code

def geomFOf (n : Nat) : Option (Option Geom) :=
  match n with
  | 0 => some none | 1 => some (some .mx32) | 2 => some (some .mx16)
  | _ => none

def SumMode.code : SumMode → Nat
  | .none => 0 | .sum => 1 | .crc => 2

def sumModeOf (n : Nat) : Option SumMode :=
  match n with
  | 0 => some .none | 1 => some .sum | 2 => some .crc
  | _ => none

def ArriveKind.code : ArriveKind → Nat
  | .stream => 0 | .run => 1 | .trl => 2

def arriveOf (n : Nat) : Option ArriveKind :=
  match n with
  | 0 => some .stream | 1 => some .run | 2 => some .trl
  | _ => none

def setCode : Option (Fin 7) → Nat
  | none => 7
  | some s => s.val

def setOf (n : Nat) : Option (Fin 7) := if h : n < 7 then some ⟨n, h⟩ else none

/-! ### The header (R9) -/

/-- The header's fields as numbers, and the payload W[95:0]. -/
structure Raw where
  payload : Nat
  zero : Nat
  opc : Nat
  reuse : Nat
  wait : Nat
  set : Nat
  land : Nat
  cede : Nat
  skew : Nat
  deriving DecidableEq, Repr

def Raw.pack (r : Raw) : Nat :=
  packFields [(96, r.payload), (2, r.zero), (10, r.opc), (3, r.reuse), (8, r.wait), (3, r.set), (1, r.land),
    (1, r.cede), (4, r.skew)]

def rawOf (w : Nat) : Raw :=
  match splitFields [96, 2, 10, 3, 8, 3, 1, 1, 4] w with
  | [p, z, o, r, wt, s, l, c, k] => ⟨p, z, o, r, wt, s, l, c, k⟩
  | _ => ⟨0, 1, 0, 0, 0, 0, 0, 0, 0⟩

/-- Header of a word that is not broadcast (R10). -/
def plainHdr (r : Raw) : Option Bool :=
  if r.zero = 0 ∧ r.reuse = 0 ∧ r.wait = 0 ∧ r.set = 7 ∧ r.cede = 0 ∧ r.skew = 0 then some (r.land == 1) else none

def bHdr (r : Raw) : Option BHdr :=
  if r.zero = 0 ∧ r.reuse = 0 ∧ r.wait = 0 ∧ r.set = 7 then
    some ⟨BitVec.ofNat 4 r.skew, r.cede == 1, r.land == 1⟩
  else none

def vHdr (r : Raw) : Option VHdr :=
  if r.zero = 0 ∧ r.wait < 128 then
    some ⟨BitVec.ofNat 4 r.skew, r.cede == 1, r.land == 1, setOf r.set, BitVec.ofNat 7 r.wait, BitVec.ofNat 3 r.reuse⟩
  else none

def plainRaw (opc : Nat) (land : Bool) (payload : Nat) : Raw :=
  ⟨payload, 0, opc, 0, 0, 7, bitOf land, 0, 0⟩

def bRaw (opc : Nat) (h : BHdr) (payload : Nat) : Raw :=
  ⟨payload, 0, opc, 0, 0, 7, bitOf h.land, bitOf h.cede, h.skew.toNat⟩

def vRaw (opc : Nat) (h : VHdr) (payload : Nat) : Raw :=
  ⟨payload, 0, opc, h.reuse.toNat, h.wait.toNat, setCode h.set, bitOf h.land, bitOf h.cede, h.skew.toNat⟩

/-! ### The payload classes (R17 to R20): each `pay…` gives the 96 bits, each `un…` takes them apart -/

/-- Class S: `SUB`, `TY`, `SRCC`, `SRCB`, `SRCA`, `DST`. -/
def payS (sub ty c b a d : Nat) : Nat :=
  packFields [(62, 0), (4, sub), (6, ty), (6, c), (6, b), (6, a), (6, d)]

def unS {α : Type} (p : Nat) (k : Nat → Nat → Nat → Nat → Nat → Nat → Option α) : Option α :=
  match splitFields [62, 4, 6, 6, 6, 6, 6] p with
  | [z, sub, ty, c, b, a, d] => if z = 0 then k sub ty c b a d else none
  | _ => none

/-- Class SI: `IMM32`, `SUB`, `TY`, `SRCA`, `DST`. -/
def paySI (imm sub ty a d : Nat) : Nat :=
  packFields [(32, imm), (42, 0), (4, sub), (6, ty), (6, a), (6, d)]

def unSI {α : Type} (p : Nat) (k : Nat → Nat → Nat → Nat → Nat → Option α) : Option α :=
  match splitFields [32, 42, 4, 6, 6, 6] p with
  | [imm, z, sub, ty, a, d] => if z = 0 then k imm sub ty a d else none
  | _ => none

/-- Class L: `IMM64`, `DST`. -/
def payL (imm d : Nat) : Nat := packFields [(64, imm), (26, 0), (6, d)]

def unL {α : Type} (p : Nat) (k : Nat → Nat → Option α) : Option α :=
  match splitFields [64, 26, 6] p with
  | [imm, z, d] => if z = 0 then k imm d else none
  | _ => none

/-- Class B: `OFF32`, `SUB`, `LNK`, `SRCB`, `SRCA`. -/
def payB (off sub lnk b a : Nat) : Nat :=
  packFields [(32, off), (42, 0), (4, sub), (6, lnk), (6, b), (6, a)]

def unB {α : Type} (p : Nat) (k : Nat → Nat → Nat → Nat → Nat → Option α) : Option α :=
  match splitFields [32, 42, 4, 6, 6, 6] p with
  | [off, z, sub, lnk, b, a] => if z = 0 then k off sub lnk b a else none
  | _ => none

/-- Class M: `SUB`, `SD`, `GNEG`, `GUARD`, `MB`, `MA`, `MD`. -/
def payM (sub sd gneg guard mb ma md : Nat) : Nat :=
  packFields [(70, 0), (3, sub), (6, sd), (1, gneg), (4, guard), (4, mb), (4, ma), (4, md)]

def unM {α : Type} (p : Nat) (k : Nat → Nat → Nat → Nat → Nat → Nat → Nat → Option α) : Option α :=
  match splitFields [70, 3, 6, 1, 4, 4, 4, 4] p with
  | [z, sub, sd, gneg, guard, mb, ma, md] => if z = 0 then k sub sd gneg guard mb ma md else none
  | _ => none

/-- Class E: `IMML`, `IMMH`, `MOD`, `ED`, `EC`, `EB`, `EA`. -/
def payE (imml immh md d c b a : Nat) : Nat :=
  packFields [(32, imml), (32, immh), (8, md), (6, d), (6, c), (6, b), (6, a)]

def unE {α : Type} (p : Nat) (k : Nat → Nat → Nat → Nat → Nat → Nat → Nat → Option α) : Option α :=
  match splitFields [32, 32, 8, 6, 6, 6, 6] p with
  | [imml, immh, md, d, c, b, a] => k imml immh md d c b a
  | _ => none

/-- Class Y: `IMM32`, `CSR`, `SUB`, `SRCA`, `DST`. -/
def payY (imm csr sub a d : Nat) : Nat :=
  packFields [(32, imm), (32, 0), (16, csr), (4, sub), (6, a), (6, d)]

def unY {α : Type} (p : Nat) (k : Nat → Nat → Nat → Nat → Nat → Option α) : Option α :=
  match splitFields [32, 32, 16, 4, 6, 6] p with
  | [imm, z, csr, sub, a, d] => if z = 0 then k imm csr sub a d else none
  | _ => none

/-- Class P: `SEEDREG`, `SEEDV`, `SATV`, `SAT`, `RMV`, `RM`. -/
def payP (seed seedv satv sat rmv rm : Nat) : Nat :=
  packFields [(82, 0), (6, seed), (1, seedv), (1, satv), (2, sat), (1, rmv), (3, rm)]

def unP {α : Type} (p : Nat) (k : Nat → Nat → Nat → Nat → Nat → Nat → Option α) : Option α :=
  match splitFields [82, 6, 1, 1, 2, 1, 3] p with
  | [z, seed, seedv, satv, sat, rmv, rm] => if z = 0 then k seed seedv satv sat rmv rm else none
  | _ => none

/-- Class V: `SUB`, `NTF`, `GNEG`, `GUARD`, `TY2`, `TY1`, B, A, D. -/
def payV (sub ntf gneg guard ty2 ty1 b a d : Nat) : Nat :=
  packFields [(3, 0), (3, sub), (1, ntf), (1, gneg), (4, guard), (6, ty2), (6, ty1), (24, b), (24, a), (24, d)]

/-- The fields of class V, with the types and the guard already read. -/
structure RawV where
  sub : Nat
  ntf : Bool
  g : Option Guard
  ty2 : TyF
  ty1 : TyF
  b : Nat
  a : Nat
  d : Nat

def unV {α : Type} (p : Nat) (k : RawV → Option α) : Option α :=
  match splitFields [3, 3, 1, 1, 4, 6, 6, 24, 24, 24] p with
  | [z, sub, ntf, gneg, guard, t2, t1, b, a, d] =>
    if z = 0 then
      (guardOf guard gneg).bind fun g => (tyFOf t2).bind fun t2 => (tyFOf t1).bind fun t1 =>
        k ⟨sub, ntf == 1, g, t2, t1, b, a, d⟩
    else none
  | _ => none

/-- Class VI: `SUB`, `NTF`, `GNEG`, `GUARD`, `TY1`, `IMM32`, A, D. -/
def payVI (sub ntf gneg guard ty1 imm a d : Nat) : Nat :=
  packFields [(1, 0), (3, sub), (1, ntf), (1, gneg), (4, guard), (6, ty1), (32, imm), (24, a), (24, d)]

structure RawVI where
  sub : Nat
  ntf : Bool
  g : Option Guard
  ty1 : TyF
  imm : Nat
  a : Nat
  d : Nat

def unVI {α : Type} (p : Nat) (k : RawVI → Option α) : Option α :=
  match splitFields [1, 3, 1, 1, 4, 6, 32, 24, 24] p with
  | [z, sub, ntf, gneg, guard, t1, imm, a, d] =>
    if z = 0 then
      (guardOf guard gneg).bind fun g => (tyFOf t1).bind fun t1 => k ⟨sub, ntf == 1, g, t1, imm, a, d⟩
    else none
  | _ => none

/-! ### The shapes (R42): a decoder and an encoder for each -/

def dS1 (r : Raw) : Option S1 :=
  (plainHdr r).bind fun l => unS r.payload fun sub ty c b a d =>
    if sub = 0 ∧ ty = 0 ∧ c = 0 ∧ b = 0 ∧ d = 0 then some ⟨l, regOf a⟩ else none
def eS1 (o : Nat) (x : S1) : Raw := plainRaw o x.land (payS 0 0 0 0 x.a.val 0)

def dS2 (r : Raw) : Option S2 :=
  (plainHdr r).bind fun l => unS r.payload fun sub ty c b a d =>
    if sub = 0 ∧ ty = 0 ∧ c = 0 ∧ b = 0 then some ⟨l, regOf d, regOf a⟩ else none
def eS2 (o : Nat) (x : S2) : Raw := plainRaw o x.land (payS 0 0 0 0 x.a.val x.d.val)

/-- S3 with the value of `SUB`. -/
def dS3s (r : Raw) : Option (Nat × S3) :=
  (plainHdr r).bind fun l => unS r.payload fun sub ty c b a d =>
    if ty = 0 ∧ c = 0 then some (sub, ⟨l, regOf d, regOf a, regOf b⟩) else none
def eS3s (o sub : Nat) (x : S3) : Raw := plainRaw o x.land (payS sub 0 0 x.b.val x.a.val x.d.val)

def dS3 (r : Raw) : Option S3 := (dS3s r).bind fun p => if p.1 = 0 then some p.2 else none
def eS3 (o : Nat) (x : S3) : Raw := eS3s o 0 x

def dS4 (r : Raw) : Option S4 :=
  (plainHdr r).bind fun l => unS r.payload fun sub ty c b a d =>
    if sub = 0 ∧ ty = 0 then some ⟨l, regOf d, regOf a, regOf b, regOf c⟩ else none
def eS4 (o : Nat) (x : S4) : Raw := plainRaw o x.land (payS 0 0 x.c.val x.b.val x.a.val x.d.val)

/-- SF (and SA) with the value of `SUB`. -/
def dSFs (r : Raw) : Option (Nat × SF) :=
  (plainHdr r).bind fun l => unS r.payload fun sub ty c b a d =>
    if c = 0 then (Ty.ofCode ty).map fun t => (sub, ⟨l, regOf d, regOf a, regOf b, t⟩) else none
def eSFs (o sub : Nat) (x : SF) : Raw := plainRaw o x.land (payS sub x.ty.code 0 x.b.val x.a.val x.d.val)

def dSF (r : Raw) : Option SF := (dSFs r).bind fun p => if p.1 = 0 then some p.2 else none
def eSF (o : Nat) (x : SF) : Raw := eSFs o 0 x

def dSF2 (r : Raw) : Option SF2 :=
  (plainHdr r).bind fun l => unS r.payload fun sub ty c b a d =>
    if sub = 0 ∧ c = 0 ∧ b = 0 then (Ty.ofCode ty).map fun t => ⟨l, regOf d, regOf a, t⟩ else none
def eSF2 (o : Nat) (x : SF2) : Raw := plainRaw o x.land (payS 0 x.ty.code 0 0 x.a.val x.d.val)

def dSF4 (r : Raw) : Option SF4 :=
  (plainHdr r).bind fun l => unS r.payload fun sub ty c b a d =>
    if sub = 0 then (Ty.ofCode ty).map fun t => ⟨l, regOf d, regOf a, regOf b, regOf c, t⟩ else none
def eSF4 (o : Nat) (x : SF4) : Raw := plainRaw o x.land (payS 0 x.ty.code x.c.val x.b.val x.a.val x.d.val)

def dSFC (r : Raw) : Option SFC :=
  (plainHdr r).bind fun l => unS r.payload fun sub ty c b a d =>
    if sub = 0 ∧ c = 0 then
      (Ty.ofCode ty).bind fun t => (Ty.ofCode b).map fun s => ⟨l, regOf d, regOf a, t, s⟩
    else none
def eSFC (o : Nat) (x : SFC) : Raw := plainRaw o x.land (payS 0 x.ty.code 0 x.src.code x.a.val x.d.val)

def dSI2 (r : Raw) : Option SI2 :=
  (plainHdr r).bind fun l => unSI r.payload fun imm sub ty a d =>
    if sub = 0 ∧ ty = 0 then some ⟨l, regOf d, regOf a, BitVec.ofNat 32 imm⟩ else none
def eSI2 (o : Nat) (x : SI2) : Raw := plainRaw o x.land (paySI x.imm.toNat 0 0 x.a.val x.d.val)

def dSIM (r : Raw) : Option SIM :=
  (plainHdr r).bind fun l => unSI r.payload fun imm sub ty a d =>
    if sub = 0 then (Ty.ofCode ty).map fun t => ⟨l, regOf d, regOf a, t, BitVec.ofNat 32 imm⟩ else none
def eSIM (o : Nat) (x : SIM) : Raw := plainRaw o x.land (paySI x.imm.toNat 0 x.ty.code x.a.val x.d.val)

def dL1 (r : Raw) : Option L1 :=
  (plainHdr r).bind fun l => unL r.payload fun imm d => some ⟨l, regOf d, BitVec.ofNat 64 imm⟩
def eL1 (o : Nat) (x : L1) : Raw := plainRaw o x.land (payL x.imm.toNat x.d.val)

def dB0 (r : Raw) : Option B0 :=
  (plainHdr r).bind fun l => unB r.payload fun off sub lnk b a =>
    if sub = 0 ∧ lnk = 0 ∧ b = 0 ∧ a = 0 then some ⟨l, BitVec.ofNat 32 off⟩ else none
def eB0 (o : Nat) (x : B0) : Raw := plainRaw o x.land (payB x.off.toNat 0 0 0 0)

def dB1 (r : Raw) : Option B1 :=
  (plainHdr r).bind fun l => unB r.payload fun off sub lnk b a =>
    if sub = 0 ∧ lnk = 0 ∧ b = 0 then some ⟨l, regOf a, BitVec.ofNat 32 off⟩ else none
def eB1 (o : Nat) (x : B1) : Raw := plainRaw o x.land (payB x.off.toNat 0 0 0 x.a.val)

def dB2 (r : Raw) : Option B2 :=
  (plainHdr r).bind fun l => unB r.payload fun off sub lnk b a =>
    if sub = 0 ∧ lnk = 0 then some ⟨l, regOf a, regOf b, BitVec.ofNat 32 off⟩ else none
def eB2 (o : Nat) (x : B2) : Raw := plainRaw o x.land (payB x.off.toNat 0 0 x.b.val x.a.val)

def dBC (r : Raw) : Option BC :=
  (plainHdr r).bind fun l => unB r.payload fun off sub lnk b a =>
    if sub = 0 ∧ b = 0 ∧ a = 0 then some ⟨l, regOf lnk, BitVec.ofNat 32 off⟩ else none
def eBC (o : Nat) (x : BC) : Raw := plainRaw o x.land (payB x.off.toNat 0 x.lnk.val 0 0)

/-- `RET`: the target register alone. -/
def dRet (r : Raw) : Option S1 :=
  (plainHdr r).bind fun l => unB r.payload fun off sub lnk b a =>
    if off = 0 ∧ sub = 0 ∧ lnk = 0 ∧ b = 0 then some ⟨l, regOf a⟩ else none
def eRet (o : Nat) (x : S1) : Raw := plainRaw o x.land (payB 0 0 0 0 x.a.val)

def dBJ (r : Raw) : Option BJ :=
  (plainHdr r).bind fun l => unB r.payload fun off sub lnk b a =>
    if off = 0 ∧ sub = 0 ∧ b = 0 then some ⟨l, regOf a, regOf lnk⟩ else none
def eBJ (o : Nat) (x : BJ) : Raw := plainRaw o x.land (payB 0 0 x.lnk.val 0 x.a.val)

/-- A field that is read only under its valid bit, and is 0 without it (R20). -/
def validField {α : Type} (v n : Nat) (f : Nat → Option α) : Option (Option α) :=
  if v = 1 then (f n).map some else if n = 0 then some none else none

def satOf (n : Nat) : Option (Fin 3) := if h : n < 3 then some ⟨n, h⟩ else none

def dPfx (r : Raw) : Option PfxF :=
  (plainHdr r).bind fun l => unP r.payload fun seed seedv satv sat rmv rm =>
    (validField rmv rm rmOf).bind fun rm => (validField satv sat satOf).bind fun sat =>
      (validField seedv seed fun n => some (regOf n)).map fun seed => ⟨l, rm, sat, seed⟩
def ePfx (o : Nat) (x : PfxF) : Raw :=
  plainRaw o x.land (payP ((x.seed.map Fin.val).getD 0) (bitOf x.seed.isSome) (bitOf x.sat.isSome)
    ((x.sat.map Fin.val).getD 0) (bitOf x.rm.isSome) ((x.rm.map RMode.code).getD 0))

def dV3 (r : Raw) : Option V3 :=
  (vHdr r).bind fun h => unV r.payload fun v =>
    if v.sub = 0 then some ⟨h, opndOf v.d, opndOf v.a, opndOf v.b, v.ty1, v.ty2, v.g, v.ntf⟩ else none
def eV3 (o : Nat) (x : V3) : Raw :=
  vRaw o x.h (payV 0 (bitOf x.ntf) (gnegCode x.g) (guardCode x.g) (tyFCode x.ty2) (tyFCode x.ty1) x.b.code x.a.code
    x.d.code)

/-- V2 with the value of `SUB` (`VSCAN`). -/
def dV2s (r : Raw) : Option (Nat × V2) :=
  (vHdr r).bind fun h => unV r.payload fun v =>
    if v.b = 0 ∧ v.ty2 = none then some (v.sub, ⟨h, opndOf v.d, opndOf v.a, v.ty1, v.g, v.ntf⟩) else none
def eV2s (o sub : Nat) (x : V2) : Raw :=
  vRaw o x.h (payV sub (bitOf x.ntf) (gnegCode x.g) (guardCode x.g) 0 (tyFCode x.ty1) 0 x.a.code x.d.code)

def dV2 (r : Raw) : Option V2 := (dV2s r).bind fun p => if p.1 = 0 then some p.2 else none
def eV2 (o : Nat) (x : V2) : Raw := eV2s o 0 x

/-- V2X with the value of `SUB`. -/
def dV2Xs (r : Raw) : Option (Nat × V2X) :=
  (vHdr r).bind fun h => unV r.payload fun v =>
    if v.b = 0 then some (v.sub, ⟨h, opndOf v.d, opndOf v.a, v.ty1, v.ty2, v.g, v.ntf⟩) else none
def eV2Xs (o sub : Nat) (x : V2X) : Raw :=
  vRaw o x.h (payV sub (bitOf x.ntf) (gnegCode x.g) (guardCode x.g) (tyFCode x.ty2) (tyFCode x.ty1) 0 x.a.code
    x.d.code)

def dV2X (r : Raw) : Option V2X := (dV2Xs r).bind fun p => if p.1 = 0 then some p.2 else none
def eV2X (o : Nat) (x : V2X) : Raw := eV2Xs o 0 x

def dV1 (r : Raw) : Option V1 :=
  (vHdr r).bind fun h => unV r.payload fun v =>
    if v.sub = 0 ∧ v.b = 0 ∧ v.a = 0 ∧ v.ty2 = none then some ⟨h, opndOf v.d, v.ty1, v.g, v.ntf⟩ else none
def eV1 (o : Nat) (x : V1) : Raw :=
  vRaw o x.h (payV 0 (bitOf x.ntf) (gnegCode x.g) (guardCode x.g) 0 (tyFCode x.ty1) 0 0 x.d.code)

/-- VC and VL with the value of `SUB`. -/
def dVCs (r : Raw) : Option (Nat × VC) :=
  (vHdr r).bind fun h => unV r.payload fun v =>
    if v.ntf = false then
      (maskOf v.d).map fun k => (v.sub, ⟨h, k, opndOf v.a, opndOf v.b, v.ty1, v.ty2, v.g⟩)
    else none
def eVCs (o sub : Nat) (x : VC) : Raw :=
  vRaw o x.h (payV sub 0 (gnegCode x.g) (guardCode x.g) (tyFCode x.ty2) (tyFCode x.ty1) x.b.code x.a.code x.k.val)

/-- `VRED`: the scalar destination lies in bits [23:18] of operand D (R18). -/
def dVRs (r : Raw) : Option (Nat × VRs) :=
  (vHdr r).bind fun h => unV r.payload fun v =>
    if v.ntf = false ∧ v.b = 0 ∧ v.ty2 = none ∧ v.d % 2 ^ 18 = 0 then
      some (v.sub, ⟨h, regOf (v.d / 2 ^ 18), opndOf v.a, v.ty1, v.g⟩)
    else none
def eVRs (o sub : Nat) (x : VRs) : Raw :=
  vRaw o x.h (payV sub 0 (gnegCode x.g) (guardCode x.g) 0 (tyFCode x.ty1) 0 x.a.code (x.sd.val * 2 ^ 18))

def dI2 (r : Raw) : Option I2 :=
  (vHdr r).bind fun h => unVI r.payload fun v =>
    if v.sub = 0 then some ⟨h, opndOf v.d, opndOf v.a, BitVec.ofNat 32 v.imm, v.ty1, v.g, v.ntf⟩ else none
def eI2 (o : Nat) (x : I2) : Raw :=
  vRaw o x.h (payVI 0 (bitOf x.ntf) (gnegCode x.g) (guardCode x.g) (tyFCode x.ty1) x.imm.toNat x.a.code x.d.code)

def dI1 (r : Raw) : Option I1 :=
  (vHdr r).bind fun h => unVI r.payload fun v =>
    if v.sub = 0 ∧ v.a = 0 then some ⟨h, opndOf v.d, BitVec.ofNat 32 v.imm, v.ty1, v.g, v.ntf⟩ else none
def eI1 (o : Nat) (x : I1) : Raw :=
  vRaw o x.h (payVI 0 (bitOf x.ntf) (gnegCode x.g) (guardCode x.g) (tyFCode x.ty1) x.imm.toNat 0 x.d.code)

def dICs (r : Raw) : Option (Nat × IC) :=
  (vHdr r).bind fun h => unVI r.payload fun v =>
    if v.ntf = false then
      (maskOf v.d).map fun k => (v.sub, ⟨h, k, opndOf v.a, BitVec.ofNat 32 v.imm, v.ty1, v.g⟩)
    else none
def eICs (o sub : Nat) (x : IC) : Raw :=
  vRaw o x.h (payVI sub 0 (gnegCode x.g) (guardCode x.g) (tyFCode x.ty1) x.imm.toNat x.a.code x.k.val)

def dM1 (r : Raw) : Option M1 :=
  (bHdr r).bind fun h => unM r.payload fun sub sd gneg guard mb ma md =>
    if sub = 0 ∧ sd = 0 ∧ mb = 0 ∧ ma = 0 then
      (guardOf guard gneg).bind fun g => (maskOf md).map fun d => ⟨h, d, g⟩
    else none
def eM1 (o : Nat) (x : M1) : Raw := bRaw o x.h (payM 0 0 (gnegCode x.g) (guardCode x.g) 0 0 x.d.val)

def dM2 (r : Raw) : Option M2 :=
  (bHdr r).bind fun h => unM r.payload fun sub sd gneg guard mb ma md =>
    if sub = 0 ∧ sd = 0 ∧ mb = 0 then
      (guardOf guard gneg).bind fun g => (maskOf ma).bind fun a => (maskOf md).map fun d => ⟨h, d, a, g⟩
    else none
def eM2 (o : Nat) (x : M2) : Raw := bRaw o x.h (payM 0 0 (gnegCode x.g) (guardCode x.g) 0 x.a.val x.d.val)

def dM3 (r : Raw) : Option M3 :=
  (bHdr r).bind fun h => unM r.payload fun sub sd gneg guard mb ma md =>
    if sub = 0 ∧ sd = 0 then
      (guardOf guard gneg).bind fun g => (maskOf mb).bind fun b => (maskOf ma).bind fun a =>
        (maskOf md).map fun d => ⟨h, d, a, b, g⟩
    else none
def eM3 (o : Nat) (x : M3) : Raw := bRaw o x.h (payM 0 0 (gnegCode x.g) (guardCode x.g) x.b.val x.a.val x.d.val)

def dMSs (r : Raw) : Option (Nat × MS) :=
  (bHdr r).bind fun h => unM r.payload fun sub sd gneg guard mb ma md =>
    if mb = 0 ∧ md = 0 then
      (guardOf guard gneg).bind fun g => (maskOf ma).map fun a => (sub, ⟨h, regOf sd, a, g⟩)
    else none
def eMSs (o sub : Nat) (x : MS) : Raw := bRaw o x.h (payM sub x.sd.val (gnegCode x.g) (guardCode x.g) 0 x.a.val 0)

/-- Class E forms that use no immediate: which register fields are used, and the value of `MOD`. -/
def dE (r : Raw) (ua ub uc ud : Bool) : Option (Nat × EABCD) :=
  (plainHdr r).bind fun l => unE r.payload fun imml immh md d c b a =>
    if imml = 0 ∧ immh = 0 ∧ (ua ∨ a = 0) ∧ (ub ∨ b = 0) ∧ (uc ∨ c = 0) ∧ (ud ∨ d = 0) then
      some (md, ⟨l, regOf a, regOf b, regOf c, regOf d⟩)
    else none
def eE (o md : Nat) (land : Bool) (a b c d : Nat) : Raw := plainRaw o land (payE 0 0 md d c b a)

def dEA (r : Raw) : Option EA := (dE r true false false false).bind fun p =>
  if p.1 = 0 then some ⟨p.2.land, p.2.a⟩ else none
def eEA (o : Nat) (x : EA) : Raw := eE o 0 x.land x.a.val 0 0 0

def dED (r : Raw) : Option ED := (dE r false false false true).bind fun p =>
  if p.1 = 0 then some ⟨p.2.land, p.2.d⟩ else none
def eED (o : Nat) (x : ED) : Raw := eE o 0 x.land 0 0 0 x.d.val

def dEADs (r : Raw) : Option (Nat × EAD) := (dE r true false false true).map fun p => (p.1, ⟨p.2.land, p.2.a, p.2.d⟩)
def eEADs (o md : Nat) (x : EAD) : Raw := eE o md x.land x.a.val 0 0 x.d.val
def dEAD (r : Raw) : Option EAD := (dEADs r).bind fun p => if p.1 = 0 then some p.2 else none
def eEAD (o : Nat) (x : EAD) : Raw := eEADs o 0 x

def dEABDs (r : Raw) : Option (Nat × EABD) :=
  (dE r true true false true).map fun p => (p.1, ⟨p.2.land, p.2.a, p.2.b, p.2.d⟩)
def eEABDs (o md : Nat) (x : EABD) : Raw := eE o md x.land x.a.val x.b.val 0 x.d.val
def dEABD (r : Raw) : Option EABD := (dEABDs r).bind fun p => if p.1 = 0 then some p.2 else none
def eEABD (o : Nat) (x : EABD) : Raw := eEABDs o 0 x

def dEABC (r : Raw) : Option EABC := (dE r true true true false).bind fun p =>
  if p.1 = 0 then some ⟨p.2.land, p.2.a, p.2.b, p.2.c⟩ else none
def eEABC (o : Nat) (x : EABC) : Raw := eE o 0 x.land x.a.val x.b.val x.c.val 0

def dEABCD (r : Raw) : Option EABCD := (dE r true true true true).bind fun p =>
  if p.1 = 0 then some p.2 else none
def eEABCD (o : Nat) (x : EABCD) : Raw := eE o 0 x.land x.a.val x.b.val x.c.val x.d.val

def dE0 (r : Raw) : Option Bool := (dE r false false false false).bind fun p =>
  if p.1 = 0 then some p.2.land else none
def eE0 (o : Nat) (l : Bool) : Raw := eE o 0 l 0 0 0 0

def dXform (r : Raw) : Option XformF :=
  (bHdr r).bind fun h => unE r.payload fun imml immh md d c b a =>
    if imml = 0 ∧ immh = 0 ∧ md = 0 ∧ d = 0 ∧ c = 0 then some ⟨h, regOf a, regOf b⟩ else none
def eXform (o : Nat) (x : XformF) : Raw := bRaw o x.h (payE 0 0 0 0 0 x.b.val x.a.val)

def dXpos (r : Raw) : Option XposF :=
  (bHdr r).bind fun h => unE r.payload fun imml immh md d c b a =>
    if imml < 2 ^ 24 ∧ immh = 0 ∧ md = 0 ∧ d = 0 ∧ c = 0 then some ⟨h, regOf a, regOf b, BitVec.ofNat 24 imml⟩ else none
def eXpos (o : Nat) (x : XposF) : Raw := bRaw o x.h (payE x.perm.toNat 0 0 0 0 x.b.val x.a.val)

def dFork (r : Raw) : Option ForkF :=
  (plainHdr r).bind fun l => unE r.payload fun imml immh md d c b a =>
    if immh = 0 ∧ md = 0 ∧ c = 0 then some ⟨l, regOf a, regOf b, regOf d, BitVec.ofNat 32 imml⟩ else none
def eFork (o : Nat) (x : ForkF) : Raw := plainRaw o x.land (payE x.off.toNat 0 0 x.d.val 0 x.b.val x.a.val)

def dCalloc (r : Raw) : Option CallocF :=
  (plainHdr r).bind fun l => unE r.payload fun imml immh md d c b a =>
    if immh = 0 ∧ md < 4 ∧ imml < 256 ∧ (bit md 1 ∨ b = 0) then
      (geomFOf (imml / 64)).bind fun g => (tyFOf (imml % 64)).map fun t =>
        ⟨l, regOf a, if bit md 1 then some (regOf b) else none, regOf c, regOf d, bit md 0, g, t⟩
    else none
def eCalloc (o : Nat) (x : CallocF) : Raw :=
  plainRaw o x.land (payE (tyFCode x.ty + 64 * geomFCode x.geom) 0 (bitOf x.keep + 2 * bitOf x.run.isSome) x.d.val
    x.c.val ((x.run.map Fin.val).getD 0) x.a.val)

def dCtag (r : Raw) : Option CtagF :=
  (dE r true true false false).bind fun p =>
    if p.1 = 0 then some ⟨p.2.land, p.2.a, some p.2.b⟩
    else if p.1 = 1 ∧ p.2.b.val = 0 then some ⟨p.2.land, p.2.a, none⟩ else none
def eCtag (o : Nat) (x : CtagF) : Raw :=
  eE o (bitOf x.tag.isNone) x.land x.a.val ((x.tag.map Fin.val).getD 0) 0 0

/-- A Runner command with `MOD`[7:4] (R137). -/
def dRuns (r : Raw) : Option (Nat × RunF) :=
  (plainHdr r).bind fun l => unE r.payload fun imml immh md d c b a =>
    (sumModeOf (md % 4)).map fun m =>
      (md / 16, ⟨l, regOf a, regOf b, regOf c, regOf d, m, bit md 2, bit md 3, BitVec.ofNat 32 immh, BitVec.ofNat 32 imml⟩)
def eRuns (o w : Nat) (x : RunF) : Raw :=
  plainRaw o x.land (payE x.expect.toNat x.seed.toNat (x.mode.code + 4 * bitOf x.chn + 8 * bitOf x.cmp + 16 * w) x.d.val
    x.c.val x.b.val x.a.val)

def dRun (r : Raw) : Option RunF := (dRuns r).bind fun p => if p.1 = 0 then some p.2 else none
def dRunX (r : Raw) : Option RunXF := (dRuns r).bind fun p => if h : p.1 < 9 then some ⟨p.2, ⟨p.1, h⟩⟩ else none

def dTzero (r : Raw) : Option TzeroF :=
  (plainHdr r).bind fun l => unE r.payload fun imml immh md d c b a =>
    if immh = 0 ∧ d = 0 ∧ c = 0 ∧ b = 0 ∧ a = 0 then
      match md with
      | 0 => some ⟨l, some (false, BitVec.ofNat 32 imml)⟩
      | 1 => some ⟨l, some (true, BitVec.ofNat 32 imml)⟩
      | 3 => if imml = 0 then some ⟨l, none⟩ else none
      | _ => none
    else none
def eTzero (o : Nat) (x : TzeroF) : Raw :=
  match x.set with
  | none => plainRaw o x.land (payE 0 0 3 0 0 0 0)
  | some (b, e0) => plainRaw o x.land (payE e0.toNat 0 (bitOf b) 0 0 0 0)

def dRecf (r : Raw) : Option (Bool × Option Reg) :=
  (dE r true false false false).bind fun p =>
    if p.1 = 1 then some (p.2.land, some p.2.a) else if p.1 = 0 ∧ p.2.a.val = 0 then some (p.2.land, none) else none
def eRecf (o : Nat) (l : Bool) (a : Option Reg) : Raw :=
  eE o (bitOf a.isSome) l ((a.map Fin.val).getD 0) 0 0 0

def dTlbi (r : Raw) : Option (Bool × TlbiKind) :=
  (dE r true true true false).bind fun p =>
    let x := p.2
    match p.1 with
    | 0 => if x.a.val = 0 ∧ x.b.val = 0 ∧ x.c.val = 0 then some (x.land, .all) else none
    | 1 => if x.b.val = 0 ∧ x.c.val = 0 then some (x.land, .ctx x.a) else none
    | 2 => if x.c.val = 0 then some (x.land, .page x.a x.b) else none
    | 3 => some (x.land, .range x.a x.b x.c)
    | _ => none
def eTlbi (o : Nat) (l : Bool) : TlbiKind → Raw
  | .all => eE o 0 l 0 0 0 0
  | .ctx a => eE o 1 l a.val 0 0 0
  | .page a b => eE o 2 l a.val b.val 0 0
  | .range a b c => eE o 3 l a.val b.val c.val 0

/-- Class Y: `IMM32`, `CSR`, `SUB`, `SRCA`, `DST` after the header. -/
def dY (r : Raw) : Option (Bool × Nat × Nat × Nat × Nat × Nat) :=
  (plainHdr r).bind fun l => unY r.payload fun imm csr sub a d => some (l, imm, csr, sub, a, d)
def eY (o : Nat) (l : Bool) (imm csr sub a d : Nat) : Raw := plainRaw o l (payY imm csr sub a d)

def dY0 (r : Raw) : Option Bool :=
  (dY r).bind fun (l, imm, csr, sub, a, d) =>
    if imm = 0 ∧ csr = 0 ∧ sub = 0 ∧ a = 0 ∧ d = 0 then some l else none
def eY0 (o : Nat) (l : Bool) : Raw := eY o l 0 0 0 0 0

/-- `TRAP`: `IMM32` alone. -/
def dYtrap (r : Raw) : Option (Bool × BitVec 32) :=
  (dY r).bind fun (l, imm, csr, sub, a, d) =>
    if csr = 0 ∧ sub = 0 ∧ a = 0 ∧ d = 0 then some (l, BitVec.ofNat 32 imm) else none

/-- `WAIT`: `SRCA` alone. -/
def dYA (r : Raw) : Option S1 :=
  (dY r).bind fun (l, imm, csr, sub, a, d) =>
    if imm = 0 ∧ csr = 0 ∧ sub = 0 ∧ d = 0 then some ⟨l, regOf a⟩ else none

def dYfence (r : Raw) : Option (Bool × Scope) :=
  (dY r).bind fun (l, imm, csr, sub, a, d) =>
    if imm = 0 ∧ csr = 0 ∧ a = 0 ∧ d = 0 then (scopeOf sub).map fun s => (l, s) else none

/-- The supervisor forms with `DST` and `SRCA` (R358). -/
def dYDA (sub' : Nat) (r : Raw) : Option S2 :=
  (dY r).bind fun (l, imm, csr, sub, a, d) =>
    if imm = 0 ∧ csr = 0 ∧ sub = sub' then some ⟨l, regOf d, regOf a⟩ else none

def dYwdog (r : Raw) : Option SI2 :=
  (dY r).bind fun (l, imm, csr, sub, a, d) =>
    if csr = 0 ∧ sub = 0 then some ⟨l, regOf d, regOf a, BitVec.ofNat 32 imm⟩ else none

def dCsrr (r : Raw) : Option Instr :=
  (dY r).bind fun (l, imm, csr, sub, a, d) =>
    if imm = 0 ∧ sub = 0 ∧ a = 0 then some (.csrr l (regOf d) (BitVec.ofNat 16 csr)) else none

def dCsrw (r : Raw) : Option Instr :=
  (dY r).bind fun (l, imm, csr, sub, a, d) =>
    if imm = 0 ∧ sub = 0 ∧ d = 0 then some (.csrw l (BitVec.ofNat 16 csr) (regOf a)) else none

/-- `PREEMPT` and its modifiers are told apart by `SUB` (R358). -/
def dPreempt (r : Raw) : Option Instr :=
  (dY r).bind fun (l, imm, csr, sub, a, d) =>
    if sub < 2 then
      if csr = 0 ∧ a = 0 ∧ imm < 64 then some (.preempt l (sub == 1) (regOf d) (regOf imm)) else none
    else if sub = 2 then (dYDA 2 r).map .preemptPark
    else if sub = 3 then (dYDA 3 r).map .preemptRenew
    else none

/-! ### The opcode map (R41) -/

def sub3 (k : S3 → Instr) (r : Raw) : Option Instr := (dS3 r).map k

/-- `SUB` read by `f`, then the shape. -/
def withSub {α β : Type} (p : Option (Nat × α)) (f : Nat → Option β) (k : β → α → Instr) : Option Instr :=
  p.bind fun q => (f q.1).map fun m => k m q.2

def decode0 (o : Nat) (r : Raw) : Option Instr :=
  match o with
  | 0x00 => (dS3 r).map .add
  | 0x01 => (dSI2 r).map .addi
  | 0x02 => (dS3 r).map .sub
  | 0x03 => (dS3 r).map .mul
  | 0x04 => withSub (dS3s r) mulhOf .mulh
  | 0x05 => (dS3 r).map .div
  | 0x06 => (dS3 r).map .divu
  | 0x07 => withSub (dS3s r) flagOf .rem
  | 0x08 => (dS3 r).map .and
  | 0x09 => (dS3 r).map .or
  | 0x0A => (dS3 r).map .xor
  | 0x0B => (dS3 r).map .andn
  | 0x0C => (dS3 r).map .shl
  | 0x0D => (dS3 r).map .shr
  | 0x0E => (dS3 r).map .sar
  | 0x0F => (dS2 r).map .clz
  | 0x10 => (dS2 r).map .popc
  | 0x11 => (dS3 r).map .seq
  | 0x12 => (dS3 r).map .slt
  | 0x13 => (dS3 r).map .sltu
  | 0x14 => (dS4 r).map .sel
  | 0x15 => withSub (dS3s r) flagOf .min
  | 0x16 => withSub (dS3s r) flagOf .max
  | 0x17 => (dL1 r).map .li
  | 0x18 => (dL1 r).map .la
  | _ => none

def decode1 (o : Nat) (r : Raw) : Option Instr :=
  match o with
  | 0x00 => (dSF r).map .fadd
  | 0x01 => (dSF r).map .fsub
  | 0x02 => (dSF r).map .fmul
  | 0x03 => (dSF4 r).map .ffma
  | 0x04 => (dSF r).map .fdiv
  | 0x05 => (dSF2 r).map .fsqrt
  | 0x06 => (dSF r).map .fmin
  | 0x07 => (dSF r).map .fmax
  | 0x08 => withSub (dSFs r) cmpOf .fcmp
  | 0x09 => (dSFC r).map .fcvt
  | 0x0A => (dSIM r).map .ld
  | 0x0B => (dSIM r).map .st
  | _ => none

def decode2 (o : Nat) (r : Raw) : Option Instr :=
  match o with
  | 0x00 => (dB0 r).map .br
  | 0x01 => (dB2 r).map .beq
  | 0x02 => (dB2 r).map .bne
  | 0x03 => (dB2 r).map .blt
  | 0x04 => (dB2 r).map .bge
  | 0x05 => (dB2 r).map .bltu
  | 0x06 => (dB2 r).map .bgeu
  | 0x07 => (dBC r).map .call
  | 0x08 => (dRet r).map .ret
  | 0x09 => (dBJ r).map .jr
  | 0x0A => (dB1 r).map .loop
  | 0x0B => (dS2 r).map .setvl
  | 0x0C => (dPfx r).map .pfx
  | 0x0D => (dFork r).map .fork
  | 0x0E => (dS1 r).map .rvz
  | 0x0F => (dS1 r).map .span
  | 0x10 => (dY0 r).map .yield
  | 0x11 => (dY0 r).map .halt
  | 0x12 => (dY0 r).map .exit
  | 0x13 => dCsrr r
  | 0x14 => dCsrw r
  | 0x15 => (dYtrap r).map fun p => .trap p.1 p.2
  | 0x16 => (dY0 r).map .eret
  | 0x17 => (dYA r).map .wait
  | 0x18 => (dY0 r).map .nop
  | 0x19 => dPreempt r
  | 0x1A => (dYDA 0 r).map .cres
  | 0x1B => (dYDA 0 r).map .kill
  | 0x1C => (dYwdog r).map .wdog
  | _ => none

def decode3 (o : Nat) (r : Raw) : Option Instr :=
  match o with
  | 0x00 => (dV3 r).map .vadd
  | 0x01 => (dV3 r).map .vsub
  | 0x02 => (dV3 r).map .vmul
  | 0x03 => (dV3 r).map .vfma
  | 0x04 => (dV3 r).map .vfms
  | 0x05 => (dV3 r).map .vfnma
  | 0x06 => (dV3 r).map .vdiv
  | 0x07 => (dV2 r).map .vsqrt
  | 0x08 => (dV2 r).map .vrcp
  | 0x09 => (dV2 r).map .vrsq
  | 0x0A => (dV2 r).map .vexp2
  | 0x0B => (dV2 r).map .vlog2
  | 0x0C => (dV2 r).map .vtanh
  | 0x0D => (dV3 r).map .vmin
  | 0x0E => (dV3 r).map .vmax
  | 0x0F => (dV2 r).map .vabs
  | 0x10 => (dV2 r).map .vneg
  | 0x11 => (dV3 r).map .vclamp
  | 0x12 => (dV3 r).map .vmulw
  | 0x13 => (dV3 r).map .vfmaw
  | 0x14 => (dV3 r).map .vmulh
  | 0x15 => (dV3 r).map .vand
  | 0x16 => (dV3 r).map .vor
  | 0x17 => (dV3 r).map .vxor
  | 0x18 => (dV2 r).map .vnot
  | 0x19 => (dV3 r).map .vshl
  | 0x1A => (dV3 r).map .vshr
  | 0x1B => (dV3 r).map .vsar
  | 0x40 => (dI2 r).map .vaddImm
  | 0x41 => (dI2 r).map .vsubImm
  | 0x42 => (dI2 r).map .vmulImm
  | 0x43 => (dI2 r).map .vfmaImm
  | 0x44 => (dI2 r).map .vfmsImm
  | 0x45 => (dI2 r).map .vfnmaImm
  | 0x4D => (dI2 r).map .vminImm
  | 0x4E => (dI2 r).map .vmaxImm
  | 0x55 => (dI2 r).map .vandImm
  | 0x56 => (dI2 r).map .vorImm
  | 0x57 => (dI2 r).map .vxorImm
  | 0x59 => (dI2 r).map .vshlImm
  | 0x5A => (dI2 r).map .vshrImm
  | 0x5B => (dI2 r).map .vsarImm
  | _ => none

def decode4 (o : Nat) (r : Raw) : Option Instr :=
  match o with
  | 0x00 => (dV2X r).map .vcvt
  | 0x01 => withSub (dV2Xs r) flagOf .vbq
  | 0x02 => withSub (dV2Xs r) flagOf .vbdq
  | 0x03 => (dV2X r).map .vclass
  | 0x04 => (dV2 r).map .vmov
  | 0x05 => (dV3 r).map .vsel
  | 0x06 => (dV1 r).map .viota
  | 0x07 => (dV2 r).map .vcomp
  | 0x08 => (dV2 r).map .vexpd
  | 0x09 => (dV2 r).map .vgath
  | 0x0A => (dV2 r).map .vgathFF
  | 0x0B => (dV2 r).map .vscat
  | 0x0C => (dXform r).map .vxform
  | 0x0D => (dXpos r).map .vxpos
  | 0x44 => (dI1 r).map .vmovImm
  | _ => none

def decode5 (o : Nat) (r : Raw) : Option Instr :=
  match o with
  | 0x00 => withSub (dVCs r) cmpOf .vcmp
  | 0x01 => (dM3 r).map .mand
  | 0x02 => (dM3 r).map .mor
  | 0x03 => (dM3 r).map .mxor
  | 0x04 => (dM3 r).map .mandn
  | 0x05 => (dM2 r).map .mnot
  | 0x06 => (dM2 r).map .mmov
  | 0x07 => (dM1 r).map .mset
  | 0x08 => (dM1 r).map .mclr
  | 0x09 => withSub (dMSs r) flagOf .mpop
  | 0x0A => (dMSs r).bind fun p => if p.1 = 0 then some (.mfirst p.2) else none
  | 0x0B => (dM2 r).map .mbef
  | 0x0C => withSub (dVRs r) redOf .vred
  | 0x0D => withSub (dV2s r) flagOf .vscan
  | 0x0E => (dS2 r).map .own
  | 0x0F => (dVCs r).bind fun p => if p.1 = 0 then some (.vloc p.2) else none
  | 0x40 => withSub (dICs r) cmpOf .vcmpImm
  | _ => none

def decode6 (o : Nat) (r : Raw) : Option Instr :=
  match o with
  | 0x00 => (dCalloc r).map .calloc
  | 0x01 => (dEAD r).map .cfree
  | 0x02 => withSub (dEABDs r) flagOf .crenew
  | 0x03 => (dEAD r).map .cage
  | 0x04 => (dEAD r).map .clook
  | 0x05 => (dCtag r).map .ctag
  | 0x06 => (dEABD r).map .ckeep
  | 0x07 => (dEAD r).map .lgate
  | 0x08 => (dEAD r).map .vbret
  | 0x09 => (dEABCD r).map .bind
  | 0x0A => (dEABD r).map .unbind
  | 0x0B => withSub (dEADs r) flagOf .acq
  | 0x0C => (dEAD r).map .rel
  | 0x0D => withSub (dEABDs r) flagOf .binit
  | 0x0E => withSub (dEADs r) arriveOf .arrive
  | 0x0F => withSub (dEABDs r) flagOf fun ge x => if ge then .awaitGe x else .await x
  | 0x10 => (dYfence r).map fun p => .fence p.1 p.2
  | 0x11 => (dEABD r).map .shadow
  | 0x12 => (dEAD r).map .pub
  | 0x13 => (dY0 r).map .bar
  | 0x14 => (dSF r).map .aadd
  | 0x15 => (dSF r).map .aand
  | 0x16 => (dSF r).map .aor
  | 0x17 => (dSF r).map .axor
  | 0x18 => (dSF r).map .amin
  | 0x19 => (dSF r).map .amax
  | 0x1A => (dSF r).map .axchg
  | 0x1B => (dSF4 r).map .acas
  | 0x1C => (dV3 r).map .vaadd
  | 0x1D => (dV3 r).map .vamin
  | 0x1E => (dV3 r).map .vamax
  | 0x1F => (dV3 r).map .vacas
  | _ => none

def decode7 (o : Nat) (r : Raw) : Option Instr :=
  match o with
  | 0x00 => (dEAD r).map .tatt
  | 0x01 => (dE0 r).map .tdet
  | 0x02 => (dED r).map .tclaim
  | 0x03 => (dEA r).map .trel
  | 0x04 => (dEABC r).map .tlda
  | 0x05 => (dEABC r).map .tldb
  | 0x06 => (dTzero r).map .tzero
  | 0x07 => (dEABC r).map .tstep
  | 0x08 => (dEABCD r).map .tdrain
  | 0x09 => (dEA r).map .tsave
  | 0x0A => (dEA r).map .trest
  | 0x0B => (dED r).map .tstat
  | 0x0C => (dRun r).map .rcopy
  | 0x0D => (dRun r).map .rfill
  | 0x0E => (dRunX r).map .rgath
  | 0x0F => (dRunX r).map .rscat
  | 0x10 => (dEABD r).map .rpark
  | 0x11 => (dEABD r).map .runpark
  | 0x12 => (dED r).map .rqwait
  | 0x13 => (dRecf r).map fun p => .recf p.1 p.2
  | 0x14 => (dEABD r).map .garm
  | 0x15 => (dEAD r).map .grel
  | 0x16 => (dEABD r).map .pswap
  | 0x17 => withSub (dEADs r) flagOf .pswq
  | 0x18 => (dTlbi r).map fun p => .tlbi p.1 p.2
  | _ => none

/-- The decoder before the checks of single forms: the group is `OPC`[9:7]. -/
def decodeRaw (r : Raw) : Option Instr :=
  match r.opc / 128 with
  | 0 => decode0 (r.opc % 128) r
  | 1 => decode1 (r.opc % 128) r
  | 2 => decode2 (r.opc % 128) r
  | 3 => decode3 (r.opc % 128) r
  | 4 => decode4 (r.opc % 128) r
  | 5 => decode5 (r.opc % 128) r
  | 6 => decode6 (r.opc % 128) r
  | _ => decode7 (r.opc % 128) r

/-- Whether the map of R41 assigns the code. -/
def assigned (o : Nat) : Bool :=
  let k := o % 128
  match o / 128 with
  | 0 => k ≤ 0x18
  | 1 => k ≤ 0x0B
  | 2 => k ≤ 0x1C
  | 3 => k ≤ 0x1B || (0x40 ≤ k && k ≤ 0x45) || k == 0x4D || k == 0x4E || (0x55 ≤ k && k ≤ 0x57) || (0x59 ≤ k && k ≤ 0x5B)
  | 4 => k ≤ 0x0D || k == 0x44
  | 5 => k ≤ 0x0F || k == 0x40
  | 6 => k ≤ 0x1F
  | 7 => k ≤ 0x18
  | _ => false

/-- Decode a word (R10, R40): the instruction, or the reason why it raises `ILLEGAL`. -/
def decode (w : IWord) : Except Reject Instr :=
  let r := rawOf w.toNat
  if !assigned r.opc then .error .unassigned
  else
    match decodeRaw r with
    | none => .error .field
    | some i => if i.wf then .ok i else .error .form

/-! ### The encoder, from the same tables -/

def Instr.raw : Instr → Raw
  | add x => eS3 0x000 x
  | addi x => eSI2 0x001 x
  | sub x => eS3 0x002 x
  | mul x => eS3 0x003 x
  | mulh k x => eS3s 0x004 k.code x
  | div x => eS3 0x005 x
  | divu x => eS3 0x006 x
  | rem u x => eS3s 0x007 (bitOf u) x
  | and x => eS3 0x008 x
  | or x => eS3 0x009 x
  | xor x => eS3 0x00A x
  | andn x => eS3 0x00B x
  | shl x => eS3 0x00C x
  | shr x => eS3 0x00D x
  | sar x => eS3 0x00E x
  | clz x => eS2 0x00F x
  | popc x => eS2 0x010 x
  | seq x => eS3 0x011 x
  | slt x => eS3 0x012 x
  | sltu x => eS3 0x013 x
  | sel x => eS4 0x014 x
  | min u x => eS3s 0x015 (bitOf u) x
  | max u x => eS3s 0x016 (bitOf u) x
  | li x => eL1 0x017 x
  | la x => eL1 0x018 x
  | fadd x => eSF 0x080 x
  | fsub x => eSF 0x081 x
  | fmul x => eSF 0x082 x
  | ffma x => eSF4 0x083 x
  | fdiv x => eSF 0x084 x
  | fsqrt x => eSF2 0x085 x
  | fmin x => eSF 0x086 x
  | fmax x => eSF 0x087 x
  | fcmp c x => eSFs 0x088 c.code x
  | fcvt x => eSFC 0x089 x
  | ld x => eSIM 0x08A x
  | st x => eSIM 0x08B x
  | br x => eB0 0x100 x
  | beq x => eB2 0x101 x
  | bne x => eB2 0x102 x
  | blt x => eB2 0x103 x
  | bge x => eB2 0x104 x
  | bltu x => eB2 0x105 x
  | bgeu x => eB2 0x106 x
  | call x => eBC 0x107 x
  | ret x => eRet 0x108 x
  | jr x => eBJ 0x109 x
  | loop x => eB1 0x10A x
  | setvl x => eS2 0x10B x
  | pfx x => ePfx 0x10C x
  | fork x => eFork 0x10D x
  | rvz x => eS1 0x10E x
  | span x => eS1 0x10F x
  | yield l => eY0 0x110 l
  | halt l => eY0 0x111 l
  | exit l => eY0 0x112 l
  | csrr l d csr => eY 0x113 l 0 csr.toNat 0 0 d.val
  | csrw l csr a => eY 0x114 l 0 csr.toNat 0 a.val 0
  | trap l imm => eY 0x115 l imm.toNat 0 0 0 0
  | eret l => eY0 0x116 l
  | wait x => eY 0x117 x.land 0 0 0 x.a.val 0
  | nop l => eY0 0x118 l
  | preempt l out d b => eY 0x119 l b.val 0 (bitOf out) 0 d.val
  | preemptPark x => eY 0x119 x.land 0 0 2 x.a.val x.d.val
  | preemptRenew x => eY 0x119 x.land 0 0 3 x.a.val x.d.val
  | cres x => eY 0x11A x.land 0 0 0 x.a.val x.d.val
  | kill x => eY 0x11B x.land 0 0 0 x.a.val x.d.val
  | wdog x => eY 0x11C x.land x.imm.toNat 0 0 x.a.val x.d.val
  | vadd x => eV3 0x180 x
  | vsub x => eV3 0x181 x
  | vmul x => eV3 0x182 x
  | vfma x => eV3 0x183 x
  | vfms x => eV3 0x184 x
  | vfnma x => eV3 0x185 x
  | vdiv x => eV3 0x186 x
  | vsqrt x => eV2 0x187 x
  | vrcp x => eV2 0x188 x
  | vrsq x => eV2 0x189 x
  | vexp2 x => eV2 0x18A x
  | vlog2 x => eV2 0x18B x
  | vtanh x => eV2 0x18C x
  | vmin x => eV3 0x18D x
  | vmax x => eV3 0x18E x
  | vabs x => eV2 0x18F x
  | vneg x => eV2 0x190 x
  | vclamp x => eV3 0x191 x
  | vmulw x => eV3 0x192 x
  | vfmaw x => eV3 0x193 x
  | vmulh x => eV3 0x194 x
  | vand x => eV3 0x195 x
  | vor x => eV3 0x196 x
  | vxor x => eV3 0x197 x
  | vnot x => eV2 0x198 x
  | vshl x => eV3 0x199 x
  | vshr x => eV3 0x19A x
  | vsar x => eV3 0x19B x
  | vaddImm x => eI2 0x1C0 x
  | vsubImm x => eI2 0x1C1 x
  | vmulImm x => eI2 0x1C2 x
  | vfmaImm x => eI2 0x1C3 x
  | vfmsImm x => eI2 0x1C4 x
  | vfnmaImm x => eI2 0x1C5 x
  | vminImm x => eI2 0x1CD x
  | vmaxImm x => eI2 0x1CE x
  | vandImm x => eI2 0x1D5 x
  | vorImm x => eI2 0x1D6 x
  | vxorImm x => eI2 0x1D7 x
  | vshlImm x => eI2 0x1D9 x
  | vshrImm x => eI2 0x1DA x
  | vsarImm x => eI2 0x1DB x
  | vcvt x => eV2X 0x200 x
  | vbq nov x => eV2Xs 0x201 (bitOf nov) x
  | vbdq sc x => eV2Xs 0x202 (bitOf sc) x
  | vclass x => eV2X 0x203 x
  | vmov x => eV2 0x204 x
  | vsel x => eV3 0x205 x
  | viota x => eV1 0x206 x
  | vcomp x => eV2 0x207 x
  | vexpd x => eV2 0x208 x
  | vgath x => eV2 0x209 x
  | vgathFF x => eV2 0x20A x
  | vscat x => eV2 0x20B x
  | vxform x => eXform 0x20C x
  | vxpos x => eXpos 0x20D x
  | vmovImm x => eI1 0x244 x
  | vcmp c x => eVCs 0x280 c.code x
  | vcmpImm c x => eICs 0x2C0 c.code x
  | mand x => eM3 0x281 x
  | mor x => eM3 0x282 x
  | mxor x => eM3 0x283 x
  | mandn x => eM3 0x284 x
  | mnot x => eM2 0x285 x
  | mmov x => eM2 0x286 x
  | mset x => eM1 0x287 x
  | mclr x => eM1 0x288 x
  | mpop vl x => eMSs 0x289 (bitOf vl) x
  | mfirst x => eMSs 0x28A 0 x
  | mbef x => eM2 0x28B x
  | vred op x => eVRs 0x28C op.code x
  | vscan mx x => eV2s 0x28D (bitOf mx) x
  | own x => eS2 0x28E x
  | vloc x => eVCs 0x28F 0 x
  | calloc x => eCalloc 0x300 x
  | cfree x => eEAD 0x301 x
  | crenew lost x => eEABDs 0x302 (bitOf lost) x
  | cage x => eEAD 0x303 x
  | clook x => eEAD 0x304 x
  | ctag x => eCtag 0x305 x
  | ckeep x => eEABD 0x306 x
  | lgate x => eEAD 0x307 x
  | vbret x => eEAD 0x308 x
  | bind x => eEABCD 0x309 x
  | unbind x => eEABD 0x30A x
  | acq sh x => eEADs 0x30B (bitOf sh) x
  | rel x => eEAD 0x30C x
  | binit f x => eEABDs 0x30D (bitOf f) x
  | arrive k x => eEADs 0x30E k.code x
  | await x => eEABDs 0x30F 0 x
  | awaitGe x => eEABDs 0x30F 1 x
  | fence l sc => eY 0x310 l 0 0 sc.code 0 0
  | shadow x => eEABD 0x311 x
  | pub x => eEAD 0x312 x
  | bar l => eY0 0x313 l
  | aadd x => eSF 0x314 x
  | aand x => eSF 0x315 x
  | aor x => eSF 0x316 x
  | axor x => eSF 0x317 x
  | amin x => eSF 0x318 x
  | amax x => eSF 0x319 x
  | axchg x => eSF 0x31A x
  | acas x => eSF4 0x31B x
  | vaadd x => eV3 0x31C x
  | vamin x => eV3 0x31D x
  | vamax x => eV3 0x31E x
  | vacas x => eV3 0x31F x
  | tatt x => eEAD 0x380 x
  | tdet l => eE0 0x381 l
  | tclaim x => eED 0x382 x
  | trel x => eEA 0x383 x
  | tlda x => eEABC 0x384 x
  | tldb x => eEABC 0x385 x
  | tzero x => eTzero 0x386 x
  | tstep x => eEABC 0x387 x
  | tdrain x => eEABCD 0x388 x
  | tsave x => eEA 0x389 x
  | trest x => eEA 0x38A x
  | tstat x => eED 0x38B x
  | rcopy x => eRuns 0x38C 0 x
  | rfill x => eRuns 0x38D 0 x
  | rgath x => eRuns 0x38E x.w.val x.run
  | rscat x => eRuns 0x38F x.w.val x.run
  | rpark x => eEABD 0x390 x
  | runpark x => eEABD 0x391 x
  | rqwait x => eED 0x392 x
  | recf l a => eRecf 0x393 l a
  | garm x => eEABD 0x394 x
  | grel x => eEAD 0x395 x
  | pswap x => eEABD 0x396 x
  | pswq pair x => eEADs 0x397 (bitOf pair) x
  | tlbi l k => eTlbi 0x398 l k
  -- the steps without a word: an unassigned code, so that no decoder reads them
  | nodeStage _ _ | nodeLaunch | nodeComplete _ | headAgeing _ | arbourPreempt | watchdogExpiry _ | systemEventEntry
  | trapEntry _ | dataFault _ _ _ | stripRewind _ | checkingLaneMismatch _ _ _ | streamPreemption _ _
  | streamResume _ | contextKill _ | elementGroupPerform _ _ _ | pullRequest _ _ _ _ | pullResponse _ _ _ _
  | pullRetry _ _ _ _ | horizonUpdate _ | requestPacket _ _ _ _ | farReturn _ _ _ _ | writePacket _ _
  | remoteAccess _ _ _ _ _ _ | remoteAnswer _ _ _ | runnerLine _ _ _ | runnerComplete _ _ | queuedArrival _ _
  | trellisComplete _ | acqGrant _ | waitWake _ | swapLineExchange _ | swapFlip _ | frameZeroed _ _
  | keeperRenewal _ _ | overtemp _ | railDown _ | railUp _ | retpend _ | busFail _ | zynfyPortChange _ _
  | hostBarAccess _ _ _ _ _ _ | hostFetchadd _ _ _ | msixUnmask _ _ | feataWrite _ | chpalWrite _ _ _
  | accessTableWrite _ _ _ | registerWrite _ _ | readSensors | readErrorLog _ | reset _ | firmwareStage _ _ _
  | firmwareCommit _ | setPowerCap _ | inject _ | attest _ | romBoot | stage1Verify | deviceFirmwareInit
  | pavilionStart | spanWideReduction _ _ => plainRaw 0x3FF false 0

/-- The word of an instruction. -/
def encode (i : Instr) : IWord := BitVec.ofNat 128 i.raw.pack

/-! ### Words in memory (R3, R8) -/

/-- The word whose sixteen bytes, lowest address first, are given. -/
def wordOfBytes (bs : List Byte) : IWord := BitVec.ofNat 128 (ofBytesLE bs)

/-- The sixteen bytes of a word, lowest address first. -/
def bytesOfWord (w : IWord) : List Byte := bytesLE 16 w.toNat

/-- The opcode field alone, for the checks that look at it before the rest (R31). -/
def opcOf (w : IWord) : Nat := (rawOf w.toNat).opc

/-- W[122] alone (R31, R33). -/
def landOf (w : IWord) : Bool := (rawOf w.toNat).land == 1

/-- The opcodes whose forms accept a prefix (R30); `VRED` and `VSCAN` only with `.add`. -/
def acceptsPrefix (w : IWord) : Bool :=
  let r := rawOf w.toNat
  let sub := bits r.payload 3 3
  match r.opc with
  | 0x080 | 0x081 | 0x082 | 0x083 | 0x084 | 0x085 | 0x089 => true
  | 0x180 | 0x181 | 0x182 | 0x183 | 0x184 | 0x185 | 0x186 | 0x187 | 0x188 | 0x189 | 0x18A | 0x18B | 0x18C
  | 0x192 | 0x193 => true
  | 0x1C0 | 0x1C1 | 0x1C2 | 0x1C3 | 0x1C4 | 0x1C5 => true
  | 0x200 | 0x201 | 0x202 => true
  | 0x28C | 0x28D => sub == 0
  | 0x388 => true
  | _ => false

/-- The instruction that the decoder reads from a word of the opcode table's numbering: the words of
this machine are of 128 bits, stored whole, least significant byte at the lowest address. -/
def decodeTableWord (nbits w : Nat) : Option Instr :=
  match decode (wordOfBytes (bytesOfWord (BitVec.ofNat 128 (w % 2 ^ nbits)))) with
  | .ok i => some i
  | .error _ => none

end Sys2Proof
end

