-- ==== Sys2Proof/Machine/State.lean ====
section
/-! DEFINITION. The state of the part: everything that the spec gives the machine, as plain data, the
ways in which a step can stop, and the state after reset. INVENTORY.md lists each piece with its rule. -/

namespace Sys2Proof.Machine

/-! ### How a step can stop -/

/-- The faults of the machine. A fault or trap of a program is no fault of the machine: it enters a handler
or kills a context (R317), and the machine goes on. -/
inductive Fault where
  /-- Raised by `step` once the ROM has halted the part (R375, step 1): no image verified, and nothing runs.
  Safe: the spec gives a halted part no further behaviour. -/
  | halted
  deriving DecidableEq, Repr

/-- The refusals of the model. -/
inductive Refusal where
  /-- Raised by an arm of `exec` whose instruction has no meaning yet. Safe: no next state is claimed. -/
  | notModelled (mnemonic : String)
  deriving DecidableEq, Repr

/-! ### Streams -/

/-- A mask register (R210): its bits as a number, and the homes that differ from the default home. -/
structure MaskV where
  bits : Nat
  homes : List (Nat × Nat)
  deriving DecidableEq, Repr

/-- A pending prefix (R29): where it stands and what it replaces. -/
structure Pfx where
  addr : Word
  rm : Option RMode
  sat : Option (Fin 3)
  seed : Option (BitVec 32)
  deriving DecidableEq, Repr

/-- A cause of a fault with everything that the record holds of it (R345 to R348). -/
structure FaultRec where
  cls : Nat
  code : Nat
  addr : Word
  elem : Nat
  opnd : Nat
  subc : Nat
  rmt : Bool
  dplot : Nat
  info : Word
  /-- the poison comes from a refused access, so it is never rewound (R353) -/
  refused : Bool
  deriving DecidableEq, Repr

/-- Where one element lies: its bytes as keys of memory, the bit of the first byte where it begins, its
address, the plot that owns it, and, on a geometry, the key of its segment's scale byte (R21, R23, R73). -/
structure Loc where
  keys : List Nat
  bit : Nat
  va : Nat
  plot : Nat
  near : Bool
  slot : Nat
  scale : Option Nat
  deriving DecidableEq, Repr

/-- One element of a begun broadcast instruction (R175, R192): the loop index, the count of enabled elements below it
that `VCOMP` and `VEXPD` take as the other index (R206), the executing plot, the destination group, where its operands
lie, where its index elements lie (R185), and the plot that holds its guard bit (R210). -/
structure Elem where
  i : Nat
  k : Nat
  plot : Nat
  grp : Nat
  d : Option Loc
  a : Option Loc
  b : Option Loc
  ix : List Loc
  home : Option Nat
  deriving DecidableEq, Repr

/-- What broadcast work computes: one name for each meaning of R196 to R216, R130, R191 and R273. -/
inductive VOp where
  | add | sub | mul | fma | fms | fnma | div | sqrt | rcp | rsq | exp2 | log2 | tanh
  | min | max | abs | neg | clamp | mulw | fmaw | mulh | and | or | xor | not | shl | shr | sar
  | cvt | bq (nov : Bool) | bdq (scale : Bool) | cls | mov | movImm | sel | iota | comp | expd
  | cmp (c : Cmp) | red (op : RedOp) | scan (max : Bool) | loc
  | aadd | amin | amax | acas | xform
  deriving DecidableEq, Repr

/-- A 64-byte group as it reached a plot by a pull or a far return (R177, R178), or as the plot read it for the first of
the groups that need it (R26, R38): its bytes by key, or the owner's cause (R187); `bad` lists the bytes delivered
poisoned or uncorrectable, with the cause code. -/
structure Landed where
  plot : Nat
  grp : Nat
  cells : List (Nat × Byte)
  bad : List (Nat × Nat)
  refused : Option Nat
  deriving DecidableEq, Repr

/-- A pull or request packet on its way (R180, R182, R102, R103). -/
inductive Leg where
  | sent | retry | served
  deriving DecidableEq, Repr

/-- A group on its way to a plot; a far return has as tags the operand and the index of each element that it brings, or of
the first element of each segment (R103). -/
structure Fetch where
  plot : Nat
  grp : Nat
  leg : Leg
  tags : List (Nat × Nat)
  deriving DecidableEq, Repr

/-- A request packet of a far operand (R102): read, write or atomic, and whether it has left; the landing slots of a read are
reserved then (R341). -/
structure RPkt where
  kind : Nat
  opnd : Nat
  tier : Nat
  devid : Nat
  ppn : Nat
  first : Nat
  fbit : Nat
  stride : Int
  count : Nat
  esize : Nat
  type : Nat
  geom : Nat
  firstIdx : Int
  route : Nat
  sent : Bool
  deriving DecidableEq, Repr

/-- A route descriptor (R103): its number, the operand whose returns it leads, and the plot that consumes each element index. -/
structure Route where
  opnd : Nat
  route : Nat
  plots : List (Nat × Nat)
  deriving DecidableEq, Repr

/-- The part of a reduction or scan that a plot has formed (R90, R216, R352), by span position, N for the sources outside
the span: the exact sum in units of 2^-160 with the special terms seen, or the pattern so far with its scale byte. -/
structure Carry where
  pos : Nat
  total : Int
  pinf : Bool
  ninf : Bool
  nan : Bool
  nonempty : Bool
  allNegZero : Bool
  allPosZero : Bool
  pat : Nat
  scale : Nat
  deriving DecidableEq, Repr

/-- A begun broadcast instruction that has not finished (R176): what it captured at issue (R25, R29, R99) and
the elements it still has to perform, in group order at each plot. -/
structure Job where
  seq : Nat
  addr : Word
  op : VOp
  t1 : Ty
  t2 : Ty
  ga : Option Geom
  gb : Option Geom
  gd : Option Geom
  imm : Option (BitVec 32)
  /-- the pattern that a transform's padded elements take (R125) -/
  pad : Nat
  kd : Option Mask
  sd : Option Reg
  guardBits : Nat
  vl : Nat
  rm : RMode
  sat : Nat
  seed : BitVec 32
  trusted : Bool
  skew : Nat
  /-- the word ends its slot's turn (R12) -/
  cede : Bool
  chains : List Nat
  /-- the bytes from the first to past the last that it writes, by virtual address: D, and the target of an atomic (R37) -/
  dexts : List (Nat × Nat)
  /-- the windows of its indexed operands, by virtual address (R186), and the groups of A that `VCOMP` and `VEXPD` hold
  (R206): near groups that stay pinned until it has finished -/
  wins : List (Nat × Nat)
  holds : List Nat
  elems : List Elem
  prog : List (Nat × Nat)
  saved : List (Nat × Byte)
  carry : List Carry
  maskBits : List (Nat × Bool × Nat)
  landed : List Landed
  fetches : List Fetch
  pkts : List RPkt
  routes : List Route
  /-- the elements of a row of a transform's source (R133), 0 for any other form -/
  row : Nat
  /-- the bytes of the index elements as the probe read them (R185) -/
  idx : List (Nat × Byte)
  /-- the plot that each far segment goes to, by the key of its scale byte (R103) -/
  segTo : List (Nat × Nat)
  flags : BitVec 8
  ff : Option Nat
  /-- its destination is indexed, so each element's write is a packet of its own (R102) -/
  apart : Bool
  /-- elements whose remote writes have not been answered (R117) -/
  sent : List Nat
  deriving DecidableEq, Repr

/-- A stopped instruction kept for a reissue (R317, R318, R357): the address of its word or prefix, the number
it had, its guard (R28), the progress index of each plot, its carries (R216), the old bytes of what it has written with the
index bytes that its probe read, and the groups that have reached its plots, which the value rule gives its later reads
(R178, R185, R188); the lowest fault that `VGATH.FF` has suppressed (R209); its operation, type and geometry, and the plots
at which it has not finished, each with the count of R206 at its next group, as plot blocks show them (R352). -/
structure StopInstr where
  addr : Word
  seq : Nat
  guard : Nat
  prog : List (Nat × Nat)
  carry : List Carry
  saved : List (Nat × Byte)
  landed : List Landed
  ff : Option Nat
  op : Option VOp
  ty : Ty
  geom : Option Geom
  left : List (Nat × Nat)
  deriving DecidableEq, Repr

/-- A far write on its way to its home (R104): the bytes of one granule, under the write packets that tell of them (R102). -/
structure WPkt where
  granule : Nat
  cells : List (Nat × Byte)
  heads : List RPkt
  deriving DecidableEq, Repr

/-- The far stores of one instruction, or of one element of it where each travels alone, as the buffers hold them, with the
write packets that will tell of them (R102, R104, R306) (DEDUCED: notes/assumptions/39.md). -/
structure FarPkt where
  seq : Nat
  part : Nat
  cells : List (Nat × Byte)
  heads : List RPkt
  deriving DecidableEq, Repr

/-- What `SETVL` checkpoints (R303, R305). -/
structure Checkpoint where
  regs : Vector Word 64
  masks : Vector MaskV 12
  vl : Nat
  rm : RMode
  sat : Nat
  fpsr : BitVec 8
  trusted : Bool
  ntfa : Word
  ntfCount : Nat
  seed : BitVec 32
  tsr : Nat
  tvec : Word
  inh : Bool
  epc : Word
  ecause : Word
  eaddr : Word
  eelem : Word
  estat : Word
  einfo : Word
  hintmiss : Word
  slots : Vector (Option Nat) 7
  deriving DecidableEq, Repr

/-- The current strip (R303 to R308, R218): sealed or not, where fetch resumes after a rewind, the far-store
buffers by instruction with the (plot, 64-byte block) pairs that they take, the journal of the old near groups, newest
first, the last notification, and whether it was rewound (R353). -/
structure Strip where
  sealed : Bool
  resume : Word
  check : Option Checkpoint
  far : List FarPkt
  farAt : List (Nat × Nat)
  journal : List (Nat × List Byte)
  ntf : Option (Word × Nat)
  rewound : Bool
  deriving DecidableEq, Repr

/-! ### Contexts -/

/-- A frame-table entry with `V` = 1 (R151), and whether its zeroing is still running (R155). -/
structure Frame where
  slot : Nat
  keep : Bool
  wd : Bool
  park : Bool
  run : Bool
  geom : Option Geom
  ty : TyF
  spane : Nat
  start : Nat
  log2n : Nat
  lb : Nat
  tv : Bool
  size : Nat
  expiry : Nat
  fartag : Word
  zeroing : Bool
  deriving DecidableEq, Repr

/-- An entry of the binding table (R266). -/
structure Binding where
  key : Nat
  base : Nat
  len : Nat
  deriving DecidableEq, Repr

/-- An open shadow (R279): two frame slots, or two far pages by address. -/
structure Shadow where
  near : Bool
  v : Nat
  w : Nat
  deriving DecidableEq, Repr

structure Ctx where
  id : Nat
  ptRoot : Nat
  groups : List (Option Nat)
  frames : List Frame
  leaving : List Frame
  bindings : List Binding
  shadows : List Shadow
  fn : Nat
  killed : Bool
  deriving DecidableEq, Repr

/-- A cached translation (R99): context, page base and size, and the leaf entry. -/
structure TlbEntry where
  ctx : Nat
  base : Nat
  size : Nat
  entry : Nat
  deriving DecidableEq, Repr

/-! ### What engines hold -/

/-- What a Runner command does (R138, R165, R166). -/
inductive RKind where
  | copy | fill | gather | scatter | park | unpark
  deriving DecidableEq, Repr

/-- One destination line of a Runner command (R134, R136): the address div 256, the index that `FAULTAT` would show, and
its moves: the place in the delivered sequence (R139), the source (a key, or a byte of the pattern of `RFILL`), and the
destination key. -/
structure RLine where
  line : Nat
  low : Nat
  moves : List (Nat × Sum Nat Byte × Nat)
  deriving DecidableEq, Repr

/-- A swap-pair slot that is not FREE (R118, R119): `moved` = 256 is FLIP. -/
structure Pair where
  q : Nat
  c : Nat
  h : Nat
  pc : Nat
  ph : Nat
  moved : Nat
  deriving DecidableEq, Repr

/-- The mapping of a context as it stood when a command issued (R128, R144, R279): the page tables in memory, where swap pairs
had put their lines, and what was cached of them, the mode, and the context's frames and shadows. -/
structure MapView where
  mem : List Host.Cell
  gcode : List (Nat × Nat)
  poison : List Nat
  hbmErr : List (Nat × Nat)
  tlb : List TlbEntry
  pairs : List Pair
  crossed : List (Nat × Nat)
  supv : Bool
  ctx : Option Ctx
  deriving DecidableEq, Repr

/-- A Runner command that has not completed (R134 to R145), a queued `.run` arrival (R275), or the copy of
`RPARK` or `RUNPARK` (R165, R166). -/
structure RCmd where
  id : Nat
  kind : RKind
  arrival : Option (Nat × Nat)
  mode : SumMode
  chn : Bool
  cmp : Bool
  seed : BitVec 32
  expect : BitVec 32
  /-- the key of the completion word, captured and redirected at issue (R141, R144) -/
  word : Option Nat
  /-- the predecessor of a `.chn` command until it completes (R140) -/
  pred : Option Nat
  predStat : Nat
  predValue : BitVec 32
  /-- element bytes, bases, index-vector keys and contiguous keys of `RGATH` and `RSCAT`, taken up as the command begins -/
  width : Nat
  base : Nat
  far : Nat
  index : List Nat
  flat : List Nat
  /-- the mapping that `RGATH` and `RSCAT` look their indexed side up in, and `RPARK` and `RUNPARK` their frame's shadow -/
  view : Option MapView
  begun : Bool
  /-- what it may write, by virtual address: base and length (R269) -/
  dests : List (Nat × Nat)
  lines : List RLine
  delivered : List (Nat × Byte)
  saved : List (Nat × Byte × Bool)
  pois : Bool
  stat : Nat
  faultAt : Nat
  frame : Nat
  issued : Nat
  /-- the entry of the list of a `RUNNER` node (R330) -/
  entry : Option Nat
  deriving DecidableEq, Repr

/-- The latest Runner command of a mode other than 0 (R140): its number and, once it has completed, `STAT` and `VALUE`. -/
structure RPred where
  id : Nat
  done : Option (Nat × BitVec 32)
  deriving DecidableEq, Repr

/-- What a slot's tile is (R236): its role, type, geometry, record and coordinate. -/
structure TDesc where
  roleB : Bool
  ty : Ty
  geom : Option Geom
  recAddr : Word
  coord : Word
  deriving DecidableEq, Repr

/-- An operand slot as the stream holds it (R235, R236, R247): what the commands issued so far leave in it, what it holds,
and in each bed of the span the codes and the scale bytes of its tile. -/
structure TSlot where
  claimed : Bool
  lost : Bool
  next : Option TDesc
  tile : Option TDesc
  data : List (List Nat × List Nat)
  deriving DecidableEq, Repr

/-- The stream's rows, columns and cells in the Trellis of one bed (R219 to R227): S and P by row and column, the block
register S̃, the edge registers, the exponents of the latest block, the NaN marks, and E0. -/
structure TBed where
  s : List Nat
  p : List Int
  sb : List Nat
  ra : List Nat
  rb : List Nat
  ck : List Int
  rab : List Nat
  rbb : List Nat
  ea : List Int
  eb : List Int
  mark : List Bool
  e0 : Int
  e0v : Bool
  deriving DecidableEq, Repr

/-- A queued Trellis command (R242) with what its issue captured (R128, R278), or a queued `.trl` arrival (R275): the places
of its elements by bed (none for a padded one), of its row and column scales, and of its image. -/
structure TCmd where
  id : Nat
  instr : Option Instr
  arrival : Option (Nat × Nat)
  addr : Word
  seq : Nat
  vals : Vector Word 4
  rm : RMode
  sat : Nat
  seed : BitVec 32
  record : List Byte
  ty : Ty
  locs : List (List (Option Loc))
  rowLocs : List Loc
  colLocs : List Loc
  image : List (List Nat)
  /-- a `TSTEP` that has begun (R248), and the flags of what the command has done so far (R242) -/
  begun : Bool
  flags : BitVec 8
  deriving DecidableEq, Repr

/-- The stream's share of the Trellises of its span (R228 to R233, R243): attached, rows and first row, the mode and the
mode that later steps are checked against, the path, the running step, `TSR`, slots, beds, commands, and the failure
that awaits `TSTAT`. -/
structure Trl where
  att : Bool
  rows : Nat
  start : Nat
  modeB : Bool
  nextB : Bool
  path : Nat
  pass : Nat
  knext : Nat
  tsr : Nat
  slots : List TSlot
  beds : List TBed
  queue : List TCmd
  failed : Option Word
  deriving DecidableEq, Repr

/-- An object that the stream holds (R268). -/
structure Hold where
  key : Nat
  shared : Bool
  deriving DecidableEq, Repr

/-- The arbitration of a plot (R340): the slot whose turn it is or was last, whether its turn goes on, and the deficits. -/
structure Arb where
  plot : Nat
  slot : Nat
  on : Bool
  deficit : List (Nat × Int)
  deriving DecidableEq, Repr

/-- A wait in progress (R265, R313): the form that waits on an object, with the object's key; a request's place in the
object's queue (R268); the generation or the progress that is awaited, and the result once it is over (R274, R276, R277);
`ending` is a wait in `EXIT`, `HALT` or `PUB`, which no system event abandons (R366). -/
inductive Wait where
  | acq (key : Nat) (shared : Bool) (order : Nat) (x : EAD)
  | await (key gen : Nat) (x : EABD) (result : Option Word)
  | awaitGe (key bound : Nat) (x : EABD) (result : Option Word)
  | ending
  | other
  deriving DecidableEq, Repr

/-- The node whose work a stream is, or its parent's for a child of `FORK`, with the queue, level and weight (R335). -/
structure NodeRef where
  launched : Bool
  va : Nat
  pa : Nat
  queue : Nat
  level : Nat
  weight : Nat
  deriving DecidableEq, Repr

/-- A Bandstand is free, holds a running stream, or holds one that has ended or stopped for good while its node or context
is not yet completed (R317, R332). -/
inductive BStatus where
  | free | run | dead
  deriving DecidableEq, Repr

/-- The words of the virtual addresses [lo, hi) as a stream fetches them (R319): memory as it stood, by key
(DEDUCED: notes/assumptions/38.md). -/
structure TextCopy where
  lo : Nat
  hi : Nat
  cells : List Host.Cell
  deriving DecidableEq, Repr

/-- A Bandstand and the stream that it holds (R283, R287 to R294). -/
structure Band where
  id : Fin 64
  status : BStatus
  sid : Nat
  order : Nat
  ctx : Nat
  supv : Bool
  gidx : Nat
  spane : Nat
  beds : List Nat
  bedrank : Nat
  regs : Vector Word 64
  pc : Word
  pfx : Option Pfx
  masks : Vector MaskV 12
  vl : Nat
  rm : RMode
  sat : Nat
  fpsr : BitVec 8
  trusted : Bool
  seq : Nat
  horiz : Nat
  ntfa : Word
  ntfCount : Nat
  seed : BitVec 32
  tvec : Word
  inh : Bool
  epc : Word
  ecause : Word
  eaddr : Word
  eelem : Word
  estat : Word
  einfo : Word
  hintmiss : Word
  slots : Vector (Option Nat) 7
  strip : Strip
  jobs : List Job
  wpkts : List WPkt
  pending : Option (FaultRec × Nat)
  stops : List StopInstr
  stopEpc : Word
  runner : List RCmd
  /-- the latest Runner command other than an arrival, and the word it wrote or would have written (R143) -/
  rlast : Nat × Word
  rpred : Option RPred
  /-- the work of a `RUNNER` node (R329): the `DETAIL` of its failure so far, 0 for none -/
  list : Option Nat
  trl : Trl
  holds : List Hold
  waiting : Option Wait
  children : List (Nat × Nat)
  node : Option NodeRef
  recs : List (Nat × List Byte)
  text : List TextCopy
  xhold : BitVec 32
  deriving DecidableEq, Repr

/-! ### The Arbour -/

/-- The Arbour's copy of a node, read when it became ready (R322, R324, R334). -/
structure NodeCopy where
  va : Nat
  pa : Nat
  ctx : Nat
  kind : Nat
  queue : Nat
  gidx : Nat
  code : Word
  arg : Word
  succ : Nat
  nsucc : Nat
  wdog : Nat
  donew : Nat
  level : Nat
  weight : Nat
  order : Nat
  deriving DecidableEq, Repr

/-- A node in state 3 with the time and order of its launch and the stream that runs it. -/
structure RunNode where
  copy : NodeCopy
  at_ : Nat
  order : Nat
  sid : Nat
  deriving DecidableEq, Repr

/-- The place of a stopped stream in its queue: since when, in front of every ready node (R337, R361) or behind those
that were ready before it (R312), and its order (DEDUCED: notes/assumptions/51.md). -/
structure QPos where
  since : Nat
  front : Bool
  order : Nat
  deriving DecidableEq, Repr

/-- A stopped stream (R355, R359): in its save area until `CRES`, or back in its queue (R337, R312, R361); its plot
blocks written or not; and the begun instructions that its resume issues again (R357). -/
structure Stopped where
  band : Band
  out : Bool
  queued : Option QPos
  reissue : List StopInstr
  deriving DecidableEq, Repr

/-- The head of a queue (R335): the stream number of a stopped stream or the address of a ready node, since when it is
head, and the level that the Arbour has noted. -/
structure Head where
  q : Nat
  sid : Option Nat
  pa : Nat
  since : Nat
  level : Nat
  deriving DecidableEq, Repr

/-! ### The rest of the part -/

/-- Data that a far scalar load left in the scalar data cache of a Bandstand (R283, R299): where it begins, and its bytes
(DESIGN CHOICE: notes/assumptions/77.md). -/
structure DLine where
  band : Fin 64
  key : Nat
  bytes : List Byte
  deriving DecidableEq, Repr

/-- A record of the error log (R374): time, source, cause, address. -/
structure ErrRec where
  time : Nat
  source : Nat
  cause : Nat
  addr : Nat
  deriving DecidableEq, Repr

/-- What left the part: answers to the host, to Zynfy peers, to masters that read registers and to the Lodge, and MSI-X
messages. -/
inductive Answer where
  | hostRead (fn : Nat) (data : List Byte) (poisoned : Bool) | hostAbort (fn : Nat) | hostUnsupported (fn : Nat)
  | peerRead (dev : Nat) (data : List Byte) (poisoned : Bool) | peerDone (dev : Nat) | peerRefused (dev : Nat)
  | regRead (cls : Nat) (v : Word) (poisoned : Bool)
  | lodge (status : Nat) (payload : List Byte)
  | msix (fn vec : Nat)
  | report (cause : Nat) (addr : Word)
  deriving DecidableEq, Repr

/-- A system event for the supervisor (R316, R366). -/
structure SysEv where
  code : Nat
  addr : Word
  info : Word
  deriving DecidableEq, Repr

/-- A kill that the hardware has to perform (R317, R354): the context, the cause code and the `EPC`. -/
structure PendKill where
  ctx : Nat
  code : Nat
  epc : Word
  deriving DecidableEq, Repr

/-- A flash slot (R375): three signed images, the signing key, and staged bytes. -/
structure Flash where
  key : List Byte
  stage1 : Image
  fw : Image
  os : Image
  staged : List (Nat × Byte)
  bootable : Bool
  deriving DecidableEq, Repr

/-- Where the boot of R375 stands. -/
inductive Phase where
  | rom | stage1 | firmware | pavilion | up | halted
  deriving DecidableEq, Repr

/-- One turn of the agenda: which agent moves next, how many cycles pass with it, by how many of them the power governor has
delayed it (R378), and, for a stream, whether broadcast work is left in flight and whether walks, records and scalar data are
cached. -/
inductive Who where
  | issue (b : Fin 64) (holdBack fills : Bool)
  | event (e : Instr)
  deriving DecidableEq, Repr

structure Turn where
  cycles : Nat
  delayed : Nat
  who : Who
  deriving DecidableEq, Repr

structure State where
  /-- bytes by key: physical addresses, other devices' above 2^52, near memory by plot and offset (R100, R116, R147) -/
  mem : List Host.Cell
  /-- constant codes other than 1, by granule (R111) -/
  gcode : List (Nat × Nat)
  /-- granules whose poison bit is set (R108) -/
  poison : List Nat
  /-- bytes of HBM that differ from what their check bytes were made of, and struck bytes of check granules (R106, R108, R110),
  with the difference (R107, R109) -/
  hbmErr : List (Nat × Nat)
  /-- near words marked uncorrectable, and those with one flipped bit (R147) -/
  nearUE : List Nat
  nearFlip : List (Nat × Nat)
  /-- device registers that have been written, by physical address; the others hold their reset values (R367) -/
  dregs : List (Nat × Word)
  featWritten : Bool
  now : Nat
  -- streams and contexts
  me : Band
  bands : List Band
  /-- the plots whose arbitration has begun -/
  arb : List Arb
  ctxs : List Ctx
  -- the Arbour
  ready : List NodeCopy
  heads : List Head
  nodes : List RunNode
  completing : List (NodeCopy × Nat × Nat)
  timers : List (Nat × Nat)
  staged : List (Nat × Nat)
  /-- the armed nodes that an atomic or `GARM` has left one release short, by address, the longest so first (R338) -/
  armed : List Nat
  stopped : List Stopped
  sysPend : List SysEv
  pendKill : List PendKill
  -- the Coldframe
  retn : BitVec 32
  /-- the rails that are on: 4·Garden + layer, 16 + Garden, 20 + Terrace, 22 HBM, 23 the Lodge's (R167, R378) -/
  rails : BitVec 24
  holes : List Nat
  retiring : List Nat
  -- translation
  tlb : List TlbEntry
  /-- the scalar data caches, newest first (R283, R299) -/
  dcache : List DLine
  pairs : List Pair
  /-- the leaf entries that flips have left with a page of the other tier, by address, and what each flip put there (R120) -/
  crossed : List (Nat × Nat)
  -- surroundings
  msixOn : List (Nat × Nat)
  msixPend : List (Nat × Nat)
  answers : List Answer
  errlog : List ErrRec
  flips : List (Nat × Nat × Nat)
  ports : BitVec 48
  flashA : Flash
  flashB : Flash
  phase : Phase
  bootB : Bool
  measure : List (List Byte)
  versions : List Nat
  -- the model's own: the schedule and its counters
  agenda : List Turn
  holdBack : Bool
  fills : Bool
  nextSid : Nat
  nextOrder : Nat
  nextFree : Nat
  deriving DecidableEq, Repr

/-! ### After reset -/

def MaskV.zero : MaskV := ⟨0, []⟩

/-- The strip of a stream that has done nothing yet: unsealed and empty (R304). -/
def Strip.empty : Strip := ⟨false, 0, none, [], [], [], none, false⟩

def TSlot.empty : TSlot := ⟨false, false, none, none, []⟩

def Trl.empty : Trl :=
  ⟨false, 0, 0, false, false, 0, 0, 0, 0, List.replicate 16 TSlot.empty, [], [], none⟩

/-- A Bandstand after reset (notes/assumptions/1.md, DESIGN CHOICE): no stream, and every register 0. -/
def Band.reset (id : Fin 64) : Band :=
  { id, status := .free, sid := 0, order := 0, ctx := 0, supv := id.val == 63, gidx := 0, spane := 0, beds := [],
    bedrank := 0, regs := Vector.replicate 64 0, pc := 0, pfx := none, masks := Vector.replicate 12 MaskV.zero,
    vl := 0, rm := .rne, sat := 0, fpsr := 0, trusted := false, seq := 1, horiz := 0, ntfa := 0, ntfCount := 0,
    seed := 0, tvec := 0, inh := false, epc := 0, ecause := 0, eaddr := 0, eelem := 0, estat := 0, einfo := 0,
    hintmiss := 0, slots := Vector.replicate 7 none, strip := Strip.empty, jobs := [], wpkts := [], pending := none,
    stops := [], stopEpc := 0, runner := [], rlast := (0, 0), rpred := none, list := none, trl := Trl.empty, holds := [],
    waiting := none, children := [], node := none, recs := [], text := [], xhold := 0 }

def Image.empty : Image := ⟨0, [], []⟩

def Flash.empty : Flash := ⟨[], Image.empty, Image.empty, Image.empty, [], false⟩

/-- The machine right after reset (R100, R114, R288, R292, R334, R370, R372, R375, and notes/assumptions/1.md
to 9.md and 76.md, DESIGN CHOICE but for 7.md, PRESUMED, for what the spec leaves open). -/
def State.reset : State :=
  { mem := [], gcode := [], poison := [], hbmErr := [], nearUE := [], nearFlip := [], dregs := [],
    featWritten := false, now := 0,
    me := Band.reset 63, bands := (List.finRange 63).map fun b => Band.reset ⟨b.val, by omega⟩, arb := [], ctxs := [],
    ready := [], heads := [], nodes := [], completing := [], timers := [], staged := [], armed := [], stopped := [],
    sysPend := [], pendKill := [],
    retn := 0, rails := 0xFFFFFF, holes := [], retiring := [],
    tlb := [], dcache := [], pairs := [], crossed := [],
    msixOn := [], msixPend := [], answers := [], errlog := [], flips := [],
    ports := 0, flashA := Flash.empty, flashB := Flash.empty, phase := .rom, bootB := false,
    measure := List.replicate 8 (List.replicate 32 0), versions := [0, 0, 0],
    agenda := [], holdBack := false, fills := false, nextSid := 1, nextOrder := 1, nextFree := 0 }

end Sys2Proof.Machine
end

