-- ==== Sys2Proof/Machine/Memory.lean ====
section
/-! DEFINITION. Memory as bytes by key, the device registers, and what stands beside the bytes: constant granules,
poison, check codes, uncorrectable near words (04 R100 to R119, 06 R147, 20 R367 to R373).

A key below 2^48 is a physical address; the near memory of plot p lies at 2^48 + p·2^18; the memory of device d of
the Zynfy domain lies at (d + 1)·2^52. -/

namespace Sys2Proof.Machine

/-! ### The list of cells -/

namespace Memory

/-- The byte at a key; an unlisted one reads 0 (R114; notes/assumptions/3.md, DESIGN CHOICE). -/
def get : List Host.Cell → Nat → Byte
  | [], _ => 0
  | c :: m, k => if c.1 = k then c.2 else get m k

/-- Write a byte: the list stays sorted and holds no zero. -/
def put : List Host.Cell → Nat → Byte → List Host.Cell
  | [], k, v => if v = 0 then [] else [(k, v)]
  | c :: m, k, v =>
    if k < c.1 then (if v = 0 then c :: m else (k, v) :: c :: m)
    else if k = c.1 then (if v = 0 then m else (k, v) :: m)
    else c :: put m k v

/-- The canonical form: keys strictly rising from above `lo`, and no byte that an unlisted key reads as. -/
def wfFrom : List Host.Cell → Option Nat → Bool
  | [], _ => true
  | c :: m, lo => (lo.all fun l => decide (l < c.1)) && c.2 != 0 && wfFrom m (some c.1)

def wf (m : List Host.Cell) : Bool := wfFrom m none

end Memory

/-- Insert into a sorted list of numbers without repeats. -/
def insertNat (x : Nat) : List Nat → List Nat
  | [] => [x]
  | y :: l => if x < y then x :: y :: l else if x = y then y :: l else y :: insertNat x l

/-- Look up a key in an association list. -/
def assoc {α : Type} (l : List (Nat × α)) (k : Nat) : Option α := (l.find? fun p => p.1 == k).map Prod.snd

/-- Replace or add a key of an association list. -/
def assocSet {α : Type} : List (Nat × α) → Nat → α → List (Nat × α)
  | [], k, v => [(k, v)]
  | p :: l, k, v => if p.1 = k then (k, v) :: l else p :: assocSet l k v

def assocDel {α : Type} (l : List (Nat × α)) (k : Nat) : List (Nat × α) := l.filter fun p => p.1 != k

/-! ### Ranges (R100, R367) -/

def hbmEnd : Nat := 0x007800000000
def cxlBase : Nat := 0x100000000000
def cxlEnd : Nat := 0x300000000000
def nearBase : Nat := 2 ^ 48
def remoteUnit : Nat := 2 ^ 52

def nearKey (plot loc : Nat) : Nat := nearBase + plot * 2 ^ 18 + loc
def remoteKey (dev pa : Nat) : Nat := (dev + 1) * remoteUnit + pa

def isHbm (k : Nat) : Bool := k < hbmEnd
def isCxl (k : Nat) : Bool := cxlBase ≤ k && k < cxlEnd
def isNear (k : Nat) : Bool := nearBase ≤ k && k < nearBase + 2 ^ 31
def isRemote (k : Nat) : Bool := remoteUnit ≤ k

/-- The device plot and the local offset of a near key. -/
def plotOf (k : Nat) : Nat := (k - nearBase) / 2 ^ 18
def localOf (k : Nat) : Nat := (k - nearBase) % 2 ^ 18

/-- The channel of an HBM address (R105). -/
def channelOf (pa : Nat) : Nat :=
  Nat.xor (bits pa 8 8) (Nat.xor (Nat.xor (bits pa 16 8) (bits pa 24 8)) (Nat.xor (bits pa 32 8) (bits pa 40 8)))

/-! ### Where a channel keeps its granules (R106, R108) -/

/-- The chunk of an HBM address in its channel, and its slot there. -/
def chunkOf (pa : Nat) : Nat := pa / 65536 / 15
def slotIn (pa : Nat) : Nat := pa / 65536 % 15

/-- The channel-local address of a data byte, and of the first check byte of its sector. -/
def dataPlace (pa : Nat) : Nat := 4096 * chunkOf pa + 256 * slotIn pa + pa % 256
def checkPlace (pa : Nat) : Nat := 4096 * chunkOf pa + 3840 + 16 * slotIn pa + 2 * (pa % 256 / 32)

/-- The granule that a slot of a chunk of a channel holds. -/
def granuleAt (c q slot : Nat) : Nat :=
  let n := 15 * q + slot
  256 * n + Nat.xor c (Nat.xor (Nat.xor (bits n 0 8) (bits n 8 8)) (Nat.xor (bits n 16 8) (bits n 24 8)))

/-- The key under which an error of a byte of a check granule stands, by channel and channel-local address: of the granule in
DRAM, or in the controller's write-back cache, which of the two holds it being a matter of timing (R110). -/
def checkBase : Nat := 2 ^ 51
def checkKey (c l : Nat) : Nat := checkBase + c * 2 ^ 31 + l

/-- The number that stands for the bytes 240 to 255 of a check granule among the sectors. -/
def chunkSector (c q : Nat) : Nat := 8 * (2 ^ 48 + c * 2 ^ 19 + q)

/-- The sector that a byte belongs to: a data byte lies in it, a check byte protects it. -/
def sectorOf (k : Nat) : Nat :=
  if k < checkBase ∨ checkBase + 2 ^ 39 ≤ k then k / 32
  else
    let c := (k - checkBase) / 2 ^ 31
    let q := (k - checkBase) % 2 ^ 31 / 4096
    let o := k % 256
    if o < 240 then 8 * granuleAt c q (o / 16) + o % 16 / 2 else chunkSector c q

/-- The position of a byte in the code word of its sector (R107, R108). -/
def codePos (k : Nat) : Nat :=
  if k < checkBase ∨ checkBase + 2 ^ 39 ≤ k then 33 - k % 32
  else if k % 256 < 240 then 1 - k % 2 else 15 - k % 16

/-! ### Device registers (R367) -/

def arbourBase : Nat := 0x400000000000
def channelBase : Nat := 0x400000100000
def controlBase : Nat := 0x400000200000
def tableBase : Nat := 0x400000300000

def chReg (c off : Nat) : Nat := channelBase + 4096 * c + off

/-- `FEATO` (R370). -/
def featOffer : Word := if Config.developmentPart then 0x7F else 0x3F

/-- Whether target k is a memory target (R372). -/
def memoryTarget (k : Nat) : Bool := k ≤ 55 || k == 61

/-- The reset value of a register; 0 where no other is named (R334, R370, R372, R378; notes/assumptions/4.md, DESIGN CHOICE). -/
def dregReset (pa : Nat) : Word :=
  if arbourBase + 0x1000 ≤ pa ∧ pa < arbourBase + 0x1800 then 1 <<< 32
  else if pa = controlBase then featOffer
  else if pa = controlBase + 0x300 then 2400
  else if tableBase ≤ pa ∧ pa < tableBase + 512 * 62 then
    let k := (pa - tableBase) / 512
    let m := (pa - tableBase) % 512 / 8
    if m = 32 ∨ m = 33 then 0x1F
    else if 48 ≤ m ∧ m ≤ 52 ∧ memoryTarget k then 0x07 else 0
  else 0

namespace State

def dreg (s : State) (pa : Nat) : Word := (assoc s.dregs pa).getD (dregReset pa)

def setDreg (s : State) (pa : Nat) (v : Word) : State := { s with dregs := assocSet s.dregs pa v }

/-- Bits of `FEATA` (R370), at device control 0x10. -/
def feata (s : State) : Word := s.dreg (controlBase + 0x10)
def featTrusted (s : State) : Bool := s.feata.getLsbD 0
def featSround (s : State) : Bool := s.feata.getLsbD 1
def featCxl (s : State) : Bool := s.feata.getLsbD 2
def featZynfy (s : State) : Bool := s.feata.getLsbD 3
def featSwap (s : State) : Bool := s.feata.getLsbD 4
def featPalette (s : State) : Bool := s.feata.getLsbD 5
def featInject (s : State) : Bool := s.feata.getLsbD 6

/-- Add to a saturating 32-bit field of a register. -/
def bumpField (s : State) (pa lo : Nat) : State :=
  let v := (s.dreg pa).toNat
  let f := bits v lo 32
  s.setDreg pa (BitVec.ofNat 64 (v - f * 2 ^ lo + min (f + 1) (2 ^ 32 - 1) * 2 ^ lo))

/-! ### Access tables (R372, R373) -/

/-- The target that checks an access to a key of this device. -/
def targetOf (k : Nat) : Nat :=
  if isHbm k then channelOf k / 8
  else if isCxl k then 32 + Config.cxlPort k % 8
  else if isNear k then 40 + plotOf k / 2048 * 4 + localOf k / 2 ^ 16
  else if k < channelBase then 56
  else if k < controlBase then 57
  else if k < tableBase then 58
  else if k < tableBase + 512 * 62 then 59
  else 60

def tableEntry (s : State) (k cls : Nat) : Word := s.dreg (tableBase + 512 * k + 8 * cls)

/-- Whether master class `cls` may make the access to a key (R373); a device of the domain answers for itself
(R117), and only over a port that is up (DEDUCED: notes/assumptions/69.md). -/
def granted (s : State) (cls : Nat) (acc : Access) (k : Nat) : Bool :=
  if isRemote k then
    let dev := k / remoteUnit - 1
    (s.dreg (controlBase + 0x1000 + 8 * dev)).toNat % 2 ^ 48 &&& s.ports.toNat != 0 &&
      Config.remoteGrants dev cls acc (k % remoteUnit)
  else
    let e := s.tableEntry (targetOf k) cls
    match acc with
    | .read => e.getLsbD 0
    | .write => e.getLsbD 1
    | .atomic => e.getLsbD 2

def logErr (s : State) (source cause addr : Nat) : State :=
  { s with errlog := s.errlog ++ [⟨s.now, source, cause, addr⟩] }

/-- Count and log a refusal (R373): `ACCREF` saturates (DESIGN CHOICE: notes/assumptions/66.md). -/
def refuse (s : State) (cls k : Nat) : State :=
  let v := s.dreg (controlBase + 0x28)
  (s.setDreg (controlBase + 0x28) (if v == -1 then v else v + 1)).logErr cls 0 k

/-- The keys of one access that a target refuses a class, with the count and the record that each packet of `unit` bytes takes
that holds one (R373; DEDUCED: notes/assumptions/98.md). -/
def refuseEach (s : State) (cls unit : Nat) (ks : List Nat) : State :=
  (ks.foldl (fun (l : List Nat) k => if l.any fun x => x / unit == k / unit then l else l ++ [k]) []).foldl
    (fun s k => s.refuse cls k) s

/-! ### Swap pairs (R119) -/

/-- Where an access to an address goes while its page is in a pair: the other page, once its line is exchanged. -/
def route (s : State) (k : Nat) : Nat :=
  match s.pairs.find? fun p => k / 65536 == p.c || k / 65536 == p.h with
  | some p =>
    if k < nearBase ∧ k % 65536 / 256 < p.moved then
      (if k / 65536 = p.c then p.h else p.c) * 65536 + k % 65536
    else k
  | none => k

/-! ### Constant granules (R111, R112) -/

/-- The code of granule g; an unlisted one holds code 1 (R114). -/
def codeOf (s : State) (g : Nat) : Nat := (assoc s.gcode g).getD 1

/-- The byte at offset o of a granule of code c ≠ 0. -/
def patternByte (s : State) (g c o : Nat) : Byte :=
  if c = 1 then 0
  else BitVec.ofNat 8 ((s.dreg (chReg (channelOf (g * 256)) (0x010 + 8 * ((c - 2) % 14)))).toNat / 2 ^ (8 * (o % 4)))

/-- The byte that storage holds at a key as it stands there. -/
def rawByte (s : State) (k : Nat) : Byte :=
  if isHbm k then
    let c := s.codeOf (k / 256)
    if c = 0 then Memory.get s.mem k else s.patternByte (k / 256) c (k % 256)
  else Memory.get s.mem k

/-! ### The check code (R107 to R109) -/

/-- Multiplication by α in GF(2^8) on 0x11D. -/
def gfDouble (x : Nat) : Nat := if x < 128 then 2 * x else Nat.xor (2 * x) 0x11D

/-- `x·α^k`. -/
def gfPow (x : Nat) : Nat → Nat
  | 0 => x
  | k + 1 => gfDouble (gfPow x k)

/-- The check bytes p_0 and p_1 of a message: the remainder of m(x)·x^2 by x^2 + 3·x + 2 (R107). -/
def parity (m : List Nat) : Nat × Nat :=
  m.foldl (fun r b =>
    let f := Nat.xor r.1 b
    (Nat.xor r.2 (Nat.xor f (gfDouble f)), gfDouble f)) (0, 0)

/-- The syndromes S0 = c(1) and S1 = c(α) of an error over the 34 positions; a code word has none, so what a channel computes
of the bytes that it reads is what the error gives. -/
def syndromes (e : Nat) : Nat × Nat :=
  (List.range 34).foldl (fun s p =>
    let b := e / 2 ^ (8 * p) % 256
    (Nat.xor s.1 b, Nat.xor s.2 (gfPow b p))) (0, 0)

/-- What a channel makes of a sector that it reads (R109). -/
inductive SectorRead where
  /-- no error: both syndromes are 0 -/
  | clean
  /-- the byte at position `pos` of the code word is wrong by `by_` -/
  | corrected (pos by_ : Nat)
  | uncorrectable
  deriving DecidableEq, Repr

/-- The struck bytes of a sector, its check bytes among them. -/
def sectorErrs (s : State) (sec : Nat) : List (Nat × Nat) := s.hbmErr.filter fun e => sectorOf e.1 == sec

/-- The error of a sector over its code word (R107). -/
def errorWord (l : List (Nat × Nat)) : Nat := l.foldl (fun w e => Nat.xor w (e.2 * 2 ^ (8 * codePos e.1))) 0

/-- What the syndromes of an error say, in correct or detect mode, of a code word of n bytes. -/
def judge (n : Nat) (detect : Bool) (y : Nat × Nat) : SectorRead :=
  if y.1 = 0 ∧ y.2 = 0 then .clean
  else
    match (List.range n).find? fun k => gfPow y.1 k == y.2 with
    | some k => if y.1 ≠ 0 ∧ y.2 ≠ 0 ∧ detect = false then .corrected k y.1 else .uncorrectable
    | none => .uncorrectable

/-- `ECCDET` of a channel (R113). -/
def eccDetect (s : State) (c : Nat) : Bool := (s.dreg (chReg c 0)).getLsbD 0

/-- A read of a sector; a constant granule's data slot is never read (R111). -/
def sectorRead (s : State) (sec : Nat) : SectorRead :=
  let l := s.sectorErrs sec
  if l = [] ∨ isHbm (sec * 32) = false ∨ s.codeOf (sec / 8) ≠ 0 then .clean
  else judge 34 (s.eccDetect (channelOf (sec * 32))) (syndromes (errorWord l))

/-- A read of the codes and poison bits of the chunk that holds a sector (R108, R109). -/
def chunkRead (s : State) (sec : Nat) : SectorRead :=
  let c := channelOf (sec * 32)
  let l := s.sectorErrs (chunkSector c (chunkOf (sec * 32)))
  if l = [] ∨ isHbm (sec * 32) = false then .clean else judge 16 (s.eccDetect c) (syndromes (errorWord l))

/-- The byte at a key as its channel delivers it: with what the check code corrects (R109). -/
def heldByte (s : State) (k : Nat) : Byte :=
  match s.sectorRead (k / 32) with
  | .corrected p v => if k % 32 + p = 33 then s.rawByte k ^^^ BitVec.ofNat 8 v else s.rawByte k
  | .clean | .uncorrectable => s.rawByte k

/-- The byte that an access to a key finds. -/
def byteAt (s : State) (k : Nat) : Byte := s.heldByte (s.route k)

def setCode (s : State) (g c : Nat) : State :=
  { s with gcode := if c = 1 then assocDel s.gcode g else assocSet s.gcode g c }

/-- Store bytes that lie where they stand, with no granule rule. -/
def putMem (s : State) (cells : List (Nat × Byte)) : State :=
  { s with mem := cells.foldl (fun m c => Memory.put m c.1 c.2) s.mem }

/-- The 256 bytes of a granule as cells. -/
def granuleCells (s : State) (g : Nat) : List (Nat × Byte) :=
  (List.range 256).map fun o => (g * 256 + o, s.rawByte (g * 256 + o))

/-- Store the full pattern of a constant granule with code 0 (R112), so that every byte reads as it did. -/
def materialise (s : State) (g : Nat) : State :=
  let c := s.codeOf g
  if c = 0 then s
  else
    State.setCode (State.putMem { s with hbmErr := s.hbmErr.filter fun e => sectorOf e.1 / 8 != g }
      ((List.range 256).map fun o => (g * 256 + o, s.patternByte g c o))) g 0

/-- The code that a whole granule's bytes take (R112): 1 for zeros, a palette entry's code, or 0. -/
def elide (s : State) (g : Nat) (data : List Byte) : Nat :=
  if data.all (· == 0) then 1
  else
    let pat := ofBytesLE (data.take 4)
    if s.featPalette ∧ pat ≠ 0 ∧ data == (List.range 64).flatMap (fun _ => data.take 4) then
      match (List.range 14).find? fun j =>
          (s.dreg (chReg (channelOf (g * 256)) (0x010 + 8 * j))).toNat % 2 ^ 32 == pat with
      | some j => j + 2
      | none => 0
    else 0

/-- Far bytes carry poison by the granule; the CXL tier and remote memory keep it as HBM does (R115, R117). -/
def isPoisoned (s : State) (k0 : Nat) : Bool := let k := s.route k0; !isNear k && s.poison.contains (k / 256)

def setPoison (s : State) (g : Nat) : State := { s with poison := insertNat g s.poison }
def clearPoison (s : State) (g : Nat) : State := { s with poison := s.poison.filter (· != g) }

/-- The check bytes of a sector fit its data again. -/
def settleSector (s : State) (sec : Nat) : State := { s with hbmErr := s.hbmErr.filter fun e => sectorOf e.1 != sec }

/-- The bytes 240 to 255 of the check granule of a sector's chunk are read (R108 to R110): an error is corrected and written
back, or poisons the 15 granules; a strike that leaves another code word has already changed the codes and poison bits
(notes/assumptions/72.md, DEDUCED). -/
def eccChunk (s : State) (sec : Nat) : State :=
  let c := channelOf (sec * 32)
  let q := chunkOf (sec * 32)
  match s.chunkRead sec with
  | .clean => s
  | .corrected _ _ => s.settleSector (chunkSector c q)
  | .uncorrectable => (List.range 15).foldl (fun s i => s.setPoison (granuleAt c q i)) (s.settleSector (chunkSector c q))

/-- A read of a sector's data at its channel (R109): corrected and written back, or found uncorrectable, which poisons the
granule. A correction leaves a whole code word, whether or not it found the true one. -/
def eccData (s : State) (sec : Nat) : State :=
  match s.sectorRead sec with
  | .clean => s
  | .corrected p v =>
    let k := sec * 32 + (33 - p)
    let s := if 2 ≤ p ∧ p ≤ 33 then s.putMem [(k, Memory.get s.mem k ^^^ BitVec.ofNat 8 v)] else s
    (s.settleSector sec).bumpField (chReg (channelOf (sec * 32)) 0x100) 0
  | .uncorrectable => (s.setPoison (sec / 8)).bumpField (chReg (channelOf (sec * 32)) 0x100) 32

/-- A read of a sector: its code and poison bit, then its data. -/
def eccSector (s : State) (sec : Nat) : State := (s.eccChunk sec).eccData sec

/-- The sectors of a granule that cells touch and that hold errors. -/
def struckSectors (s : State) (g : Nat) (cells : List (Nat × Byte)) : List Nat :=
  (s.hbmErr.map fun e => sectorOf e.1).filter fun sec => sec / 8 == g && cells.any fun c => c.1 / 32 == sec

/-- A sector whose check bytes are made anew: one that is not written whole is read first (R109; DEDUCED:
notes/assumptions/72.md). -/
def renewSector (cells : List (Nat × Byte)) (s : State) (sec : Nat) : State :=
  if (List.range 32).all fun o => cells.any fun c => c.1 == sec * 32 + o then s.settleSector sec
  else (s.eccData sec).settleSector sec

/-- Bytes merged into a granule of the HBM space whose code is known (R104, R109, R112). A whole granule clears the poison bit
and the check errors; data that arrives poisoned sets the bit. -/
def mergeGranule (s : State) (g : Nat) (cells : List (Nat × Byte)) (poisoned : Bool) : State :=
  let old := s.granuleCells g
  let data : List Byte := old.map fun c => ((cells.reverse.find? fun d => d.1 == c.1).map Prod.snd).getD c.2
  let s : State :=
    if (old.all fun c => cells.any fun d => d.1 == c.1) then
      let s := { s with hbmErr := s.hbmErr.filter fun e => sectorOf e.1 / 8 != g }
      let s := s.clearPoison g
      let c : Nat := s.elide g data
      if c = 0 then ((s.putMem ((List.range 256).map fun o => (g * 256 + o, data.getD o 0))).setCode g 0)
      else (s.putMem ((List.range 256).map fun o => (g * 256 + o, 0))).setCode g c
    else
      let s := s.materialise g
      ((s.struckSectors g cells).foldl (renewSector cells) s).putMem cells
  if poisoned then s.setPoison g else s

/-- One indivisible update of one granule of the HBM space: its code and poison bit are read, and its bytes merged. -/
def updateGranule (s : State) (g : Nat) (cells : List (Nat × Byte)) (poisoned : Bool) : State :=
  (s.eccChunk (8 * g)).mergeGranule g cells poisoned

/-- The same beyond HBM (R115, R117; notes/assumptions/26.md, DEDUCED). -/
def updateBeyond (s : State) (g : Nat) (cells : List (Nat × Byte)) (poisoned : Bool) : State :=
  let s : State :=
    if (List.range 256).all fun o => cells.any fun d => d.1 == g * 256 + o then s.clearPoison g else s
  let s := s.putMem cells
  if poisoned then s.setPoison g else s

/-- What the scalar data cache of the moving stream's Bandstand holds of some bytes goes (R299; DESIGN CHOICE:
notes/assumptions/77.md). -/
def dropLines (s : State) (keys : List Nat) : State :=
  { s with dcache := s.dcache.filter fun l =>
      !(l.band == s.me.id && keys.any fun k => decide (l.key ≤ k) && decide (k < l.key + l.bytes.length)) }

/-- Bytes at their homes, which a swap pair may have moved (R119), granule by granule where they do not lie in near
memory. -/
def homeCells (s : State) (cells : List (Nat × Byte)) (poisoned : Bool) : State :=
  let cells := cells.map fun c => (s.route c.1, c.2)
  let far := cells.filter fun c => !isNear c.1
  let gs := far.foldl (fun l c => insertNat (c.1 / 256) l) []
  let s := gs.foldl (fun s g =>
    let cs := far.filter fun c => c.1 / 256 == g
    if isHbm (g * 256) then s.updateGranule g cs poisoned else s.updateBeyond g cs poisoned) s
  s.putMem (cells.filter fun c => isNear c.1)

/-- A write of bytes: its stream's scalar data cache holds none of them any more. -/
def writeCells (s : State) (cells : List (Nat × Byte)) (poisoned : Bool) : State :=
  (s.dropLines (cells.map Prod.fst)).homeCells cells poisoned

/-! ### Reads -/

/-- The byte that a reader is given, or none where its granule's poison or an uncorrectable error leaves none (R109). What the
read does to storage and counters is `eccRead`. -/
def soundByte (s : State) (k : Nat) : Option Byte :=
  if s.isPoisoned k || s.sectorRead (s.route k / 32) == .uncorrectable || s.chunkRead (s.route k / 32) == .uncorrectable then none
  else some (s.byteAt k)

/-- The value of n bytes that a reader is given. -/
def soundNat (s : State) (k n : Nat) : Option Nat :=
  let bs := (List.range n).filterMap fun o => s.soundByte (k + o)
  if bs.length = n then some (ofBytesLE bs) else none

/-- The sector reads that a list of keys takes, each sector once. -/
def eccRead (s : State) (keys : List Nat) : State :=
  let secs := if s.hbmErr.isEmpty then []
    else (keys.map s.route).filter isHbm |>.foldl (fun l k => insertNat (k / 32) l) []
  secs.foldl eccSector s

/-- A byte of a sector as its check bytes take it to be. -/
def madeByte (s : State) (k : Nat) : Nat := Nat.xor (Memory.get s.mem k).toNat ((assoc s.hbmErr k).getD 0)

/-- Byte o of the check granule of a chunk (R108), with what an error has made of it. -/
def checkByte (s : State) (c q o : Nat) : Byte :=
  let sector := fun (sec : Nat) => parity ((List.range 32).map fun i => s.madeByte (sec * 32 + i))
  let word := bytesLE 8 (packFields ((List.range 15).reverse.map fun i => (4, s.codeOf (granuleAt c q i)))) ++
    bytesLE 2 (packFields ((List.range 15).reverse.map fun i => (1, bitOf (s.poison.contains (granuleAt c q i))))) ++
    List.replicate 4 0
  let p := if o < 240 then sector (8 * granuleAt c q (o / 16) + o % 16 / 2) else parity (word.map BitVec.toNat)
  let made : Byte := if o < 240 ∨ 254 ≤ o then BitVec.ofNat 8 (if o % 2 = 0 then p.1 else p.2) else word.getD (o - 240) 0
  made ^^^ BitVec.ofNat 8 ((assoc s.hbmErr (checkKey c (4096 * q + 3840 + o))).getD 0)

/-! ### Near words (R147) -/

/-- A port read of a near word corrects a single-bit error. -/
def nearRead (s : State) (keys : List Nat) : State :=
  { s with nearFlip := s.nearFlip.filter fun f => !keys.any fun k => k / 8 == f.1 }

/-- A write that covers a whole 8-byte word clears its mark. -/
def nearWritten (s : State) (keys : List Nat) : State :=
  let whole := fun w => (List.range 8).all fun o => keys.contains (w * 8 + o)
  { s with nearUE := s.nearUE.filter fun w => !whole w, nearFlip := s.nearFlip.filter fun f => !whole f.1 }

def isUE (s : State) (k : Nat) : Bool := s.nearUE.contains (k / 8)

/-! ### Plain reads and writes of whole values -/

def readBytes (s : State) (k n : Nat) : List Byte := (List.range n).map fun o => s.byteAt (k + o)

def readNat (s : State) (k n : Nat) : Nat := ofBytesLE (s.readBytes k n)

def cellsOf (k : Nat) (bs : List Byte) : List (Nat × Byte) := bs.mapIdx fun o b => (k + o, b)

def writeNat (s : State) (k n v : Nat) : State := s.writeCells (cellsOf k (bytesLE n v)) false

end State

end Sys2Proof.Machine
end

