-- ==== Sys2Proof/Machine/Translate.lean ====
section
/-! DEFINITION. Spans, frames and owners (11 R284, 06 R150 to R152, 00 R6), the walk and its checks (04 R94 to R101),
and where one element lies. -/

namespace Sys2Proof.Machine

/-! ### Causes (R346) -/

def cILLEGAL : Nat := 1
def cPRIV : Nat := 2
def cORPHANPFX : Nat := 3
def cLANDING : Nat := 4
def cIFETCH : Nat := 5
def cALIGN : Nat := 6
def cXLATE : Nat := 7
def cPROT : Nat := 8
def cFORMAT : Nat := 9
def cNEARRANGE : Nat := 10
def cSPANOWN : Nat := 11
def cMASKCAP : Nat := 12
def cSYNCUSE : Nat := 13
def cUNHELD : Nat := 14
def cSTALE : Nat := 32
def cWITHDRAWN : Nat := 33
def cLAYEROFF : Nat := 34
def cPULL : Nat := 35
def cPOISON : Nat := 36
def cNEARUE : Nat := 37
def cTRAP : Nat := 48
def cWDOG : Nat := 64
def cCHECK : Nat := 65
def cRETPEND : Nat := 66
def cKILL : Nat := 67
def cNODE : Nat := 68

/-- `CLASS` of a code (R345, R346). -/
def causeClass (c : Nat) : Nat := if c < 32 then 0 else if c < 48 then 1 else if c < 64 then 2 else 3

/-- The order of causes at one operand (R349, step 4). -/
def causeRank (c : Nat) : Nat :=
  match c with
  | 6 => 0 | 7 => 1 | 8 => 2 | 9 => 3 | 10 => 4 | 11 => 5 | 13 => 6 | 14 => 7 | _ => 8

/-- Operands of a fault (R347) (DEDUCED: notes/assumptions/23.md). -/
def opD : Nat := 0
def opA : Nat := 1
def opB : Nat := 2
def opIndex : Nat := 3
def opRecord : Nat := 4
def opObject : Nat := 5
def opNone : Nat := 7

/-- A pre-issue cause with its address, element and operand; no plot met it (R347). -/
def preFault (code addr elem opnd : Nat) : FaultRec :=
  ⟨causeClass code, code, BitVec.ofNat 64 addr, elem, opnd, 0, false, 0x1FFF, 0, false⟩

/-- A data fault that plot `dplot` met, or none (0x1FFF). -/
def dataFaultRec (code addr elem opnd dplot : Nat) : FaultRec :=
  ⟨1, code, BitVec.ofNat 64 addr, elem, opnd, 0, false, dplot, 0, false⟩

/-! ### Spans (R284) -/

namespace State

def spanTable (e : Nat) : Nat := arbourBase + 0x10000 + 256 * e

/-- Byte `off` of span-table entry `e`. -/
def spanByte (s : State) (e off : Nat) : Nat :=
  bits (s.dreg (spanTable e + off / 8 * 8)).toNat (off % 8 * 8) 8

def spanNB (s : State) (e : Nat) : Nat := s.spanByte e 0
def spanCtx (s : State) (e : Nat) : Nat := s.spanByte e 2 + 256 * s.spanByte e 3

/-- The bed list of an entry. -/
def spanBeds (s : State) (e : Nat) : List Nat := (List.range (s.spanNB e)).map fun k => s.spanByte e (64 + k)

/-- The stream slot that an entry uses in its bed k. -/
def spanSlot (s : State) (e k : Nat) : Nat := bits (s.spanByte e (192 + k / 4)) (k % 4 * 2) 2

end State

/-- Device plot at a position of a bed list (R4, R284). -/
def bedsPlot (beds : List Nat) (j : Nat) : Nat := 64 * beds.getD (j / 64) 0 + j % 64

/-- The position of a device plot in a bed list. -/
def bedsPos (beds : List Nat) (p : Nat) : Option Nat :=
  (beds.findIdx? (· == p / 64)).map fun b => 64 * b + p % 64

/-- `Owner` of a far address for a span (R6). -/
def farOwner (beds : List Nat) (va : Nat) : Nat := bedsPlot beds (va / 256 % (64 * beds.length))

/-! ### Contexts and frames (R150 to R152) -/

namespace State

def findCtx (s : State) (id : Nat) : Option Ctx := s.ctxs.find? fun c => c.id == id

def myCtx (s : State) : Option Ctx := s.findCtx s.me.ctx

def setCtx (s : State) (c : Ctx) : State :=
  { s with ctxs := s.ctxs.map fun d => if d.id = c.id then c else d }

/-- The lifetime cap in cycles: `RETN.NS` converted by R2, at 0.769 ns a cycle, rounded up. -/
def nsToCycles (ns : Nat) : Nat := (ns * 1000 + 768) / 769

end State

def Ctx.frame (c : Ctx) (slot : Nat) : Option Frame := c.frames.find? fun f => f.slot == slot

def Ctx.setFrame (c : Ctx) (f : Frame) : Ctx :=
  { c with frames := c.frames.map fun g => if g.slot = f.slot then f else g }

def frameUnit (geom : Option Geom) : Nat := if geom.isSome then 256 else 128

namespace State

/-- The number of plots of a frame. -/
def frameCount (s : State) (f : Frame) : Nat := if f.run then 2 ^ f.log2n else 64 * s.spanNB f.spane

/-- Plot j of a frame's set. -/
def framePlot (s : State) (f : Frame) (j : Nat) : Nat :=
  if f.run then f.start + j else 64 * s.spanByte f.spane (64 + j / 64) + j % 64

/-- The plots of a frame's set. -/
def framePlots (s : State) (f : Frame) : List Nat := (List.range (s.frameCount f)).map (s.framePlot f)

/-- The owner and the local offset of a frame offset (R152). -/
def frameAt (s : State) (f : Frame) (o : Nat) : Nat × Nat :=
  let u := frameUnit f.geom
  let n := s.frameCount f
  (s.framePlot f (o / u % n), f.lb + o / (u * n) * u + o % u)

def frameShare (s : State) (f : Frame) : Nat := f.size / s.frameCount f

end State

/-- An address in the near window (R94), and its slot and offset (R150). -/
def isNearVa (va : Nat) : Bool := va / 2 ^ 40 == 0x7FFF
def slotOf (va : Nat) : Nat := va / 2 ^ 32 % 256
def slotBase (slot : Nat) : Nat := 0x007FFF0000000000 + slot * 2 ^ 32

namespace State

/-- Whether a near key lies in a frame's storage. -/
def frameHas (s : State) (f : Frame) (k : Nat) : Bool :=
  isNear k && f.lb ≤ localOf k && localOf k < f.lb + s.frameShare f &&
    (if f.run then f.start ≤ plotOf k && plotOf k < f.start + 2 ^ f.log2n
     else (s.spanBeds f.spane).contains (plotOf k / 64))

/-- Every byte of a frame's storage becomes 0, and its words are no longer marked (R147, R155, R159). -/
def zeroFrame (s : State) (f : Frame) : State :=
  { s with mem := s.mem.filter fun c => !s.frameHas f c.1,
           nearUE := s.nearUE.filter fun w => !s.frameHas f (8 * w),
           nearFlip := s.nearFlip.filter fun w => !s.frameHas f (8 * w.1) }

/-- Finish the zeroing of the new frames of the stream's context, which any access to them waits for (R155). -/
def zeroFrames (s : State) : State :=
  match s.myCtx with
  | none => s
  | some c =>
    let fs := c.frames.filter Frame.zeroing
    if fs.isEmpty then s
    else (fs.foldl zeroFrame s).setCtx { c with frames := c.frames.map fun f => { f with zeroing := false } }

/-- Whether the rail of a layer under a plot is on, and the logic rail of its Garden (R167, R168, R378). -/
def railOn (s : State) (plot layer : Nat) : Bool :=
  s.rails.getLsbD (plot / 2048 * 4 + layer) && s.rails.getLsbD (16 + plot / 2048)

/-- Whether some share of a frame lies on a layer whose rail is off. -/
def frameOff (s : State) (f : Frame) : Bool :=
  (List.range (s.frameCount f)).any fun j =>
    (List.range 4).any fun l =>
      f.lb < (l + 1) * 65536 && l * 65536 < f.lb + s.frameShare f && !s.railOn (s.framePlot f j) l

/-- The data fault that an access to a byte of a frame meets now (R158, R168, R171)
(DESIGN CHOICE: notes/assumptions/21.md). -/
def nearCause (s : State) (f : Frame) (plot loc : Nat) : Option Nat :=
  if f.wd then some cWITHDRAWN
  else if !s.railOn plot (loc / 65536) then some cLAYEROFF
  else if f.park || s.now ≥ f.expiry then some cSTALE
  else none

end State

/-! ### The walk (R95 to R98) -/

/-- The kinds of access (R6). -/
inductive Acc where
  | read | write | atomic | exec
  deriving DecidableEq, Repr

/-- A leaf that the walk found: the entry, its level and its physical address. -/
structure Leaf where
  entry : Nat
  level : Nat
  at_ : Nat
  deriving DecidableEq, Repr

def pageSize (level : Nat) : Nat := if level = 1 then 2 ^ 42 else if level = 2 then 2 ^ 29 else 2 ^ 16

def pteV (e : Nat) : Bool := bit e 0
def pteLeaf (e : Nat) : Bool := bit e 1
def pteR (e : Nat) : Bool := bit e 2
def pteW (e : Nat) : Bool := bit e 3
def pteX (e : Nat) : Bool := bit e 4
def pteA (e : Nat) : Bool := bit e 5
def pteU (e : Nat) : Bool := bit e 6
def pteSync (e : Nat) : Bool := bit e 7
def pteGraph (e : Nat) : Bool := bit e 8
def pteTier (e : Nat) : Nat := bits e 9 2
def pteType (e : Nat) : Nat := bits e 11 6
def pteGeom (e : Nat) : Nat := bits e 17 2
def ptePpn (e : Nat) : Nat := bits e 20 32
def pteDev (e : Nat) : Nat := bits e 52 12

namespace State

/-- This device's id (R371). -/
def devid (s : State) : Nat := (s.dreg (controlBase + 0x200)).toNat % 4096

/-- Whether the whole page of a leaf lies in its tier's range (R97); a flip has left an entry at its address with a page of the
other range, as it still stands there (R118 to R120; notes/assumptions/20.md, DEDUCED). -/
def tierRange (s : State) (at_ e level : Nat) : Bool :=
  let lo := ptePpn e * 65536
  let size := pageSize level
  let other := level == 3 && s.crossed.contains (at_, e)
  let hbm := decide (lo + size ≤ hbmEnd)
  let cxl := decide (cxlBase ≤ lo) && decide (lo + size ≤ cxlEnd) && s.featCxl
  if pteTier e = 0 then hbm || (other && cxl) else cxl || (other && hbm)

/-- Whether a valid entry at a physical address is well formed (R97, R115, R371). -/
def pteOk (s : State) (at_ e level : Nat) : Bool :=
  if !pteLeaf e then
    level < 3 && e % 2 ^ 20 == 1 && pteDev e == 0 && decide ((ptePpn e + 1) * 65536 ≤ hbmEnd)
  else
    let ty := tyFOf (pteType e)
    let plain := pteType e == 0 && pteGeom e == 0
    !bit e 19 && pteTier e != 3 && pteGeom e != 3 && ty.isSome &&
    ptePpn e * 65536 % pageSize level == 0 &&
    (if pteTier e = 2 then pteDev e != s.devid && s.featZynfy
     else pteDev e == 0 && s.tierRange at_ e level) &&
    (pteTier e != 1 || s.featCxl) &&
    !(pteSync e && pteGraph e) &&
    (!(pteSync e || pteGraph e) || (plain && pteTier e != 1)) &&
    (!pteGraph e || pteTier e == 0) &&
    (!pteX e || (plain && pteTier e == 0)) &&
    (pteGeom e == 0 || (ty.getD none).any Ty.mxCapable)

/-- The walk of one page table from a level on. -/
def walkFrom (s : State) (va : Nat) : Nat → Nat → Nat → Option Leaf
  | 0, _, _ => none
  | fuel + 1, level, t =>
    let idx := bits va (if level = 1 then 42 else if level = 2 then 29 else 16) 13
    let pa := t + 8 * idx
    if !s.granted 48 .read (s.route pa) then none
    else
      match s.soundNat pa 8 with
      | none => none
      | some e =>
        if !pteV e || !s.pteOk pa e level then none
        else if pteLeaf e then some ⟨e, level, pa⟩
        else s.walkFrom va fuel (level + 1) (ptePpn e * 65536)

/-- What a walk's reads do at the channels: each entry goes through its check code (R109), and a refusal is counted (R373). -/
def walkReads (va : Nat) : Nat → Nat → Nat → State → State
  | 0, _, _, s => s
  | fuel + 1, level, t, s =>
    let pa := t + 8 * bits va (if level = 1 then 42 else if level = 2 then 29 else 16) 13
    if !s.granted 48 .read (s.route pa) then s.refuse 48 pa
    else
      let u := s.eccRead ((List.range 8).map fun o => pa + o)
      match s.soundNat pa 8 with
      | none => u
      | some e => if !pteV e || !s.pteOk pa e level || pteLeaf e then u else walkReads va fuel (level + 1) (ptePpn e * 65536) u

/-- The leaf in force for a context: a cached one, else the walk's. R99 lets translations be cached; this part caches leaves,
for the whole device and by context, uses every cached leaf until it is dropped, and caches no entry of another level
(DESIGN CHOICE: notes/assumptions/90.md). -/
def leafOf (s : State) (c : Ctx) (va : Nat) : Option Leaf :=
  match s.tlb.find? fun t => t.ctx == c.id && decide (t.base ≤ va) && decide (va < t.base + t.size) with
  | some t => some ⟨t.entry, if t.size = 2 ^ 42 then 1 else if t.size = 2 ^ 29 then 2 else 3, 0⟩
  | none => s.walkFrom va 3 1 c.ptRoot

/-- An address of a context is looked up: what its walk does, unless its leaf is cached. -/
def walkedIn (s : State) (ctx va : Nat) : State :=
  match s.findCtx ctx with
  | none => s
  | some c =>
    if isNearVa va || decide (2 ^ 55 ≤ va) ||
        s.tlb.any fun t => t.ctx == c.id && decide (t.base ≤ va) && decide (va < t.base + t.size) then s
    else walkReads va 3 1 c.ptRoot s

def walked (s : State) (va : Nat) : State := s.walkedIn s.me.ctx va

/-- The walk of an address, and its leaf cached when the turn says that walks are cached (R99). -/
def fillTlb (s : State) (va : Nat) : State :=
  let s := s.walked va
  if !s.fills || isNearVa va then s
  else
    match s.myCtx with
    | none => s
    | some c =>
      if s.tlb.any fun t => t.ctx == c.id && decide (t.base ≤ va) && decide (va < t.base + t.size) then s
      else
        match s.walkFrom va 3 1 c.ptRoot with
        | some l =>
          let z := pageSize l.level
          { s with tlb := ⟨c.id, va - va % z, z, l.entry⟩ :: s.tlb }
        | none => s

end State

/-- The physical target of a virtual byte (R98, R101, R152). -/
structure Where where
  key : Nat
  ty : TyF
  geom : Option Geom
  near : Bool
  slot : Nat
  sync : Bool
  graph : Bool
  remote : Bool
  deriving DecidableEq, Repr

def geomOf (n : Nat) : Option Geom := if n = 1 then some .mx32 else if n = 2 then some .mx16 else none

def leafTarget (l : Leaf) (va : Nat) : Where :=
  let pa := ptePpn l.entry * 65536 + va % pageSize l.level
  { key := if pteTier l.entry = 2 then remoteKey (pteDev l.entry) pa else pa,
    ty := (tyFOf (pteType l.entry)).getD none, geom := geomOf (pteGeom l.entry), near := false, slot := 0,
    sync := pteSync l.entry, graph := pteGraph l.entry, remote := pteTier l.entry == 2 }

/-- The permission bits that an access needs (R98). -/
def permits (e : Nat) (acc : Acc) : Bool :=
  match acc with
  | .read => pteR e
  | .write => pteW e
  | .atomic => pteR e && pteW e && pteA e
  | .exec => pteX e

namespace State

/-- `Translate(va, access)` for a context in a mode (R98, R150). `sync` marks a sync or atomic form. -/
def translateIn (s : State) (c : Ctx) (supv : Bool) (acc : Acc) (sync : Bool) (va : Nat) : Except Nat Where :=
  if va ≥ 2 ^ 55 then .error cXLATE
  else if isNearVa va then
    match c.frame (slotOf va) with
    | none => .error cNEARRANGE
    | some f =>
      if va % 2 ^ 32 ≥ f.size then .error cNEARRANGE
      else
        let pl := s.frameAt f (va % 2 ^ 32)
        .ok ⟨nearKey pl.1 pl.2, f.ty, f.geom, true, f.slot, false, false, false⟩
  else
    match s.leafOf c va with
    | none => .error cXLATE
    | some l =>
      if !permits l.entry acc then .error cPROT
      else if !supv && !pteU l.entry then .error cPROT
      else if pteSync l.entry && acc == .write && !sync then .error cSYNCUSE
      else .ok (leafTarget l va)

def translate (s : State) (acc : Acc) (sync : Bool) (va : Nat) : Except Nat Where :=
  match s.myCtx with
  | none => .error cXLATE
  | some c => s.translateIn c s.me.supv acc sync va

/-- The type and geometry at an address with no permission check (R25). -/
def formatAt (s : State) (va : Nat) : Except Nat (TyF × Option Geom) :=
  match s.myCtx with
  | none => .error cXLATE
  | some c =>
    if va ≥ 2 ^ 55 then .error cXLATE
    else if isNearVa va then
      match c.frame (slotOf va) with
      | none => .error cNEARRANGE
      | some f => if va % 2 ^ 32 ≥ f.size then .error cNEARRANGE else .ok (f.ty, f.geom)
    else
      match s.leafOf c va with
      | none => .error cXLATE
      | some l => .ok ((tyFOf (pteType l.entry)).getD none, geomOf (pteGeom l.entry))

/-- Whether the stream may write the byte at an address with respect to bindings (R267). -/
def heldOk (s : State) (va n : Nat) : Bool :=
  match s.myCtx with
  | none => true
  | some c =>
    c.bindings.all fun b =>
      va + n ≤ b.base || b.base + b.len ≤ va || s.me.holds.any fun h => h.key == b.key && !h.shared

/-- The frame of the stream's context that holds a near key's slot. -/
def myFrame (s : State) (slot : Nat) : Option Frame := s.myCtx.bind fun c => c.frame slot

/-- `Owner` of an address as the stream's span and frame table give it (R6). -/
def ownerOf (s : State) (w : Where) (va : Nat) : Nat :=
  if w.near then plotOf w.key else farOwner s.me.beds va

/-- Where `n` bytes from an address lie, each byte translated with the access; the bytes of an element of 8 bits or
more share their page and their stripe unit, those of a narrower one may not (R22, R23), and then the cause that comes
first in R349's order is the cause. -/
def locate (s : State) (acc : Acc) (sync : Bool) (va n : Nat) : Except Nat (Where × List Nat) :=
  match s.translate acc sync va with
  | .error c => .error c
  | .ok w =>
    if va % n = 0 then .ok (w, (List.range n).map fun o => w.key + o)
    else
      (List.range n).foldl (fun r o =>
        match r, s.translate acc sync (va + o) with
        | .error c, .error d => .error (if causeRank d < causeRank c then d else c)
        | .error c, .ok _ => .error c
        | .ok _, .error d => .error d
        | .ok (w, ks), .ok w' => .ok (w, ks ++ [w'.key])) (.ok (w, []))

/-- The first address of the page that holds an address (R34); of 64 KiB where no leaf maps it, in the near window and above
2^55 (DESIGN CHOICE: notes/assumptions/93.md). -/
def pageStart (s : State) (va : Nat) : Nat :=
  match s.myCtx.bind fun c => if isNearVa va || va ≥ 2 ^ 55 then none else s.leafOf c va with
  | some l => va - va % pageSize l.level
  | none => va - va % 65536

/-! ### Fetch (R8, R34, R319) -/

/-- What every byte of memory reads as now, with what the check code corrects, kept for a stream's fetches (R319,
R109). -/
def textNow (s : State) : List Host.Cell :=
  let m := (s.hbmErr.filter fun e => isHbm e.1).foldl
    (fun m e => (List.range 32).foldl (fun m o => Memory.put m (e.1 / 32 * 32 + o) (s.heldByte (e.1 / 32 * 32 + o))) m) s.mem
  (s.gcode.filter fun g => g.2 ≥ 2).foldl
    (fun m g => (List.range 256).foldl (fun m o => Memory.put m (g.1 * 256 + o) (s.patternByte g.1 g.2 o)) m) m

/-- What a fetch does at the channels: its walk, and the read of its sector (R8, R109, R373). -/
def fetchReads (s : State) (va : Nat) : State :=
  let s := s.walked va
  match s.translate .exec false va with
  | .error _ => s
  | .ok w =>
    if w.near then s
    else if !s.granted 48 .read (s.route w.key) then s.refuse 48 w.key
    else s.eccRead [w.key]

/-- The word at an address as the stream fetches it; none if it cannot be fetched
(DEDUCED: notes/assumptions/37.md). -/
def fetchWord (s : State) (va : Nat) : Option IWord :=
  match s.translate .exec false va with
  | .error _ => none
  | .ok w =>
    let k := s.route w.key
    if w.near || (s.soundByte w.key).isNone || !s.granted 48 .read k then none
    else
      let cells := ((s.me.text.find? fun t => decide (t.lo ≤ va) && decide (va < t.hi)).map TextCopy.cells).getD []
      some (wordOfBytes ((List.range 16).map fun o => Memory.get cells (k + o)))

end State

end Sys2Proof.Machine
end

