-- ==== Sys2Proof/Machine/Ops.lean ====
section
/-! DEFINITION. The named operations of a stream: registers and the pc, reads and writes of memory under the strip
(11 R303 to R308, 04 R104), entering a handler and leaving it (11 R317, R318; 17 R345 to R348), rewinding (17 R353). -/

namespace Sys2Proof.Machine

abbrev Out := Host.Outcome State Fault Refusal

/-! ### Registers (R287) and the pc -/

/-- `s0` reads 0. -/
def Band.reg (b : Band) (r : Reg) : Word := if r.val = 0 then 0 else b.regs[r.val]

/-- A write to `s0` is discarded. -/
def Band.setReg (b : Band) (r : Reg) (v : Word) : Band :=
  if r.val = 0 then b else { b with regs := b.regs.set r.val v }

/-- The address of the word that is issuing, or of its prefix (R32). -/
def Band.issueAddr (b : Band) : Word :=
  match b.pfx with
  | some p => p.addr
  | none => b.pc

namespace State

def reg (s : State) (r : Reg) : Word := s.me.reg r

def setReg (s : State) (r : Reg) (v : Word) : State := { s with me := s.me.setReg r v }

def setPc (s : State) (a : Word) : State := { s with me := { s.me with pc := a } }

/-- The instruction takes its sequence number (R172) and its prefix is spent (R29). -/
def counted (s : State) : State := { s with me := { s.me with seq := s.me.seq + 1, pfx := none } }

/-- The instruction is done: fetch goes on at the next word. -/
def retire (s : State) : State :=
  { s with me := { s.me with pc := s.me.pc + 16, seq := s.me.seq + 1, pfx := none, waiting := none } }

/-- Write a result and go on. -/
def finish (s : State) (r : Reg) (v : Word) : State := (s.setReg r v).retire

/-! ### The settings of the instruction that issues (R29, R84, R86) -/

def rmNow (s : State) : RMode := (s.me.pfx.bind fun p => p.rm).getD s.me.rm
def satNow (s : State) : Nat := ((s.me.pfx.bind fun p => p.sat).map Fin.val).getD s.me.sat
def seedNow (s : State) : BitVec 32 := (s.me.pfx.bind fun p => p.seed).getD (s.me.seed.setWidth 32)

/-- The controls of an encoding with stochastic index i (R77). -/
def rctl (s : State) (i : Nat) : RCtl :=
  ⟨s.rmNow, s.satNow, srHash s.seedNow (s.me.seq % 2 ^ 32) i⟩

def orFlags (s : State) (f : Flags) : State := { s with me := { s.me with fpsr := s.me.fpsr ||| f } }

/-! ### The stream's own view of memory -/

/-- A byte that the far-store buffer or a packet on its way holds (R104). -/
def buffered (s : State) (k : Nat) : Option Byte :=
  match s.me.strip.far.reverse.findSome? fun p => assoc p.cells k with
  | some v => some v
  | none => (s.me.wpkts.reverse.find? fun p => (assoc p.cells k).isSome).bind fun p => assoc p.cells k

/-- A byte as the stream's later reads see it. -/
def seen (s : State) (k : Nat) : Byte := (s.buffered k).getD (s.byteAt k)

/-- What is wrong with a datum that a stream consumes (R351): the cause, whether the access was refused (R373), and
whether it was remote. -/
structure BadDatum where
  code : Nat
  refused : Bool
  rmt : Bool
  deriving DecidableEq, Repr

/-- Check the bytes of a datum after their sectors were read: refusal, poison, uncorrectable words (R104, R109, R117,
R147, R373). -/
def badDatum (s : State) (acc : Access) (keys : List Nat) : Option BadDatum :=
  let ks := keys.filter fun k => (s.buffered k).isNone
  if ks.any fun k => !s.granted 48 acc (s.route k) then some ⟨cPOISON, true, ks.any isRemote⟩
  else if ks.any fun k => s.isPoisoned k then some ⟨cPOISON, false, false⟩
  else if ks.any fun k => isNear k && s.isUE k then some ⟨cNEARUE, false, false⟩
  else none

/-- Reading takes the sectors and words through their codes (R109, R147); each refused group of 64 bytes is counted (R373). -/
def readThrough (s : State) (acc : Access) (keys : List Nat) : State :=
  let ks := keys.filter fun k => (s.buffered k).isNone
  let ok := ks.filter fun k => s.granted 48 acc (s.route k)
  ((s.refuseEach 48 64 (ks.filter fun k => !s.granted 48 acc (s.route k))).eccRead ok).nearRead (ok.filter isNear)

/-- The bytes of a datum, as a number. -/
def seenNat (s : State) (keys : List Nat) : Nat := ofBytesLE (keys.map s.seen)

/-- Later scalar loads of the stream fetch afresh (R268, R270; DESIGN CHOICE: notes/assumptions/77.md). -/
def afresh (s : State) : State := { s with dcache := s.dcache.filter fun l => l.band != s.me.id }

/-- An `AWAIT` or `AWAIT.GE` whose end its object has told has finished; any other wait goes on (R265, R277). -/
def endedWait (s : State) : State :=
  match s.me.waiting with
  | some (.await _ _ x (some v)) | some (.awaitGe _ _ x (some v)) => s.afresh.finish x.d v
  | _ => s

/-! ### Far stores and near writes under the strip (R104, R306, R307) -/

/-- Far stores by granule, as their elements leave, each with the write packets of its 64 KiB block (R102, R104). -/
def packets (p : FarPkt) : List WPkt :=
  let gs := p.cells.foldl (fun l c => insertNat (c.1 / 256) l) []
  gs.map fun g => ⟨g, p.cells.filter fun c => c.1 / 256 == g, p.heads.filter fun h => h.ppn == g / 256⟩

/-- Far stores reach their targets, which check them (R104, R373): a refused one is dropped and counted, once for each granule
(DESIGN CHOICE: notes/assumptions/91.md). -/
def arriveFar (s : State) (cells : List (Nat × Byte)) : State :=
  let ok := fun (c : Nat × Byte) => s.granted 48 .write (s.route c.1)
  (s.refuseEach 48 256 ((cells.filter fun c => !ok c).map Prod.fst)).writeCells (cells.filter ok) false

/-- Every store that has left and is not yet performed is performed (R269, R270, R271)
(DEDUCED: notes/assumptions/40.md). -/
def performed (s : State) : State :=
  s.me.wpkts.foldl (fun s p => s.arriveFar p.cells) { s with me := { s.me with wpkts := [] } }

/-- The stores that have left for a granule are performed (R259). -/
def performedAt (s : State) (g : Nat) : State :=
  (s.me.wpkts.filter fun p => p.granule == g).foldl (fun s p => s.arriveFar p.cells)
    { s with me := { s.me with wpkts := s.me.wpkts.filter fun p => p.granule != g } }

/-- Perform far stores at their homes, instruction by instruction and after those that have left before, or send their
packets when the turn holds work back (R104). -/
def performFar (s : State) (ps : List FarPkt) : State :=
  if ps.isEmpty then s
  else if s.holdBack then { s with me := { s.me with wpkts := s.me.wpkts ++ ps.flatMap packets } }
  else ps.foldl (fun s p => s.arriveFar p.cells) s.performed

/-- A byte joins the buffered stores of its instruction; the list stands in order of sequence numbers. -/
def addFar (seq part : Nat) (heads : List RPkt) (c : Nat × Byte) : List FarPkt → List FarPkt
  | [] => [⟨seq, part, [c], heads⟩]
  | p :: l =>
    if p.seq = seq ∧ p.part = part then { p with cells := assocSet p.cells c.1 c.2 } :: l
    else if seq < p.seq ∨ (seq = p.seq ∧ part < p.part) then ⟨seq, part, [c], heads⟩ :: p :: l
    else p :: addFar seq part heads c l

/-- Sealing (R307): the buffered far stores are performed, the journal goes, and no rewind can follow. -/
def sealStrip (s : State) : State :=
  if s.me.strip.sealed then s
  else
    ({ s with me := { s.me with strip :=
        { s.me.strip with sealed := true, check := none, far := [], farAt := [], journal := [] } } }).performFar
      s.me.strip.far

/-- A far store of instruction `seq` of bytes whose owner is `plot`, under their write packets; `part` tells an element that is a
packet of its own (R102). -/
def storeFar (s : State) (seq part : Nat) (heads : List RPkt) (plot : Nat) (cells : List (Nat × Byte)) : State :=
  if cells.any fun c => isRemote c.1 then s.writeCells cells false
  else
    let at_ := cells.foldl (fun l c => if l.contains (plot, c.1 / 64) then l else l ++ [(plot, c.1 / 64)]) s.me.strip.farAt
    let full := !s.me.strip.sealed && decide ((at_.filter fun a => a.1 == plot).length > 256)
    let s : State := if full then s.sealStrip else s
    { s with me := { s.me with strip := { s.me.strip with
        far := cells.foldl (fun l c => addFar seq part heads c l) s.me.strip.far,
        farAt := if s.me.strip.sealed then [] else at_ } } }

/-- In a sealed strip the far stores of an instruction are performed as it finishes (R307). -/
def flushFar (s : State) (seq : Nat) : State :=
  if s.me.strip.sealed && !s.me.strip.far.isEmpty then
    ({ s with me := { s.me with strip := { s.me.strip with far := s.me.strip.far.filter fun p => seq < p.seq } } }).performFar
      (s.me.strip.far.filter fun p => p.seq ≤ seq)
  else s

/-- A near write of bytes of one plot: the old groups are journalled while the strip is unsealed. -/
def storeNear (s : State) (cells : List (Nat × Byte)) : State :=
  let gs := cells.foldl (fun l c => insertNat (c.1 / 64) l) []
  let put := fun (s : State) => (s.putMem cells).nearWritten (cells.map Prod.fst)
  if s.me.strip.sealed then put s
  else
    let new := gs.filter fun g => (assoc s.me.strip.journal g).isNone
    let plot := plotOf (gs.headD 0 * 64)
    let held := s.me.strip.journal.filter fun e => plotOf (e.1 * 64) == plot
    if held.length + new.length > 448 then put s.sealStrip
    else
      let old := new.map fun g => (g, (List.range 64).map fun o => Memory.get s.mem (g * 64 + o))
      put { s with me := { s.me with strip := { s.me.strip with journal := old.reverse ++ s.me.strip.journal } } }

/-! ### Commit (R303, R218) -/

/-- The value checkpointed when a strip opens (R303, R305). -/
def checkpoint (s : State) : Checkpoint :=
  let b := s.me
  { regs := b.regs, masks := b.masks, vl := b.vl, rm := b.rm, sat := b.sat, fpsr := b.fpsr, trusted := b.trusted,
    ntfa := b.ntfa, ntfCount := b.ntfCount, seed := b.seed, tsr := b.trl.tsr, tvec := b.tvec, inh := b.inh,
    epc := b.epc, ecause := b.ecause, eaddr := b.eaddr, eelem := b.eelem, estat := b.estat, einfo := b.einfo,
    hintmiss := b.hintmiss, slots := b.slots }

/-- Every `AWAIT.GE` that waits on an object whose progress word has been written has its result, where the word now reaches what
it waits for (R277). -/
def latchGe (s : State) (o : Nat) : State :=
  let v := s.readNat (o + 16) 8
  let f := fun (b : Band) => match b.waiting with
    | some (.awaitGe k n x none) =>
      if k = o ∧ n ≤ v then { b with waiting := some (.awaitGe k n x (some (BitVec.ofNat 64 v))) } else b
    | _ => b
  { s with me := f s.me, bands := s.bands.map f }

/-- The notification of a committed strip (R218): once every write of the strip is performed, the count goes to the object's
progress word. A refused write is counted (R373) and a vanished object left alone, since notification raises no fault. -/
def notify (s : State) : State :=
  match s.me.strip.ntf with
  | none => s
  | some (obj, v) =>
    let s : State := s.performed
    let s : State := { s with me := { s.me with ntfCount := s.me.ntfCount + v } }
    match s.translate .atomic true obj.toNat with
    | .ok w =>
      if !w.sync then s
      else if s.granted 48 .write (s.route w.key) then (s.writeNat (w.key + 16) 8 s.me.ntfCount).latchGe w.key
      else s.refuse 48 (w.key + 16)
    | .error _ => s

/-- Commit the current strip: its far stores, then its notification (R303). -/
def commitStrip (s : State) : State :=
  (({ s with me := { s.me with strip := { s.me.strip with far := [], farAt := [], journal := [] } } }).performFar
      s.me.strip.far).notify

/-- Open a strip whose rewind resumes at `at_` (R303). -/
def openStrip (s : State) (at_ : Word) : State :=
  { s with me := { s.me with strip := ⟨false, at_, some s.checkpoint, [], [], [], none, false⟩ } }

/-! ### Rewind (R308, R353) -/

/-- Undo the journal, newest entry first, and restore the checkpoint. Sequence numbers continue. -/
def rewind (s : State) : State :=
  let b := s.me
  let s := s.putMem (b.strip.journal.flatMap fun e => e.2.mapIdx fun o v => (e.1 * 64 + o, v))
  let b : Band := match b.strip.check with
    | some c =>
      { b with regs := c.regs, masks := c.masks, vl := c.vl, rm := c.rm, sat := c.sat, fpsr := c.fpsr,
               trusted := c.trusted, ntfa := c.ntfa, ntfCount := c.ntfCount, seed := c.seed,
               trl := { b.trl with tsr := c.tsr }, tvec := c.tvec, inh := c.inh, epc := c.epc, ecause := c.ecause,
               eaddr := c.eaddr, eelem := c.eelem, estat := c.estat, einfo := c.einfo, hintmiss := c.hintmiss,
               slots := c.slots }
    | none => b
  let strip : Strip := { b.strip with far := [], farAt := [], journal := [], ntf := none, rewound := true }
  { s with me := { b with pc := b.strip.resume, pfx := none, jobs := [], pending := none, strip } }

/-! ### Taking an exception (R317, R345 to R348) -/

/-- `ESTAT` (R347). -/
def estatOf (r : FaultRec) (seq : Nat) (wasSealed recur : Bool) (nstop : Nat) : Word :=
  BitVec.ofNat 64 (packFields [(13, r.dplot), (3, r.opnd), (5, nstop), (1, bitOf recur), (1, bitOf wasSealed),
    (1, bitOf r.rmt), (8, r.subc), (32, seq)])

/-- `ECAUSE` (R345). -/
def ecauseOf (code : Nat) : Word := BitVec.ofNat 64 (code + 4096 * causeClass code)

/-- A fault with no handler, or in the handler (R317, step 1): the context is to be killed, or the supervisor stream
stops and is reported. -/
def unhandled (s : State) (code : Nat) (epc : Word) : State :=
  let s : State := { s with me := { s.me with pfx := none, jobs := [], pending := none, waiting := none } }
  if s.me.supv then
    { s with me := { s.me with status := .dead }, answers := s.answers ++ [.report code epc] }
  else { s with pendKill := s.pendKill ++ [⟨s.me.ctx, code, epc⟩], me := { s.me with status := .dead } }

/-- Trap entry for a cause at `epc`, once every older instruction has finished: steps 1 and 3 to 7 of R317. `seq` is
the number that `ESTAT` shows, and `stops` are the instructions kept for `ERET`. -/
def enterTrap (s : State) (r : FaultRec) (epc : Word) (seq : Nat) (stops : List StopInstr) : State :=
  if s.me.tvec = 0 ∨ s.me.inh = true then s.unhandled r.code epc
  else
    let wasSealed := s.me.strip.sealed
    let recur := s.me.strip.rewound && !r.refused && (r.code == cPOISON || r.code == cNEARUE)
    let s := s.sealStrip
    { s with me := { s.me with
        epc := epc &&& ~~~15, stopEpc := epc &&& ~~~15, stops,
        ecause := ecauseOf r.code, eaddr := r.addr, eelem := BitVec.ofNat 64 r.elem,
        estat := estatOf r (seq % 2 ^ 32) wasSealed recur stops.length, einfo := r.info,
        inh := true, pc := s.me.tvec, pfx := none, jobs := [], pending := none, waiting := none } }

/-- A cause of a translation was found by a walk, whose reads have gone through the channels (R98, R109). -/
def probed (s : State) (r : FaultRec) : State := if 7 ≤ r.code ∧ r.code ≤ 14 then s.walked r.addr.toNat else s

/-- Raise a pre-issue cause of the word that is issuing: nothing of it takes effect, and it takes no number (R39, R172).
`IFETCH` and `ORPHANPFX` show no number (R347). -/
def raise (s : State) (r : FaultRec) : State :=
  (s.probed r).enterTrap r s.me.issueAddr (if r.code = cIFETCH ∨ r.code = cORPHANPFX then 0 else s.me.seq) []

/-- A cause whose record names no address: `EADDR` is a free value (R348; notes/assumptions/11.md, DESIGN CHOICE). -/
def raiseNoAddr (s : State) (code : Nat) : State :=
  ({ s with nextFree := s.nextFree + 1 }).raise { preFault code 0 0 opNone with addr := Config.freeAddr s.nextFree }

/-- The instruction that issues, stopped with captured guard `guard` and no progress. -/
def stopHere (s : State) (guard : Nat) : StopInstr :=
  ⟨s.me.issueAddr, s.me.seq, guard, [], [], [], [], none, none, .i8, none, []⟩

/-- A data fault met at its issue by an instruction (R185, R317, R351, R353): it stops as `first` says, with those after
it, and `ERET` issues them again. -/
def raiseDataWith (s : State) (r : FaultRec) (first : StopInstr) (rest : List StopInstr) : State :=
  if (r.code == cPOISON || r.code == cNEARUE) && !r.refused && !s.me.strip.sealed && !s.me.strip.rewound then
    s.counted.rewind
  else s.counted.enterTrap r s.me.issueAddr s.me.seq ({ first with addr := s.me.issueAddr, seq := s.me.seq } :: rest)

/-- The same for an instruction that has made no progress. -/
def raiseDataAs (s : State) (r : FaultRec) (guard : Nat) : State := s.raiseDataWith r (s.stopHere guard) []

/-- The same for scalar accesses, sync forms and records (R124, R263, R299). -/
def raiseData (s : State) (r : FaultRec) : State := s.raiseDataAs r 0

/-- Leaving the handler (R318): `INH` := 0 and fetch goes on at `at_`, exempt from `LAND`. -/
def leaveTrap (s : State) (at_ : Word) : State :=
  { s with me := { s.me with inh := false, stops := [], pc := at_, pfx := none } }

/-! ### Acting for another stream -/

/-- Exchange the moving stream with the one on another Bandstand. -/
def swapIn (s : State) (b : Fin 64) : Option State :=
  if s.me.id = b then some s
  else
    match s.bands.find? fun x => x.id == b with
    | none => none
    | some x => some { s with me := x, bands := s.bands.map fun y => if y.id = b then s.me else y }

/-- Do something as the stream on a Bandstand (DESIGN CHOICE: notes/assumptions/70.md). -/
def asBand (s : State) (b : Fin 64) (f : State → State) : State :=
  match s.swapIn b with
  | none => s
  | some t => ((f t).swapIn s.me.id).getD (f t)

/-- The state that an outcome goes on with; any other leaves the state as it stands. -/
def nextOr (s : State) : Out → State
  | .next t => t
  | _ => s

end State

end Sys2Proof.Machine
end

