-- ==== Sys2Proof/Machine/Nodes.lean ====
section
/-! DEFINITION. Graph nodes (15 R322 to R327, R331): the Arbour's copy of a node, its checks, and how an atomic makes
it ready. The Arbour reads and writes memory as master class 52 (R372). -/

namespace Sys2Proof.Machine

namespace State

/-! ### Registrations and queues -/

/-- The context that a graph page is registered with (R324, R367). -/
def graphOwner (s : State) (ppn : Nat) : Option Nat :=
  s.dregs.findSome? fun r =>
    if arbourBase + 0x4000 ≤ r.1 ∧ r.1 < arbourBase + 0xC000 ∧ bit r.2.toNat 63 = true ∧ r.2.toNat % 2 ^ 32 = ppn then
      some (bits r.2.toNat 32 16)
    else none

/-- `QCFG` of a queue (R334). -/
def qcfg (s : State) (q : Nat) : Nat := (s.dreg (arbourBase + 0x1000 + 8 * q)).toNat
def qLevel (s : State) (q : Nat) : Nat := bits (s.qcfg q) 0 3
def qAge (s : State) (q : Nat) : Nat := bits (s.qcfg q) 16 16
def qWeight (s : State) (q : Nat) : Nat := bits (s.qcfg q) 32 8
def qNoPre (s : State) (q : Nat) : Bool := bit (s.qcfg q) 40

/-- Microseconds in cycles by R2, at 0.769 ns a cycle, rounded up. -/
def usToCycles (us : Nat) : Nat := nsToCycles (us * 1000)

/-! ### The Arbour's accesses -/

def arbourRead (s : State) (pa n : Nat) : Option Nat :=
  if s.granted 52 .read (s.route pa) then s.soundNat pa n else none

/-- What such a read does at its channel (R109, R373). -/
def arbourReads (s : State) (pa n : Nat) : State :=
  if s.granted 52 .read (s.route pa) then s.eccRead ((List.range n).map fun o => pa + o) else s.refuse 52 pa

def arbourWrite (s : State) (pa n v : Nat) : State :=
  if s.granted 52 .write (s.route pa) then s.writeNat pa n v else s.refuse 52 pa

/-- An address of a context as the Arbour translates it for an access in user mode (R324). -/
def arbourWhere (s : State) (ctx : Nat) (acc : Acc) (va : Nat) : Option Where :=
  match s.findCtx ctx with
  | none => none
  | some c => match s.translateIn c false acc false va with
    | .ok w => some w
    | .error _ => none

def arbourPlace (s : State) (ctx : Nat) (acc : Acc) (va : Nat) : Option Nat := (s.arbourWhere ctx acc va).map Where.key

/-- What reading n bytes at an address of a context does: its walk, then the read. -/
def arbourLooks (s : State) (ctx va n : Nat) : State :=
  let s := s.walkedIn ctx va
  match s.arbourPlace ctx .read va with
  | some pa => if n = 0 then s else s.arbourReads pa n
  | none => s

/-- The address at which a context maps a page of its page table, the lowest one (R326 names a node only by its physical
address; notes/assumptions/27.md, DEDUCED). -/
def vaOfPa (s : State) (ctx pa : Nat) : Option Nat :=
  match s.findCtx ctx with
  | none => none
  | some c =>
    let entries := fun (t : Nat) => (List.range 8192).map fun i => (i, s.readNat (t + 8 * i) 8)
    let hits := fun (level e base : Nat) =>
      if pteV e && pteLeaf e && decide (ptePpn e * 65536 ≤ pa) && decide (pa < ptePpn e * 65536 + pageSize level) then
        some (base + (pa - ptePpn e * 65536))
      else none
    let l3 := fun (t base : Nat) => (entries t).findSome? fun e => hits 3 e.2 (base + e.1 * 2 ^ 16)
    let l2 := fun (t base : Nat) => (entries t).findSome? fun e =>
      if pteV e.2 && !pteLeaf e.2 then l3 (ptePpn e.2 * 65536) (base + e.1 * 2 ^ 29)
      else hits 2 e.2 (base + e.1 * 2 ^ 29)
    (entries c.ptRoot).findSome? fun e =>
      if pteV e.2 && !pteLeaf e.2 then l2 (ptePpn e.2 * 65536) (e.1 * 2 ^ 42) else hits 1 e.2 (e.1 * 2 ^ 42)

/-! ### The copy and its checks (R322, R324, R327) -/

/-- The Arbour's copy of a node, with the queue's level and weight as they stand at readiness (R334, R335). -/
def nodeCopy (s : State) (va pa ctx : Nat) : NodeCopy :=
  let f := fun off n => s.readNat (pa + off) n
  let q := f 6 1
  { va, pa, ctx, kind := f 4 1, queue := q, gidx := f 7 1, code := BitVec.ofNat 64 (f 8 8), arg := BitVec.ofNat 64 (f 16 8),
    succ := f 24 8, nsucc := f 32 4, wdog := f 36 4, donew := f 40 8, level := max (s.qLevel q) (f 5 1 % 8),
    weight := s.qWeight q, order := s.nextOrder }

/-- Whether the node at a physical address obeys R322. -/
def nodeOk (s : State) (pa : Nat) : Bool :=
  let c := s.nodeCopy 0 pa 0
  let code := c.code.toNat
  decide (c.kind ≤ 3) && decide (s.readNat (pa + 5) 1 < 8) &&
  (if c.kind ≤ 1 then decide (c.gidx < 16) else c.gidx == 0) &&
  (match c.kind with
    | 0 => code % 16 == 0
    | 1 => code % 64 == 0
    | 2 => decide (code < 2048)
    | _ => code == 0) &&
  (match c.kind with
    | 0 => true
    | 1 => decide (1 ≤ c.arg.toNat) && decide (c.arg.toNat ≤ 4096)
    | _ => c.arg == 0) &&
  (if c.nsucc = 0 then c.succ == 0 else c.succ % 8 == 0) && decide (c.nsucc ≤ 65535) && c.donew % 8 == 0 &&
  s.readNat (pa + 49) 15 == 0

/-- The `DETAIL` with which a node fails at readiness, or 0 (R327, R331). -/
def nodeDetail (s : State) (c : NodeCopy) : Nat :=
  if !s.nodeOk c.pa then 1
  else if c.kind ≤ 1 && ((s.findCtx c.ctx).bind fun x => (x.groups[c.gidx]?).join).isNone then 2
  else if (c.kind == 0 && (s.arbourPlace c.ctx .exec c.code.toNat).isNone) ||
      (c.kind == 1 && (s.arbourPlace c.ctx .read c.code.toNat).isNone) ||
      (c.nsucc != 0 && (s.arbourPlace c.ctx .read c.succ).isNone) ||
      (c.donew != 0 && (s.arbourPlace c.ctx .write c.donew).isNone) then 3
  else 0

def setNodeState (s : State) (pa v : Nat) : State := s.arbourWrite (pa + 48) 1 v

/-! ### Queue heads (R335, R337) -/

/-- The stopped streams that stand in a queue, and the ready nodes. -/
def queueStopped (s : State) (q : Nat) : List Stopped :=
  s.stopped.filter fun x => x.queued.isSome && (x.band.node.map NodeRef.queue) == some q

/-- The stopped stream at the head of a queue: the one that came to its front last, else one that came back before every
ready node. -/
def headStopped (s : State) (q : Nat) : Option Stopped :=
  let l := s.queueStopped q
  match (l.filter fun x => x.queued.any QPos.front).getLast? with
  | some x => some x
  | none =>
    match l.head?, s.ready.find? fun c => c.queue == q with
    | some x, some c => if (x.queued.map QPos.order).getD 0 < c.order then some x else none
    | some x, none => some x
    | none, _ => none

/-- The work that stands at the head of a queue: a stopped stream's number, or a ready node's address. -/
def headOf (s : State) (q : Nat) : Option (Option Nat × Nat) :=
  match s.headStopped q with
  | some x => some (some x.band.sid, 0)
  | none => (s.ready.find? fun c => c.queue == q).map fun c => (none, c.pa)

/-- The base level of the head of a queue. -/
def headBase (s : State) (q : Nat) : Nat :=
  match s.headStopped q with
  | some x => (x.band.node.map NodeRef.level).getD 0
  | none => ((s.ready.find? fun c => c.queue == q).map NodeCopy.level).getD 0

/-- `level(t)` of R335. -/
def levelAt (s : State) (q base since : Nat) : Nat :=
  if s.qAge q = 0 then base else min 7 (base + (s.now - since) / usToCycles (s.qAge q))

/-- Note the new heads of the queues, each from now on; a head that stays keeps its time. -/
def fixHeads (s : State) : State :=
  let qs := (s.stopped.filterMap fun x => if x.queued.isSome then x.band.node.map NodeRef.queue else none) ++
    s.ready.map NodeCopy.queue
  let qs := qs.foldl (fun l q => if l.contains q then l else l ++ [q]) ([] : List Nat)
  { s with heads := qs.filterMap fun q => (s.headOf q).map fun h =>
      match s.heads.find? fun x => x.q == q && x.sid == h.1 && x.pa == h.2 with
      | some x => x
      | none => ⟨q, h.1, h.2, s.now, s.headBase q⟩ }

/-! ### Becoming ready (R325) -/

/-- The copy of a node whose bytes reach the Arbour poisoned: nothing of it is known but where it stands
(notes/assumptions/112.md, DESIGN CHOICE). -/
def blankCopy (s : State) (va pa ctx : Nat) : NodeCopy :=
  { va, pa, ctx, kind := 0, queue := 0, gidx := 0, code := 0, arg := 0, succ := 0, nsucc := 0, wdog := 0, donew := 0, level := 0,
    weight := 1, order := s.nextOrder }

/-- A node becomes ready: it enters its queue, or completes at once, or fails (R325, R327, R329, R363); one whose bytes are
refused or poisoned fails as malformed (R373). -/
def nodeReady (s : State) (va pa ctx : Nat) : State :=
  let s := (s.setNodeState pa 2).arbourReads pa 64
  let sound := (s.arbourRead pa 64).isSome
  let c := if sound then s.nodeCopy va pa ctx else s.blankCopy va pa ctx
  let s := ((if c.kind ≤ 1 then [c.code.toNat] else []) ++ (if c.nsucc ≠ 0 then [c.succ] else []) ++
    if c.donew ≠ 0 then [c.donew] else []).foldl (fun s a => s.arbourLooks ctx a 0) s
  let dead := match s.findCtx ctx with
    | some x => x.killed
    | none => true
  let d := if sound then s.nodeDetail c else 1
  if dead then { s with completing := s.completing ++ [(c, 7, 0)] }
  else if d ≠ 0 then { s with completing := s.completing ++ [(c, 6, d)] }
  else if c.kind ≥ 2 then { s with completing := s.completing ++ [(c, 4, 0)] }
  else ({ s with ready := s.ready ++ [c], nextOrder := s.nextOrder + 1 }).fixHeads

/-- An atomic or `GARM` has left the `PRED` of a node as it now stands: at 0 an armed node becomes ready (R325), at 1 it may
be staged (R338). `va` is the node's address in its owner's page table. -/
def predNow (s : State) (ctx va pa : Nat) : State :=
  let armed := s.readNat (pa + 48) 1 = 1
  let n := s.readNat pa 4
  let s : State := { s with armed := (s.armed.filter fun x => x != pa) ++ if armed ∧ n = 1 then [pa] else [] }
  if armed ∧ n = 0 then s.nodeReady va pa ctx else s

/-- What an atomic that was performed at a key does to the streams that wait for a progress word (R277), and to a node whose
`PRED` word it updated; `va` gives the node's address in its owner's page table. -/
def predUpdate (s : State) (key : Nat) (va : Nat → Nat) : State :=
  if key % 64 = 16 then s.latchGe (key - 16)
  else if key % 64 ≠ 0 then s
  else
    match s.graphOwner (key / 65536) with
    | none => s
    | some c => s.predNow c (va c) key

/-- An atomic of the moving stream at an address. -/
def predAtomic (s : State) (key va : Nat) : State :=
  s.predUpdate key fun c => if c = s.me.ctx then va else (s.vaOfPa c key).getD 0

/-- An atomic from outside the part, which names the word by its physical address (R326). -/
def predOutside (s : State) (key : Nat) : State := s.predUpdate key fun c => (s.vaOfPa c key).getD 0

end State

end Sys2Proof.Machine
end

