-- ==== Sys2Proof/Machine/Funcs.lean ====
section
/-! DEFINITION. The correctly rounded functions 2^x, log2 x and tanh x (R92, R93): each digit of the exact value is
found by interval arithmetic in fixed point, at rising precision until the interval decides it. -/

namespace Sys2Proof.Machine

/-- Bounds of a real: it lies in `[lo, hi] / 2^p`. -/
structure Iv where
  lo : Nat
  hi : Nat
  deriving DecidableEq, Repr

/-- `floor` and `ceil` of `a / b`. -/
def cdiv (a b : Nat) : Nat := (a + b - 1) / b

/-- Σ z^(2i+1)/(2i+1) for i from `i`, `n` terms, with `z = num/den ≤ 1/3`: `pow` bounds z^(2i+1). The rest after the
last term is less than that term. -/
def atanhSum (p num den : Nat) : Nat → Nat → Iv → Iv → Iv
  | 0, i, pow, acc => ⟨acc.lo, acc.hi + pow.hi / (2 * i + 1) + 2⟩
  | n + 1, i, pow, acc =>
    let acc' : Iv := ⟨acc.lo + pow.lo / (2 * i + 1), acc.hi + cdiv pow.hi (2 * i + 1)⟩
    atanhSum p num den n (i + 1) ⟨pow.lo * num * num / (den * den), cdiv (pow.hi * num * num) (den * den)⟩ acc'

/-- atanh(num/den) for a ratio of at most 1/3. -/
def atanhIv (p num den : Nat) : Iv :=
  atanhSum p num den (p / 3 + 2) 0 ⟨2 ^ p * num / den, cdiv (2 ^ p * num) den⟩ ⟨0, 0⟩

/-- ln 2 = 2·atanh(1/3). -/
def ln2Iv (p : Nat) : Iv := let a := atanhIv p 1 3; ⟨2 * a.lo, 2 * a.hi⟩

/-- Σ y^k/k! for an argument in [0, 1], by bounds of y and of the current term. -/
def expSum (p : Nat) (y : Iv) : Nat → Nat → Iv → Iv → Iv
  | 0, _, term, acc => ⟨acc.lo, acc.hi + 2 * term.hi + 2⟩
  | n + 1, k, term, acc =>
    let t : Iv := ⟨term.lo * y.lo / 2 ^ p / k, cdiv (cdiv (term.hi * y.hi) (2 ^ p)) k⟩
    expSum p y n (k + 1) t ⟨acc.lo + t.lo, acc.hi + t.hi⟩

def expIv (p : Nat) (y : Iv) : Iv := expSum p y (p / 2 + 8) 1 ⟨2 ^ p, 2 ^ p⟩ ⟨2 ^ p, 2 ^ p⟩

/-- The precisions that are tried in turn. -/
def precisions : List Nat := [128, 256, 512, 1024]

/-- The floor of the value times `2^k`, from the first precision whose interval decides it; the value is no
multiple of `2^-k`. -/
def digitFrom (f : Nat → Iv) (k : Int) : List Nat → Nat
  | [] => Config.undecided k.toNat
  | p :: ps =>
    let v := f p
    let a := (divScaled v.lo 1 (k - p)).1
    if a = (divScaled v.hi 1 (k - p)).1 ∧ k ≤ p then a else digitFrom f k ps

/-- The floor of the base-2 logarithm, likewise. -/
def logFrom (f : Nat → Iv) : List Nat → Int
  | [] => Config.undecided 0
  | p :: ps =>
    let v := f p
    if v.lo ≠ 0 ∧ Nat.log2 v.lo = Nat.log2 v.hi then (Nat.log2 v.lo : Int) - p else logFrom f ps

def magOf (f : Nat → Iv) : Mag := ⟨logFrom f precisions, fun k => (digitFrom f k precisions, false)⟩

/-- 2^r for r = num/2^s in (0, 1). -/
def exp2Frac (num s p : Nat) : Iv :=
  let l := ln2Iv (p + 8)
  let e := expIv (p + 8) ⟨num * l.lo / 2 ^ s, cdiv (num * l.hi) (2 ^ s)⟩
  ⟨e.lo / 2 ^ 8, cdiv e.hi (2 ^ 8)⟩

/-- `VEXP2`. Beyond ±4096 every result lies far outside the types of R92, and 2^±4096 stands for it. -/
def Num.exp2 (a : Num) : Exact × Flags :=
  match a with
  | .nan => (.nan, 0)
  | .inf n => (if n then .zero false else .inf false, 0)
  | .fin n m e =>
    if m = 0 then (.val false (magDyadic 1 0), 0)
    else if (Nat.log2 m : Int) + e ≥ 12 then (.val false (magDyadic 1 (if n then -4096 else 4096)), 0)
    else
      let s := (-e).toNat
      let v : Int := if n then -((m * 2 ^ e.toNat : Nat) : Int) else ((m * 2 ^ e.toNat : Nat) : Int)
      let k := v / (2 ^ s : Nat)
      let r := (v % (2 ^ s : Nat)).toNat
      if r = 0 then (.val false (magDyadic 1 k), 0)
      else (.val false ⟨k, fun j => (digitFrom (exp2Frac r s) (j + k) precisions, false)⟩, 0)

/-- log2(f) for f = num/den in (1, 2). -/
def log2Frac (num den p : Nat) : Iv :=
  let q := p + 8
  let a := atanhIv q (num - den) (num + den)
  let l := ln2Iv q
  ⟨2 * a.lo * 2 ^ p / l.hi, cdiv (2 * a.hi * 2 ^ p) l.lo⟩

/-- `VLOG2`: for x = 2^l·f the result is l + log2 f. -/
def Num.log2 (a : Num) : Exact × Flags :=
  match a with
  | .nan => (.nan, 0)
  | .inf n => if n then (.nan, fNV) else (.inf false, 0)
  | .fin n m e =>
    if m = 0 then (.inf true, fDZ)
    else if n then (.nan, fNV)
    else
      let l : Int := (Nat.log2 m : Int) + e
      let den := 2 ^ Nat.log2 m
      if m = den then ((Num.ofInt l).exact, 0)
      else if 0 ≤ l then
        (.val false (magOf fun p => let v := log2Frac m den p; ⟨l.toNat * 2 ^ p + v.lo, l.toNat * 2 ^ p + v.hi⟩), 0)
      else
        (.val true (magOf fun p => let v := log2Frac m den p
                                   ⟨(-l).toNat * 2 ^ p - v.hi, (-l).toNat * 2 ^ p - v.lo⟩), 0)

/-- tanh x = (E − 1)/(E + 1) with E = e^(2x), for 0 < x < 64: e^(2x) = 2^j·e^y with y = 2x − j·ln 2 in [0, 1]. -/
def tanhIv (m : Nat) (e : Int) (p : Nat) : Iv :=
  let q := p + 200
  let l := ln2Iv q
  let x2 := (divScaled m 1 (e + 1 + q)).1
  let j := x2 / l.hi
  let y : Iv := ⟨x2 - j * l.hi, x2 + 1 - j * l.lo⟩
  let v := expIv q y
  let lo := v.lo * 2 ^ j
  let hi := v.hi * 2 ^ j
  ⟨(lo - 2 ^ q) * 2 ^ p / (lo + 2 ^ q), cdiv ((hi - 2 ^ q) * 2 ^ p) (hi + 2 ^ q)⟩

/-- `VTANH`. From 64 upward the result lies within 2^-180 below 1. -/
def Num.tanh (a : Num) : Exact × Flags :=
  match a with
  | .nan => (.nan, 0)
  | .inf n => (.val n (magDyadic 1 0), 0)
  | .fin n m e =>
    if m = 0 then (.zero n, 0)
    else if (Nat.log2 m : Int) + e ≥ 6 then (.val n ⟨-1, fun k => (2 ^ k.toNat - 1, false)⟩, 0)
    else (.val n (magOf (tanhIv m e)), 0)

end Sys2Proof.Machine
end

