-- ==== Sys2Proof/Machine/Flags.lean ====
section
/-! DEFINITION. What one element operation computes and which flags it sets (08 R196 to R212, 11 R295 to R298, 10 R272).
Values are patterns; flags are those of R82 and R85. -/

namespace Sys2Proof.Machine

/-! ### Integers on 64 bits (R295) -/

/-- `MULH`: floor(a·b / 2^64). -/
def mulh64 (k : MulhKind) (a b : Word) : Word :=
  let x : Int := match k with
    | .uu => (a.toNat : Int)
    | .ss | .su => a.toInt
  let y : Int := match k with
    | .ss => b.toInt
    | .uu | .su => (b.toNat : Int)
  BitVec.ofInt 64 (x * y / 2 ^ 64)

/-- `DIV`: truncated toward zero; all ones by 0, -2^63 by -1 stays -2^63 (R295). -/
def div64 (a b : Word) : Word := if b = 0 then -1 else BitVec.ofInt 64 (a.toInt.tdiv b.toInt)
def divu64 (a b : Word) : Word := if b = 0 then -1 else BitVec.ofNat 64 (a.toNat / b.toNat)
def rem64 (unsigned : Bool) (a b : Word) : Word :=
  if b = 0 then a
  else if unsigned then BitVec.ofNat 64 (a.toNat % b.toNat) else BitVec.ofInt 64 (a.toInt.tmod b.toInt)

/-- The shifts of R199 on a pattern of width w; the count is a whole number of any size. -/
def shlW (w p : Nat) (c : Int) : Nat := if c < 0 ∨ (w : Int) ≤ c then 0 else p % 2 ^ w * 2 ^ c.toNat % 2 ^ w
def shrW (w p : Nat) (c : Int) : Nat := if c < 0 ∨ (w : Int) ≤ c then 0 else p % 2 ^ w / 2 ^ c.toNat
def sarW (w p : Nat) (c : Int) : Nat :=
  if c < 0 ∨ (w : Int) ≤ c then (if bit p (w - 1) then 2 ^ w - 1 else 0) else wrap w (signed w p / (2 ^ c.toNat : Nat))

/-- Leading zero bits of a 64-bit value. -/
def clz64 (a : Word) : Nat := if a = 0 then 64 else 63 - Nat.log2 a.toNat

def popc (n w : Nat) : Nat := ((List.range w).filter fun k => bit n k).length

/-- A result of a type in a 64-bit register (R215, R298, R299): signed integers are sign-extended, all else is
zero-extended. -/
def toReg (t : Ty) (p : Nat) : Word :=
  if t.isSigned then BitVec.ofInt 64 (signed t.width p) else BitVec.ofNat 64 (p % 2 ^ t.width)

/-! ### Compares (R212) -/

def cmpNum (c : Cmp) (a b : Num) : Bool :=
  if a.isNaN || b.isNaN then
    match c with
    | .ne | .un => true
    | _ => false
  else
    match c with
    | .eq => a.cmp b == 0
    | .ne => a.cmp b != 0
    | .lt => decide (a.cmp b < 0)
    | .le => decide (a.cmp b ≤ 0)
    | .gt => decide (0 < a.cmp b)
    | .ge => decide (0 ≤ a.cmp b)
    | .un => false

/-! ### Immediates (R19, R199) -/

/-- The value of `IMM32` in an arithmetic form. -/
def immNum (t : Ty) (imm : BitVec 32) : Num :=
  if t.isInt then decodeTy t (wrap t.width imm.toInt) else decodeTy .f32 imm.toNat

/-- The pattern of `IMM32` in a logic form. -/
def immPat (t : Ty) (imm : BitVec 32) : Nat := wrap t.width imm.toInt

/-! ### Arithmetic (R196 to R200) -/

/-- Encode the exact result of an arithmetic form: an integer result is reduced modulo 2^w (R196); where a block source
leaves it no whole number, the value is free (notes/assumptions/78.md, DESIGN CHOICE). -/
def arithResult (t : Ty) (r : Num × Flags) (c : RCtl) : Nat × Flags :=
  if t.isInt then (wrapNum t.width r.1, 0)
  else
    let e := encodeF t r.1.exact c
    (e.1, r.2 ||| e.2)

/-- The same for a quotient or a function of R92. -/
def fnResult (t : Ty) (r : Exact × Flags) (c : RCtl) : Nat × Flags :=
  let e := encodeX t r.1 c
  (e.1, r.2 ||| e.2)

/-- `VMIN`, `VMAX`, `VCLAMP` (R197): an integer result is encoded by R83, so a value that is no whole number, as a block
source may give it, is rounded first, and an integer result sets no flag (R196; notes/assumptions/79.md, DEDUCED). -/
def pickResult (t : Ty) (r : Num) (c : RCtl) : Nat × Flags :=
  if t.isInt then
    (match r.whole with
      | some v => clampInt t v
      | none => (encodeI t r.exact c).1, 0)
  else encodeF t r.exact c

/-- `VCLAMP` for every type (R197). For an unsigned integer `TY1` and a negative b, which only a signed `TY2` or a block source
can give, the interval [0, b] is empty and the rule is silent: the result is then 0 (notes/assumptions/99.md, DESIGN CHOICE). -/
def clampNum (t : Ty) (a b : Num) : Num :=
  if t.isInt && !t.isSigned then (if a.isNaN || b.isNaN then .nan else Num.maxR (Num.minR a b) Num.zero) else Num.clampR a b

/-- `VCLASS` (R204): the bit of a value in the element's own type. -/
def classOf (t : Ty) (x : Num) : Nat :=
  match x with
  | .nan => 256
  | .inf n => if n then 1 else 128
  | .fin n m e =>
    if m = 0 then (if n then 8 else 16)
    else if (Nat.log2 m : Int) + e < 1 - bias t then (if n then 4 else 32)
    else (if n then 2 else 64)

/-- A shift count as the table of R199 takes it: any count below 0 or from the width up shifts alike; none where the count
of a block source lies between and is no whole number, or is NaN. -/
def shiftCount (w : Nat) (x : Num) : Option Int :=
  match x with
  | .fin _ _ _ =>
    let f := x.floorAt 0
    if f < 0 then some (-1) else if (w : Int) ≤ f then some w else x.whole
  | _ => none

/-- A shift by a count; by a count that the table of R199 does not hold, the value is free
(notes/assumptions/78.md, DESIGN CHOICE). -/
def shiftBy (f : Nat → Nat → Int → Nat) (w p : Nat) (b : Num) : Nat :=
  match shiftCount w b, b with
  | some c, _ => f w p c
  | none, .fin n m e => Config.freeWhole w (some (if n then -(m : Int) else m, e)) % 2 ^ w
  | none, _ => Config.freeWhole w none % 2 ^ w

/-- `VMULH` (R198): the product's floor in units of 2^w, reduced modulo 2^w; of a NaN, a free value
(notes/assumptions/78.md, DESIGN CHOICE). -/
def mulhNum (w : Nat) (a b : Num) : Nat :=
  match (Num.mul a b).1 with
  | .fin n m e => wrap w ((Num.fin n m e).floorAt w)
  | _ => Config.freeWhole w none % 2 ^ w

/-- The operands of one element: decoded values and patterns of A, B and the old D. -/
structure Inp where
  a : Num
  b : Num
  d : Num
  pa : Nat
  pb : Nat
  pd : Nat

/-- The result of one element of a form whose result is a memory element, for every form but the block, order and
atomic forms (R196 to R208). -/
def elemResult (op : VOp) (t1 t2 : Ty) (blockA : Bool) (c : RCtl) (i : Nat) (imm : Option (BitVec 32)) (x : Inp) :
    Nat × Flags :=
  let b := (imm.map (immNum t1)).getD x.b
  let pb := (imm.map (immPat t1)).getD x.pb
  let cnt : Num := (imm.map fun v => Num.ofInt v.toInt).getD x.b
  match op with
  | .add => arithResult t1 (Num.add c.rm x.a b) c
  | .sub => arithResult t1 (Num.sub c.rm x.a b) c
  | .mul | .mulw => arithResult t1 (Num.mul x.a b) c
  | .fma | .fmaw => arithResult t1 (Num.fma c.rm x.a b x.d) c
  | .fms => arithResult t1 (Num.fma c.rm x.a b x.d.negate) c
  | .fnma => arithResult t1 (Num.fma c.rm x.a.negate b x.d) c
  | .div => fnResult t1 (Num.div x.a b) c
  | .sqrt => fnResult t1 x.a.sqrt c
  | .rcp => fnResult t1 x.a.rcp c
  | .rsq => fnResult t1 x.a.rsq c
  | .exp2 => fnResult t1 x.a.exp2 c
  | .log2 => fnResult t1 x.a.log2 c
  | .tanh => fnResult t1 x.a.tanh c
  | .min => pickResult t1 (Num.minR x.a b) c
  | .max => pickResult t1 (Num.maxR x.a b) c
  | .abs => arithResult t1 (x.a.abs, 0) c
  | .neg => arithResult t1 (x.a.negate, 0) c
  | .clamp => pickResult t1 (clampNum t1 x.a b) c
  | .mulh => (mulhNum t1.width x.a b, 0)
  | .and => (Nat.land x.pa pb, 0)
  | .or => (Nat.lor x.pa pb, 0)
  | .xor => (Nat.xor x.pa pb, 0)
  | .not => (2 ^ t1.width - 1 - x.pa, 0)
  | .shl => (shiftBy shlW t1.width x.pa cnt, 0)
  | .shr => (shiftBy shrW t1.width x.pa cnt, 0)
  | .sar => (shiftBy sarW t1.width x.pa cnt, 0)
  | .cvt => convert t1 (t2.isInt && !blockA) x.a c
  | .bdq _ => encodeX t1 x.a.exact c
  | .cls => (classOf t2 (if blockA then decodeTy t2 x.pa else x.a) % 2 ^ t1.width, 0)
  | .movImm => convert t1 t1.isInt b c
  | .iota => if t1.isInt then (i % 2 ^ t1.width, 0) else encodeF t1 (Num.ofInt i).exact c
  | _ => (x.pa, 0)

/-! ### Atomics (R272, R273) -/

inductive AOp where
  | add | and | or | xor | min | max | xchg | cas
  deriving DecidableEq, Repr

/-- The new pattern at the address and the flags: `old` there, operand `b`, compared pattern `cmp`. -/
def atomicNew (op : AOp) (t : Ty) (c : RCtl) (old b cmp : Nat) : Nat × Flags :=
  let x := decodeTy t old
  let y := decodeTy t b
  match op with
  | .add => arithResult t (Num.add c.rm x y) c
  | .and => (Nat.land old b, 0)
  | .or => (Nat.lor old b, 0)
  | .xor => (Nat.xor old b, 0)
  | .min => pickResult t (Num.minR x y) c
  | .max => pickResult t (Num.maxR x y) c
  | .xchg => (b % 2 ^ t.width, 0)
  | .cas => (if old = cmp % 2 ^ t.width then b % 2 ^ t.width else old, 0)

/-! ### Reductions (R215) -/

/-- The result of an empty `min` or `max`: the type's infinity, or its largest or smallest value. -/
def emptyExtreme (t : Ty) (wantMin : Bool) : Nat :=
  if t.isInt then (if wantMin then intMax t else wrap t.width (intMin t))
  else
    match infCode t (!wantMin) with
    | some c => c
    | none => if !wantMin && isUnsignedF t then 0 else signCode t (!wantMin) (maxCode t)

/-- The smaller or larger of two patterns of a type by R197; NaN gives the canonical NaN only when both are NaN. -/
def pickPat (t : Ty) (wantMin : Bool) (p q : Nat) : Nat :=
  let x := decodeTy t p
  let y := decodeTy t q
  if x.isNaN then (if y.isNaN then (nanCode t).getD q else q)
  else if y.isNaN then p
  else if wantMin then (if y.below x then q else p) else (if x.below y then q else p)

end Sys2Proof.Machine
end

