-- ==== Sys2Proof/Machine/Operands.lean ====
section
/-! DEFINITION. Vector operands (01 R21 to R28): their addresses, the resolution of their types, the probe of every
element (17 R349), guards and the homes of mask bits (08 R210, R211). -/

namespace Sys2Proof.Machine

/-! ### Guards and mask homes -/

def MaskV.bit (m : MaskV) (i : Nat) : Bool := Sys2Proof.bit m.bits i

/-- The default home of bit i on a span (R210) (DEDUCED: notes/assumptions/35.md). -/
def defaultHome (beds : List Nat) (i : Nat) : Nat := bedsPlot beds (i / 512 % (64 * beds.length))

def MaskV.home (beds : List Nat) (m : MaskV) (i : Nat) : Nat := (assoc m.homes i).getD (defaultHome beds i)

/-- A mask from the bits of the indices below a length; only homes that differ from the default are listed. -/
def maskFrom (beds : List Nat) (bs : List (Nat × Bool × Nat)) : MaskV :=
  ⟨(bs.filter fun b => b.2.1).foldl (fun n b => n + 2 ^ b.1) 0,
   (bs.filter fun b => b.2.2 != defaultHome beds b.1).map fun b => (b.1, b.2.2)⟩

/-- Whether element i is enabled (R28). -/
def enabledBit (g : Option Guard) (bits i : Nat) : Bool :=
  match g with
  | none => true
  | some g => bit bits i != g.neg

/-- The lowest index at which a plot would hold a 4,097th bit (R211). -/
def maskCapAt (homes : List (Nat × Nat)) : Option Nat :=
  (homes.foldl (fun (r : Option Nat × List (Nat × Nat)) h =>
    match r with
    | (some i, c) => (some i, c)
    | (none, c) =>
      let n := (assoc c h.2).getD 0 + 1
      (if n > 4096 then some h.1 else none, assocSet c h.2 n)) (none, [])).1

/-! ### Captured operands -/

/-- An operand as captured at issue (R21): the values of s(b) and s(b+1), and its resolved type and geometry. -/
structure OpCap where
  base : Nat
  next : Nat
  mode : Mode
  off : Int
  ty : Ty
  geom : Option Geom
  deriving DecidableEq, Repr

/-- Where an element begins: its first byte, the bit in it, its bytes, and its scale byte (R21, R23, R74). -/
structure ElemPos where
  byte : Int
  bit : Nat
  n : Nat
  scale : Option Int
  deriving DecidableEq, Repr

def blockSize : Geom → Nat
  | .mx32 => 32 | .mx16 => 16

def segBytes (g : Geom) (t : Ty) : Nat := 1 + blockSize g * t.width / 8
def segsPer (g : Geom) (t : Ty) : Nat := 256 / segBytes g t

/-- The first byte of segment q from a base (R74). -/
def segAt (g : Geom) (t : Ty) (base : Nat) (q : Int) : Int :=
  base + q / (segsPer g t : Int) * 256 + q % (segsPer g t : Int) * (segBytes g t : Int)

/-- The address of element i, with `ix` the value of its index in mode 3 (R21 to R24). -/
def elemPos (o : OpCap) (i : Nat) (ix : Int) : ElemPos :=
  match o.geom with
  | some g =>
    let j := o.off + i
    let q := j / (blockSize g : Int)
    let k := (j % (blockSize g : Int)).toNat * o.ty.width
    let seg := segAt g o.ty o.base q
    ⟨seg + 1 + (k / 8 : Nat), k % 8, (k % 8 + o.ty.width + 7) / 8, some seg⟩
  | none =>
    if o.ty.subByte then
      let b := 8 * (o.base : Int) + (match o.mode with
        | .unit => (o.off + i) * o.ty.width
        | _ => o.off * o.ty.width)
      ⟨b / 8, (b % 8).toNat, ((b % 8).toNat + o.ty.width + 7) / 8, none⟩
    else
      let z : Int := (o.ty.width / 8 : Nat)
      let a := (o.base : Int) + o.off * z + (match o.mode with
        | .unit => (i : Int) * z
        | .stride => (i : Int) * signed 64 o.next
        | .once => 0
        | .indexed => ix * z)
      ⟨a, 0, o.ty.width / 8, none⟩

/-- The address of an element of an index vector (R21). -/
def indexAt (o : OpCap) (i : Nat) : Nat := o.next + 4 * i

/-! ### Causes that a probe collects (R349) -/

/-- A cause found by the probe: of the operand as a whole or of an element, with the ranks that choose among them. -/
structure Cand where
  whole : Bool
  elem : Nat
  opRank : Nat
  rank : Nat
  fault : FaultRec
  deriving DecidableEq, Repr

def Cand.before (x y : Cand) : Bool :=
  if x.whole != y.whole then x.whole
  else if x.elem != y.elem then x.elem < y.elem
  else if x.opRank != y.opRank then x.opRank < y.opRank
  else x.rank < y.rank

/-- The one cause that is reported. -/
def firstCand : List Cand → Option Cand
  | [] => none
  | c :: cs =>
    match firstCand cs with
    | none => some c
    | some d => if d.before c then some d else some c

/-- The rank of an operand (R349, step 3): index vector, A, B, D, record. -/
def operandRank (opnd : Nat) : Nat :=
  if opnd = opIndex then 0 else if opnd = opA then 1 else if opnd = opB then 2 else if opnd = opD then 3 else 4

/-- A cause of the word as a whole at an operand, with the operand's base (DEDUCED: notes/assumptions/33.md). -/
def wholeCand (code addr opnd : Nat) : Cand := ⟨true, 0, operandRank opnd, causeRank code, preFault code addr 0 opnd⟩

/-- A cause of one element at an operand (DEDUCED: notes/assumptions/32.md). -/
def elemCand (code : Nat) (addr : Int) (elem opnd : Nat) : Cand :=
  ⟨false, elem, operandRank opnd, causeRank code,
    { preFault code 0 elem opnd with addr := BitVec.ofInt 64 addr }⟩

/-! ### Type resolution (R25) -/

/-- An operand of a form: which one it is, its 24 bits, the field that governs it and that field's value. -/
structure OpSpec where
  which : Nat
  o : Opnd
  field : Nat
  ty : TyF
  acc : Acc
  /-- also written, so that reads and writes are both probed -/
  readToo : Bool
  deriving DecidableEq, Repr

namespace State

/-- Capture an operand and resolve its type; the causes found are of the whole operand. -/
def capture (s : State) (x : OpSpec) (anyEnabled : Bool) : OpCap × List Cand :=
  let base := (s.reg x.o.base).toNat
  let nextR : Reg := ⟨(x.o.base.val + 1) % 64, Nat.mod_lt _ (by decide)⟩
  let cap := fun (t : Ty) (g : Option Geom) =>
    (⟨base, (s.reg nextR).toNat, x.o.mode, x.o.off.toInt, t, g⟩ : OpCap)
  if !anyEnabled then (cap (x.ty.getD .i8) none, [])
  else
    match x.ty, s.formatAt base with
    | none, .error c => (cap .i8 none, [wholeCand c base x.which])
    | none, .ok (none, _) => (cap .i8 none, [wholeCand cFORMAT base x.which])
    | none, .ok (some t, g) =>
      (cap t g,
        if (x.o.mode = .stride ∨ x.o.mode = .indexed) ∧ t.subByte = true then [wholeCand cFORMAT base x.which] else [])
    | some t, .error _ => (cap t none, [])
    | some t, .ok (_, g) => (cap t g, [])

/-- The causes of a geometry operand (R24, R73, R75): all of the operand as a whole. With a mode other than 0 and a misaligned
base, `FORMAT` alone is raised; R24 gives neither an order of the two nor says that a misaligned base concerns the whole
operand (notes/assumptions/102.md, DESIGN CHOICE). -/
def geometryCands (x : OpSpec) (c : OpCap) (blockDest : Bool) : List Cand :=
  match c.geom with
  | none => []
  | some _ =>
    (if x.o.mode ≠ .unit then [wholeCand cFORMAT c.base x.which]
     else if c.base % 256 ≠ 0 then [wholeCand cALIGN c.base x.which] else []) ++
    (if !c.ty.mxCapable || (x.which = opD && !blockDest) then [wholeCand cFORMAT c.base x.which] else [])

/-- Operands that one field governs resolve to one type (R25); two that do not both carry the cause, so that the order of R349
decides (DEDUCED: notes/assumptions/33.md). -/
def fieldCands (l : List (OpSpec × OpCap)) : List Cand :=
  l.flatMap fun y =>
    if l.any fun x => x.1.field == y.1.field && x.2.ty != y.2.ty then [wholeCand cFORMAT y.2.base y.1.which] else []

/-! ### The probe of one element -/

/-- Where the index element of element i lies (R185). -/
def indexLoc (s : State) (c : OpCap) (i : Nat) : Option Loc :=
  let a := indexAt c i
  match s.locate .read false a 4 with
  | .ok (w, keys) => some ⟨keys, 0, a, s.ownerOf w a, w.near, w.slot, none⟩
  | .error _ => none

/-- The index of element i as the probe phase reads it (R185): its value, or the cause. The stream's earlier writes are
performed when it is read. -/
def probeIndex (s : State) (c : OpCap) (i : Nat) : Except Cand Int :=
  let a := indexAt c i
  if a % 4 ≠ 0 then .error (elemCand cALIGN a i opIndex)
  else
    match s.locate .read false a 4 with
    | .error e => .error (elemCand e a i opIndex)
    | .ok (w, keys) =>
      if (w.ty.isSome && w.ty != some .i32) || w.geom.isSome then .error (elemCand cFORMAT a i opIndex)
      else
        let dplot := s.ownerOf w a
        let st := if w.near then (s.myFrame w.slot).bind fun f => s.nearCause f (plotOf w.key) (localOf w.key) else none
        match st, s.badDatum .read keys with
        | some code, _ => .error ⟨false, i, 0, 9, dataFaultRec code a i opIndex dplot⟩
        | none, some b =>
          .error ⟨false, i, 0, 9, { dataFaultRec b.code a i opIndex dplot with refused := b.refused, rmt := b.rmt }⟩
        | none, none => .ok (signed 32 (s.seenNat keys))

/-- Whether an element of an operand whose type its page gives reaches a page or frame of another type (R25). -/
def otherType (s : State) (x : OpSpec) (c : OpCap) (p : ElemPos) : Bool :=
  x.ty.isNone && (List.range p.n).any fun o =>
    let a := p.byte + (o : Int)
    decide (0 ≤ a) && decide (a < 2 ^ 55) && (match s.formatAt a.toNat with
      | .ok (t, g) => t != some c.ty || g != c.geom
      | .error _ => false)

/-- Whether some byte of an element reaches a typed page or frame of another type, or another geometry (R25, R101). The bytes of an
aligned element share their page. -/
def mixedType (s : State) (w : Where) (c : OpCap) (va n : Nat) : Bool :=
  let bad := fun (t : TyF) (g : Option Geom) => (t.isSome && t != some c.ty) || g != c.geom
  bad w.ty w.geom || (va % n != 0 && (List.range n).any fun o => match s.formatAt (va + o) with
    | .ok (t, g) => bad t g
    | .error _ => false)

/-- The bytes that an element of `VBQ` writes with it: the scale byte of its segment, and, with the last segment of a
256-byte row, the bytes behind it (R74, R202). -/
def rowHeld (s : State) (c : OpCap) (scale : Int) : Bool :=
  match c.geom with
  | none => true
  | some g =>
    let a := scale.toNat
    let last := (segsPer g c.ty - 1) * segBytes g c.ty
    s.heldOk a 1 && (a % 256 != last || s.heldOk (a - a % 256 + last + segBytes g c.ty) (256 - last - segBytes g c.ty))

/-- The place of element i of a captured operand, with every pre-issue cause of R349: a page of another type than the one
that `auto` gave is a cause of the whole operand and stands before those of the element. `dest` says that its owner must
lie in the span (R175, R183). -/
def probeElem (s : State) (x : OpSpec) (c : OpCap) (dest : Bool) (i : Nat) (p : ElemPos) : Except Cand Loc :=
  let bad := fun (code : Nat) => elemCand code p.byte i x.which
  if s.otherType x c p then .error (wholeCand cFORMAT p.byte.toNat x.which)
  else if c.geom.isNone && !c.ty.subByte && p.byte % (p.n : Int) != 0 then .error (bad cALIGN)
  else if p.byte < 0 ∨ (2 ^ 55 : Int) ≤ p.byte then .error (bad cXLATE)
  else
    let va := p.byte.toNat
    match (if x.readToo then s.locate .read false va p.n else .ok (default, [])), s.locate x.acc false va p.n with
    | .error e, _ | _, .error e =>
      .error (bad (if e = cSYNCUSE ∧ c.geom.isSome then cFORMAT else e))
    | .ok _, .ok (w, keys) =>
      if s.mixedType w c va p.n then .error (bad cFORMAT)
      else
        let owner := s.ownerOf w va
        if dest && (bedsPos s.me.beds owner).isNone then .error (bad cSPANOWN)
        else if x.acc == .atomic && w.sync && va % 64 != 16 then .error (bad cSYNCUSE)
        else if x.acc == .atomic && w.sync && c.ty != .i64 && c.ty != .n64 then .error (bad cFORMAT)
        else if (x.acc == .write || x.acc == .atomic) && !s.heldOk va p.n then .error (bad cUNHELD)
        else
          match p.scale with
          | none => .ok ⟨keys, p.bit, va, owner, w.near, w.slot, none⟩
          | some a =>
            if x.acc == .write && !s.rowHeld c a then .error (bad cUNHELD)
            else
            match s.translate x.acc false a.toNat with
            | .error e => .error (bad e)
            | .ok sw => .ok ⟨keys, p.bit, va, owner, w.near, w.slot, some sw.key⟩
where
  default : Where := ⟨0, none, none, false, 0, false, false, false⟩

/-- The plot that would execute a disabled element, where its address has an owner (R210); where it has none, its bit
takes the default home (notes/assumptions/82.md, DESIGN CHOICE). -/
def ownerAt (s : State) (c : OpCap) (i : Nat) : Option Nat :=
  if c.mode = .indexed then none
  else
    let p := elemPos c i 0
    if p.byte < 0 ∨ (2 ^ 55 : Int) ≤ p.byte then none
    else if !isNearVa p.byte.toNat then some (farOwner s.me.beds p.byte.toNat)
    else
      match s.translate .read false p.byte.toNat with
      | .ok w => some (plotOf w.key)
      | .error _ => none

end State

end Sys2Proof.Machine
end

