-- ==== Sys2Proof/Machine/Engine.lean ====
section
/-! DEFINITION. Broadcast work (07 R172 to R188, 08 R192 to R216): what the issue of an instruction settles, the performing of
one destination group, the instruction's finish, and its stop by a data fault. -/

namespace Sys2Proof.Machine

/-! ### Plans -/

/-- What the issue of a broadcast instruction settled: everything of a `Job` but its number and settings. -/
structure Plan where
  op : VOp
  t1 : Ty
  t2 : Ty
  ga : Option Geom
  gb : Option Geom
  gd : Option Geom
  imm : Option (BitVec 32)
  pad : Nat
  kd : Option Mask
  sd : Option Reg
  guardBits : Nat
  vl : Nat
  elems : List Elem
  /-- bits of a mask destination that only move to their new homes (R210) -/
  rest : List (Nat × Bool × Nat)
  skew : Nat
  cede : Bool
  set : Option (Fin 7)
  wait : Nat
  ntf : Bool
  /-- seals the strip when it issues (R104, R273) -/
  seals : Bool
  /-- the operands in mode 3, whose elements travel one by one (R102), and the windows that they pin (R186) -/
  indexed : List Nat
  wins : List (Nat × Nat)
  /-- `VL` as the probe of `VGATH.FF` shortened it (R209) -/
  ffVl : Option Nat
  isFF : Bool
  apart : Bool
  /-- the elements of a row of a transform's source (R133) -/
  row : Nat
  deriving DecidableEq, Repr

/-- The cause that a plan's probe reports, and whether it is a data fault (R185). -/
abbrev Planned := Except FaultRec Plan

/-! ### Groups -/

/-- The elements of a job by executing plot and destination group, in the order of their lowest element (R192). -/
def groupsOf : List Elem → List (List Elem)
  | es => es.foldl (fun gs e =>
      if gs.any fun g => g.any fun x => x.plot == e.plot && x.grp == e.grp then
        gs.map fun g => if g.any fun x => x.plot == e.plot && x.grp == e.grp then g ++ [e] else g
      else gs ++ [[e]]) []

/-- Drop the groups that each plot has already performed (R318). -/
def dropDone (prog : List (Nat × Nat)) (es : List Elem) : List Elem :=
  ((groupsOf es).foldl (fun (r : List Elem × List (Nat × Nat)) g =>
    let p := (g.head?.map Elem.plot).getD 0
    match assoc r.2 p with
    | some (n + 1) => (r.1, assocSet r.2 p n)
    | _ => (r.1 ++ g, r.2)) ([], prog)).1

/-! ### What a plot receives for one datum (R177, R187, R351) -/

/-- A data fault that a plot met at an operand. -/
structure Met where
  code : Nat
  subc : Nat
  refused : Bool
  rmt : Bool
  deriving DecidableEq, Repr

namespace State

/-- The frame that a captured near place belongs to: allocated, or freed and not yet finished (R157). -/
def capturedFrame (s : State) (slot : Nat) : Option Frame :=
  s.myCtx.bind fun c => (c.frames ++ c.leaving).find? fun f => f.slot == slot

/-- What stands in the way of an access to a byte of a place now (R158, R168, R171). -/
def placeCause (s : State) (l : Loc) (k : Nat) : Option Nat :=
  if l.near then
    match s.capturedFrame l.slot with
    | some f => s.nearCause f (plotOf k) (localOf k)
    | none => some cSTALE
  else none

/-- The plot at which a source of an element of plot `p` lands: a far segment goes whole to one plot, which decodes it
(R103). -/
def recvPlot (j : Job) (p : Nat) (l : Loc) : Nat :=
  if l.near then p else ((l.scale.bind fun k => assoc j.segTo k).getD p)

/-- The group that reached a plot. -/
def landedGroup (j : Job) (p g : Nat) : Option Landed := j.landed.find? fun x => x.plot == p && x.grp == g

/-- The bytes of a datum as plot `p` consumes it: from the group that landed there, from the copy of what a write of the
instruction has replaced, or from memory. -/
def consumeBytes (s : State) (j : Job) (p : Nat) (keys : List Nat) : List Byte :=
  keys.map fun k =>
    match (landedGroup j p (k / 64)).bind fun l => assoc l.cells k with
    | some v => v
    | none => (assoc j.saved k).getD (s.seen k)

/-- The groups of 64 bytes that keys lie in. -/
def groupsOfKeys (keys : List Nat) : List Nat := keys.foldl (fun g k => insertNat (k / 64) g) []

/-- The data fault of a datum, if any, group by group (R187, R351). -/
def consumeCause (s : State) (acc : Access) (j : Job) (p : Nat) (l : Loc) : Option Met :=
  let keys := l.keys ++ l.scale.toList
  (groupsOfKeys keys).findSome? fun g =>
    let ks := keys.filter fun k => k / 64 == g
    match landedGroup j (recvPlot j p l) g with
    | some x =>
      match x.refused, x.bad.find? fun b => ks.contains b.1 with
      | some c, _ => some ⟨cPULL, c, false, false⟩
      | none, some b =>
        some ⟨if b.2 ≥ 256 then cPOISON else b.2, 0, decide (b.2 ≥ 256), decide (b.2 ≥ 512)⟩
      | none, none => none
    | none =>
      match s.placeCause l (g * 64) with
      | some c => some (if l.near ∧ plotOf (g * 64) ≠ p then ⟨cPULL, c, false, false⟩ else ⟨c, 0, false, false⟩)
      | none => (s.badDatum acc ks).map fun b => ⟨b.code, 0, b.refused, b.rmt⟩

/-- The pattern of an element at a place, and its scale byte. -/
def consumePat (s : State) (j : Job) (p : Nat) (w : Nat) (l : Loc) : Nat × Nat :=
  let q := recvPlot j p l
  (ofBytesLE (s.consumeBytes j q l.keys) / 2 ^ l.bit % 2 ^ w,
   match l.scale with
   | some k => ofBytesLE (s.consumeBytes j q [k])
   | none => 0)

/-- The value of a pattern under a geometry or none. -/
def valueOf (g : Option Geom) (t : Ty) (p : Nat × Nat) : Num :=
  match g with
  | some g => decodeBlock g t p.2 p.1
  | none => decodeTy t p.1

/-- The cause that a write to a place meets (R158, R373). -/
def writeCause (s : State) (l : Loc) : Option Met :=
  match l.keys.findSome? fun k => s.placeCause l k with
  | some c => some ⟨c, 0, false, false⟩
  | none =>
    match l.keys.find? fun k => !s.granted 48 .write (s.route k) with
    | some k => some ⟨cPOISON, 0, true, isRemote k⟩
    | none => none

def metFault (m : Met) (addr elem opnd dplot : Nat) : FaultRec :=
  { dataFaultRec m.code addr elem opnd dplot with subc := m.subc, refused := m.refused, rmt := m.rmt }

/-- The element index of an element's destination (R206). -/
def destIdx (j : Job) (e : Elem) : Nat := if j.op = .comp then e.k else e.i

/-- The write packets that tell of the far stores of a part of a job: all, or that of one element (R102, R104). -/
def headsOf (j : Job) (part : Nat) : List RPkt :=
  j.pkts.filter fun p => p.kind == 1 && (part == 0 || p.firstIdx == (part : Int) - 1)

/-- Write bytes of one destination group at its owner (R104, R306); `part` is 0, or 1 more than the index of the one element
that they are of. -/
def storeCells (s : State) (j : Job) (plot part : Nat) (cells : List (Nat × Byte)) : State :=
  match cells with
  | [] => s
  | c :: _ =>
    if isNear c.1 then
      (cells.foldl (fun l c => insertNat (plotOf c.1) l) []).foldl
        (fun s p => s.storeNear (cells.filter fun c => plotOf c.1 == p)) s
    else s.storeFar j.seq part (headsOf j part) plot cells

/-- Merge a pattern into the bytes of a place. -/
def placeCells (s : State) (have_ : List (Nat × Byte)) (l : Loc) (w v : Nat) : List (Nat × Byte) :=
  let old := ofBytesLE (l.keys.map fun k => (assoc have_ k).getD (s.seen k))
  let n := old - old / 2 ^ l.bit % 2 ^ w * 2 ^ l.bit + v % 2 ^ w * 2 ^ l.bit
  (l.keys.zip (bytesLE l.keys.length n)).foldl (fun h c => assocSet h c.1 c.2) have_

/-- Write the results of a group at the owner of its destination: as one, or, far, element by element where each travels alone
(R102). With the state, every byte that they write. -/
def storeElems (s : State) (j : Job) (rs : List (Elem × Nat)) : State × List (Nat × Byte) :=
  let plot := ((rs.head?.bind fun r => r.1.d).map Loc.plot).getD 0
  let put := fun (h : List (Nat × Byte)) (r : Elem × Nat) => match r.1.d with
    | some l => placeCells s h l j.t1.width r.2
    | none => h
  let cells := rs.foldl put []
  if j.apart && cells.any fun c => !isNear c.1 then
    (rs.foldl (fun s r => s.storeCells j plot (destIdx j r.1 + 1) (put [] r)) s, cells)
  else (s.storeCells j plot 0 cells, cells)

/-! ### The operands that a form consumes -/

/-- Whether the old element of D is an operand (R196, R273). -/
def readsDest : VOp → Bool
  | .fma | .fms | .fnma | .fmaw | .acas => true
  | _ => false

/-- The vector atomics, whose A is the target (R273). -/
def isAtomicOp : VOp → Bool
  | .aadd | .amin | .amax | .acas => true
  | _ => false

/-- The type of the elements of A (R200 to R204, R130). -/
def typeOfA (j : Job) : Ty :=
  match j.op with
  | .cvt | .bq _ | .bdq _ | .cls | .mulw | .fmaw | .xform => j.t2
  | _ => j.t1

/-- The places that an element reads: index elements, A, B, and the old D. `VLOC` reads its indices alone (R191), and the target
of an atomic is updated where it is (R273). -/
def sourceLocs (j : Job) (e : Elem) : List Loc :=
  e.ix ++ (if j.op = .loc ∨ isAtomicOp j.op = true then [] else e.a.toList) ++ (if j.op = .loc then [] else e.b.toList) ++
    if readsDest j.op then e.d.toList else []

/-- The first data fault of an element's operands: the index elements, which the executing plot reads again (R185), A, B,
the old D, then the write of D (R349, R351). -/
def elemMet (src s : State) (j : Job) (e : Elem) : Option FaultRec :=
  let rd := fun (acc : Access) (o : Option Loc) (opnd : Nat) =>
    o.bind fun l => (src.consumeCause acc j e.plot l).map fun m => metFault m l.va e.i opnd e.plot
  let ix := e.ix.findSome? fun l => rd .read (some l) opIndex
  if j.op = .loc then ix
  else
    ((ix.orElse fun _ =>
        rd (if isAtomicOp j.op then .atomic else .read) e.a opA).orElse fun _ => rd .read e.b opB).orElse fun _ =>
      (if readsDest j.op then rd .read e.d opD else none).orElse fun _ =>
        e.d.bind fun l => (s.writeCause l).map fun m => metFault m l.va e.i opD e.plot

def jobCtl (j : Job) (i : Nat) : RCtl := ⟨j.rm, j.sat, srHash j.seed (j.seq % 2 ^ 32) i⟩

/-- The decoded operands of an element. -/
def elemInp (src : State) (j : Job) (e : Elem) : Inp :=
  let w2 := typeOfA j
  let wb := j.t2
  let wa := match j.op with
    | .bdq true => 8
    | _ => w2.width
  let pa := (e.a.map (src.consumePat j e.plot wa)).getD (0, 0)
  let pb := (e.b.map (src.consumePat j e.plot wb.width)).getD (0, 0)
  let pd := if readsDest j.op then (e.d.map (src.consumePat j e.plot j.t1.width)).getD (0, 0) else (0, 0)
  { a := match j.op with
      | .bdq true => (j.ga.map fun g => decodeScale g pa.1).getD .nan
      | _ => valueOf j.ga w2 pa,
    b := valueOf j.gb wb pb, d := valueOf none j.t1 pd, pa := pa.1, pb := pb.1, pd := pd.1 }

/-- The source element of a transform: read, or padded (R125, R130). -/
def xformValue (src : State) (j : Job) (e : Elem) : Num :=
  match e.a with
  | some l => valueOf j.ga j.t2 (src.consumePat j e.plot j.t2.width l)
  | none => valueOf j.ga j.t2 (j.pad % 2 ^ j.t2.width, match j.ga with
      | some .mx32 => 127
      | some .mx16 => 0x38
      | none => 0)

/-- The result of one element that goes to memory. -/
def memResult (src : State) (j : Job) (e : Elem) : Nat × Flags :=
  match j.op with
  | .xform => convert j.t1 (j.t2.isInt && j.ga.isNone) (src.xformValue j e) (jobCtl j (e.i % 2 ^ 32))
  | .sel => (match e.a, e.b with
      | some l, _ => (src.consumePat j e.plot j.t1.width l).1
      | none, some l => (src.consumePat j e.plot j.t2.width l).1
      | none, none => 0, 0)
  | op => elemResult op j.t1 j.t2 j.ga.isSome (jobCtl j e.i) e.i j.imm (src.elemInp j e)

/-! ### Block quantisation (R202) -/

/-- The largest binade exponent and the largest finite value of a block element type, as m·2^e. -/
def blockMax : Ty → Int × Nat × Int
  | .e2m1 => (2, 6, 0) | .e2m3 => (2, 15, -1) | .e3m2 => (4, 28, 0) | .e4m3 => (8, 448, 0) | .e5m2 => (15, 57344, 0)
  | _ => (0, 127, -6)

/-- The scale byte of a block and the scale as m·2^e, for amax a finite number. -/
def blockScale (g : Geom) (nov : Bool) (t : Ty) (amax : Num) (h : Nat) : Nat × Num :=
  let mx := blockMax t
  match amax with
  | .fin _ m e =>
    match g with
    | .mx32 =>
      let x0 : Int := if m = 0 then 0 else (Nat.log2 m : Int) + e - mx.1
      let tooBig := m ≠ 0 ∧ (Num.fin false mx.2.1 (mx.2.2 + x0)).cmp amax < 0
      let x1 := if nov = true ∧ tooBig then x0 + 1 else x0
      let x := min (max x1 (-127)) 127
      ((x + 127).toNat, .fin false 1 x)
    | .mx16 =>
      if m = 0 then (0, Num.zero)
      else
        let q := magQuot m mx.2.1 (e - mx.2.2)
        let qe := max q.lg (-6) - 3
        let r := roundGrid ⟨if nov then .rup else .rne, 0, h⟩ false q qe
        let v : Num := .fin false r.1 qe
        let v := if (Num.fin false 448 0).cmp v < 0 then Num.fin false 448 0 else v
        ((encodeF .e4m3 v.exact ⟨.rne, 1, 0⟩).1, v)
  | _ => (0, Num.zero)

/-- The codes of one block: scale byte, element codes, flags; `first` is the element index of the block's start. -/
def quantise (g : Geom) (nov : Bool) (t : Ty) (ctl : Nat → RCtl) (first : Nat) (xs : List Num) :
    Nat × List Nat × Flags :=
  if xs.any fun x => x.isNaN || x.isInf then
    ((match g with
      | .mx32 => 0xFF
      | .mx16 => 0x7F), xs.map fun _ => 0, if xs.any Num.isInf then fNV else 0)
  else
    let amax := xs.foldl (fun a x => if a.cmp x.abs < 0 then x.abs else a) Num.zero
    let sc := blockScale g nov t amax (ctl first).h
    let rs := xs.mapIdx fun k x =>
      let c : RCtl := { ctl (first + k) with sat := 1 }
      if sc.2.isZero then (signCode t (x.neg? && hasNegZero t) 0, (0 : Flags))
      else
        match x, sc.2 with
        | .fin n m e, .fin _ m' e' =>
          if m = 0 then (if t = .i8 then (0, 0) else encodeF t (.zero n) c)
          else if t = .i8 then encodeI t (.val n (magQuot m m' (e - e' + 6))) c
          else encodeF t (.val n (magQuot m m' (e - e'))) c
        | _, _ => (0, 0)
    (sc.1, rs.map Prod.fst, rs.foldl (fun f r => f ||| r.2) 0)

/-! ### Performing one destination group -/

/-- Record what writes replace, for reads of the instruction and of earlier ones that have not happened (R178). -/
def saveOld (s : State) (cells : List (Nat × Byte)) (j : Job) : Job :=
  { j with saved := cells.foldl (fun l c => if (assoc l c.1).isSome then l else (c.1, s.seen c.1) :: l) j.saved }

/-- The atomic update of one element (R273): the state after it, the old pattern and the flags. -/
def atomicElem (src s : State) (j : Job) (e : Elem) : State × Nat × Flags :=
  match e.a with
  | none => (s, 0, 0)
  | some l =>
    let inp := src.elemInp j e
    let old := ofBytesLE (l.keys.map s.seen) % 2 ^ j.t1.width
    let op : AOp := match j.op with
      | .amin => .min | .amax => .max | .acas => .cas | _ => .add
    let r := atomicNew op j.t1 (jobCtl j e.i) old inp.pb inp.pd
    let cells := l.keys.zip (bytesLE l.keys.length r.1)
    let s := if l.near then s.storeNear cells else (s.writeCells cells false).predAtomic (l.keys.headD 1) l.va
    (s, old, r.2)

/-- What `VBQ` makes of a segment (R202). -/
def quantised (src : State) (j : Job) (g : List Elem) : Nat × List Nat × Flags :=
  quantise (j.gd.getD .mx32) (match j.op with
    | .bq nov => nov
    | _ => false) j.t1 (jobCtl j) ((g.head?.map Elem.i).getD 0)
    (g.map fun e => (e.a.map fun l => valueOf none j.t2 (src.consumePat j e.plot j.t2.width l)).getD Num.zero)

/-- Perform a group whose elements meet no data fault. `src` is the state whose memory the sources are read from. -/
def performElems (src s : State) (j : Job) (g : List Elem) : State × Job :=
  match j.op with
  | .cmp c =>
    let bs := g.map fun e =>
      let x := src.elemInp j e
      (e.i, cmpNum c x.a ((j.imm.map (immNum j.t1)).getD x.b), e.plot)
    (s, { j with maskBits := j.maskBits ++ bs })
  | .loc =>
    let bs := g.map fun e =>
      (e.i, (e.a.map Loc.plot) == (e.b.map Loc.plot), e.plot)
    (s, { j with maskBits := j.maskBits ++ bs })
  | .bq _ =>
    let geo := j.gd.getD .mx32
    let r := src.quantised j g
    let d0 := g.head?.bind Elem.d
    let cells := (g.zip r.2.1).foldl (fun h p =>
      match p.1.d with
      | some l => placeCells s h l j.t1.width p.2
      | none => h) ((d0.bind Loc.scale).toList.map fun k => (k, BitVec.ofNat 8 r.1))
    let seg := (d0.bind Loc.scale).getD 0
    let last := (segsPer geo j.t1 - 1) * segBytes geo j.t1
    let pad := if seg % 256 = last then
        (List.range (256 - segsPer geo j.t1 * segBytes geo j.t1)).map fun o => (seg / 256 * 256 + last + segBytes geo j.t1 + o, (0 : Byte))
      else []
    (s.storeCells j ((d0.map Loc.plot).getD 0) 0 (cells ++ pad), { saveOld s (cells ++ pad) j with flags := j.flags ||| r.2.2 })
  | .aadd | .amin | .amax | .acas =>
    g.foldl (fun r e =>
      let a := atomicElem src r.1 r.2 e
      let d := a.1.storeElems r.2 [(e, a.2.1)]
      (d.1, { saveOld a.1 d.2 r.2 with flags := r.2.flags ||| a.2.2 })) (s, j)
  | _ =>
    let rs := g.map fun e => (e, src.memResult j e)
    let d := s.storeElems j (rs.map fun r => (r.1, r.2.1))
    (d.1, { saveOld s d.2 j with flags := rs.foldl (fun f r => f ||| r.2.2) j.flags })

/-- The bytes of places of a group's elements that are read from memory now. -/
def groupKeys (j : Job) (locs : Elem → List Loc) (g : List Elem) : List Nat :=
  g.flatMap fun e => (locs e).flatMap fun l => (l.keys ++ l.scale.toList).filter fun k =>
    (assoc j.saved k).isNone && (landedGroup j (recvPlot j e.plot l) (k / 64)).isNone

/-- The reads of a group pass the codes of their sectors and words (R109, R147), and those of an atomic's targets. -/
def readGroup (s : State) (j : Job) (g : List Elem) : State :=
  let s := s.readThrough .read (groupKeys j (sourceLocs j) g)
  if isAtomicOp j.op then s.readThrough .atomic (groupKeys j (fun e => e.a.toList) g) else s

/-- The lowest element of a group that meets a data fault (DEDUCED: notes/assumptions/31.md). -/
def groupMet (src s : State) (j : Job) (g : List Elem) : Option FaultRec :=
  g.findSome? fun e => elemMet src s j e

/-- Take a performed group out of a job: its elements go, and the plot's progress index counts it. -/
def advanceJob (j : Job) (g : List Elem) : Job :=
  let p := (g.head?.map Elem.plot).getD 0
  { j with elems := j.elems.filter fun e => !g.any fun x => x.i == e.i && x.plot == e.plot && x.grp == e.grp,
           prog := assocSet j.prog p ((assoc j.prog p).getD 0 + 1) }

/-- One group: performed wholly, or not at all with the fault (R351). `VGATH.FF` performs the elements below the lowest
fault of an element above 0 and shortens `VL` (R209); such a fault, which is not raised, rewinds no strip either (R353;
notes/assumptions/100.md, DESIGN CHOICE). -/
def performGroup (src s : State) (j : Job) (g : List Elem) : State × Job × Option FaultRec :=
  let s := s.readGroup j g
  let src : State := { src with poison := s.poison }
  match groupMet src s j g with
  | none =>
    let r := performElems src s j g
    let sent := (g.filter fun e => e.d.any fun l => l.keys.any isRemote).map Elem.i
    (r.1, { advanceJob r.2 g with sent := r.2.sent ++ sent }, none)
  | some f =>
    let s := if f.refused && f.opnd == opD then s.refuse 48 f.addr.toNat else s
    if j.ff.isSome && f.elem != 0 then
      let r := performElems src s j (g.filter fun e => e.i < f.elem)
      (r.1, { advanceJob r.2 g with ff := some (min f.elem (j.ff.getD f.elem)) }, none)
    else (s, j, some f)

/-! ### Finish and stop -/

/-- The bits of a mask destination: written bits at their new homes, and, when the instruction has completed, 0 above
`VL` (R27, R210). -/
def maskAfter (s : State) (old : MaskV) (j : Job) (complete : Bool) : MaskV :=
  let idx := (List.range j.vl).map fun i =>
    match j.maskBits.find? fun b => b.1 == i with
    | some b => b
    | none => (i, old.bit i, old.home s.me.beds i)
  let m := maskFrom s.me.beds idx
  if complete then m
  else ⟨m.bits + old.bits / 2 ^ j.vl * 2 ^ j.vl, m.homes ++ old.homes.filter fun h => decide (j.vl ≤ h.1)⟩

def setMask (s : State) (k : Mask) (m : MaskV) : State := { s with me := { s.me with masks := s.me.masks.set k.val m } }

/-- An instruction has finished at every plot (R87, R181, R209, R210). -/
def finishJob (s : State) (j : Job) : State :=
  let s := (s.orFlags j.flags).flushFar j.seq
  let s := match j.kd with
    | some k => s.setMask k (s.maskAfter s.me.masks[k.val] j true)
    | none => s
  let s := match j.ff with
    | some v => { s with me := { s.me with vl := v } }
    | none => s
  { s with me := { s.me with jobs := s.me.jobs.filter (fun k => k.seq != j.seq), horiz := max s.me.horiz j.seq } }

/-- The elements whose groups no plot has performed yet, in ascending index. -/
def remaining (j : Job) : List Elem :=
  if j.prog.isEmpty then j.elems
  else
    match j.op with
    | .red _ =>
      let left := dropDone j.prog j.elems
      j.elems.filter fun e => left.any fun x => x.i == e.i && x.plot == e.plot
    | _ => j.elems

/-- A begun instruction as a data fault or a pre-emption keeps it (R317, R351, R355). -/
def stopOf (j : Job) : StopInstr :=
  ⟨j.addr, j.seq, j.guardBits, j.prog, j.carry, j.saved ++ j.idx, j.landed, j.ff, some j.op, j.t1, j.ga,
    (groupsOf (remaining j)).foldl (fun l g => match g.head? with
      | some e => if (assoc l e.plot).isSome then l else l ++ [(e.plot, e.k)]
      | none => l) []⟩

/-- The skew window of an instruction lets plots begin it (R11, R181). -/
def mayBegin (s : State) (j : Job) : Bool := decide (j.seq - s.me.horiz ≤ 16 - j.skew)

/-- Whether plots may begin a job: they begin instructions in order, so every earlier one may begin too (R176). What they may
begin counts as begun (notes/assumptions/110.md, DESIGN CHOICE). -/
def begun (s : State) (j : Job) : Bool := s.me.jobs.all fun k => decide (j.seq < k.seq) || s.mayBegin k

/-- The instructions behind number n that no plot has begun. -/
def unbegun (s : State) (n : Nat) : List Job := s.me.jobs.filter fun j => decide (n < j.seq) && !s.begun j && j.prog.isEmpty

/-- Discard instructions that no plot has begun: their words are fetched again (R317, R355). -/
def discard (s : State) (js : List Job) : State :=
  { s with me := { s.me with jobs := s.me.jobs.filter fun j => !js.any fun k => k.seq == j.seq } }

/-- Stop the instructions from number n on: their performed groups stand, with their flags and mask bits (R351). -/
def stopJobs (s : State) (n : Nat) : State × List StopInstr :=
  let js := s.me.jobs.filter fun j => n ≤ j.seq
  let s := js.foldl (fun s j =>
    let s := (s.orFlags j.flags).flushFar j.seq
    match j.kd with
    | some k => s.setMask k (s.maskAfter s.me.masks[k.val] j false)
    | none => s) s
  ({ s with me := { s.me with jobs := s.me.jobs.filter fun j => j.seq < n } }, js.map stopOf)

/-- Whether a consumed datum rewinds the strip instead of going to the program (R353). -/
def rewindsFor (s : State) (r : FaultRec) : Bool :=
  (r.code == cPOISON || r.code == cNEARUE) && !r.refused && !s.me.strip.sealed && !s.me.strip.rewound

/-- A data fault of begun instruction m, every older one having finished: rewind, or trap entry (R317, R351, R353).
Words that no plot has begun are discarded, so fetch goes back to the word after the youngest stopped one. -/
def dataFaultEntry (s : State) (j : Job) (r : FaultRec) : State :=
  if s.rewindsFor r then s.rewind
  else
    let st := (s.discard (s.unbegun j.seq)).stopJobs j.seq
    st.1.enterTrap r j.addr j.seq st.2

end State

end Sys2Proof.Machine
end

