-- ==== Sys2Proof/Machine/Lanes.lean ====
section
/-! DEFINITION. What the plots go by (07 R176 to R187, 15 R340): the groups that an element needs, pins, which destination group a
plot may perform, and the arbitration of a plot's lane. -/

namespace Sys2Proof.Machine

namespace State

/-! ### What an element needs (R177) -/

/-- The groups of 64 bytes of a place. -/
def locGroups (l : Loc) : List Nat := groupsOfKeys (l.keys ++ l.scale.toList)

/-- A group that an element needs: its number, whether it is near, the plot that owns it, and the plot that it goes to. A
mask group of R210 has a number above 2^60 that tells its home and its first bit; the far bytes of a place are given for
the store buffer. -/
structure Src where
  grp : Nat
  near : Bool
  owner : Nat
  recv : Nat
  keys : List Nat
  deriving DecidableEq, Repr

/-- The number of the mask group that holds bit i at its home. -/
def maskGroup (home i : Nat) : Nat := 2 ^ 60 + home * 4096 + i / 512

/-- The plot that owns a near group, or is the home of a mask group. -/
def groupOwner (g : Nat) : Nat := if 2 ^ 60 ≤ g then (g - 2 ^ 60) / 4096 else plotOf (g * 64)

/-- The groups that an element needs. -/
def sources (j : Job) (e : Elem) : List Src :=
  ((sourceLocs j e).flatMap fun l => (locGroups l).map fun g =>
    (⟨g, l.near, if l.near then groupOwner g else l.plot, recvPlot j e.plot l, if l.near then [] else l.keys⟩ : Src)) ++
  e.home.toList.map fun h => ⟨maskGroup h e.i, true, h, e.plot, []⟩

/-- Whether a group travels: by a pull from another owner, or as a far return. -/
def Src.travels (x : Src) : Bool := !x.near || x.owner != x.recv

/-- Whether what a plot will receive of a group has been read: its pull is served, or its packet answered (R179). -/
def servedAt (j : Job) (plot g : Nat) : Bool := j.landed.any fun x => x.plot == plot && x.grp == g

/-- Whether a group has reached a plot, with no message for it still on its way. -/
def landedAt (j : Job) (plot g : Nat) : Bool :=
  servedAt j plot g && !j.fetches.any fun f => f.plot == plot && f.grp == g

/-- The destination groups that a job has still to write: D, and the target of an atomic. -/
def writesLeft (j : Job) : List Nat :=
  j.elems.flatMap fun e => (e.d.map locGroups).getD [] ++ if isAtomicOp j.op then (e.a.map locGroups).getD [] else []

/-- The source groups that a job has still to read. -/
def readsLeft (j : Job) : List Nat :=
  j.elems.flatMap fun e => ((sources j e).filter fun x => !servedAt j x.recv x.grp).map Src.grp

def isXform (j : Job) : Bool := j.op == .xform

/-- Whether an earlier job still has to write a group that job j reads in an order that the machine keeps: a pull
(R178), a chain (R14, R37), or a transform on either side (R132); or whether it has written a part of the group and not yet all
that it writes there, so that no read sees half of its write (R38). -/
def readWaits (s : State) (j : Job) (x : Src) : Bool :=
  s.me.jobs.any fun k => decide (k.seq < j.seq) &&
    (!j.trusted || j.chains.contains k.seq || (x.near && x.owner != x.recv) || isXform j || isXform k ||
      k.saved.any fun c => c.1 / 64 == x.grp) &&
    (writesLeft k).contains x.grp

/-! ### Pins (R179, R186, R206) -/

/-- The blocks of 64 virtual bytes that a place touches, as one range. -/
def blocksOf (l : Loc) : Nat × Nat := (l.va / 64 * 64, (l.va + l.keys.length + 63) / 64 * 64)

/-- Whether an earlier unfinished job pins a near destination until it has finished: by the window of an indexed operand, or
as an element that `VCOMP` or `VEXPD` holds. -/
def windowPinned (s : State) (j : Job) (l : Loc) : Bool :=
  l.near && s.me.jobs.any fun k => decide (k.seq < j.seq) &&
    ((k.wins.any fun w => decide (w.1 < (blocksOf l).2) && decide ((blocksOf l).1 < w.2)) ||
      (locGroups l).any fun g => k.holds.contains g)

/-- Whether pulls of a job for a group have still to be served. -/
def pullsLeft (j : Job) (g : Nat) : Bool :=
  j.elems.any fun e => (sources j e).any fun x => x.near && x.grp == g && x.travels && !servedAt j x.recv g

/-- The groups of a plot whose old content its pin buffer holds for pulls that are still to come. -/
def pinBuffer (s : State) (plot : Nat) : List Nat :=
  s.me.jobs.foldl (fun l j => (groupsOfKeys (j.saved.map Prod.fst)).foldl (fun l g =>
    if groupOwner g == plot && pullsLeft j g then insertNat g l else l) l) []

/-- Whether the instruction's own write to a group waits for its pulls, since the pin buffer of 64 groups is full. -/
def pinWaits (s : State) (j : Job) (l : Loc) : Bool :=
  l.near && (locGroups l).any fun g => pullsLeft j g && !(j.saved.any fun c => c.1 / 64 == g) &&
    decide (64 ≤ (s.pinBuffer (groupOwner g)).length)

/-! ### Which group may be performed -/

/-- The operations that are performed whole, not group by group. -/
def wholeOp : VOp → Bool
  | .red _ | .scan _ | .aadd | .amin | .amax | .acas => true
  | _ => false

/-- Whether what a group needs is there: what travels has landed, or the far-store buffer holds it; what is read in place,
and what the buffer supplies, waits for the writes that it must follow (R14, R15, R37, R104). -/
def sourceReady (s : State) (j : Job) (x : Src) : Bool :=
  landedAt j x.recv x.grp ||
    ((!x.travels || (!x.near && x.keys.all fun k => (s.buffered k).isSome)) && !s.readWaits j x)

/-- Whether a plot may perform a group of a job now: instructions begin in order (R176) within the skew window, writes keep
their order and wait for reads and pins (R15, R179, R186), and the operands are there. -/
def groupReady (s : State) (j : Job) (g : List Elem) : Bool :=
  !wholeOp j.op && s.begun j &&
  (match s.me.pending with
    | some p => decide (j.seq < p.2) || (p.2 == j.seq && g.all fun e => decide (e.i < p.1.elem) && e.plot != p.1.dplot)
    | none => true) &&
  (g.all fun e =>
    (e.d.all fun l => !s.windowPinned j l && !s.pinWaits j l && (locGroups l).all fun x =>
      s.me.jobs.all fun k => decide (j.seq ≤ k.seq) || (!(writesLeft k).contains x && !(readsLeft k).contains x)) &&
    (sources j e).all (s.sourceReady j))

/-- The next group of a job at a plot (R176: ascending element order). -/
def nextGroup (j : Job) (plot : Nat) : Option (List Elem) :=
  (groupsOf j.elems).find? fun g => (g.head?.map Elem.plot) == some plot

/-- Note a met data fault: of the oldest instruction, at its lowest element (R317, R351). -/
def meet (s : State) (f : FaultRec) (seq : Nat) : State :=
  let put : State := { s with me := { s.me with pending := some (f, seq) } }
  match s.me.pending with
  | none => put
  | some p => if seq < p.2 ∨ (seq = p.2 ∧ f.elem < p.1.elem) then put else s

/-! ### The arbitration of a plot (R340) -/

/-- The stream slot that a stream's span uses in the bed of a plot (R285). -/
def bandSlot (s : State) (b : Band) (plot : Nat) : Option Nat :=
  (b.beds.findIdx? (· == plot / 64)).map fun k => s.spanSlot b.spane k

/-- Whether a stream can begin a group at a plot. -/
def canBegin (s : State) (b : Band) (plot : Nat) : Bool :=
  let t : State := { s with me := b }
  b.status == .run && b.jobs.any fun j => (nextGroup j plot).any (t.groupReady j)

/-- The stream of a slot of a plot. -/
def slotBand (s : State) (plot slot : Nat) : Option Band :=
  (s.me :: s.bands).find? fun b => b.status == .run && s.bandSlot b plot == some slot

def slotReady (s : State) (plot slot : Nat) : Bool := (s.slotBand plot slot).any fun b => s.canBegin b plot

/-- Whether a slot has a decoded instruction with groups left at a plot. -/
def slotWorks (s : State) (plot slot : Nat) : Bool :=
  (s.slotBand plot slot).any fun b => b.jobs.any fun j => j.elems.any fun e => e.plot == plot

/-- The arbitration of a plot; before its first turn slot 0 comes next. -/
def arbAt (s : State) (plot : Nat) : Arb := (s.arb.find? fun a => a.plot == plot).getD ⟨plot, 3, false, []⟩

def arbLeft (a : Arb) (slot : Nat) : Int := (assoc a.deficit slot).getD 0

def putArb (s : State) (a : Arb) : State := { s with arb := (s.arb.filter fun x => x.plot != a.plot) ++ [a] }

/-- The turn ends: a slot without work keeps no deficit. -/
def endTurn (s : State) (a : Arb) : Arb :=
  { a with on := false, deficit := if a.on && !s.slotWorks a.plot a.slot then assocSet a.deficit a.slot 0 else a.deficit }

/-- The weight of a stream (R334, R335); a stream of no node has weight 1 (notes/assumptions/88.md, DESIGN CHOICE). -/
def weightOf (b : Band) : Nat := (b.node.map NodeRef.weight).getD 1

/-- The turn of a slot of the stream begins. -/
def newTurn (s : State) (a : Arb) (slot : Nat) : Arb :=
  { a with slot, on := true, deficit := assocSet a.deficit slot (arbLeft a slot + 256 * (weightOf s.me : Int)) }

/-- The turn in which the stream performs a group at a plot: the running one, or its own that begins when no other slot comes
before it. -/
def takeSlot (s : State) (plot slot : Nat) : Option Arb :=
  let a := s.arbAt plot
  if a.on && decide (0 < arbLeft a a.slot) && s.slotReady plot a.slot then (if a.slot = slot then some a else none)
  else
    let a := s.endTurn a
    match ((List.range 4).map fun k => (a.slot + 1 + k) % 4).find? (s.slotReady plot) with
    | some k => if k = slot then some (s.newTurn a k) else none
    | none => none

/-- Whether a value is subnormal in a type. -/
def subnormalPat (t : Ty) (pat : Nat) : Bool :=
  !t.isInt && match decodeTy t pat with
  | .fin _ m e => m != 0 && decide ((Nat.log2 m : Int) + e < 1 - bias t)
  | _ => false

/-- The passes of one group of a form (R193); timing only. -/
def formPasses (op : VOp) (t : Ty) : Nat :=
  match op with
  | .div | .sqrt => if t = .f64 then 16 else 4
  | .rcp | .rsq | .exp2 | .log2 | .tanh => 4
  | .bq _ => 2
  | .mul | .mulh => if t = .i64 ∨ t = .n64 then 4 else if t = .f64 then 2 else 1
  | .add | .sub | .fma | .fms | .fnma | .min | .max | .abs | .neg | .clamp | .mulw | .fmaw => if t = .f64 then 2 else 1
  | _ => 1

/-- Whether an enabled input element of a group or a result of it is subnormal in its type (R65, R193). The scale bytes that
`VBDQ.scale` reads are no elements, and `VLOC` reads none. -/
def groupSubnormal (src : State) (j : Job) (g : List Elem) : Bool :=
  let has := fun (e : Elem) (t : Ty) (o : Option Loc) =>
    o.any fun l => subnormalPat t (src.consumePat j e.plot t.width l).1
  j.op != .loc && ((g.any fun e =>
    (j.op != .bdq true && has e (typeOfA j) e.a) || has e j.t2 e.b || (readsDest j.op && has e j.t1 e.d)) ||
    match j.op with
    | .bq _ =>
      let r := src.quantised j g
      (r.2.1.any fun c => subnormalPat j.t1 c) || (r.2.2 &&& fUF) != 0
    | _ => g.any fun e =>
      let r := src.memResult j e
      subnormalPat j.t1 r.1 || (r.2 &&& fUF) != 0)

/-- The passes that a group takes: one more where it holds a subnormal. -/
def groupPasses (src : State) (j : Job) (g : List Elem) : Nat :=
  formPasses j.op j.t1 + if src.groupSubnormal j g then 1 else 0

/-- A turn with a performed group charged to it, which ends it with no deficit left, with `CEDE` (R12), or with nothing more that
can begin. -/
def chargeTo (s : State) (a : Arb) (j : Job) (passes : Nat) (more : Bool) : State :=
  let a := { a with deficit := assocSet a.deficit a.slot (arbLeft a a.slot - passes) }
  let ceded := j.cede && !j.elems.any fun e => e.plot == a.plot
  s.putArb (if ceded || decide (arbLeft a a.slot ≤ 0) || !more then s.endTurn a else a)

/-- Charge a performed group to the turn, which ends where R340 or `CEDE` (R12) ends it. -/
def charge (s : State) (a : Arb) (j : Job) (passes : Nat) : State := s.chargeTo a j passes (s.slotReady a.plot a.slot)

/-- Whether a slot of another stream can begin a group at one of some plots where the stream has work to perform: the stream
then waits for its turns (R340). -/
def contendedIn (s : State) (plots : List Nat) : Bool :=
  (s.bands.any fun b => b.status == .run && !b.jobs.isEmpty) &&
    plots.any fun p => (s.bandSlot s.me p).any fun own => (List.range 4).any fun k => k != own && s.slotReady p k

/-- The same of the plots that perform some elements. -/
def contendedAt (s : State) (es : List Elem) : Bool := s.contendedIn (es.map Elem.plot)

/-- The arbitration after a job has performed groups with no other slot ready beside it: turn after turn of its own slot, each
group charged (R340). -/
def chargedArb (s : State) (j : Job) (gs : List (List Elem)) : List Arb :=
  (gs.foldl (fun (r : State × Job) g =>
    let k := { r.2 with elems := r.2.elems.filter fun e => !g.contains e }
    let t : State := { r.1 with me := { r.1.me with jobs := r.1.me.jobs.map fun x => if x.seq = k.seq then k else x } }
    match g.head?.bind fun e => (s.bandSlot s.me e.plot).map fun n => (e.plot, n) with
    | none => (t, k)
    | some (plot, slot) =>
      let a := t.arbAt plot
      let a := if a.on && a.slot == slot && decide (0 < arbLeft a slot) then a else t.newTurn (t.endTurn a) slot
      (t.chargeTo a k (groupPasses s j g) (t.slotWorks plot slot), k)) (s, j)).1.arb

end State

end Sys2Proof.Machine
end

