-- ==== Sys2Proof/Machine/Drain.lean ====
section
/-! DEFINITION. The reductions and scans (08 R215, R216, 03 R88 to R91), the vector atomics (10 R273), and the finishing of
everything in flight. -/

namespace Sys2Proof.Machine

namespace State

/-! ### Reductions and scans (R88 to R91, R215, R216) -/

/-- A source element as a reduction takes it: its index, the span position of the plot that executes it, the span
position of its owner (N outside the span, R90), and its pattern with the scale byte. -/
structure RedElem where
  i : Nat
  here : Nat
  pos : Nat
  pat : Nat × Nat
  deriving DecidableEq, Repr

/-- One rounded addition of the `f64` order. -/
def addRound (c : RCtl) (a b : Num) : Num × Flags :=
  let s := Num.add c.rm a b
  let r := roundNum .f64 s.1 { c with sat := 0 }
  (r.1, s.2 ||| r.2)

/-- The parts of R90: each element goes on from the part of its owner, in ascending index. -/
def partsFrom (ctl : Nat → RCtl) (l : List (Nat × Num)) (es : List RedElem) : List (Nat × Num) × Flags :=
  es.foldl (fun r e =>
      let x := decodeTy .f64 e.pat.1
      match assoc r.1 e.pos with
      | none => (assocSet r.1 e.pos x, r.2)
      | some y =>
        let z := addRound (ctl e.i) y x
        (assocSet r.1 e.pos z.1, r.2 ||| z.2)) (l, 0)

/-- One level of the tree of R90 over the parts that are not empty. -/
def treeLevel (ctl : Nat → RCtl) (level : Nat) (l : List (Nat × Num)) : List (Nat × Num) × Flags :=
  l.foldl (fun r p =>
    let k := p.1 / 2
    match assoc r.1 k with
    | none => (r.1 ++ [(k, p.2)], r.2)
    | some y =>
      let z := addRound (ctl (2 ^ 31 + level * 2 ^ 16 + k)) y p.2
      (assocSet r.1 k z.1, r.2 ||| z.2)) ([], 0)

def treeSum (ctl : Nat → RCtl) : Nat → Nat → Nat → List (Nat × Num) × Flags → List (Nat × Num) × Flags
  | 0, _, _, r => r
  | fuel + 1, n, level, r =>
    if n ≤ 1 then r
    else
      let t := treeLevel ctl level r.1
      treeSum ctl fuel (n / 2 + n % 2) (level + 1) (t.1, r.2 ||| t.2)

/-- A carry's exact sum. -/
def carrySum (c : Carry) : RunningSum := ⟨c.total, c.pinf, c.ninf, c.nan, c.nonempty, c.allNegZero, c.allPosZero⟩

/-- The smaller or larger of two block values, with the pattern and scale that show it. -/
def pickBlock (g : Geom) (t : Ty) (wantMin : Bool) (p q : Nat × Nat) : Nat × Nat :=
  let x := valueOf (some g) t p
  let y := valueOf (some g) t q
  if x.isNaN then q else if y.isNaN then p
  else if wantMin then (if y.below x then q else p) else (if x.below y then q else p)

/-- The members of a list that a `min`, `max` or logic reduction still compares: one of each carry, then the elements. -/
def members (cs : List Carry) (es : List RedElem) : List (Nat × Nat) :=
  ((cs.filter Carry.nonempty).map fun c => (c.pat, c.scale)) ++ es.map RedElem.pat

/-- The result of a reduction over the carries of finished groups and a list in ascending index; `n` is the number of
plots of the span and `idx` the stochastic index of the final encoding. A result of `min` or `max` that comes from a
block source is encoded from its value (notes/assumptions/80.md, DESIGN CHOICE). -/
def reduceWith (op : RedOp) (t : Ty) (g : Option Geom) (ctl : Nat → RCtl) (n idx : Nat) (cs : List Carry)
    (es : List RedElem) : Nat × Flags :=
  let w := t.width
  match op with
  | .add =>
    if t.isInt && g.isNone then (es.foldl (fun a e => (a + e.pat.1) % 2 ^ w) (cs.foldl (fun a c => (a + c.pat) % 2 ^ w) 0), 0)
    else if t = .f64 then
      let p := partsFrom ctl ((cs.filter Carry.nonempty).map fun c => (c.pos, decodeTy .f64 c.pat)) es
      let sorted := (List.range (n + 1)).filterMap fun k => (assoc p.1 k).map fun x => (k, x)
      let size := if (assoc p.1 n).isSome then n + 1 else n
      let r := treeSum ctl 64 size 1 (sorted, p.2)
      let x := (r.1.head?.map Prod.snd).getD Num.zero
      let e := encodeF .f64 x.exact (ctl idx)
      (e.1, r.2 ||| e.2)
    else
      let s := (es.foldl (fun s e => s.push (valueOf g t e.pat))
        (cs.foldl (fun s c => s.append (carrySum c)) RunningSum.empty)).result (ctl idx).rm
      if t.isInt then (wrapNum w s.1, 0)
      else
        let e := encodeX t s.1.exact (ctl idx)
        (e.1, s.2 ||| e.2)
  | .min | .max =>
    let wantMin := op == .min
    match g, members cs es with
    | _, [] => (emptyExtreme t wantMin, 0)
    | none, e :: rest => (rest.foldl (fun a x => pickPat t wantMin a x.1) (pickPat t wantMin e.1 e.1), 0)
    | some g, e :: rest =>
      encodeX t (valueOf (some g) t (rest.foldl (pickBlock g t wantMin) e)).exact (ctl idx)
  | .and => ((members cs es).foldl (fun a e => Nat.land a e.1) (2 ^ w - 1), 0)
  | .or => ((members cs es).foldl (fun a e => Nat.lor a e.1) 0, 0)
  | .xor => ((members cs es).foldl (fun a e => Nat.xor a e.1) 0, 0)

/-- The result of a reduction over a whole list. -/
def reduceList (op : RedOp) (t : Ty) (g : Option Geom) (ctl : Nat → RCtl) (n idx : Nat) (es : List RedElem) :
    Nat × Flags := reduceWith op t g ctl n idx [] es

/-- The carry at a span position. -/
def carryAt (cs : List Carry) (pos : Nat) : Carry :=
  (cs.find? fun c => c.pos == pos).getD ⟨pos, 0, false, false, false, false, true, true, 0, 0⟩

/-- The special terms that a part has seen, with one more (R352). -/
def carrySaw (c : Carry) (x : Num) : Carry :=
  { c with pinf := c.pinf || (x.isInf && !x.neg?), ninf := c.ninf || (x.isInf && x.neg?), nan := c.nan || x.isNaN,
           allNegZero := c.allNegZero && x.isZero && x.neg? }

/-- One element joins the carry of its plot, or of its owner in the `f64` order (R90, R216). -/
def carryPush (op : RedOp) (t : Ty) (g : Option Geom) (ctl : Nat → RCtl) (r : List Carry × Flags) (e : RedElem) :
    List Carry × Flags :=
  let f64 := op == .add && t == .f64
  let c := carryAt r.1 (if f64 then e.pos else e.here)
  let put := fun (c : Carry) => (r.1.filter fun x => x.pos != c.pos) ++ [{ c with nonempty := true }]
  let c := carrySaw c (valueOf g t e.pat)
  let pick := fun (f : Nat → Nat → Nat) => put { c with pat := if c.nonempty then f c.pat e.pat.1 else e.pat.1, scale := e.pat.2 }
  match op with
  | .add =>
    if t.isInt && g.isNone then (put { c with pat := (c.pat + e.pat.1) % 2 ^ t.width }, r.2)
    else if f64 then
      if c.nonempty then
        let z := addRound (ctl e.i) (decodeTy .f64 c.pat) (decodeTy .f64 e.pat.1)
        (put { c with pat := (encodeF .f64 z.1.exact ⟨.rne, 0, 0⟩).1 }, r.2 ||| z.2)
      else (put { c with pat := e.pat.1 }, r.2)
    else
      let s := (carrySum (carryAt r.1 e.here)).push (valueOf g t e.pat)
      (put ⟨c.pos, s.total, s.pinf, s.ninf, s.nan, s.nonempty, s.allNegZero, s.allPosZero, 0, 0⟩, r.2)
  | .min | .max =>
    match g with
    | none => (pick (pickPat t (op == .min)), r.2)
    | some g =>
      let p := if c.nonempty then pickBlock g t (op == .min) (c.pat, c.scale) e.pat else e.pat
      (put { c with pat := p.1, scale := p.2 }, r.2)
  | .and => (pick Nat.land, r.2)
  | .or => (pick Nat.lor, r.2)
  | .xor => (pick Nat.xor, r.2)

/-- Read the sources in ascending index up to the first data fault. -/
def readSources (j : Job) : List Elem → State → List RedElem → State × List RedElem × Option FaultRec
  | [], s, acc => (s, acc, none)
  | e :: es, s, acc =>
    match e.a with
    | none => readSources j es s acc
    | some l =>
      let at_ := fun (p : Nat) => (bedsPos s.me.beds p).getD (64 * s.me.beds.length)
      let s := s.readGroup j [{ e with d := none, b := none }]
      match (e.ix.findSome? fun l => (s.consumeCause .read j e.plot l).map fun m => metFault m l.va e.i opIndex e.plot).orElse
          fun _ => (s.consumeCause .read j e.plot l).map fun m => metFault m l.va e.i opA e.plot with
      | some f => (s, acc, some f)
      | none => readSources j es s (acc ++ [⟨e.i, at_ e.plot, at_ l.plot, s.consumePat j e.plot j.t1.width l⟩])

/-- The index below which a stop leaves every group wholly performed and from which it leaves every group unperformed, not
above `c` (R216; DESIGN CHOICE: notes/assumptions/81.md). -/
def cutFrom (gs : List (List Elem)) : Nat → Nat → Nat
  | 0, c => c
  | n + 1, c => cutFrom gs n (gs.foldl (fun c g =>
      if (g.any fun e => decide (e.i < c)) && g.any fun e => decide (c ≤ e.i) then
        min c (g.foldl (fun m e => min m e.i) c)
      else c) c)

/-- Count the groups of each plot that lie below an element as performed. -/
def progBelow (prog : List (Nat × Nat)) (es : List Elem) (c : Nat) : List (Nat × Nat) :=
  (groupsOf es).foldl (fun p g =>
    if g.all fun e => e.i < c then
      let q := (g.head?.map Elem.plot).getD 0
      assocSet p q ((assoc p q).getD 0 + 1)
    else p) prog

/-- A stopped reduction or scan: the elements below the cut join the carries, with the flags of their additions (R87). -/
def stopFold (op : RedOp) (j : Job) (c : Nat) (es : List RedElem) : Job :=
  let r := (es.filter fun e => decide (e.i < c)).foldl (carryPush op j.t1 j.ga (jobCtl j)) (j.carry, j.flags)
  { j with carry := r.1, flags := r.2 }

/-- `VRED`: the result goes to the scalar register as the instruction finishes. -/
def runReduce (s : State) (j : Job) (op : RedOp) : State × Job × Option FaultRec :=
  let es := remaining j
  let r := readSources j es s []
  match r.2.2 with
  | some f =>
    let c := cutFrom (groupsOf es) es.length f.elem
    (r.1, { stopFold op j c r.2.1 with prog := progBelow j.prog es c }, some f)
  | none =>
    let v := reduceWith op j.t1 j.ga (jobCtl j) (64 * s.me.beds.length) 0 j.carry r.2.1
    ((match j.sd with
      | some d => r.1.setReg d (toReg j.t1 v.1)
      | none => r.1), { j with elems := [], flags := j.flags ||| v.2 }, none)

/-- Write the results of a scan group by group, in order, for the groups that lie below an index. -/
def scanGroups (res : List (Nat × Nat × Flags)) (c : Nat) : List (List Elem) → State → Job → State × Job
  | [], s, j => (s, j)
  | g :: gs, s, j =>
    if g.any fun e => c ≤ e.i then scanGroups res c gs s j
    else
      let rs := g.filterMap fun e => (assoc res e.i).map fun v => (e, v.1)
      let fl := g.foldl (fun a e => a ||| ((assoc res e.i).map Prod.snd).getD 0) j.flags
      scanGroups res c gs (s.storeElems j rs).1 (advanceJob { j with flags := fl } g)

/-- `VSCAN` (R216): every element is the reduction of the enabled sources up to it. -/
def runScan (s : State) (j : Job) (wantMax : Bool) : State × Job × Option FaultRec :=
  let op : RedOp := if wantMax then .max else .add
  let r := readSources j j.elems s []
  let lim := (r.2.2.map FaultRec.elem).getD (2 ^ 20)
  let bad := (j.elems.filter fun e => decide (e.i < lim)).findSome? fun e =>
    e.d.bind fun l => (r.1.writeCause l).map fun m => metFault m l.va e.i opD e.plot
  let fault := bad.orElse fun _ => r.2.2
  let gs := groupsOf j.elems
  let c := match fault with
    | some f => cutFrom gs j.elems.length f.elem
    | none => 2 ^ 20
  let res := r.2.1.mapIdx fun k e =>
    (e.i, reduceWith op j.t1 j.ga (jobCtl j) (64 * s.me.beds.length) e.i j.carry (r.2.1.take (k + 1)))
  let t := match bad with
    | some f => if f.refused then r.1.refuse 48 f.addr.toNat else r.1
    | none => r.1
  let w := scanGroups res c gs t j
  (w.1, (match fault with
    | some _ => { (stopFold op { w.2 with flags := 0 } c r.2.1) with flags := w.2.flags }
    | none => w.2), fault)

/-! ### Running jobs to their end -/

/-- Perform the remaining groups of a job in the order of their lowest element. After a fault the other plots stop, but
for groups that hold a lower element. -/
def runGroups (src : State) : List (List Elem) → State → Job → Option FaultRec → State × Job × Option FaultRec
  | [], s, j, f => (s, j, f)
  | g :: gs, s, j, f =>
    let e := g.head?
    let skip := match f, e with
      | some r, some e => decide (r.elem ≤ e.i) || e.plot == r.dplot
      | _, _ => false
    if skip then runGroups src gs s j f
    else
      let r := performGroup src s j g
      match r.2.2, f with
      | some x, some y => runGroups src gs r.1 r.2.1 (some (if x.elem < y.elem then x else y))
      | some x, none => runGroups src gs r.1 r.2.1 (some x)
      | none, _ => runGroups src gs r.1 r.2.1 f

/-- The groups that a vector atomic performs before a data fault stops it, with that fault: as `runGroups` chooses. -/
def atomicGroups (j : Job) : List (List Elem) → State → List (List Elem) → Option FaultRec →
    State × List (List Elem) × Option FaultRec
  | [], s, done, f => (s, done, f)
  | g :: gs, s, done, f =>
    let skip := match f, g.head? with
      | some r, some e => decide (r.elem ≤ e.i) || e.plot == r.dplot
      | _, _ => false
    if skip then atomicGroups j gs s done f
    else
      let s := s.readGroup j g
      match s.groupMet s j g, f with
      | some x, some y => atomicGroups j gs s done (some (if x.elem < y.elem then x else y))
      | some x, none => atomicGroups j gs (if x.refused && x.opnd == opD then s.refuse 48 x.addr.toNat else s) done (some x)
      | none, _ => atomicGroups j gs s (done ++ [g]) f

/-- The vector atomics (R273): once every earlier write of the stream is performed, every element of the groups
that are performed, in ascending index (R259). -/
def runAtomics (s : State) (j : Job) : State × Job × Option FaultRec :=
  let r := atomicGroups j (groupsOf j.elems) s.performed [] none
  let es := j.elems.filter fun e => r.2.1.any fun g => g.any fun x => x.i == e.i
  let t := performElems r.1 r.1 j es
  (t.1, r.2.1.foldl advanceJob t.2, r.2.2)

/-- The fault that a plot has already met in a job (R351). -/
def metIn (s : State) (j : Job) : Option FaultRec := s.me.pending.bind fun p => if p.2 = j.seq then some p.1 else none

/-- Run one job to its end: the state with the job finished, or with the fault that stopped it. -/
def runJob (s : State) (j : Job) : State × Job × Option FaultRec :=
  match j.op with
  | .red op => s.runReduce j op
  | .scan mx => s.runScan j mx
  | .aadd | .amin | .amax | .acas => s.runAtomics j
  | _ => runGroups s (groupsOf j.elems) s j (s.metIn j)

def putJob (s : State) (j : Job) : State :=
  { s with me := { s.me with jobs := s.me.jobs.map fun k => if k.seq = j.seq then j else k } }

/-- The same, with its groups charged to the turns of its slot (R340). -/
def runCharged (s : State) (j : Job) : State × Job × Option FaultRec :=
  let r := s.runJob j
  ({ r.1 with arb := s.chargedArb j (groupsOf ((remaining j).filter fun e => !(remaining r.2.1).contains e)) }, r.2)

/-- Finish every begun instruction in order. `ok` when all have finished; `error` with the state after the trap entry or
the rewind of the oldest that faulted (R317, step 2). -/
def drainJobs : List Job → State → Except State State
  | [], s => .ok s
  | j :: js, s =>
    let r := s.runCharged j
    match r.2.2 with
    | none => drainJobs js (r.1.finishJob r.2.1)
    | some f => .error ((r.1.putJob r.2.1).dataFaultEntry r.2.1 f)

/-- Whether the stream's slot must share a plot where it has work left with a slot that can begin a group there. -/
def contended (s : State) : Bool := s.contendedAt (s.me.jobs.flatMap Job.elems)

/-- The stream once every begun broadcast instruction has finished. The error is the state after the trap entry or rewind
that a data fault of one of them caused; or, where another slot's groups come between, the state as it stands: the stream
waits for its turns (R340). -/
def settled (s : State) : Except State State :=
  if s.contended then .error s else drainJobs s.me.jobs s.zeroFrames

/-- The stream once everything that it has begun is done, or after the trap entry or rewind: what a device-wide operation waits
for, in one step (notes/assumptions/88.md, DESIGN CHOICE). -/
def settledOr (s : State) : State :=
  match drainJobs s.me.jobs s.zeroFrames with
  | .ok s' => s'
  | .error s' => s'

/-- Issue after every earlier instruction has finished: where an earlier one faults, this one does not issue
(DESIGN CHOICE: notes/assumptions/22.md). -/
def afterAll (s : State) (k : State → Out) : Out :=
  match s.settled with
  | .ok s' => k s'
  | .error s' => .next s'

end State

end Sys2Proof.Machine
end

