-- ==== Sys2Proof/Machine/Packets.lean ====
section
/-! DEFINITION. Request packets (04 R102, R103, 15 R341): how the far operands of a broadcast instruction are cut into
packets, what a packet holds, and the landing slots that its returns take. -/

namespace Sys2Proof.Machine

/-- `ESIZE` of an element width in bits. -/
def esizeOf (w : Nat) : Nat :=
  match w with
  | 4 => 0 | 6 => 1 | 8 => 2 | 16 => 3 | 32 => 4 | _ => 5

/-- The 256 bits of a request packet of instruction `seq` from a Bandstand (R102). -/
def packetWord (p : RPkt) (bstand : Fin 64) (seq : Nat) : BitVec 256 :=
  BitVec.ofNat 256 (packFields [(60, 0), (10, p.route), (2, p.opnd), (32, seq), (6, bstand.val), (20, wrap 20 p.firstIdx),
    (2, p.geom), (6, p.type), (3, p.esize), (21, p.count), (25, wrap 25 p.stride), (3, p.fbit), (16, p.first), (32, p.ppn),
    (12, p.devid), (2, p.tier), (4, p.kind)])

/-- `OPND` of a packet (R102): A, B, D, the index vector. -/
def pktA : Nat := 0
def pktB : Nat := 1
def pktD : Nat := 2
def pktIndex : Nat := 3

/-- A far element as the Bandstand asks for it: what is asked (`KIND`), its operand, whether no packet goes on to it from the
element before, its index in the operand, the plot that its return goes to, its place, its type and geometry. -/
structure FarItem where
  kind : Nat
  opnd : Nat
  single : Bool
  idx : Nat
  recv : Nat
  loc : Loc
  width : Nat
  ty : Ty
  geom : Option Geom
  deriving DecidableEq, Repr

/-- The block of 64 KiB of a far key: the device, 0 for this one, and the number within the device. -/
def blockOf (k : Nat) : Nat × Nat :=
  if isRemote k then (k / remoteUnit - 1, k % remoteUnit / 65536) else (0, k / 65536)

/-- Where an item stands: the key of its first byte, or of its segment (R102). -/
def FarItem.key (x : FarItem) : Nat := (x.loc.scale).getD (x.loc.keys.headD 0)

/-- Its place in units of `STRIDE`: bits, bytes, or segments. -/
def FarItem.unit (x : FarItem) : Int :=
  match x.geom with
  | some g => (x.key / 256 * segsPer g x.ty + x.key % 256 / segBytes g x.ty : Nat)
  | none => if x.ty.subByte then (x.key * 8 + x.loc.bit : Nat) else (x.key : Nat)

/-- The index of the first element of its segment, or its own. -/
def FarItem.first (x : FarItem) : Int :=
  match x.geom with
  | some _ => x.idx - (((x.loc.keys.headD 0 - x.key - 1) * 8 + x.loc.bit) / x.width : Nat)
  | none => x.idx

/-- The groups that its bytes lie in. -/
def FarItem.groups (x : FarItem) : List Nat := State.groupsOfKeys (x.loc.keys ++ x.loc.scale.toList)

/-- A packet in the making: the groups that each plot will receive from it, and its last item. -/
structure PktAcc where
  pkt : RPkt
  needs : List (Nat × List Nat)
  last : FarItem
  deriving DecidableEq, Repr

/-- The groups that a plot would receive with one more item. -/
def moreNeeds (needs : List (Nat × List Nat)) (x : FarItem) : List (Nat × List Nat) :=
  assocSet needs x.recv (x.groups.foldl (fun l g => insertNat g l) ((assoc needs x.recv).getD []))

/-- A packet of one item; `page` gives `TIER`, `TYPE` and `GEOM`. -/
def firstPkt (page : FarItem → Nat × Nat × Nat) (x : FarItem) : PktAcc :=
  let b := blockOf x.key
  let p := page x
  ⟨{ kind := x.kind, opnd := x.opnd, tier := p.1, devid := b.1, ppn := b.2, first := x.key % 65536,
     fbit := if x.geom.isNone then x.loc.bit else 0, stride := 0, count := 1, esize := esizeOf x.width, type := p.2.1, geom := p.2.2,
     firstIdx := x.first, route := 0, sent := false }, moreNeeds [] x, x⟩

/-- The packet with one more item, where that item continues it (R102) and no plot would need more than 32 landing slots
(R341). -/
def joinPkt (page : FarItem → Nat × Nat × Nat) (a : PktAcc) (x : FarItem) : Option PktAcc :=
  let block := match x.geom with
    | some g => blockSize g
    | none => 1
  let steps := (x.first - (a.pkt.firstIdx + ((a.pkt.count - 1) * block : Nat))) / (block : Int)
  let dist := x.unit - a.last.unit
  let needs := moreNeeds a.needs x
  let same := a.pkt.kind == x.kind && a.pkt.opnd == x.opnd && blockOf a.last.key == blockOf x.key && page a.last == page x &&
    !x.single
  let room := needs.all fun n => decide (n.2.length ≤ 32)
  if same && room && steps == 0 && dist == 0 then some { a with needs, last := x }
  else if same && room && decide (0 < steps) && dist % steps == 0 && (a.pkt.count == 1 || a.pkt.stride == dist / steps) then
    some ⟨{ a.pkt with stride := dist / steps, count := a.pkt.count + steps.toNat }, needs, x⟩
  else none

/-- The packets of one operand, in ascending index. -/
def cutPkts (page : FarItem → Nat × Nat × Nat) (xs : List FarItem) : List RPkt :=
  let r := xs.foldl (fun (r : List RPkt × Option PktAcc) x =>
    match r.2 with
    | none => (r.1, some (firstPkt page x))
    | some a => match joinPkt page a x with
      | some b => (r.1, some b)
      | none => (r.1 ++ [a.pkt], some (firstPkt page x))) ([], none)
  r.1 ++ (r.2.map PktAcc.pkt).toList

/-- The plot that each far segment goes to: that of its first element (R103). -/
def segPlots (es : List Elem) : List (Nat × Nat) :=
  es.foldl (fun l e => (e.a.toList ++ e.b.toList).foldl (fun l x =>
    match x.near, x.scale with
    | false, some k => if (assoc l k).isSome then l else l ++ [(k, e.plot)]
    | _, _ => l) l) []

/-- The index of an element of A: VEXPD reads the sources in a row (R206), a transform the element that it moves (R130). -/
def sourceIdx (j : Job) (e : Elem) : Nat :=
  match j.op with
  | .expd | .xform => e.k
  | _ => e.i

/-- The far source places of an element, each with its operand, its index in it, its type and its geometry. -/
def farPlaces (j : Job) (e : Elem) : List (Nat × Nat × Loc × Ty × Option Geom) :=
  let reads := fun (o : Option Loc) => if j.op = .loc then [] else o.toList
  (((if State.isAtomicOp j.op then [] else reads e.a).map fun l => (pktA, sourceIdx j e, l, State.typeOfA j, j.ga)) ++
    ((reads e.b).map fun l => (pktB, e.i, l, j.t2, j.gb)) ++
    (if State.readsDest j.op then e.d.toList.map fun l => (pktD, e.i, l, j.t1, none) else []) ++
    (e.ix.map fun l => (pktIndex, e.i, l, Ty.i32, none))).filter fun x => !x.2.2.1.near

/-- A far element that is read, as an item of its operand. An indexed operand travels element by element (R102), and a new row of
a transform's source begins a new packet (R133). -/
def readItem (j : Job) (indexed : List Nat) (e : Elem) (x : Nat × Nat × Loc × Ty × Option Geom) : FarItem :=
  ⟨0, x.1, (x.1 == pktA && indexed.contains opA) || (x.1 == pktB && indexed.contains opB) || (x.1 == pktD && indexed.contains opD) ||
      (j.row != 0 && x.2.1 % j.row == 0),
    x.2.1, State.recvPlot j e.plot x.2.2.1, x.2.2.1, x.2.2.2.1.width, x.2.2.2.1, x.2.2.2.2⟩

/-- The far elements that an element writes: D, or the target of an atomic (R102, R273). -/
def writeItems (j : Job) (indexed : List Nat) (e : Elem) : List FarItem :=
  ((e.d.toList.map fun l => (⟨1, pktD, indexed.contains opD, State.destIdx j e, e.plot, l, j.t1.width, j.t1, j.gd⟩ : FarItem)) ++
    (if State.isAtomicOp j.op then e.a.toList.map fun l => (⟨2, pktA, true, e.i, e.plot, l, j.t1.width, j.t1, none⟩ : FarItem)
      else [])).filter fun x => !x.loc.near

/-- Into the order of the index. -/
def insertItem (x : FarItem) : List FarItem → List FarItem
  | [] => [x]
  | y :: l => if x.idx ≤ y.idx then x :: y :: l else y :: insertItem x l

/-- The packets of a job (R102): operand by operand what it reads, A, B, D, index vector, then what it updates, and what it
writes. -/
def packetsFor (page : FarItem → Nat × Nat × Nat) (j : Job) (indexed : List Nat) : List RPkt :=
  let reads := j.elems.flatMap fun e => (farPlaces j e).map (readItem j indexed e)
  let reads := if j.op = .xform then reads.foldr insertItem [] else reads
  let writes := j.elems.flatMap (writeItems j indexed)
  ([pktA, pktB, pktD, pktIndex].flatMap fun o => cutPkts page (reads.filter fun x => x.opnd == o)) ++
    [pktA, pktD].flatMap fun o => cutPkts page (writes.filter fun x => x.opnd == o)

/-- Whether a read packet asks for an element of an operand. -/
def RPkt.has (p : RPkt) (opnd idx : Nat) : Bool :=
  let block := if p.geom = 1 then 32 else if p.geom = 2 then 16 else 1
  p.kind == 0 && p.opnd == opnd && decide (p.firstIdx ≤ (idx : Int)) && decide ((idx : Int) < p.firstIdx + (p.count * block : Nat))

/-- The tags of the return of a group at a plot: the operand and the index of each element that it brings, or of the first element
of each segment (R103). -/
def tagsOf (j : Job) (plot g : Nat) : List (Nat × Nat) :=
  (j.elems.flatMap fun e => ((farPlaces j e).map (readItem j [] e)).filter fun x => x.recv == plot && x.groups.contains g).foldl
    (fun l x => let t := (x.opnd, x.first.toNat); if l.contains t then l else l ++ [t]) []

/-- The plot that consumes each element of an operand (R103). -/
def consumers (j : Job) (opnd : Nat) : List (Nat × Nat) :=
  j.elems.flatMap fun e => ((farPlaces j e).filter fun x => x.1 == opnd).map fun x => (x.2.1, State.recvPlot j e.plot x.2.2.1)

/-- The route descriptors whose returns have not all arrived (R103). -/
def openRoutes (j : Job) : List Route :=
  j.routes.filter fun r => j.elems.any fun e => (farPlaces j e).any fun x => x.1 == r.opnd &&
    (State.locGroups x.2.2.1).any fun g => !State.landedAt j (State.recvPlot j e.plot x.2.2.1) g

/-- The groups that a packet still brings to a plot, one landing slot each until the group that consumes it has been
performed (R341). -/
def pktNeeds (j : Job) (p : RPkt) (plot : Nat) : List Nat :=
  (j.elems.flatMap fun e => (farPlaces j e).filter fun x => p.has x.1 x.2.1 && State.recvPlot j e.plot x.2.2.1 == plot).foldl
    (fun l x => (State.groupsOfKeys (x.2.2.1.keys ++ x.2.2.1.scale.toList)).foldl (fun l g => insertNat g l) l) []

namespace State

/-- `TIER`, `TYPE` and `GEOM` of the page at a far address, as its entry has them (R102). -/
def pageFields (s : State) (va : Nat) : Nat × Nat × Nat :=
  match s.myCtx.bind fun c => s.leafOf c va with
  | some l => (pteTier l.entry, pteType l.entry, pteGeom l.entry)
  | none => (0, 0, 0)

def pktPage (s : State) (x : FarItem) : Nat × Nat × Nat := s.pageFields x.loc.va

/-- The packet of a scalar access at far bytes (R102): it is of no vector operand, so that `OPND` names A where it is read or
updated and D where it is written, and `FIRSTIDX` and `ROUTE` are 0 (DESIGN CHOICE: notes/assumptions/101.md). -/
def scalarPkt (s : State) (kind : Nat) (va key : Nat) (t : Ty) : RPkt :=
  let b := blockOf key
  let p := s.pageFields va
  { kind, opnd := if kind = 1 then pktD else pktA, tier := p.1, devid := b.1, ppn := b.2, first := key % 65536, fbit := 0,
    stride := 0, count := 1, esize := esizeOf t.width, type := p.2.1, geom := p.2.2, firstIdx := 0, route := 0, sent := false }

/-- The landing slots of the stream that are reserved at a plot (R341). -/
def landingAt (s : State) (plot : Nat) : Nat :=
  (s.me.jobs.map fun j => ((j.pkts.filter RPkt.sent).map fun p => (pktNeeds j p plot).length).sum).sum

/-- The lowest route number that no operand on its way uses, if any (R103; DESIGN CHOICE: notes/assumptions/83.md). -/
def freeRoute (s : State) : Option Nat :=
  let used := (s.me :: s.bands).flatMap fun b => b.jobs.flatMap fun j => j.routes.map Route.route
  (List.range 1024).find? fun r => !used.contains r

/-- Whether a packet may leave: every earlier packet of the stream has left or is no longer needed, every plot that receives from
it can reserve its landing slots (R341), and its operand has a route number or one is free (R103). -/
def pktReady (s : State) (j : Job) (n : Nat) (p : RPkt) : Bool :=
  let plots := (j.elems.map Elem.plot) ++ j.segTo.map Prod.snd
  let idle := fun (k : Job) (q : RPkt) => q.sent || ((k.elems.map Elem.plot) ++ k.segTo.map Prod.snd).all fun x => (pktNeeds k q x).isEmpty
  (s.me.jobs.takeWhile fun k => k.seq != j.seq).all (fun k => k.pkts.all (idle k)) &&
    (j.pkts.take n).all (idle j) &&
    plots.all (fun x => decide (s.landingAt x + (pktNeeds j p x).length ≤ 32)) &&
    ((j.routes.any fun r => r.opnd == p.opnd) || s.freeRoute.isSome)

/-- A packet leaves with the route of its operand, whose descriptor is installed before the first (R103). -/
def sendPkt (s : State) (j : Job) (n : Nat) (p : RPkt) : Job :=
  let r : Route := (j.routes.find? fun r => r.opnd == p.opnd).getD ⟨p.opnd, s.freeRoute.getD 0, consumers j p.opnd⟩
  { j with pkts := j.pkts.set n { p with sent := true, route := r.route },
           routes := j.routes.filter (fun x => x.opnd != p.opnd) ++ [r] }

end State

end Sys2Proof.Machine
end

