-- ==== Sys2Proof/Machine/Vector.lean ====
section
/-! DEFINITION. The issue of class V and VI words: what a form asks of its operands, the plan that its probe settles
(01 R21 to R28, 08 R194, R210, R211, 17 R349), and its issue (01 R13 to R16, R36, R37). -/

namespace Sys2Proof.Machine

/-- What a form asks of its operands. `aOn2` says that `TY2` governs A (the V2X forms, and with B the widening ones). -/
structure VDesc where
  op : VOp
  h : VHdr
  d : Option Opnd
  a : Option Opnd
  b : Option Opnd
  kd : Option Mask
  sd : Option Reg
  ty1 : TyF
  ty2 : TyF
  aOn2 : Bool
  rule : TyRule
  imm : Option (BitVec 32)
  g : Option Guard
  ntf : Bool
  ff : Bool
  deriving DecidableEq, Repr

/-! ### The description of each shape -/

def v3Desc (x : V3) (op : VOp) (rule : TyRule) : VDesc :=
  ⟨op, x.h, some x.d, some x.a, some x.b, none, none, x.ty1, x.ty2, false, rule, none, x.g, x.ntf, false⟩

/-- `VMULW`, `VFMAW`: both sources are of type `TY2` (R200). -/
def v3Widen (x : V3) (op : VOp) : VDesc := { v3Desc x op .widen with aOn2 := true }

def v2Desc (x : V2) (op : VOp) (rule : TyRule) : VDesc :=
  ⟨op, x.h, some x.d, some x.a, none, none, none, x.ty1, none, false, rule, none, x.g, x.ntf, false⟩

def v2xDesc (x : V2X) (op : VOp) (rule : TyRule) : VDesc :=
  ⟨op, x.h, some x.d, some x.a, none, none, none, x.ty1, x.ty2, true, rule, none, x.g, x.ntf, false⟩

def v1Desc (x : V1) (op : VOp) : VDesc :=
  ⟨op, x.h, some x.d, none, none, none, none, x.ty1, none, false, .any, none, x.g, x.ntf, false⟩

def vcDesc (x : VC) (op : VOp) : VDesc :=
  ⟨op, x.h, none, some x.a, some x.b, some x.k, none, x.ty1, x.ty2, false, .cmp, none, x.g, false, false⟩

def vrsDesc (x : VRs) (op : RedOp) : VDesc :=
  ⟨.red op, x.h, none, some x.a, none, none, some x.sd, x.ty1, none, false,
    match op with
    | .and | .or | .xor => .ints
    | .add | .min | .max => .any, none, x.g, false, false⟩

def i2Desc (x : I2) (op : VOp) (rule : TyRule) : VDesc :=
  ⟨op, x.h, some x.d, some x.a, none, none, none, x.ty1, none, false, rule, some x.imm, x.g, x.ntf, false⟩

def i1Desc (x : I1) (op : VOp) : VDesc :=
  ⟨op, x.h, some x.d, none, none, none, none, x.ty1, none, false, .any, some x.imm, x.g, x.ntf, false⟩

def icDesc (x : IC) (op : VOp) : VDesc :=
  ⟨op, x.h, none, some x.a, none, some x.k, none, x.ty1, none, false, .cmp, some x.imm, x.g, false, false⟩

/-! ### Operands -/

/-- The operands in the order of R349: A, B, D. -/
def VDesc.specs (x : VDesc) : List OpSpec :=
  (x.a.toList.map fun o =>
    (⟨opA, o, if x.aOn2 then 2 else 1, if x.aOn2 then x.ty2 else x.ty1,
      if State.isAtomicOp x.op then .atomic else .read, false⟩ : OpSpec)) ++
  (x.b.toList.map fun o =>
    (⟨opB, o, if x.aOn2 || x.ty2.isSome then 2 else 1, if x.aOn2 || x.ty2.isSome then x.ty2 else x.ty1,
      .read, false⟩ : OpSpec)) ++
  (x.d.toList.map fun o => (⟨opD, o, 1, x.ty1, .write, State.readsDest x.op⟩ : OpSpec))

/-- Whether an operand is in mode 3, so that the form issues in two phases (R185). -/
def VDesc.indexed (x : VDesc) : Bool := x.specs.any fun y => y.o.mode == .indexed

/-- `VSEL`, `VCOMP` and `VEXPD` probe every index below `VL` (R205, R206). -/
def VDesc.probesAll (x : VDesc) : Bool := x.op == .sel || x.op == .comp || x.op == .expd

/-- The first byte of an element by virtual address, its scale byte among them, which lies in the same 256 bytes (R74). -/
def firstByte (l : Loc) : Nat :=
  match l.scale with
  | some k => l.va / 256 * 256 + k % 256
  | none => l.va

/-- The bytes from the first to past the last of some places (R37, R186, R273) (DEDUCED: notes/assumptions/34.md). -/
def extentOf (ls : List Loc) : Option (Nat × Nat) :=
  match ls with
  | [] => none
  | l :: rest =>
    some (rest.foldl (fun r x => (min r.1 (firstByte x), max r.2 (x.va + x.keys.length))) (firstByte l, l.va + l.keys.length))

/-- The same for what an instruction writes: with the last segment of a 256-byte row, `VBQ` writes the bytes behind it (R74, R202). -/
def destExtent (g : Option Geom) (t : Ty) (ls : List Loc) : Option (Nat × Nat) :=
  (extentOf ls).map fun r => (r.1, ls.foldl (fun hi l => match g, l.scale with
    | some g, some k => if k % 256 = (segsPer g t - 1) * segBytes g t then max hi (l.va / 256 * 256 + 256) else hi
    | _, _ => hi) r.2)

def meets (x y : Option (Nat × Nat)) : Bool :=
  match x, y with
  | some a, some b => a.1 < b.2 && b.1 < a.2
  | _, _ => false

namespace State

/-- The place of element i of an operand, or the cause. -/
def placeOf (s : State) (x : OpSpec) (c : OpCap) (scaleOnly : Bool) (i : Nat) : Except Cand Loc :=
  match c.mode with
  | .indexed =>
    match s.probeIndex c i with
    | .error e => .error e
    | .ok ix => s.probeElem x c (x.which == opD || x.acc == .atomic) i (elemPos c i ix)
  | _ =>
    if scaleOnly then
      match c.geom with
      | some g => s.probeElem x c false i ⟨segAt g c.ty c.base (c.off / (blockSize g : Int) + i), 0, 1, none⟩
      | none => s.probeElem x c false i (elemPos c i 0)
    else s.probeElem x c (x.which == opD || x.acc == .atomic) i (elemPos c i 0)

/-- The places of an operand over a list of indices, with the causes found. -/
def placesOf (s : State) (x : OpSpec) (c : OpCap) (scaleOnly : Bool) (idx : List Nat) :
    List (Nat × Loc) × List Cand :=
  let r := idx.map fun i => (i, s.placeOf x c scaleOnly i)
  (r.filterMap fun p => match p.2 with
      | .ok l => some (p.1, l)
      | .error _ => none,
   r.filterMap fun p => match p.2 with
      | .ok _ => none
      | .error e => some e)

end State

/-! ### Checks of whole operands -/

/-- The pairing of the types that have resolved (R194); the first `auto` operand carries the cause (DEDUCED:
notes/assumptions/33.md). -/
def typeCands (x : VDesc) (caps : List (OpSpec × OpCap)) : List Cand :=
  match caps.find? fun y => y.1.ty.isNone with
  | none => []
  | some y =>
    let ofWhich := fun w => (caps.find? fun z => z.1.which == w).map fun z => z.2.ty
    let t1 := if x.d.isSome then ofWhich opD else ofWhich opA
    let t2 := if x.b.isSome then ofWhich opB else if x.aOn2 then ofWhich opA else t1
    let pair := match t1, t2 with
      | some t, some u => x.rule.okPair t u
      | _, _ => true
    if t1.all x.rule.ok1 && t2.all x.rule.ok2 && pair then [] else [wholeCand cFORMAT y.2.base y.1.which]

/-- The bytes from the first to past the last of an operand's elements, where an index can be read (R273). -/
def State.operandExtent (s : State) (c : OpCap) (idx : List Nat) : Option (Int × Int) :=
  let ps := idx.filterMap fun i => match c.mode with
    | .indexed => (match s.probeIndex c i with
      | .ok ix => some (elemPos c i ix)
      | .error _ => none)
    | _ => some (elemPos c i 0)
  match ps with
  | [] => none
  | p :: rest => some (rest.foldl (fun r x => (min r.1 x.byte, max r.2 (x.byte + x.n))) (p.byte, p.byte + p.n))

/-- What `VBQ`, `VBDQ` and the vector atomics ask of geometries and offsets (R202, R203, R75, R273). -/
def formCands (x : VDesc) (caps : List (OpSpec × OpCap)) : List Cand :=
  caps.flatMap fun y =>
    let bad := [wholeCand cFORMAT y.2.base y.1.which]
    let off := fun (g : Geom) => decide (y.2.off % (blockSize g : Int) ≠ 0)
    match x.op, y.2.geom with
    | .bq _, g =>
      if y.1.which = opD then (match g with
        | none => bad
        | some g => if off g then bad else [])
      else []
    | .bdq scale, g => if y.1.which = opA then (match g with
        | none => bad
        | some g => if scale && off g then bad else [])
      else []
    | _, some _ => if State.isAtomicOp x.op && y.1.which == opA then bad else []
    | _, none => []

/-! ### The plan -/

/-- The elements that the instruction performs, from the places of its operands; `ix` gives the place of the index of an element of
an indexed operand. An enabled element of `VCMP` or `VLOC` whose operand A is owned by a plot outside the span is performed by
that plot, which is the home of its bit too: R175 does not say (notes/assumptions/103.md, DESIGN CHOICE). -/
def planElems (x : VDesc) (beds : List Nat) (vl : Nat) (on : Nat → Bool) (ix : Nat → Nat → List Loc) (home : Nat → Option Nat)
    (la lb ld : List (Nat × Loc)) : List Elem :=
  let head := fun (l : Loc) => l.keys.headD 0 / 64
  let span := fun (l : Loc) => if (bedsPos beds l.plot).isSome then l.plot else bedsPlot beds 0
  let en := (List.range vl).filter on
  let get := fun (l : List (Nat × Loc)) i => assoc l i
  let all := fun i => ix opA i ++ ix opB i ++ ix opD i
  match x.op with
  | .comp => (en.zip ld).map fun p =>
      ⟨p.1, p.2.1, p.2.2.plot, head p.2.2, some p.2.2, get la p.1, none, ix opA p.1 ++ ix opD p.2.1, home p.1⟩
  | .expd => (en.zip la).filterMap fun p =>
      (get ld p.1).map fun d =>
        ⟨p.1, p.2.1, d.plot, head d, some d, some p.2.2, none, ix opA p.2.1 ++ ix opD p.1, home p.1⟩
  | .sel => ld.map fun p =>
      ⟨p.1, p.1, p.2.plot, head p.2, some p.2, if on p.1 then get la p.1 else none, if on p.1 then none else get lb p.1,
        all p.1, home p.1⟩
  | .bq _ => ld.map fun p =>
      ⟨p.1, p.1, p.2.plot, (p.2.scale).getD 0, some p.2, get la p.1, none, if (get la p.1).isSome then ix opA p.1 else [], home p.1⟩
  | .red _ => la.map fun p => ⟨p.1, p.1, span p.2, head p.2, none, some p.2, none, all p.1, home p.1⟩
  | _ =>
    if x.d.isSome then
      ld.map fun p => ⟨p.1, p.1, p.2.plot, head p.2, some p.2, get la p.1, get lb p.1, all p.1, home p.1⟩
    else la.map fun p => ⟨p.1, p.1, p.2.plot, head p.2, none, some p.2, get lb p.1, all p.1, home p.1⟩

namespace State

/-- The homes that an instruction with a mask destination gives to the bits of disabled elements (R210): the owner of A's
address, or the default home where A is indexed; where A's type does not resolve or its address has no owner, the default
home too (notes/assumptions/82.md, DESIGN CHOICE). -/
def restBits (s : State) (x : VDesc) (on : Nat → Bool) (caps : List (OpSpec × OpCap)) : List (Nat × Bool × Nat) :=
  match x.kd, x.specs.head? with
  | some k, some a =>
    let c := match caps.find? fun y => y.1.which == opA with
      | some y => s.capture y.1 true
      | none => s.capture a true
    let old := s.me.masks[k.val]
    ((List.range s.me.vl).filter fun i => !on i).map fun i =>
      (i, old.bit i, (if c.2.isEmpty then s.ownerAt c.1 i else none).getD (defaultHome s.me.beds i))
  | _, _ => []

/-- The lowest index below `n` whose bit of a mask destination would be one too many at a plot (R211). -/
def maskFull (x : VDesc) (n : Nat) (elems : List Elem) (rest : List (Nat × Bool × Nat)) : Option Nat :=
  if x.kd.isSome then
    maskCapAt ((List.range n).map fun i => (i, match elems.find? fun e => e.i == i with
      | some e => e.plot
      | none => ((rest.find? fun r => r.1 == i).map fun r => r.2.2).getD 0))
  else none

/-- The probe of a form (R349), in one step (DESIGN CHOICE: notes/assumptions/97.md), and what its issue settles. `guardBits` is
the guard mask (R28). -/
def planV (s : State) (x : VDesc) (guardBits : Nat) : Planned :=
  let vl0 := s.me.vl
  let on := fun i => enabledBit x.g guardBits i
  let all := List.range vl0
  let en := all.filter on
  let probed := if x.probesAll then all else en
  let caps0 := x.specs.map fun y => (y, s.capture y !probed.isEmpty)
  let caps := caps0.map fun y => (y.1, y.2.1)
  let found := (caps0.filter fun y => y.2.2.isEmpty).map fun y => (y.1, y.2.1)
  let whole := if probed.isEmpty then [] else
    caps0.flatMap (fun y => y.2.2 ++ geometryCands y.1 y.2.1 (match x.op with
      | .bq _ => true
      | _ => false)) ++ fieldCands found ++ typeCands x found ++ formCands x found
  let scaleOnly := x.op == .bdq true
  let blocks := fun (c : OpCap) => match x.op, c.geom with
    | .bq _, some g => List.range ((vl0 + blockSize g - 1) / blockSize g * blockSize g)
    | _, _ => probed
  let places := caps0.map fun y =>
    if y.2.2.isEmpty then
      (y.1.which, s.placesOf y.1 y.2.1 (scaleOnly && y.1.which == opA) (if y.1.which = opD then blocks y.2.1 else probed))
    else (y.1.which, ([], []))
  let locs := fun w => ((places.find? fun p => p.1 == w).map fun p => p.2.1).getD []
  let extent := fun w => (found.find? fun y => y.1.which == w).bind fun y => s.operandExtent y.2 probed
  let overlap := if State.isAtomicOp x.op then
      (match extent opA with
      | some a => if [opD, opB].any fun w => (extent w).any fun b => decide (a.1 < b.2) && decide (b.1 < a.2) then
          (found.filter fun y => y.1.which == opA).map fun y => wholeCand cFORMAT y.2.base opA
        else []
      | none => [])
    else []
  let cands := whole ++ overlap ++ places.flatMap fun p => p.2.2
  let first := firstCand cands
  let short := if x.ff then first.bind fun c => if !c.whole && c.elem != 0 then some c.elem else none else none
  let ix := fun w i => (caps.filter fun y => y.1.which == w && y.1.o.mode == .indexed).filterMap fun y => s.indexLoc y.2 i
  let home := fun (i : Nat) => x.g.map fun g => s.me.masks[g.k.val].home s.me.beds i
  match first, short with
  | some c, none =>
    let below := if c.whole then none
      else maskFull x c.elem (planElems x s.me.beds c.elem on (fun _ _ => []) (fun _ => none) (locs opA) (locs opB) (locs opD))
        (s.restBits x on caps)
    (match below with
    | some i => .error { preFault cMASKCAP 0 i opNone with addr := Config.freeAddr s.nextFree }
    | none => .error c.fault)
  | _, _ =>
    let vl := short.getD vl0
    let cut := fun w => (locs w).filter fun p => decide (p.1 < vl) || (match x.op with
      | .bq _ => true
      | _ => false)
    let elems := planElems x s.me.beds vl on ix home (cut opA) (cut opB) (cut opD)
    let rest := s.restBits x on caps
    match maskFull x vl0 elems rest with
    | some i =>
      .error { preFault cMASKCAP 0 i opNone with addr := Config.freeAddr s.nextFree }
    | none =>
      let ofWhich := fun w => (caps.find? fun z => z.1.which == w).map Prod.snd
      let tyOf := fun w => (ofWhich w).map OpCap.ty
      let t1 := ((if x.d.isSome then tyOf opD else tyOf opA)).getD .i8
      .ok { op := x.op, t1, t2 := ((if x.b.isSome then tyOf opB else if x.aOn2 then tyOf opA else none)).getD t1,
            ga := (ofWhich opA).bind OpCap.geom, gb := (ofWhich opB).bind OpCap.geom,
            gd := (ofWhich opD).bind OpCap.geom,
            imm := x.imm, pad := 0, kd := x.kd, sd := x.sd, guardBits, vl, elems, rest, skew := x.h.skew.toNat, cede := x.h.cede,
            set := x.h.set, wait := x.h.wait.toNat, ntf := x.ntf, seals := State.isAtomicOp x.op,
            indexed := (x.specs.filter fun y => y.o.mode == .indexed).map OpSpec.which,
            wins := (x.specs.filter fun y => y.o.mode == .indexed && (y.which != opD || State.readsDest x.op)).filterMap
              fun y => extentOf ((cut y.which).map Prod.snd),
            ffVl := short, isFF := x.ff, apart := x.d.any fun o => o.mode == .indexed, row := 0 }

/-- The index vectors' reads pass the codes of their sectors and words before the probe takes their values (R109, R185). -/
def readIndexes (s : State) (x : VDesc) (guardBits : Nat) : State :=
  (x.specs.filter fun y => y.o.mode == .indexed).foldl (fun s y =>
    let c := (s.capture y true).1
    ((List.range s.me.vl).filter fun i => enabledBit x.g guardBits i).foldl (fun s i =>
      match s.locate .read false (indexAt c i) 4 with
      | .ok p => s.readThrough .read p.2
      | .error _ => s) s) s

/-! ### Issue -/

/-- The chains of a word: the claimers of its `WAIT` slots that have not finished (R14), and, in `CHECKED` mode, those
that the Bandstand inserts (R37), with whether one of them is counted in `HINTMISS`. `VLOC` reads no element (R191), and
the order behind a transform is its own (R132)
(DEDUCED: notes/assumptions/68.md). -/
def chainsFor (s : State) (p : Plan) : List Nat × Bool :=
  let declared := (List.finRange 7).filterMap fun k =>
    if Sys2Proof.bit p.wait k.val then (s.me.slots[k.val]).bind fun n =>
      if s.me.jobs.any fun j => j.seq == n then some n else none
    else none
  if s.me.trusted then (declared, false)
  else
    let ext := fun (f : Elem → Option Loc) => extentOf (p.elems.filterMap f)
    let reads := if p.op = .loc then []
      else [ext Elem.a, ext Elem.b] ++ if State.readsDest p.op then [ext Elem.d] else []
    let more := (s.me.jobs.filter fun j =>
      !declared.contains j.seq && j.op != .xform && reads.any fun r => j.dexts.any fun d => meets r (some d)).map Job.seq
    (declared ++ more, !more.isEmpty)

/-- The job that a plan begins, before its packets are cut. -/
def bareJob (s : State) (p : Plan) (chains : List Nat) : Job :=
  { seq := s.me.seq, addr := s.me.issueAddr, op := p.op, t1 := p.t1, t2 := p.t2, ga := p.ga, gb := p.gb, gd := p.gd,
    imm := p.imm, pad := p.pad, kd := p.kd, sd := p.sd, guardBits := p.guardBits, vl := p.vl, rm := s.rmNow,
    sat := s.satNow, seed := s.seedNow, trusted := s.me.trusted, skew := p.skew, cede := p.cede,
    chains, dexts := (destExtent p.gd p.t1 (p.elems.filterMap Elem.d)).toList ++
      (if State.isAtomicOp p.op then (extentOf (p.elems.filterMap Elem.a)).toList else []),
    wins := p.wins,
    holds := match p.op with
      | .comp | .expd => p.elems.foldl (fun l e => (e.a.toList.filter Loc.near).foldl (fun l x =>
          (groupsOfKeys x.keys).foldl (fun l g => insertNat g l) l) l) []
      | _ => [],
    elems := p.elems, prog := [], saved := [], carry := [], maskBits := p.rest, landed := [], fetches := [], pkts := [], routes := [],
    row := p.row, idx := ((p.elems.flatMap Elem.ix).flatMap Loc.keys).map fun k => (k, s.seen k),
    segTo := segPlots p.elems, flags := 0, ff := if p.isFF then some p.vl else none, apart := p.apart, sent := [] }

/-- The job that a plan begins. -/
def jobOf (s : State) (p : Plan) (chains : List Nat) : Job :=
  let j := s.bareJob p chains
  { j with pkts := packetsFor s.pktPage j p.indexed }

/-- The instruction issues: it takes its number, claims its slot, notes its notification, and its job begins. A vector
atomic finds every earlier store of the stream performed (R273), and `VGATH.FF` has set `VL` to what its probe left
(R209). -/
def begin_ (s : State) (p : Plan) : State :=
  let s := if p.seals || p.elems.any fun e => e.d.any fun l => l.keys.any isRemote then s.sealStrip else s
  let s := if p.seals then s.performed else s
  let c := s.chainsFor p
  let b := s.me
  let vl := p.ffVl.getD b.vl
  let strip := if p.ntf && b.ntfa != 0 then { b.strip with ntf := some (b.ntfa, vl) } else b.strip
  ({ s with me := { b with
      vl, jobs := b.jobs ++ [s.jobOf p c.1], strip, hintmiss := if c.2 then b.hintmiss + 1 else b.hintmiss,
      slots := match p.set with
        | some k => b.slots.set k.val (some b.seq)
        | none => b.slots } }).retire

/-- The stream with its broadcast work performed, or after a trap entry or rewind, or as it stands where it waits for its turns. -/
def settledNow (s : State) : State :=
  match s.settled with
  | .ok s' => s'
  | .error s' => s'

/-- Cache the walks of a plan's places, when the turn says so (R99). -/
def fillPlan (s : State) (p : Plan) : State :=
  if s.fills then
    p.elems.foldl (fun s e => (e.a.toList ++ e.b.toList ++ e.d.toList).foldl (fun s l => s.fillTlb l.va) s) s
  else s

/-- Issue a planned broadcast instruction: a cause is raised before issue (R39) or, if a probe phase met a data fault,
as a data fault (R185). Unless the turn holds work back, it is performed in the same step. -/
def issuePlan (s : State) (p : Planned) (guardBits : Nat) : State :=
  match p with
  | .error f =>
    (match s.settled with
    | .error t => t
    | .ok s =>
      if f.cls = 1 then s.raiseDataAs f guardBits
      else if f.code = cMASKCAP then ({ s with nextFree := s.nextFree + 1 }).raise f
      else s.raise f)
  | .ok p =>
    let t := (s.fillPlan p).begin_ p
    if s.holdBack then t else t.settledNow

/-- The guard mask that an instruction captures (R28). -/
def guardBitsOf (s : State) (g : Option Guard) : Nat :=
  match g with
  | some g => s.me.masks[g.k.val].bits
  | none => 0

/-- Whether a form must issue after everything before it has finished (R15, R181, R185, R209; for indexed words, scans and
atomics DESIGN CHOICE: notes/assumptions/97.md). -/
def mustSettle (s : State) (x : VDesc) : Bool :=
  !s.holdBack || s.me.pending.isSome || (s.myCtx.any fun c => c.frames.any Frame.zeroing) || x.indexed || State.isAtomicOp x.op || x.ff || (match x.op with
    | .scan _ => true
    | _ => false) || decide (16 ≤ s.me.jobs.length) ||
  s.me.jobs.any fun j => j.ff.isSome || j.sd.isSome || j.kd.any fun k => some k == x.kd || (x.g.map Guard.k) == some k

/-- Whether a word reduces no element of a type that does not resolve, so that the empty result is open (R27, R215). -/
def openRed (s : State) (x : VDesc) : Bool :=
  (match x.op with
    | .red .min | .red .max | .red .and => true
    | _ => false) && x.ty1.isNone && (List.range s.me.vl).all fun i => !enabledBit x.g (s.guardBitsOf x.g) i

/-- A class V or VI word. A reduction over no element of an unresolved type leaves a free value where the empty result
depends on the type (R27, R215; notes/assumptions/16.md, DESIGN CHOICE). -/
def execV (s : State) (x : VDesc) : Out :=
  let go := fun (s : State) =>
    let bits := s.guardBitsOf x.g
    let s := s.readIndexes x bits
    match x.sd, s.openRed x with
    | some d, true =>
      let t := State.issuePlan { s with holdBack := false } (s.planV x bits) bits
      .next { (t.setReg d (Config.freeResult t.nextFree)) with nextFree := t.nextFree + 1, holdBack := s.holdBack }
    | _, _ => .next (s.issuePlan (s.planV x bits) bits)
  if s.mustSettle x || s.openRed x then s.afterAll go else go s

end State

end Sys2Proof.Machine
end

