-- ==== Sys2Proof/Machine/Scalar.lean ====
section
/-! DEFINITION. The scalar integer forms (11 R295, R296). -/

namespace Sys2Proof.Machine

/-- A scalar form whose result is a value: once everything before it has finished, the result goes to a register. -/
def State.scalar (s : State) (d : Reg) (f : State → Word) : Out := s.afterAll fun s => .next (s.finish d (f s))

/-- 1 or 0. -/
def boolWord (b : Bool) : Word := if b then 1 else 0

def execAdd (x : S3) (s : State) : Out := s.scalar x.d fun s => s.reg x.a + s.reg x.b
def execAddi (x : SI2) (s : State) : Out := s.scalar x.d fun s => s.reg x.a + x.imm.signExtend 64
def execSub (x : S3) (s : State) : Out := s.scalar x.d fun s => s.reg x.a - s.reg x.b
def execMul (x : S3) (s : State) : Out := s.scalar x.d fun s => s.reg x.a * s.reg x.b
def execMulh (k : MulhKind) (x : S3) (s : State) : Out := s.scalar x.d fun s => mulh64 k (s.reg x.a) (s.reg x.b)
def execDiv (x : S3) (s : State) : Out := s.scalar x.d fun s => div64 (s.reg x.a) (s.reg x.b)
def execDivu (x : S3) (s : State) : Out := s.scalar x.d fun s => divu64 (s.reg x.a) (s.reg x.b)
def execRem (u : Bool) (x : S3) (s : State) : Out := s.scalar x.d fun s => rem64 u (s.reg x.a) (s.reg x.b)
def execAnd (x : S3) (s : State) : Out := s.scalar x.d fun s => s.reg x.a &&& s.reg x.b
def execOr (x : S3) (s : State) : Out := s.scalar x.d fun s => s.reg x.a ||| s.reg x.b
def execXor (x : S3) (s : State) : Out := s.scalar x.d fun s => s.reg x.a ^^^ s.reg x.b
def execAndn (x : S3) (s : State) : Out := s.scalar x.d fun s => s.reg x.a &&& ~~~s.reg x.b
def execShl (x : S3) (s : State) : Out :=
  s.scalar x.d fun s => BitVec.ofNat 64 (shlW 64 (s.reg x.a).toNat (s.reg x.b).toNat)
def execShr (x : S3) (s : State) : Out :=
  s.scalar x.d fun s => BitVec.ofNat 64 (shrW 64 (s.reg x.a).toNat (s.reg x.b).toNat)
def execSar (x : S3) (s : State) : Out :=
  s.scalar x.d fun s => BitVec.ofNat 64 (sarW 64 (s.reg x.a).toNat (s.reg x.b).toNat)
def execClz (x : S2) (s : State) : Out := s.scalar x.d fun s => BitVec.ofNat 64 (clz64 (s.reg x.a))
def execPopc (x : S2) (s : State) : Out := s.scalar x.d fun s => BitVec.ofNat 64 (popc (s.reg x.a).toNat 64)
def execSeq (x : S3) (s : State) : Out := s.scalar x.d fun s => boolWord (s.reg x.a == s.reg x.b)
def execSlt (x : S3) (s : State) : Out := s.scalar x.d fun s => boolWord ((s.reg x.a).slt (s.reg x.b))
def execSltu (x : S3) (s : State) : Out := s.scalar x.d fun s => boolWord ((s.reg x.a).ult (s.reg x.b))
def execSel (x : S4) (s : State) : Out := s.scalar x.d fun s => if s.reg x.a ≠ 0 then s.reg x.b else s.reg x.c

/-- Whether a register is below another, signed or unsigned. -/
def belowReg (u : Bool) (a b : Word) : Bool := if u then a.ult b else a.slt b

def execMin (u : Bool) (x : S3) (s : State) : Out :=
  s.scalar x.d fun s => if belowReg u (s.reg x.b) (s.reg x.a) then s.reg x.b else s.reg x.a
def execMax (u : Bool) (x : S3) (s : State) : Out :=
  s.scalar x.d fun s => if belowReg u (s.reg x.a) (s.reg x.b) then s.reg x.b else s.reg x.a

def execLi (x : L1) (s : State) : Out := s.scalar x.d fun _ => x.imm
/-- `LA`: the address of its own word plus the immediate (R296). -/
def execLa (x : L1) (s : State) : Out := s.scalar x.d fun s => s.me.pc + x.imm

end Sys2Proof.Machine
end

