-- ==== Sys2Proof/Machine/Control.lean ====
section
/-! DEFINITION. Transfers of control, strips, prefixes, waiting and traps (11 R300 to R303, R313, R317; 01 R29 to R34). -/

namespace Sys2Proof.Machine

namespace State

/-! ### Transfers (R33, R34, R39) -/

/-- The cause of a taken transfer to a target: a misaligned target, one that cannot be fetched, one without `LAND`. -/
def targetCause (s : State) (t : Word) : Option FaultRec :=
  if t.toNat % 16 ≠ 0 then some (preFault cALIGN t.toNat 0 opNone)
  else
    match s.fetchWord t.toNat with
    | none => some (preFault cIFETCH (s.pageStart t.toNat) 0 opNone)
    | some w => if w.getLsbD 122 then none else some (preFault cLANDING t.toNat 0 opNone)

/-- Go on at a target: the transfer has issued. -/
def jump (s : State) (t : Word) : State := { s with me := { s.me with pc := t, seq := s.me.seq + 1, pfx := none } }

/-- What the test of a target does at the channels: an aligned target is fetched (R34, R109). -/
def targetRead (s : State) (t : Word) : State := if t.toNat % 16 = 0 then s.fetchReads t.toNat else s

/-- A taken transfer with the effect `f` on the registers; none of it takes place when the target has a cause. -/
def transfer (s : State) (t : Word) (f : State → State) : State :=
  match s.targetCause t with
  | some c => (s.targetRead t).raise c
  | none => (f s).jump t

/-- The target of a class B word (R300). -/
def branchTarget (s : State) (off : BitVec 32) : Word := s.me.pc + off.signExtend 64 * 16

/-- A conditional branch. -/
def branch (s : State) (off : BitVec 32) (taken : State → Bool) : Out :=
  s.afterAll fun s => .next (if taken s then s.transfer (s.branchTarget off) id else s.retire)

end State

def execBr (x : B0) (s : State) : Out := s.branch x.off fun _ => true
def execBeq (x : B2) (s : State) : Out := s.branch x.off fun s => s.reg x.a == s.reg x.b
def execBne (x : B2) (s : State) : Out := s.branch x.off fun s => s.reg x.a != s.reg x.b
def execBlt (x : B2) (s : State) : Out := s.branch x.off fun s => (s.reg x.a).slt (s.reg x.b)
def execBge (x : B2) (s : State) : Out := s.branch x.off fun s => !(s.reg x.a).slt (s.reg x.b)
def execBltu (x : B2) (s : State) : Out := s.branch x.off fun s => (s.reg x.a).ult (s.reg x.b)
def execBgeu (x : B2) (s : State) : Out := s.branch x.off fun s => !(s.reg x.a).ult (s.reg x.b)

/-- `CALL` (R301): the link is the next word's address. -/
def execCall (x : BC) (s : State) : Out :=
  s.afterAll fun s => .next (s.transfer (s.branchTarget x.off) fun t => t.setReg x.lnk (s.me.pc + 16))

/-- `RET` (R301). -/
def execRet (x : S1) (s : State) : Out := s.afterAll fun s => .next (s.transfer (s.reg x.a) id)

/-- `JR` (R301): the target is read before the link is written. -/
def execJr (x : BJ) (s : State) : Out :=
  s.afterAll fun s => .next (s.transfer (s.reg x.a) fun t => t.setReg x.lnk (s.me.pc + 16))

/-- `LOOP` (R302). -/
def execLoop (x : B1) (s : State) : Out :=
  s.afterAll fun s =>
    let c := s.reg x.a - 1
    .next (if c = 0 then s.finish x.a 0 else s.transfer (s.branchTarget x.off) fun t => t.setReg x.a c)

/-- `MVL` (R292). -/
def maxVl : Nat := 2 ^ 20

/-- `SETVL` (R303): the strip commits, `VL` is set, a new strip opens whose rewind resumes at the next word. -/
def execSetvl (x : S2) (s : State) : Out :=
  s.afterAll fun s =>
    let n := min (s.reg x.a).toNat maxVl
    let t := s.commitStrip
    let t := { t with me := { t.me with vl := n } }
    let t := t.finish x.d (BitVec.ofNat 64 n)
    .next (t.openStrip t.me.pc)

/-! ### Prefixes (R29 to R32) -/

/-- `PFX` at the pc: it is judged with the word that it modifies, and waits in the stream for that word's step
(DEDUCED: notes/assumptions/19.md). -/
def execPfx (x : PfxF) (s : State) : Out :=
  s.afterAll fun s =>
    let here := s.me.pc
    match s.fetchWord (here + 16).toNat with
    | none => .next ((s.fetchReads (here + 16).toNat).raise (preFault cIFETCH (here + 16).toNat 0 opNone))
    | some w =>
      if x.rm = some .sr ∧ s.featSround = false then .next (s.raiseNoAddr cILLEGAL)
      else if w.getLsbD 122 || !acceptsPrefix w then .next (s.raise (preFault cORPHANPFX (here + 16).toNat 0 opNone))
      else
        match decode w with
        | .error _ => .next (s.raiseNoAddr cILLEGAL)
        | .ok _ =>
          .next { s with me := { s.me with
            pc := here + 16,
            pfx := some ⟨here, x.rm, x.sat, x.seed.map fun r => (s.reg r).setWidth 32⟩ } }

/-! ### Waiting and traps -/

/-- `WAIT` (R313): it holds the stream until the time is reached. -/
def execWait (x : S1) (s : State) : Out :=
  s.afterAll fun s =>
    .next (if (s.reg x.a).toInt ≤ (s.now : Int) then s.retire else { s with me := { s.me with waiting := some .other } })

/-- `NOP` takes a sequence number and does nothing else (R313). -/
def execNop (_land : Bool) (s : State) : Out := s.afterAll fun s => .next s.retire

/-- `TRAP` (R317, R348): trap entry with the immediate in `EINFO`, returning to the next word. -/
def execTrap (_land : Bool) (imm : BitVec 32) (s : State) : Out :=
  s.afterAll fun s =>
    .next (s.counted.enterTrap { preFault cTRAP 0 0 opNone with info := imm.setWidth 64 } (s.me.pc + 16) s.me.seq [])

end Sys2Proof.Machine
end

