-- ==== Sys2Proof/Machine/Coldframe.lean ====
section
/-! DEFINITION. The frame forms (06 R153 to R164, R167, R170, R171); `CFREE` stands with the commands it waits for, in
Streams.lean. -/

namespace Sys2Proof.Machine

namespace State

/-! ### Lifetimes -/

/-- The lifetime cap in cycles (R148). -/
def lifeCap (s : State) : Nat := nsToCycles s.retn.toNat

/-- A requested life, or the cap (R155, R159). -/
def lifeOf (s : State) (v : Word) : Nat := if 0 < v.toNat ∧ v.toNat ≤ s.lifeCap then v.toNat else s.lifeCap

/-- The frame that a register names (R150). -/
def namedFrame (s : State) (v : Word) : Option Frame :=
  if v.toNat / 2 ^ 40 = 0x7FFF then s.myFrame (v.toNat / 2 ^ 32 % 256) else none

/-- Remaining life, 0 once expired. -/
def lifeLeft (s : State) (f : Frame) : Nat := f.expiry - s.now

/-! ### Free storage (R156) -/

/-- The section of a local offset, over the device: plot·16 + layer·4 + section. -/
def sectionOf (plot loc : Nat) : Nat := plot * 16 + loc / 16384

/-- Every frame that holds storage: allocated and unparked, or freed and not finished. -/
def storedFrames (s : State) : List Frame :=
  s.ctxs.flatMap fun c => (c.frames ++ c.leaving).filter fun f => !f.park

def onPlot (s : State) (f : Frame) (plot : Nat) : Bool :=
  if f.run then f.start ≤ plot && plot < f.start + 2 ^ f.log2n else (s.spanBeds f.spane).contains (plot / 64)

/-- Whether the local range [lo, lo + len) is free in a plot. -/
def rangeFree (s : State) (plot lo len : Nat) : Bool :=
  lo + len ≤ 2 ^ 18 &&
  (s.storedFrames.all fun f => !s.onPlot f plot || lo + len ≤ f.lb || f.lb + s.frameShare f ≤ lo) &&
  ((List.range 16).all fun q =>
    (q + 1) * 16384 ≤ lo || lo + len ≤ q * 16384 ||
      (!s.holes.contains (plot * 16 + q) && !s.retiring.contains (plot * 16 + q) && s.railOn plot (q / 4)))

/-- The lowest local base, a multiple of the stripe unit, that is free in every plot of a set. -/
def freeBase (s : State) (plots : List Nat) (u share : Nat) : Option Nat :=
  ((List.range (2 ^ 18 / u)).map fun k => k * u).find? fun lb => plots.all fun p => s.rangeFree p lb share

/-- A frame whose `CFREE` waits for nothing any more is gone (R157). -/
def pruneLeaving (s : State) : State :=
  -- a stopped Trellis command is probed again when it goes on
  let busy := fun (c : Ctx) => ((s.me :: s.bands).any fun b =>
      b.ctx == c.id && (!b.jobs.isEmpty || !b.runner.isEmpty || !b.trl.queue.isEmpty)) ||
    s.stopped.any fun x => x.band.ctx == c.id && !x.band.runner.isEmpty
  { s with ctxs := s.ctxs.map fun c => if busy c then c else { c with leaving := [] } }

/-! ### The Keeper's budget (R162) -/

/-- The bytes of a share that lie in a layer. -/
def layerBytes (lb share layer : Nat) : Nat := min (lb + share) ((layer + 1) * 65536) - max lb (layer * 65536)

/-- The budget of a layer of a plot, and the bytes of `KEEP` frames there. -/
def keepBudget (s : State) (plot layer : Nat) : Nat :=
  if s.railOn plot layer then
    (65536 - 16384 * ((List.range 4).filter fun q => s.holes.contains (plot * 16 + layer * 4 + q)).length) / 4
  else 0

def keepUsed (s : State) (plot layer : Nat) : Nat :=
  (s.ctxs.flatMap Ctx.frames).foldl (fun n f =>
    if f.keep && !f.wd && !f.park && s.onPlot f plot then n + layerBytes f.lb (s.frameShare f) layer else n) 0

/-- Whether a new `KEEP` share fits in every layer that it covers, in every plot of its set. -/
def keepFits (s : State) (plots : List Nat) (lb share : Nat) : Bool :=
  plots.all fun p => (List.range 4).all fun l =>
    layerBytes lb share l == 0 || decide (s.keepUsed p l + layerBytes lb share l ≤ s.keepBudget p l)

/-! ### CALLOC -/

/-- The plot set of a `CALLOC` (R155): run form or not, first plot, log2 of the count; none for −4. -/
def callocSet (s : State) (run : Option Word) : Option (Bool × Nat × Nat) :=
  match run with
  | none => some (false, 0, 0)
  | some w =>
    let k := bits w.toNat 16 4
    let st := bits w.toNat 0 13
    let held := fun p => s.myCtx.any fun c => c.groups.any fun g => g.any fun e => (s.spanBeds e).contains (p / 64)
    if w.toNat ≠ st + k * 2 ^ 16 ∨ 13 < k ∨ st % 2 ^ k ≠ 0 ∨ 8192 < st + 2 ^ k then none
    else if (List.range (2 ^ k)).all fun j => held (st + j) then some (true, st, k)
    else none

/-- `CALLOC` (R155): the new frame table's state and the result. -/
def calloc (s : State) (x : CallocF) : State × Word :=
  match s.callocSet (x.run.map s.reg), s.myCtx with
  | none, _ | _, none => (s, -4)
  | some (isRun, st, k), some c =>
    let size0 := (s.reg x.a).toNat
    if size0 = 0 ∨ 2 ^ 32 < size0 then (s, -4)
    else
      let u := frameUnit x.geom
      let f : Frame :=
        ⟨0, x.keep, false, false, isRun, x.geom, x.ty, if isRun then 0 else s.me.spane, st, k, 0, false, 0, 0, 0, true⟩
      let plots := s.framePlots f
      let row := u * plots.length
      let size := (size0 + row - 1) / row * row
      let share := size / plots.length
      match (List.range 256).find? fun n => (c.frames ++ c.leaving).all fun g => g.slot != n with
      | none => (s, -1)
      | some slot =>
        match s.freeBase plots u share with
        | none => (s, -2)
        | some lb =>
          if x.keep && !s.keepFits plots lb share then (s, -3)
          else
            let f := { f with slot, lb, size, expiry := s.now + s.lifeOf (s.reg x.c) }
            (s.setCtx { c with frames := c.frames ++ [f] }, BitVec.ofNat 64 (slotBase slot))

/-- A form that changes the frame table (R154): once everything before it has finished, in a sealed strip. -/
def frameForm (s : State) (d : Reg) (f : State → State × Word) : Out :=
  s.afterAll fun s =>
    let r := f s.sealStrip
    .next (r.1.finish d r.2)

/-- A change to a frame that a command of the context has captured, which `CFREE` may have freed since (R157). -/
def setCaptured (s : State) (f : Frame) : State :=
  match s.myCtx with
  | some c => s.setCtx { c.setFrame f with leaving := c.leaving.map fun g => if g.slot = f.slot then f else g }
  | none => s

/-- A change to one frame of the stream's context. -/
def setFrame (s : State) (f : Frame) : State :=
  match s.myCtx with
  | some c => s.setCtx (c.setFrame f)
  | none => s

end State

/-- `CALLOC` (R155). The zeroing is done at once unless the turn leaves work in flight. -/
def execCalloc (x : CallocF) (s : State) : Out :=
  s.frameForm x.d fun s =>
    let r := s.pruneLeaving.calloc x
    (if s.holdBack then r.1 else r.1.zeroFrames, r.2)

/-- The result of `OWN` for an address (R190). -/
def State.ownerWord (s : State) (va : Nat) : Word :=
  let pos := fun p => (bedsPos s.me.beds p).getD 0xFFFF
  let put := fun (p loc : Nat) (near : Bool) =>
    BitVec.ofNat 64 (packFields [(13, p), (18, loc), (1, bitOf near), (16, pos p)])
  if 2 ^ 55 ≤ va then -1
  else if isNearVa va then
    match s.myFrame (slotOf va) with
    | none => -1
    | some f =>
      if f.size ≤ va % 2 ^ 32 then -1
      else
        let p := s.frameAt f (va % 2 ^ 32)
        put p.1 p.2 true
  else put (farOwner s.me.beds va) 0 false

/-- `OWN` (R190). -/
def execOwn (x : S2) (s : State) : Out := s.scalar x.d fun s => s.ownerWord (s.reg x.a).toNat

namespace State

/-- The data fault of `CRENEW` on a frame (R159). -/
def crenewFault (s : State) (f : Frame) (lost : Bool) : Option Nat :=
  if f.wd then some cWITHDRAWN
  else if s.frameOff f then some cLAYEROFF
  else if f.park then some cSTALE
  else if s.lifeLeft f < 4096 && !lost then some cSTALE
  else none

/-- The renewal of every share of a frame corrects its single-bit errors (R147). -/
def renewFrame (s : State) (f : Frame) : State :=
  { s with nearFlip := s.nearFlip.filter fun w => !s.frameHas f (8 * w.1) }

/-- `CRENEW` once no fault stands in its way: the state and the result. -/
def crenew (s : State) (f : Frame) (life : Nat) : State × Word :=
  let late := decide (s.lifeLeft f < 4096)
  let s := if late then s.zeroFrame f else s
  let e := if f.keep then max f.expiry (s.now + life) else s.now + life
  ((s.renewFrame f).setFrame { f with expiry := e }, boolWord late)

end State

/-- `CRENEW` (R159). -/
def execCrenew (lost : Bool) (x : EABD) (s : State) : Out :=
  s.afterAll fun s =>
    match s.namedFrame (s.reg x.a) with
    | none => .next (s.raise (preFault cNEARRANGE (s.reg x.a).toNat 0 opNone))
    | some f =>
      let s := s.sealStrip
      match s.crenewFault f lost with
      | some c => .next (s.raiseData (dataFaultRec c (slotBase f.slot) 0 opNone 0x1FFF))
      | none =>
        let r := s.crenew f (s.lifeOf (s.reg x.b))
        .next (r.1.finish x.d r.2)

/-- `CAGE` (R160). -/
def execCage (x : EAD) (s : State) : Out :=
  s.scalar x.d fun s =>
    match s.namedFrame (s.reg x.a) with
    | none => -1
    | some f => if f.wd then -2 else if f.park then -3 else BitVec.ofNat 64 (s.lifeLeft f)

/-- `CLOOK` (R164). -/
def execClook (x : EAD) (s : State) : Out :=
  s.scalar x.d fun s =>
    match s.myCtx with
    | none => -1
    | some c =>
      match (List.range 256).find? fun n => (c.frame n).any fun f =>
          f.tv && f.fartag == s.reg x.a && !f.wd && !f.park && decide (s.now < f.expiry) with
      | some n => BitVec.ofNat 64 n
      | none => -1

/-- `CTAG` and `CTAG.clr` (R164). -/
def execCtag (x : CtagF) (s : State) : Out :=
  s.afterAll fun s =>
    match s.namedFrame (s.reg x.a) with
    | none => .next (s.raise (preFault cNEARRANGE (s.reg x.a).toNat 0 opNone))
    | some f =>
      .next ((s.sealStrip.setFrame (match x.tag with
        | some b => { f with fartag := s.reg b, tv := true }
        | none => { f with tv := false })).retire)

/-- `CKEEP` (R163); where −2 and −1 both hold the result is −2 (DESIGN CHOICE: notes/assumptions/95.md). -/
def execCkeep (x : EABD) (s : State) : Out :=
  s.frameForm x.d fun s =>
    match s.namedFrame (s.reg x.a) with
    | none => (s, -3)
    | some f =>
      if f.wd || f.park || decide (s.lifeLeft f < 4096) then (s, -2)
      else if (s.reg x.b).getLsbD 0 then
        if f.keep || s.keepFits (s.framePlots f) f.lb (s.frameShare f) then (s.setFrame { f with keep := true }, 0)
        else (s, -1)
      else (s.setFrame { f with keep := false }, 0)

namespace State

/-- Whether an allocated, unparked frame of some context has a share in local range [lo, hi) of some plot. -/
def sharesIn (s : State) (plots : Nat → Bool) (lo hi : Nat) : Bool :=
  s.ctxs.any fun c => c.frames.any fun f =>
    !f.park && f.lb < hi && lo < f.lb + s.frameShare f && (s.framePlots f).any plots

/-- A layer comes back: it is zeroed (R167), and frames that had a share on it count as expired (R168). -/
def layerBack (s : State) (g l : Nat) : State :=
  let there := fun k => isNear k && plotOf k / 2048 == g && localOf k / 65536 == l
  { s with mem := s.mem.filter fun c => !there c.1,
           nearUE := s.nearUE.filter fun w => !there (8 * w),
           nearFlip := s.nearFlip.filter fun w => !there (8 * w.1),
           ctxs := s.ctxs.map fun c => { c with frames := c.frames.map fun f =>
             if f.lb < (l + 1) * 65536 && l * 65536 < f.lb + s.frameShare f &&
                 ((s.framePlots f).any fun p => p / 2048 == g) then
               { f with expiry := min f.expiry s.now }
             else f } }

/-- Turn a rail on or off: 4·Garden + layer, or 16 + Garden for a logic rail, which is a rail of all its layers (R378)
(DESIGN CHOICE: notes/assumptions/6.md); the Terrace, HBM and Lodge rails have no frames on them, and the Lodge's, which is
always on, does not fall (DESIGN CHOICE: notes/assumptions/92.md). -/
def setRail (s : State) (r : Nat) (on : Bool) : State :=
  if on then
    let t : State := { s with rails := s.rails ||| (1#24 <<< r) }
    let ls := if r < 16 then [(r / 4, r % 4)] else if r < 20 then (List.range 4).map fun l => (r - 16, l) else []
    ls.foldl (fun t x => if !s.railOn (x.1 * 2048) x.2 && t.railOn (x.1 * 2048) x.2 then t.layerBack x.1 x.2 else t) t
  else if r = 23 then s
  else { s with rails := s.rails &&& ~~~(1#24 <<< r) }

/-- `LGATE` (R167); the order of its results is that of notes/assumptions/25.md, DESIGN CHOICE. -/
def lgate (s : State) (v : Word) : State × Word :=
  let g := bits v.toNat 2 2
  let l := bits v.toNat 0 2
  let gate := bit v.toNat 8
  if v.toNat ≠ 4 * g + l + 256 * bitOf gate then (s, -3)
  else if s.rails.getLsbD (g * 4 + l) != gate then (s, -2)
  else if gate then
    if s.sharesIn (fun p => p / 2048 == g) (l * 65536) ((l + 1) * 65536) then (s, -1) else (s.setRail (g * 4 + l) false, 0)
  else (s.setRail (g * 4 + l) true, 0)

/-- `VBRET` (R170). -/
def vbret (s : State) (v : Word) : State × Word :=
  let p := bits v.toNat 0 13
  let l := bits v.toNat 16 2
  let q := bits v.toNat 18 2
  let bus := p * 16 + l * 4 + q
  if v.toNat ≠ p + l * 2 ^ 16 + q * 2 ^ 18 then (s, -3)
  else if s.holes.contains bus then (s, -2)
  else if s.sharesIn (fun r => r == p) (l * 65536 + q * 16384) (l * 65536 + (q + 1) * 16384) then (s, -1)
  else
    ({ s with holes := insertNat bus s.holes, retiring := s.retiring.filter (· != bus) },
      if s.retiring.contains bus then 0 else 1)

/-- A supervisor form: `PRIV` in user mode (R39, R315). -/
def supervised (s : State) (f : State → Out) : Out := 
  if s.me.supv then f s else s.afterAll fun s => .next (s.raiseNoAddr cPRIV)

end State

def execLgate (x : EAD) (s : State) : Out := s.supervised fun s => s.frameForm x.d fun s => s.lgate (s.reg x.a)
def execVbret (x : EAD) (s : State) : Out := s.supervised fun s => s.frameForm x.d fun s => s.vbret (s.reg x.a)

end Sys2Proof.Machine
end

