-- ==== Sys2Proof/Machine/Sync.lean ====
section
/-! DEFINITION. Sync objects (10 R262 to R277) and shadows (R279). `REL`, `PUB`, `BAR` and `ARRIVE` also wait for commands
of the Runner and the Trellis, and stand in Streams.lean. -/

namespace Sys2Proof.Machine

/-! ### The fields of an object (R262) -/

namespace State

def oKind (s : State) (o : Nat) : Nat := s.readNat o 1
def oFlags (s : State) (o : Nat) : Nat := s.readNat (o + 1) 1
def oPois (s : State) (o : Nat) : Bool := bit (s.oFlags o) 0
def oForced (s : State) (o : Nat) : Bool := bit (s.oFlags o) 1
def oNsh (s : State) (o : Nat) : Nat := s.readNat (o + 2) 2
def oXhold (s : State) (o : Nat) : Nat := s.readNat (o + 4) 4
def oRels (s : State) (o : Nat) : Nat := s.readNat (o + 8) 8
def oProg (s : State) (o : Nat) : Nat := s.readNat (o + 16) 8
def oGen (s : State) (o : Nat) : Nat := s.readNat (o + 24) 4
def oNeed (s : State) (o : Nat) : Nat := s.readNat (o + 28) 4
def oHave (s : State) (o : Nat) : Nat := s.readNat (o + 32) 4
def oPend (s : State) (o : Nat) : Nat := s.readNat (o + 36) 4
def oStray (s : State) (o : Nat) : Nat := s.readNat (o + 40) 4

def setKind (s : State) (o v : Nat) : State := s.writeNat o 1 v
def setFlags (s : State) (o : Nat) (pois forced : Bool) : State := s.writeNat (o + 1) 1 (bitOf pois + 2 * bitOf forced)
def setField (s : State) (o off n v : Nat) : State := s.writeNat (o + off) n v

/-- Every `AWAIT` that waits on an object, on the generations that a predicate names, has its result (R274, R276). -/
def endWaits (s : State) (o : Nat) (ended : Nat → Bool) (v : Word) : State :=
  let f := fun (b : Band) => match b.waiting with
    | some (.await k g x none) => if k = o ∧ ended g = true then { b with waiting := some (.await k g x (some v)) } else b
    | _ => b
  { s with me := f s.me, bands := s.bands.map f }

/-- Every `AWAIT.GE` that waits on an object has −1 (R277, R282). -/
def endGe (s : State) (o : Nat) : State :=
  let f := fun (b : Band) => match b.waiting with
    | some (.awaitGe k n x none) => if k = o then { b with waiting := some (.awaitGe k n x (some (-1))) } else b
    | _ => b
  { s with me := f s.me, bands := s.bands.map f }

/-- `POIS` := 1 (R282). -/
def poisonObject (s : State) (o : Nat) : State :=
  ((s.setFlags o true (s.oForced o)).endWaits o (fun _ => true) 2).endGe o

/-! ### The object of a form (R263, R265) -/

/-- The physical place of an object, or its pre-issue cause. -/
def objPlace (s : State) (va : Nat) : Except Nat Where :=
  if va % 64 ≠ 0 then .error cALIGN
  else
    match s.translate .atomic true va with
    | .error c => .error c
    | .ok w => if w.sync then .ok w else .error cSYNCUSE

/-- A form on an object: its probe, the refusal of its page, the kind that it does not accept, and then its effect, in a
sealed strip and after every earlier write is performed (R263, R265). -/
def object (s : State) (a : Reg) (badKind : Nat → Bool) (k : State → Nat → Out) : Out :=
  s.afterAll fun s =>
    let va := (s.reg a).toNat
    match s.objPlace va with
    | .error c => .next (s.raise (preFault c va 0 opObject))
    | .ok w =>
      let keys := (List.range 64).map fun o => w.key + o
      let s := (s.fillTlb va).readThrough .atomic keys
      match s.badDatum .atomic keys with
      | some b =>
        .next (s.sealStrip.performed.raiseData
          { dataFaultRec b.code va 0 opObject 0x1FFF with refused := b.refused, rmt := b.rmt })
      | none =>
        if badKind (s.oKind w.key) then .next (s.raise (preFault cSYNCUSE va 0 opObject))
        else k s.sealStrip.performed w.key

/-- The other forms of R264: sealed, and after every earlier write is performed (R265). -/
def syncForm (s : State) (k : State → Out) : Out := s.afterAll fun s => k s.sealStrip.performed

def holdsOf (s : State) (o : Nat) : Option Hold := s.me.holds.find? fun h => h.key == o
def holdsX (s : State) (o : Nat) : Bool := s.me.holds.any fun h => h.key == o && !h.shared

/-! ### Binding (R266) -/

/-- Whether a region meets a `SYNC` or `GRAPH` page of the context. -/
def meetsSpecialPage (s : State) (c : Ctx) (base len : Nat) : Bool :=
  (List.range (len / 65536 + 2)).any fun k =>
    let va := base / 65536 * 65536 + k * 65536
    decide (va < base + len) && !isNearVa va &&
      match s.leafOf c va with
      | some l => pteSync l.entry || pteGraph l.entry
      | none => false

/-- `BIND`: the order of its results is that of notes/assumptions/28.md, DESIGN CHOICE. -/
def bind (s : State) (c : Ctx) (o base len : Nat) : State × Word :=
  if !s.holdsX o then (s, -3)
  else if base % 64 ≠ 0 ∨ len % 64 ≠ 0 ∨ len = 0 ∨ 2 ^ 55 < base + len then (s, -4)
  else if (c.bindings.any fun b => decide (base < b.base + b.len) && decide (b.base < base + len)) ||
      s.meetsSpecialPage c base len then (s, -2)
  else if 1024 ≤ c.bindings.length then (s, -1)
  else ((s.setKind o 1).setCtx { c with bindings := c.bindings ++ [⟨o, base, len⟩] }, 0)

/-- `UNBIND` -/
def unbind (s : State) (c : Ctx) (o base : Nat) : State × Word :=
  if !s.holdsX o then (s, -3)
  else if c.bindings.any fun b => b.key == o && b.base == base then
    (s.setCtx { c with bindings := c.bindings.filter fun b => !(b.key == o && b.base == base) }, 0)
  else (s, -1)

end State

def isBarrier (k : Nat) : Bool := k == 2
def isLock (k : Nat) : Bool := k == 1

def execBind (x : EABCD) (s : State) : Out :=
  s.object x.a isBarrier fun s o =>
    match s.myCtx with
    | none => .next (s.finish x.d (-3))
    | some c =>
      let r := s.bind c o (s.reg x.b).toNat (s.reg x.c).toNat
      .next (r.1.finish x.d r.2)

def execUnbind (x : EABD) (s : State) : Out :=
  s.object x.a isBarrier fun s o =>
    match s.myCtx with
    | none => .next (s.finish x.d (-3))
    | some c =>
      let r := s.unbind c o (s.reg x.b).toNat
      .next (r.1.finish x.d r.2)

namespace State

/-! ### Acquiring (R268) -/

/-- The identifiers of the exclusive holders that live streams would be. -/
def liveIds (s : State) : List (BitVec 32) :=
  (s.me :: s.bands).filterMap (fun b => if b.status = .run then some b.xhold else none) ++
    s.stopped.map fun x => x.band.xhold

/-- A nonzero identifier that no live stream has (R262; notes/assumptions/10.md, DESIGN CHOICE). -/
def freshXhold (s : State) (sid : Nat) : BitVec 32 :=
  let c := Config.freeId sid
  let used := s.liveIds
  if c ≠ 0 ∧ !used.contains c then c
  else
    match (List.range (used.length + 1)).find? fun n => !used.contains (BitVec.ofNat 32 (n + 1)) with
    | some n => BitVec.ofNat 32 (n + 1)
    | none => 1

/-- The requests of other streams that reached an object before a given one. -/
def aheadOf (s : State) (o order : Nat) : List Bool :=
  s.bands.filterMap fun b =>
    match b.waiting with
    | some (.acq k sh n _) => if k = o ∧ n < order then some sh else none
    | _ => none

/-- Whether a request is granted now: holders, and the requests ahead of it in the queue. -/
def grantable (s : State) (o : Nat) (shared : Bool) (order : Nat) : Bool :=
  let ahead := s.aheadOf o order
  if shared then s.oXhold o == 0 && ahead.all id else s.oXhold o == 0 && s.oNsh o == 0 && ahead.isEmpty

/-- Record a hold. -/
def grant (s : State) (o : Nat) (shared : Bool) : State :=
  let s := s.setKind o 1
  let s : State := if shared then s.setField o 2 2 (s.oNsh o + 1) else s.setField o 4 4 s.me.xhold.toNat
  { s with me := { s.me with holds := s.me.holds ++ [⟨o, shared⟩] } }

/-- Drop a hold of the stream and count the release (R269). -/
def release (s : State) (h : Hold) : State :=
  let s := s.setField h.key 8 8 ((s.oRels h.key + 1) % 2 ^ 64)
  let s : State := if h.shared then s.setField h.key 2 2 (s.oNsh h.key - 1) else s.setField h.key 4 4 0
  { s with me := { s.me with holds := s.me.holds.filter fun x => x.key != h.key } }

/-- The place in an object's queue: the one it has, or the next. -/
def acqOrder (s : State) (o : Nat) : Nat :=
  match s.me.waiting with
  | some (.acq k _ n _) => if k = o then n else s.nextOrder
  | _ => s.nextOrder

/-- The stream waits at this instruction. -/
def hold (s : State) (w : Wait) : State := { s with me := { s.me with waiting := some w } }

end State

namespace State

/-- The shared requests of other streams at an object, in the order in which they reached it. -/
def sharers (s : State) (o : Nat) : List (Nat × Fin 64 × EAD) :=
  (s.bands.filterMap fun b => match b.waiting with
    | some (.acq k true n x) => if k = o ∧ b.status = .run then some (n, b.id, x) else none
    | _ => none).mergeSort fun a b => a.1 ≤ b.1

end State

/-- One request of `ACQ` (R268), judged as it stands; `also` are the requests that are granted together with it. -/
def acqStep (shared : Bool) (x : EAD) (also : State → Nat → State) (s : State) : Out :=
  s.object x.a isBarrier fun s o =>
    if (s.holdsOf o).isSome then .next (s.finish x.d (-1))
    else if 16 ≤ s.me.holds.length then .next (s.finish x.d (-2))
    else if s.oPois o then .next (s.finish x.d 1)
    else
      let n := s.acqOrder o
      if s.grantable o shared n then .next (also ((s.grant o shared).afresh.finish x.d 0) o)
      else .next { s.hold (.acq o shared n x) with nextOrder := s.nextOrder + 1 }

/-- The shared requests directly behind one that has been granted are granted in the same step. -/
def State.shareBehind (s : State) (o : Nat) : State :=
  (s.sharers o).foldl (fun s r => if s.grantable o true r.1 then
    s.asBand r.2.1 fun s => s.nextOr (acqStep true r.2.2 (fun s _ => s) s) else s) s

/-- `ACQ` (R268). -/
def execAcq (shared : Bool) (x : EAD) (s : State) : Out :=
  acqStep shared x (fun s o => if shared then s.shareBehind o else s) s

/-! ### Barriers and progress words (R274 to R277) -/

namespace State

/-- `BINIT` -/
def binit (s : State) (force : Bool) (o : Nat) (need : Word) : State × Word :=
  if need.toNat = 0 ∨ 2 ^ 32 ≤ need.toNat then (s, -2)
  else if !force && (s.oHave o != 0 || s.oPend o != 0 || s.oPois o) then (s, -1)
  else
    let g := (s.oGen o + 1) % 2 ^ 32
    let old := s.oGen o
    let s := ((((s.setKind o 2).setField o 24 4 g).setField o 28 4 need.toNat).setField o 32 4 0).setFlags o false true
    (s.endWaits o (· == old) 1, BitVec.ofNat 64 g)

/-- The issue of an `ARRIVE`: the generation captured, and `PEND` counted. -/
def arriveBegin (s : State) (o : Nat) : State × Nat := (s.setField o 36 4 ((s.oPend o + 1) % 2 ^ 32), s.oGen o)

/-- The arrival, performed indivisibly (R275). -/
def arrivePerform (s : State) (o g : Nat) : State :=
  let s := s.setField o 36 4 ((s.oPend o + 2 ^ 32 - 1) % 2 ^ 32)
  if s.oPois o || s.oGen o != g then s.setField o 40 4 ((s.oStray o + 1) % 2 ^ 32)
  else
    let s := s.setField o 32 4 ((s.oHave o + 1) % 2 ^ 32)
    if s.oHave o = s.oNeed o then
      (((s.setField o 24 4 ((g + 1) % 2 ^ 32)).setField o 32 4 0).setFlags o (s.oPois o) false).endWaits o (· == g) 0
    else s

/-- The result that the end of the generation gave a waiting `AWAIT`. -/
def awaited (s : State) (o g : Nat) : Option Word :=
  match s.me.waiting with
  | some (.await k h _ r) => if k = o ∧ h = g then r else none
  | _ => none

/-- The result of `AWAIT` for generation g, once it is over (R276). -/
def awaitResult (s : State) (o g : Nat) : Option Word :=
  if s.oPois o then some 2
  else if s.oGen o = g then none
  else if (g + 1) % 2 ^ 32 = s.oGen o then some (if s.oForced o then 1 else 0)
  else some 3

end State

def execBinit (force : Bool) (x : EABD) (s : State) : Out :=
  s.object x.a isLock fun s o =>
    let r := s.binit force o (s.reg x.b)
    .next (r.1.finish x.d r.2)

/-- `AWAIT` (R276). -/
def execAwait (x : EABD) (s : State) : Out :=
  s.object x.a isLock fun s o =>
    let g := (s.reg x.b).toNat % 2 ^ 32
    match (s.awaited o g).orElse fun _ => s.awaitResult o g with
    | some v => .next (s.afresh.finish x.d v)
    | none => .next (s.hold (.await o g x none))

/-- The result of `AWAIT.GE` on an object as it stands. -/
def State.progResult (s : State) (o bound : Nat) : Option Word :=
  if s.oPois o then some (-1)
  else if bound ≤ s.oProg o then some (BitVec.ofNat 64 (s.oProg o)) else none

/-- The result that a wait on a progress word already has. -/
def State.awaitedGe (s : State) (o bound : Nat) : Option Word :=
  match s.me.waiting with
  | some (.awaitGe k n _ r) => if k = o ∧ n = bound then r else none
  | _ => none

/-- `AWAIT.GE` (R277); a wait that is over has the result that ended it. -/
def execAwaitGe (x : EABD) (s : State) : Out :=
  s.object x.a (fun _ => false) fun s o =>
    let n := (s.reg x.b).toNat
    match (s.awaitedGe o n).orElse fun _ => s.progResult o n with
    | some v => .next (s.afresh.finish x.d v)
    | none => .next (s.hold (.awaitGe o n x none))

/-- `FENCE` (R270): every earlier access is performed at its home; `.plot` waits for the near ones only. Remote writes are
answered by then, since they are performed as they are made, so no wider scope waits for more than `.bed` does. -/
def execFence (_land : Bool) (sc : Scope) (s : State) : Out :=
  s.afterAll fun s =>
    let t := s.sealStrip
    .next (if sc = .plot then t else t.performed).afresh.retire

/-! ### Shadows (R279) -/

namespace State

/-- A level-3 leaf of tier 0 or 1 that may be written. -/
def shadowLeaf (l : Leaf) : Bool := l.level == 3 && pteW l.entry && decide (pteTier l.entry < 2)

/-- `SHADOW`: the regions named by two addresses, or the result that refuses them; a remote page, of which the table of R279 says
nothing, is a mismatch, −1 (DESIGN CHOICE: notes/assumptions/47.md). -/
def shadowOf (s : State) (c : Ctx) (a b : Nat) : Except Word Shadow :=
  let leaf := fun va => if va ≥ 2 ^ 55 ∨ isNearVa va then none else s.leafOf c va
  let inUse := fun (near : Bool) (x : Nat) => c.shadows.any fun h => h.near == near && (h.v == x || h.w == x)
  let missing := fun va => if isNearVa va then (c.frame (slotOf va)).isNone else (leaf va).isNone
  if missing a || missing b then .error (-3)
  else
    match isNearVa a, isNearVa b, c.frame (slotOf a), c.frame (slotOf b), leaf a, leaf b with
    | true, true, some f, some g, _, _ =>
      if f.size != g.size || s.framePlots f != s.framePlots g || f.ty != g.ty || f.geom != g.geom || f.keep || g.keep || f.park ||
          g.park || f.wd || g.wd then .error (-1)
      else if inUse true f.slot || inUse true g.slot then .error (-2)
      else if 64 ≤ c.shadows.length then .error (-4)
      else .ok ⟨true, f.slot, g.slot⟩
    | false, false, _, _, some l, some m =>
      let v := a / 65536
      let w := b / 65536
      if !shadowLeaf l || !shadowLeaf m || pteType l.entry != pteType m.entry || pteGeom l.entry != pteGeom m.entry then
        .error (-1)
      else if inUse false v || inUse false w then .error (-2)
      else if 64 ≤ c.shadows.length then .error (-4)
      else .ok ⟨false, v, w⟩
    | _, _, _, _, _, _ => .error (-1)

/-- Where a write of a Runner command or a Trellis drain goes while a shadow is open: the same offset of W (R144, R279). -/
def redirect (s : State) (va : Nat) : Nat :=
  match s.myCtx with
  | none => va
  | some c =>
    let near := isNearVa va
    match c.shadows.find? fun h => h.near == near && h.v == (if near then slotOf va else va / 65536) with
    | some h => if near then slotBase h.w + va % 2 ^ 32 else h.w * 65536 + va % 65536
    | none => va

end State

/-- `SHADOW` (R279). -/
def execShadow (x : EABD) (s : State) : Out :=
  s.syncForm fun s =>
    match s.myCtx with
    | none => .next (s.finish x.d (-3))
    | some c =>
      match s.shadowOf c (s.reg x.a).toNat (s.reg x.b).toNat with
      | .error v => .next (s.finish x.d v)
      | .ok h => .next ((s.setCtx { c with shadows := c.shadows ++ [h] }).finish x.d 0)

end Sys2Proof.Machine
end

