-- ==== Sys2Proof/Machine/Runner.lean ====
section
/-! DEFINITION. The Runner (05 R134 to R145, 16 R344) and the parking of frames (06 R165, R166). A command begins at its issue; it
moves its destination lines, each indivisibly, and completes. Runners are master class 49 (R372). -/

namespace Sys2Proof.Machine

/-! ### Checksums (R139) -/

/-- The little-endian words of a byte sequence; bytes past its end read 0. -/
def wordsOf : List Byte → List Nat
  | [] => []
  | [a] => [a.toNat]
  | [a, b] => [a.toNat + 2 ^ 8 * b.toNat]
  | [a, b, c] => [a.toNat + 2 ^ 8 * b.toNat + 2 ^ 16 * c.toNat]
  | a :: b :: c :: d :: l => (a.toNat + 2 ^ 8 * b.toNat + 2 ^ 16 * c.toNat + 2 ^ 24 * d.toNat) :: wordsOf l

def sumBytes (seed : BitVec 32) (bs : List Byte) : BitVec 32 :=
  (wordsOf bs).foldl (fun v w => v + BitVec.ofNat 32 w) seed

def crcStep (r : BitVec 32) : BitVec 32 := (r >>> 1) ^^^ (if r.getLsbD 0 then 0x82F63B78 else 0)

def crcByte (r : BitVec 32) (b : Byte) : BitVec 32 := Nat.repeat crcStep 8 (r ^^^ b.setWidth 32)

def crcBytes (seed : BitVec 32) (bs : List Byte) : BitVec 32 :=
  bs.foldl crcByte (seed ^^^ 0xFFFFFFFF) ^^^ 0xFFFFFFFF

def runningValue (m : SumMode) (seed : BitVec 32) (bs : List Byte) : BitVec 32 :=
  match m with
  | .none => 0
  | .sum => sumBytes seed bs
  | .crc => crcBytes seed bs

/-- The values with which a Runner command is issued (R137, R330). -/
structure RReq where
  kind : RKind
  a : Nat
  b : Nat
  c : Nat
  cn : Nat
  word : Option Nat
  mode : SumMode
  chn : Bool
  cmp : Bool
  seed : BitVec 32
  expect : BitVec 32
  width : Nat
  entry : Option Nat
  deriving DecidableEq, Repr

/-! ### The probe (R142) -/

/-- A cause of an extent: its index, its order among the extents, the code, the address and the operand. -/
structure RCause where
  index : Nat
  rank : Nat
  code : Nat
  addr : Nat
  opnd : Nat
  deriving DecidableEq, Repr

namespace State

/-- The mapping as it stands. -/
def mapView (s : State) : MapView :=
  ⟨s.mem, s.gcode, s.poison, s.hbmErr, s.tlb, s.pairs, s.crossed, s.me.supv, s.myCtx⟩

/-- The state as a command looks its addresses up in the mapping that it captured; bindings count as they stand (R266). -/
def through (s : State) (v : MapView) : State :=
  let t : State := { s with mem := v.mem, gcode := v.gcode, poison := v.poison, hbmErr := v.hbmErr, tlb := v.tlb,
                            pairs := v.pairs, crossed := v.crossed, me := { s.me with supv := v.supv } }
  match v.ctx with
  | some c => t.setCtx { c with bindings := (s.myCtx.map Ctx.bindings).getD c.bindings }
  | none => t

/-- One byte of an affine extent: its key, or its cause. A destination in an open shadow is redirected (R144, R279), and
meets the causes of the place that it is redirected to (notes/assumptions/85.md, DESIGN CHOICE). -/
def runnerByte (s : State) (acc : Acc) (va : Nat) : Except Nat Nat :=
  match s.translate acc false va with
  | .error c => .error c
  | .ok w =>
    if acc = .write then
      if !s.heldOk va 1 then .error cUNHELD
      else
        (s.translate .write false (s.redirect va)).map Where.key
    else .ok w.key

/-- The keys of bytes [va, va + n), or the offset of the first that has a cause and that cause. -/
def extentKeys (s : State) (acc : Acc) : Nat → Nat → List Nat → Except (Nat × Nat) (List Nat)
  | _, 0, ks => .ok ks.reverse
  | va, n + 1, ks =>
    match s.runnerByte acc va with
    | .error c => .error (ks.length, c)
    | .ok k => s.extentKeys acc (va + 1) n (k :: ks)

/-- An extent of elements of `w` bytes: its keys, or its cause in the numbering of R142. -/
def extent (s : State) (acc : Acc) (va n w rank opnd : Nat) : Except RCause (List Nat) :=
  if n ≠ 0 ∧ va % w ≠ 0 then .error ⟨0, rank, cALIGN, va, opnd⟩
  else
    match s.extentKeys acc va (n * w) [] with
    | .error (k, c) => .error ⟨k / w, rank, c, va + k / w * w, opnd⟩
    | .ok ks => .ok ks

/-- The index vector: the key of each entry, or its cause (R142, R22). -/
def indexKeys (s : State) : Nat → Nat → List Nat → Except RCause (List Nat)
  | _, 0, ks => .ok ks.reverse
  | va, n + 1, ks =>
    let bad := fun c => (.error ⟨ks.length, 0, c, va, opIndex⟩ : Except RCause (List Nat))
    if va % 4 ≠ 0 then bad cALIGN
    else
      match s.translate .read false va with
      | .error c => bad c
      | .ok w =>
        if (w.ty.isSome && w.ty != some .i32) || w.geom.isSome then bad cFORMAT
        else s.indexKeys (va + 4) n (w.key :: ks)

/-- The completion word: its key, or its cause (R141, R142). -/
def wordPlace (s : State) (va : Nat) : Except Nat Nat :=
  if va % 8 ≠ 0 then .error cALIGN
  else
    match s.translate .write false va with
    | .error c => .error c
    | .ok _ => if !s.heldOk va 8 then .error cUNHELD else s.runnerByte .write va

/-- The cause with the lowest index, and at equal index in the order of the extents. -/
def lowestCause : List RCause → Option RCause
  | [] => none
  | c :: l =>
    match lowestCause l with
    | none => some c
    | some d => if d.index < c.index ∨ (d.index = c.index ∧ d.rank < c.rank) then some d else some c

/-- The lines of a list of moves, in the order of their first move; `number` gives what `FAULTAT` shows. -/
def linesOf (number : Nat → Nat → Nat) (ms : List (Nat × (Nat ⊕ Byte) × Nat × Nat)) : List RLine :=
  ms.foldl (fun (ls : List RLine) m =>
    let line := m.2.2.1 / 256
    if ls.any fun l => l.line == line then
      ls.map fun l => if l.line = line then { l with moves := l.moves ++ [(m.1, m.2.1, m.2.2.2)] } else l
    else ls ++ [⟨line, number m.1 m.2.2.1, [(m.1, m.2.1, m.2.2.2)]⟩]) []

/-- The lines of a copy of bytes in ascending address; lines are numbered from the one that holds `base` (R141). -/
def copyLines (base : Nat) (src : List (Nat ⊕ Byte)) (dst : List Nat) : List RLine :=
  linesOf (fun _ va => va / 256 - base / 256) ((src.zip dst).mapIdx fun k p => (k, p.1, base + k, p.2))

/-- The first byte of the frame that `RUNPARK` would restore which the stream may not write (R267). -/
def unparkUnheld (s : State) (r : RReq) : Except RCause (List Nat) :=
  let base := slotBase (r.a / 2 ^ 32 % 256)
  match (List.range r.c).find? fun o => !s.heldOk (base + o) 1 with
  | some o => .error ⟨o, 2, cUNHELD, base + o, opD⟩
  | none => .ok []

/-- The extents that a request may write, by virtual address. -/
def RReq.dests (r : RReq) (n w : Nat) : List (Nat × Nat) :=
  (match r.kind with
    | .copy | .fill | .gather => [(r.a, n * w)]
    | .park => [(r.b, n)]
    | .unpark => [(slotBase (r.a / 2 ^ 32 % 256), n)]
    | .scatter => [(0, 2 ^ 55)]) ++ (r.word.map fun a => (a, 8)).toList

/-- The command of a request, or the cause that its probe reports (DEDUCED: notes/assumptions/46.md). -/
def probeRunner (s : State) (r : RReq) : Except FaultRec RCmd :=
  let n := match r.kind with
    | .gather | .scatter => r.cn
    | _ => r.c
  let w := match r.kind with
    | .gather | .scatter => r.width
    | _ => 1
  let oneIndex : Bool := match r.kind with
    | .gather | .scatter => true
    | _ => false
  if r.kind = .fill ∧ (r.a % 4 ≠ 0 ∨ r.c % 4 ≠ 0) then .error (preFault cALIGN r.a 0 opD)
  else
    let idx : Except RCause (List Nat) := if oneIndex then s.indexKeys r.c n [] else .ok []
    let src : Except RCause (List Nat) := match r.kind with
      | .copy | .scatter | .unpark => s.extent .read r.b n w 1 opB
      | _ => .ok []
    let dst : Except RCause (List Nat) := match r.kind with
      | .copy | .fill | .gather => s.extent .write r.a n w 2 opD
      | .park => s.extent .write r.b n w 2 opD
      | .unpark => s.unparkUnheld r
      | _ => .ok []
    match idx, src, dst with
    | .ok ix, .ok ks, .ok kd =>
      if oneIndex && decide (2 ^ 32 < n) then
        .error { preFault cXLATE 0 0 opIndex with addr := Config.freeAddr s.nextFree }
      else
        match r.word.map fun va => (va, s.wordPlace va) with
        | some (va, .error c) => .error (preFault c va 0 opObject)
        | wp =>
          let key := wp.bind fun p => match p.2 with
            | .ok k => some k
            | .error _ => none
          let lines := match r.kind with
            | .copy => copyLines r.a (ks.map .inl) kd
            | .fill => copyLines r.a ((List.range n).map fun k =>
                .inr (BitVec.ofNat 8 (r.b / 2 ^ (8 * (k % 4))))) kd
            | _ => []
          .ok { id := s.nextOrder, kind := r.kind, arrival := none, mode := r.mode, chn := r.chn, cmp := r.cmp,
                seed := r.seed, expect := r.expect, word := key, pred := none, predStat := 0, predValue := 0,
                width := w,
                base := (match r.kind with
                  | .park | .unpark => r.b
                  | _ => r.a),
                far := r.b, index := ix, flat := ks ++ kd,
                view := if oneIndex || r.kind == .park || r.kind == .unpark then some s.mapView else none,
                begun := false, dests := RReq.dests r n w, lines, delivered := [], saved := [], pois := false,
                stat := 0, faultAt := 0, frame := r.a / 2 ^ 32 % 256, issued := s.now, entry := r.entry }
    | i, a, b =>
      let bad := fun (x : Except RCause (List Nat)) => match x with
        | .error c => [c]
        | .ok _ => []
      match lowestCause (bad i ++ bad a ++ bad b) with
      | some c => .error (preFault c.code c.addr c.index c.opnd)
      | none => .error (preFault cXLATE 0 0 opNone)

/-! ### Moving lines -/

/-- What stands in the way of a near byte: the cause of its frame, or `STALE` where no frame of the context holds it. -/
def runnerNear (s : State) (k : Nat) : Option Nat :=
  match s.myCtx.bind fun c => (c.frames ++ c.leaving).find? fun f => s.frameHas f k with
  | some f => s.nearCause f (plotOf k) (localOf k)
  | none => some cSTALE

/-- Whether a line cannot be moved (R142): a near byte that is stale, withdrawn or unpowered, or a refused write. -/
def lineStops (s : State) (l : RLine) : Bool :=
  l.moves.any fun m =>
    (match m.2.1 with
      | .inl k => isNear k && (s.runnerNear k).isSome
      | .inr _ => false) ||
    (isNear m.2.2 && (s.runnerNear m.2.2).isSome) || !s.granted 49 .write (s.route m.2.2)

/-- The byte that a Runner reads from a key, and whether it is delivered poisoned (R109, R147, R373). -/
def runnerRead (s : State) (saved : List (Nat × Byte × Bool)) (k : Nat) : Byte × Bool :=
  match assoc saved k with
  | some v => v
  | none =>
    if !s.granted 49 .read (s.route k) then (Config.refusedByte k, true)
    else (s.byteAt k, s.isPoisoned k || (isNear k && s.isUE k))

/-- The device bed whose Runner moves a line (R134). -/
def lineBed (s : State) (l : RLine) : Nat :=
  match l.moves with
  | m :: _ => if isNear m.2.2 then plotOf m.2.2 / 64 else farOwner s.me.beds (l.line * 256) / 64
  | [] => 0

/-- An armed flip of the Runner's bed inverts a bit of the byte read, once (R344). -/
def takeFlip (s : State) (bed k : Nat) (v : Byte) : State × Byte :=
  match s.flips.find? fun f => f.1 == bed && f.2.1 == k with
  | some f => ({ s with flips := s.flips.erase f }, v ^^^ (1#8 <<< f.2.2))
  | none => (s, v)

/-- The byte that the Runner of a bed reads from a key, with an armed flip (R344), and whether it is poisoned. -/
def flippedRead (s : State) (saved : List (Nat × Byte × Bool)) (bed k : Nat) : State × Byte × Bool :=
  let x := s.runnerRead saved k
  let f := s.takeFlip bed k x.1
  (f.1, f.2, x.2)

/-- Write a line's bytes: each keeps its poison; in near memory a poisoned byte marks its word (R109, R138, R166)
(DEDUCED: notes/assumptions/43.md). -/
def runnerWrite (s : State) (cells : List (Nat × Byte × Bool)) : State :=
  let near := cells.filter fun c => isNear c.1
  let far := cells.filter fun c => !isNear c.1
  let s := (s.putMem (near.map fun c => (c.1, c.2.1))).nearWritten (near.map Prod.fst)
  let s : State := { s with nearUE := near.foldl (fun l c => if c.2.2 then insertNat (c.1 / 8) l else l) s.nearUE }
  s.writeCells (far.map fun c => (c.1, c.2.1)) (far.any fun c => c.2.2)

/-- The bytes of the elements of an index vector. -/
def indexBytes (ks : List Nat) : List Nat := ks.flatMap fun k => (List.range 4).map fun o => k + o

/-- The bytes that a line still has to read. -/
def freshReads (c : RCmd) (l : RLine) : List Nat :=
  l.moves.filterMap fun m => match m.2.1 with
    | .inl k => if (assoc c.saved k).isNone then some k else none
    | .inr _ => none

/-- The bytes of other lines that are read with a line: the rest of each 64-byte block that it reads a part of, since a command
reads a block whole (R135). -/
def blockReads (c : RCmd) (l : RLine) : List Nat :=
  let ks := freshReads c l
  let parts := (ks.foldl (fun g k => insertNat (k / 64) g) []).filter fun b =>
    decide ((ks.filter fun k => k / 64 == b).length < 64)
  if parts.isEmpty then []
  else (c.lines.filter fun x => x.line != l.line).flatMap fun x => (freshReads c x).filter fun k => parts.contains (k / 64)

/-- Move one destination line indivisibly: the bytes read, those written, and what they replace (R136, R138). -/
def moveLine (s : State) (c : RCmd) (l : RLine) : State × RCmd :=
  let more := blockReads c l
  let keys := freshReads c l ++ more
  let ok := keys.filter fun k => s.granted 49 .read (s.route k)
  let s := s.refuseEach 49 64 (keys.filter fun k => !s.granted 49 .read (s.route k))
  let s := (s.eccRead ok).nearRead (ok.filter isNear)
  let c := { c with saved := more.foldl (fun l k => assocSet l k (s.runnerRead [] k)) c.saved }
  let bed := s.lineBed l
  let r := l.moves.foldl (fun (r : State × List (Nat × Byte × Bool) × List (Nat × Byte) × Bool) m =>
    match m.2.1 with
    | .inr v => (r.1, assocSet r.2.1 m.2.2 (v, false), r.2.2.1 ++ [(m.1, v)], r.2.2.2)
    | .inl k =>
      let x := r.1.flippedRead c.saved bed k
      (x.1, assocSet r.2.1 m.2.2 x.2, r.2.2.1 ++ [(m.1, x.2.1)], r.2.2.2 || x.2.2)) (s, [], [], false)
  let saved := r.2.1.foldl (fun l x =>
    if (assoc l x.1).isSome then l else (x.1, s.runnerRead [] x.1) :: l) c.saved
  (r.1.runnerWrite r.2.1,
    { c with lines := c.lines.filter fun x => x.line != l.line, delivered := c.delivered ++ r.2.2.1, saved,
             pois := c.pois || r.2.2.2 })

/-- One line of a begun command: moved, or the command stops there with `STAT` 2; lines below it are still to be moved. -/
def lineStep (s : State) (c : RCmd) (l : RLine) : State × RCmd :=
  if s.lineStops l then
    let s := if l.moves.any fun m => !s.granted 49 .write (s.route m.2.2) then s.refuse 49 ((l.moves.map fun m => m.2.2).headD 0) else s
    let at_ := if c.stat = 2 then min c.faultAt l.low else l.low
    (s, { c with stat := 2, faultAt := at_, lines := c.lines.filter fun x => decide (x.low < at_) })
  else s.moveLine c l

def runLines : List RLine → State → RCmd → State × RCmd
  | [], s, c => (s, c)
  | l :: ls, s, c =>
    if c.lines.any fun x => x.line == l.line then
      let r := s.lineStep c l
      runLines ls r.1 r.2
    else runLines ls s c

/-! ### Beginning (R138, R140, R142, R165) -/

/-- The value of an index entry, or none where the Runner cannot read it (DEDUCED: notes/assumptions/44.md). Index vectors
are read by the Runner of the span's first bed (DESIGN CHOICE: notes/assumptions/87.md). -/
def runnerIndex (s : State) (k : Nat) : State × Option Int :=
  let r := (List.range 4).foldl (fun (r : State × List (Byte × Bool)) o =>
    let x := r.1.flippedRead [] (s.me.beds.headD 0) (k + o)
    (x.1, r.2 ++ [x.2])) (s, [])
  (r.1, if (isNear k && (s.runnerNear k).isSome) || r.2.any Prod.snd then none
    else some (signed 32 (ofBytesLE (r.2.map Prod.fst))))

/-- The keys of an indexed element, or none if the Runner's probe refuses it. -/
def indexedKeys (s : State) (acc : Acc) (base w : Nat) (ix : Int) : Option (Nat × List Nat) :=
  let a : Int := base + ix * w
  if a % (w : Int) ≠ 0 ∨ a < 0 ∨ (2 ^ 55 : Int) ≤ a then none
  else
    match s.extentKeys acc a.toNat w [] with
    | .ok ks => some (a.toNat, ks)
    | .error _ => none

/-- The moves of a gather or a scatter, or the lowest element whose probe fails: the indices as the Runner reads them, the
indexed side in the mapping that the command captured (R128, R144). -/
def indexedMoves (s : State) (c : RCmd) : State × Except Nat (List (Nat × (Nat ⊕ Byte) × Nat × Nat)) :=
  let gather := c.kind == .gather
  let v := match c.view with
    | some v => s.through v
    | none => s
  (c.index.zipIdx).foldl (fun r p =>
    match r.2 with
    | .error _ => r
    | .ok ms =>
      let x := r.1.runnerIndex p.1
      (x.1, match x.2.bind (v.indexedKeys (if gather then .read else .write) (if gather then c.far else c.base) c.width) with
      | none => .error p.2
      | some (va, ks) =>
        let flat := (c.flat.drop (p.2 * c.width)).take c.width
        .ok (ms ++ if gather then
            (ks.zip flat).mapIdx fun o q => (p.2 * c.width + o, .inl q.1, c.base + p.2 * c.width + o, q.2)
          else (flat.zip ks).mapIdx fun o q => (p.2 * c.width + o, .inl q.1, va + o, q.2)))) (s, .ok [])

/-- The command begins: a broken chain ends it, the indexed side is probed, a frame to park is looked up. -/
def beginCmd (s : State) (c : RCmd) : State × RCmd :=
  let s := s.zeroFrames
  if c.begun then (s, c)
  else if c.chn && c.predStat != 0 then (s, { c with begun := true, lines := [], stat := 3 })
  else
    match c.kind with
    | .gather | .scatter =>
      let s := s.refuseEach 49 64 (c.index.filter fun k => !s.granted 49 .read (s.route k))
      let s := (s.eccRead (indexBytes (c.index.filter fun k => s.granted 49 .read (s.route k))))
      match s.indexedMoves c with
      | (s, .error e) => (s, { c with begun := true, stat := 1, faultAt := e })
      | (s, .ok ms) => (s, { c with begun := true, lines := linesOf (fun k _ => k / c.width) ms })
    | .park =>
      match s.capturedFrame c.frame with
      | none => (s, { c with begun := true, stat := 1 })
      | some f =>
        if f.park then (s, { c with begun := true, stat := 1 })
        else
          let src := (List.range c.flat.length).map fun o =>
            let p := s.frameAt f o
            (.inl (nearKey p.1 p.2) : Nat ⊕ Byte)
          (s, { c with begun := true, lines := copyLines c.base src c.flat })
    | _ => (s, { c with begun := true })

/-! ### Completion (R139 to R141, R143, R165, R166) -/

/-- The free local base for a frame that returns from far memory, by the rule of `CALLOC` (R156, R166). -/
def unparkBase (s : State) (f : Frame) : Option Nat := s.freeBase (s.framePlots f) (frameUnit f.geom) (s.frameShare f)

/-- The frame whose bytes `RUNPARK` writes: the one that it restores, or, where that is the visible region of a shadow that was
open at its issue, the region behind it (R144, R279); none where that one is gone. -/
def unparkTarget (s : State) (c : RCmd) (g : Frame) : Option Frame :=
  match ((c.view.bind MapView.ctx).map Ctx.shadows).bind fun l => l.find? fun h => h.near && h.v == c.frame with
  | some h => s.capturedFrame h.w
  | none => some g

/-- The keys of the first n bytes of a frame. -/
def frameKeys (s : State) (f : Frame) (n : Nat) : List Nat :=
  (List.range n).map fun o => let p := s.frameAt f o; nearKey p.1 p.2

/-- `RUNPARK`, performed as it completes (R166). The frame's new storage is zeroed (R157) and takes the bytes; where a shadow
sends them elsewhere, a byte that cannot be reached there stops the command as it stops any other (R142). -/
def unpark (s : State) (c : RCmd) : State × RCmd :=
  match s.capturedFrame c.frame with
  | none => (s, { c with stat := 1 })
  | some f =>
    match if f.park then s.unparkBase f else none with
    | none => (s, { c with stat := 1 })
    | some lb =>
      let g := { f with lb, park := false, expiry := c.issued + nsToCycles s.retn.toNat }
      match s.unparkTarget c g with
      | none => (s, { c with stat := 2 })
      | some d =>
        let keys := s.frameKeys d c.flat.length
        let refused := c.flat.filter fun k => !s.granted 49 .read (s.route k)
        let bad := fun (x : Nat × Nat) => (isRemote x.1 && refused.contains x.1) || (d.slot != g.slot && (s.runnerNear x.2).isSome)
        match (c.flat.zip keys).zipIdx.find? fun x => bad x.1 with
        | some x => (if refused.contains x.1.1 then s.refuse 49 x.1.1 else s,
            { c with stat := 2, faultAt := (c.base + x.2) / 256 - c.base / 256 })
        | none =>
          let s := (s.refuseEach 49 64 refused).eccRead (c.flat.filter fun k => s.granted 49 .read (s.route k))
          let r := (c.flat.zip keys).foldl (fun (r : State × List (Nat × Byte × Bool)) k =>
            let v := r.1.flippedRead [] (plotOf k.2 / 64) k.1
            (v.1, r.2 ++ [(k.2, v.2.1, v.2.2)])) (s, [])
          (((r.1.zeroFrame g).runnerWrite r.2).setCaptured g, { c with pois := r.2.any fun k => k.2.2 })

/-- `RPARK` succeeds: the frame is parked and its storage free (R165). -/
def parked (s : State) (c : RCmd) : State :=
  match s.capturedFrame c.frame with
  | some f => if c.stat = 0 then s.setCaptured { f with park := true, keep := false } else s
  | none => s

/-- The bytes that `VALUE` covers, in the order delivered. -/
def valueBytes (c : RCmd) : List Byte :=
  let below := fun (k : Nat) =>
    c.stat == 0 ||
      (match c.kind with
        | .gather | .scatter => decide (k / c.width < c.faultAt)
        | _ => decide ((c.base + k) / 256 - c.base / 256 < c.faultAt))
  let d := c.delivered.filter fun x => below x.1
  (List.range ((d.foldl (fun n x => max n (x.1 + 1)) 0))).filterMap fun k => assoc d k

/-- `VALUE` (R139 to R141). -/
def valueOfCmd (c : RCmd) : BitVec 32 :=
  if c.stat = 3 then c.predValue
  else if c.stat = 4 then 0
  else runningValue c.mode (if c.chn then c.predValue else c.seed) (valueBytes c)

/-- The completion word (R141). -/
def completionWord (c : RCmd) : Word :=
  let v := valueOfCmd c
  let cmpd := c.cmp && c.stat == 0
  BitVec.ofNat 64 (packFields [(24, min c.faultAt (2 ^ 24 - 1)), (4, c.stat), (1, bitOf c.pois),
    (1, bitOf (cmpd && v == c.expect)), (1, bitOf cmpd), (1, 1), (32, v.toNat)])

/-- Write the completion word, as one indivisible write, where it can still be written. -/
def writeWord (s : State) (c : RCmd) : State :=
  match c.word with
  | none => s
  | some k =>
    if !s.granted 49 .write (s.route k) then s.refuse 49 k
    else if isNear k && (s.runnerNear k).isSome then s
    else s.runnerWrite ((State.cellsOf k (bytesLE 8 (completionWord c).toNat)).map fun x => (x.1, x.2, false))

/-- A command whose lines are done completes: it leaves the queue, and what follows from its status and value follows. -/
def finishCmd (s : State) (c : RCmd) : State :=
  match c.arrival with
  | some (o, g) =>
    ({ s with me := { s.me with runner := s.me.runner.filter fun x => x.id != c.id } }).arrivePerform o g
  | none =>
    let r := if c.kind = .unpark then s.unpark c else (if c.kind = .park then s.parked c else s, c)
    let s := r.1.writeWord r.2
    let v := valueOfCmd r.2
    let tell := fun (x : RCmd) => if x.pred = some c.id then { x with pred := none, predStat := r.2.stat, predValue := v } else x
    let b := s.me
    { s with me := { b with
        runner := (b.runner.filter fun x => x.id != c.id).map tell,
        rlast := if b.rlast.1 = c.id then (c.id, completionWord r.2) else b.rlast,
        rpred := b.rpred.map fun p => if p.id = c.id then { p with done := some (r.2.stat, v) } else p,
        list := match b.list, r.2.entry with
          | some 0, some k => some (if r.2.stat ≠ 0 then 0x100 + k else 0)
          | l, _ => l } }

/-- One command from where it stands to its completion. -/
def runCmd (s : State) (c : RCmd) : State :=
  let b := s.beginCmd c
  let r := runLines b.2.lines b.1 b.2
  r.1.finishCmd r.2

/-- The first n commands of the stream complete, in issue order. -/
def drainRunnerTo (s : State) (n : Nat) : State :=
  ((s.me.runner.take n).map RCmd.id).foldl (fun s i =>
    match s.me.runner.find? fun c => c.id == i with
    | some c => s.runCmd c
    | none => s) s

/-- Every command of the stream completes. -/
def drainRunner (s : State) : State := s.drainRunnerTo s.me.runner.length

/-! ### Issue (R134, R135) -/

/-- A `.chn` command behind its predecessor, which has completed or not (R140). -/
def chained (c : RCmd) (p : Option RPred) : RCmd :=
  match p with
  | none => c
  | some p =>
    match p.done with
    | none => { c with pred := some p.id }
    | some d => { c with predStat := d.1, predValue := d.2 }

/-- Put a command into the stream's queue, which holds 32: a full one first completes its oldest. Unless the turn
holds work back, the command is performed in the same step. -/
def queueCmd (s : State) (c : RCmd) : State :=
  let s : State := if 32 ≤ s.me.runner.length then (match s.me.runner.head? with
    | some d => s.runCmd d
    | none => s) else s
  let b := s.me
  let c := if c.chn then chained c b.rpred else c
  let s : State := { s with
    nextOrder := s.nextOrder + 1,
    me := { b with
      runner := b.runner ++ [c],
      rlast := if c.arrival.isSome then b.rlast else (c.id, 0),
      rpred := if c.arrival.isNone && c.mode != .none then some ⟨c.id, none⟩ else b.rpred } }
  if s.holdBack then s else s.drainRunner

/-- Issue a Runner form: its probe, the seal, and its place in the queue. -/
def issueRunner (s : State) (r : State → RReq) : Out :=
  s.afterAll fun s =>
    match s.probeRunner (r s) with
    | .error f => .next (if f.code = cXLATE ∧ f.opnd = opIndex ∧ 2 ^ 32 < (r s).cn then
        ({ s with nextFree := s.nextFree + 1 }).raise f else s.raise f)
    | .ok c => .next ((s.sealStrip.performed.queueCmd c).retire)

/-- The completion word of a form: none when `ED` names `s0` (R141). -/
def wordReg (s : State) (d : Reg) : Option Nat := if d.val = 0 then none else some (s.reg d).toNat

/-- The request of `RCOPY` or `RFILL`. -/
def runReq (kind : RKind) (x : RunF) (w : Nat) (s : State) : RReq :=
  let nextR : Reg := ⟨(x.c.val + 1) % 64, Nat.mod_lt _ (by decide)⟩
  ⟨kind, (s.reg x.a).toNat, (s.reg x.b).toNat, (s.reg x.c).toNat, (s.reg nextR).toNat, s.wordReg x.d, x.mode, x.chn,
    x.cmp, x.seed, x.expect, w, none⟩

/-- The frame that a parking form names, with the causes of R165: the address that `NEARRANGE` or `ALIGN` names
(DESIGN CHOICE: notes/assumptions/45.md). -/
def parkReq (kind : RKind) (x : EABD) (s : State) : Except FaultRec RReq :=
  let b := (s.reg x.b).toNat
  match s.myCtx.bind fun _ => if (s.reg x.a).toNat / 2 ^ 40 = 0x7FFF then s.myFrame ((s.reg x.a).toNat / 2 ^ 32 % 256) else none with
  | none => .error (preFault cNEARRANGE (s.reg x.a).toNat 0 opNone)
  | some f =>
    let o := if kind = .park then opD else opB
    if b % 256 ≠ 0 then .error (preFault cALIGN b 0 o)
    else if isNearVa b then .error (preFault cNEARRANGE b 0 o)
    else .ok ⟨kind, (s.reg x.a).toNat, b, f.size, 0, s.wordReg x.d, .none, false, false, 0, 0, 1, none⟩

def issuePark (s : State) (kind : RKind) (x : EABD) : Out :=
  s.afterAll fun s =>
    match parkReq kind x s with
    | .error f => .next (s.raise f)
    | .ok r =>
      match s.probeRunner r with
      | .error f => .next (s.raise f)
      | .ok c => .next ((s.sealStrip.performed.queueCmd c).retire)

end State

def execRcopy (x : RunF) (s : State) : Out := s.issueRunner (State.runReq .copy x 1)
def execRfill (x : RunF) (s : State) : Out := s.issueRunner (State.runReq .fill x 1)
def execRgath (x : RunXF) (s : State) : Out := s.issueRunner (State.runReq .gather x.run (2 ^ x.w.val))
def execRscat (x : RunXF) (s : State) : Out := s.issueRunner (State.runReq .scatter x.run (2 ^ x.w.val))
def execRpark (x : EABD) (s : State) : Out := s.issuePark .park x
def execRunpark (x : EABD) (s : State) : Out := s.issuePark .unpark x

/-- `RQWAIT` (R143): every Runner command of the stream has completed; the word of the latest one. -/
def execRqwait (x : ED) (s : State) : Out :=
  s.afterAll fun s =>
    let t := s.drainRunner
    .next (t.finish x.d t.me.rlast.2)

end Sys2Proof.Machine
end

