-- ==== Sys2Proof/Machine/Transform.lean ====
section
/-! DEFINITION. Tensor shape records (05 R123 to R128) and the layout transforms (05 R129 to R132). -/

namespace Sys2Proof.Machine

/-- A checked record with its resolved type (R123, R124); sizes, strides and tiles of all eight dimensions. -/
structure TRec where
  addr : Nat
  base : Nat
  rank : Nat
  ty : Ty
  geom : Option Geom
  pad : Nat
  bedstep : Int
  sizes : List Nat
  strides : List Int
  tiled : Bool
  tiles : List Nat
  deriving DecidableEq, Repr

/-- A field of a record's bytes. -/
def recField (bs : List Byte) (off n : Nat) : Nat := ofBytesLE ((bs.drop off).take n)

/-- Dimension 0 runs through a bit stream or through segments (R123). -/
def TRec.packed (r : TRec) : Bool := r.ty.subByte || r.geom.isSome

/-- The index of a linear index (R125). -/
def indexOf : List Nat → Nat → List Nat
  | [], _ => []
  | z :: zs, e => e % max z 1 :: indexOf zs (e / max z 1)

def prodOf (l : List Nat) : Nat := l.foldl (· * ·) 1

/-- The linear index of an index (R125). -/
def linearOf : List Nat → List Nat → Nat
  | z :: zs, i :: is => i + z * linearOf zs is
  | _, _ => 0

/-- Where an element of a record begins (`RecAddr`, R125), for a bed rank. -/
def TRec.pos (r : TRec) (idx : List Nat) (b : Int) : ElemPos :=
  let base : Int := r.base + b * r.bedstep
  let steps := (idx.zip r.strides).map fun p => (p.1 : Int) * p.2
  if r.packed then
    let row := base + (steps.drop 1).foldl (· + ·) 0
    let i0 := idx.headD 0
    match r.geom with
    | some g =>
      let k := i0 % blockSize g * r.ty.width
      let q := i0 / blockSize g
      let seg : Int := row + (q / segsPer g r.ty * 256 + q % segsPer g r.ty * segBytes g r.ty : Nat)
      ⟨seg + 1 + (k / 8 : Nat), k % 8, (k % 8 + r.ty.width + 7) / 8, some seg⟩
    | none =>
      let k := i0 * r.ty.width
      ⟨row + (k / 8 : Nat), k % 8, (k % 8 + r.ty.width + 7) / 8, none⟩
  else ⟨base + steps.foldl (· + ·) 0, 0, r.ty.width / 8, none⟩

/-- Whether an index lies within `SIZE` (R125). -/
def TRec.has (r : TRec) (idx : List Nat) : Bool :=
  ((idx.take r.rank).zip r.sizes).all fun p => decide (p.1 < p.2)

/-- The limits of R123 on the fields of a record, and R124 as far as the record alone shows it; `ty` is the resolved
type. -/
def recordOk (bs : List Byte) (ty : Ty) : Bool :=
  let f := recField bs
  let rank := f 8 1
  let tiled := f 11 1 == 1
  let geom := f 10 1
  let dims := List.range 8
  let size := fun d => f (32 + 16 * d) 8
  let stride := fun d => signed 64 (f (40 + 16 * d) 8)
  decide (1 ≤ rank ∧ rank ≤ 8) && f 9 1 < 64 && geom < 3 && f 11 1 < 2 && f 12 4 == 0 && f 16 8 < 2 ^ ty.width &&
  (dims.all fun d =>
    if d < rank then
      decide (1 ≤ size d ∧ size d ≤ 2 ^ 40) &&
      (if tiled then decide (1 ≤ f (160 + 4 * d) 4 ∧ f (160 + 4 * d) 4 ≤ min (size d) (2 ^ 32 - 1)) else f (160 + 4 * d) 4 == 0)
    else size d == 0 && stride d == 0 && f (160 + 4 * d) 4 == 0) &&
  decide (prodOf ((dims.take rank).map size) ≤ 2 ^ 40) &&
  (!(ty.subByte || geom != 0) || stride 0 == 0) &&
  (geom == 0 || (ty.mxCapable && f 0 8 % 256 == 0 && (dims.drop 1).all fun d => stride d % 256 == 0))

def parseRecord (addr : Nat) (bs : List Byte) (ty : Ty) : TRec :=
  let f := recField bs
  let dims := List.range 8
  { addr, base := f 0 8, rank := f 8 1, ty, geom := geomOf (f 10 1), pad := f 16 8, bedstep := signed 64 (f 24 8),
    sizes := dims.map fun d => f (32 + 16 * d) 8, strides := dims.map fun d => signed 64 (f (40 + 16 * d) 8),
    tiled := f 11 1 == 1, tiles := dims.map fun d => f (160 + 4 * d) 4 }

/-- A cause of a record as a whole; records come after the other operands (R349), `rank` orders them. -/
def recCand (code addr rank : Nat) : Cand := ⟨true, 0, 4 + rank, causeRank code, preFault code addr 0 opRecord⟩

namespace State

/-- The snapshot of a record (R126): the cached copy, or its bytes now. The keys are those that were read
(DEDUCED: notes/assumptions/42.md). -/
def fetchRecord (s : State) (addr rank : Nat) : Except Cand (List Byte × List Nat) :=
  match assoc s.me.recs addr with
  | some bs => .ok (bs, [])
  | none =>
    if addr % 64 ≠ 0 then .error (recCand cALIGN addr rank)
    else if isNearVa addr then .error (recCand cFORMAT addr rank)
    else
      let ks := [0, 64, 128].foldl (fun (r : Except Nat (List Nat × Bool)) o =>
        match r, s.translate .read false (addr + o) with
        | .error e, _ | .ok _, .error e => .error e
        | .ok (l, raw), .ok w =>
          .ok (l ++ (List.range 64).map fun k => w.key + k, raw && w.ty.isNone && w.geom.isNone)) (.ok ([], true))
      match ks with
      | .error e => .error (recCand e addr rank)
      | .ok (keys, raw) =>
        if !raw then .error (recCand cFORMAT addr rank) else .ok (keys.map s.seen, keys)

/-- Check a record's bytes and resolve its type (R124). -/
def checkRecord (s : State) (addr rank : Nat) (bs : List Byte) : Except Cand TRec :=
  let base := recField bs 0 8
  let page := s.formatAt base
  match tyFOf (recField bs 9 1) with
  | none => .error (recCand cFORMAT addr rank)
  | some none =>
    (match page with
     | .error e => .error { recCand e base rank with opRank := 4 + rank }
     | .ok (none, _) => .error (recCand cFORMAT addr rank)
     | .ok (some t, _) => if recordOk bs t then .ok (parseRecord addr bs t) else .error (recCand cFORMAT addr rank))
  | some (some t) => if recordOk bs t then .ok (parseRecord addr bs t) else .error (recCand cFORMAT addr rank)

/-- The data fault of a record's own bytes (R124). -/
def recordBad (s : State) (addr : Nat) (keys : List Nat) : Option FaultRec :=
  (s.badDatum .read keys).map fun b =>
    { dataFaultRec b.code addr 0 opRecord 0x1FFF with refused := b.refused, rmt := b.rmt }

/-- Keep a record's snapshot, when the turn says that copies are kept (R126): up to 64 records. -/
def cacheRecord (s : State) (addr : Nat) (bs : List Byte) : State :=
  if s.fills && (assoc s.me.recs addr).isNone then { s with me := { s.me with recs := ((addr, bs) :: s.me.recs).take 64 } }
  else s

/-- The records that a form names, read through the codes of their sectors, with the bytes of each. Of two faulty records R349
and R124 do not say which is reported: the causes of their addresses and pages come first, D's before S's, then a poisoned
record, then the causes of what the records hold, in the same order (notes/assumptions/104.md, DESIGN CHOICE). -/
def readRecords (s : State) (addrs : List Nat) : State × Except FaultRec (List (TRec × List Byte)) :=
  let fs := addrs.mapIdx fun k a => (k, a, s.fetchRecord a k)
  match fs.findSome? fun f => match f.2.2 with
      | .error c => some c
      | .ok _ => none with
  | some c => (s, .error c.fault)
  | none =>
    let keys := fs.map fun f => match f.2.2 with
      | .ok p => (f.2.1, p.2)
      | .error _ => (f.2.1, [])
    let s := keys.foldl (fun s k => s.readThrough .read k.2) s
    match keys.findSome? fun k => s.recordBad k.1 k.2 with
    | some r => (s, .error r)
    | none =>
      -- the sectors have been corrected; the snapshots are taken now
      let rs := addrs.mapIdx fun k a => match s.fetchRecord a k with
        | .ok p => (a, p.1, s.checkRecord a k p.1)
        | .error c => (a, [], .error c)
      match rs.findSome? fun r => match r.2.2 with
          | .error c => some c
          | .ok _ => none with
      | some c => (s, .error c.fault)
      | none =>
        (rs.foldl (fun s r => s.cacheRecord r.1 r.2.1) s,
         .ok (rs.filterMap fun r => match r.2.2 with
           | .ok t => some (t, r.2.1)
           | .error _ => none))

/-- The place of one element of a record, or its cause (R124, R125, R131). `dest` asks for an owner in the span. -/
def recPlace (s : State) (acc : Acc) (dest : Bool) (opnd rank : Nat) (r : TRec) (e : Nat) (p : ElemPos) : Except Cand Loc :=
  let bad := fun code => elemCand code p.byte e opnd
  let other := (List.range (if r.packed then p.n else 1)).any fun o =>
    decide (0 ≤ p.byte + (o : Int)) && decide (p.byte + (o : Int) < 2 ^ 55) && match s.formatAt (p.byte + (o : Int)).toNat with
    | .ok f => (f.1.isSome || f.2.isSome) && (f.1 != some r.ty || f.2 != r.geom)
    | .error _ => false
  if other then .error (recCand cFORMAT r.addr rank)
  else if !r.packed && p.byte % (p.n : Int) != 0 then .error (bad cALIGN)
  else if p.byte < 0 ∨ (2 ^ 55 : Int) ≤ p.byte then .error (bad cXLATE)
  else
    let va := p.byte.toNat
    match s.locate acc false va p.n with
    | .error c => .error (bad c)
    | .ok (w, keys) =>
        let owner := s.ownerOf w va
        if dest && (bedsPos s.me.beds owner).isNone then .error (bad cSPANOWN)
        else if acc == .write && !s.heldOk va p.n then .error (bad cUNHELD)
        else
          match p.scale with
          | none => .ok ⟨keys, p.bit, va, owner, w.near, w.slot, none⟩
          | some a =>
            match s.translate acc false a.toNat with
            | .error c => .error (bad c)
            | .ok sw => .ok ⟨keys, p.bit, va, owner, w.near, w.slot, some sw.key⟩

/-- `perm` of R130 as a list, and whether it is a permutation of the rank with the fields above it zero (R131). -/
def permOf (perm : Option (BitVec 24)) (rank : Nat) : List Nat × Bool :=
  match perm with
  | none => (List.range 8, true)
  | some p =>
    let l := (List.range 8).map fun d => bits p.toNat (3 * d) 3
    (l, ((List.range rank).all fun d => (l.take rank).contains d) && (l.drop rank).all (· == 0))

/-- The plan of a transform (R130, R131): every element of D in linear order, read or padded. Where the ranks differ or
`perm` is bad, the cause names D's record (notes/assumptions/84.md, DESIGN CHOICE). -/
def planXform (s : State) (d x : TRec) (h : BHdr) (perm : Option (BitVec 24)) : Planned :=
  let p := permOf perm d.rank
  if d.rank ≠ x.rank ∨ p.2 = false ∨ d.geom.isSome = true then .error (recCand cFORMAT d.addr 0).fault
  else
    let es := (List.range (prodOf (d.sizes.take d.rank))).map fun e =>
      let j := (indexOf (d.sizes.take d.rank) e) ++ List.replicate (8 - d.rank) 0
      let i := (List.range 8).map fun m => (((List.range d.rank).find? fun k => p.1.getD k 0 == m).map fun k => j.getD k 0).getD 0
      (e, s.recPlace .write true opD 0 d e (d.pos j 0),
        if x.has i then some (s.recPlace .read false opA 1 x e (x.pos i 0)) else none, linearOf (x.sizes.take x.rank) i)
    let cands := es.flatMap fun e =>
      (match e.2.2.1 with
        | some (.error c) => [c]
        | _ => []) ++ (match e.2.1 with
        | .error c => [c]
        | _ => [])
    match firstCand cands with
    | some c => .error c.fault
    | none =>
      let elems := es.filterMap fun e =>
        match e.2.1, e.2.2.1 with
        | .ok l, some (.ok a) => some (⟨e.1, e.2.2.2, l.plot, l.keys.headD 0 / 64, some l, some a, none, [], none⟩ : Elem)
        | .ok l, _ => some ⟨e.1, e.1, l.plot, l.keys.headD 0 / 64, some l, none, none, [], none⟩
        | .error _, _ => none
      .ok { op := .xform, t1 := d.ty, t2 := x.ty, ga := x.geom, gb := none, gd := none, imm := none, pad := x.pad,
            kd := none, sd := none, guardBits := 0, vl := s.me.vl, elems, rest := [], skew := h.skew.toNat, cede := h.cede, set := none,
            wait := 0, ntf := false, seals := false, indexed := [], wins := [], ffVl := none, isFF := false, apart := false,
            row := x.sizes.headD 1 }

/-- Plan a transform of the records at two addresses; the state has read them. -/
def planRecords (s : State) (h : BHdr) (a b : Word) (perm : Option (BitVec 24)) : State × Planned :=
  let r := s.readRecords [a.toNat, b.toNat]
  (r.1, match r.2 with
    | .error f => .error f
    | .ok [d, x] => r.1.planXform d.1 x.1 h perm
    | .ok _ => .error (recCand cFORMAT a.toNat 0).fault)

/-- A transform issues once everything before it has finished (R132). -/
def execXf (s : State) (h : BHdr) (a b : Reg) (perm : Option (BitVec 24)) : Out :=
  s.afterAll fun s =>
    let r := s.planRecords h (s.reg a) (s.reg b) perm
    .next (r.1.issuePlan r.2 0)

end State

def execVxform (x : XformF) (s : State) : Out := s.execXf x.h x.a x.b none
def execVxpos (x : XposF) (s : State) : Out := s.execXf x.h x.a x.b (some x.perm)

end Sys2Proof.Machine
end

