-- ==== Sys2Proof/Machine/Trellis.lean ====
section
/-! DEFINITION. The Trellis (09 R219 to R247): alignment, steps, block closes and drains, operand slots, the image of the
stream's state, and the stream's queue of commands. Loaders are master class 50 (R372). -/

namespace Sys2Proof.Machine

/-! ### Types and paths (R220) -/

/-- The path of a type: 0 4-bit, 1 8-bit, 2 16-bit, 3 split; none where the Trellis does not accept it. -/
def pathOf : Ty → Option Nat
  | .e2m1 | .i4 | .n4 => some 0
  | .e2m3 | .e4m3 | .e5m2 | .i8 | .b8 _ _ _ => some 1
  | .e3m2 | .n8 | .i16 | .f16 | .bf16 => some 2
  | .f32 => some 3
  | _ => none

/-- `Kt` -/
def depthOf : Ty → Nat
  | .e2m1 | .i4 | .n4 => 512
  | .e2m3 | .e4m3 | .e5m2 | .i8 | .b8 _ _ _ | .e3m2 | .n8 => 256
  | .f32 => 64
  | _ => 128

/-- w of a path. -/
def pathWidth : Nat → Nat
  | 0 => 5 | 1 => 8 | _ => 16

/-! ### Align (R221, R222) -/

/-- `m·2^k` rounded to an integer, ties to even. -/
def roundTies (m : Nat) (k : Int) : Nat :=
  if 0 ≤ k then m * 2 ^ k.toNat
  else
    let j := (-k).toNat
    let q := m / 2 ^ j
    let r := m % 2 ^ j
    if 2 * r > 2 ^ j ∨ (2 * r = 2 ^ j ∧ q % 2 = 1) then q + 1 else q

/-- The rounded significands of finite values at weight 2^e. -/
def significands (e : Int) (xs : List Num) : List Int :=
  xs.map fun x => match x with
    | .fin n m k => if n then -(roundTies m (k - e) : Int) else roundTies m (k - e)
    | _ => 0

/-- Raise e until every significand fits in w − 1 bits. -/
def alignFrom (xs : List Num) (w : Nat) : Nat → Int → Int × List Int
  | 0, e => (e, significands e xs)
  | fuel + 1, e =>
    let ys := significands e xs
    if ys.all fun y => y.natAbs < 2 ^ (w - 1) then (e, ys) else alignFrom xs w fuel (e + 1)

/-- `Align` of one row or column of a block: the exponent, the significands, and whether some value was not exact. -/
def align (xs : List Num) (t : Ty) (geom : Bool) (w : Nat) : Int × List Int × Bool :=
  if t.isInt then (if geom then -6 else 0, significands 0 xs, false)
  else
    let logs := xs.filterMap fun x => match x with
      | .fin _ m k => if m = 0 then none else some ((Nat.log2 m : Int) + k)
      | _ => none
    match logs with
    | [] => (0, xs.map fun _ => 0, false)
    | l :: ls =>
      let r := alignFrom xs w 4 ((ls.foldl max l) - (w - 2))
      (r.1, r.2, (xs.zip r.2).any fun p => (Num.cmp p.1 (.fin (p.2 < 0) p.2.natAbs r.1)) != 0)

/-- One row of A or column of B over a block: whether it holds a value that marks it (R223), the exponent, the scale
Ms·2^Es (R225), and its parts (R222). -/
structure Side where
  bad : Bool
  e : Int
  ms : Int
  es : Int
  parts : List (List Int)
  lost : Bool
  deriving DecidableEq, Repr

/-- What stands in the place of a scale byte for the scale 1 of padding (R125). -/
def unitScale : Nat := 256

/-- Ms and Es of a scale byte (R225), and of the scale 1 of padding, which no byte gives (R125). -/
def scaleOf (g : Option Geom) (c : Nat) : Int × Int :=
  if c = unitScale then (1, 0) else
  match g with
  | none => (1, 0)
  | some .mx32 => (1, (c : Int) - 127)
  | some .mx16 =>
    let e := c / 8 % 16
    let t := c % 8
    if e = 0 then ((t : Int), -9) else ((8 + t : Nat), (e : Int) - 10)

/-- The side of row or column x of a tile over block [k0, k0 + len) on a path. Where it holds a value that is not finite it feeds
zeros, of exponent 0 and exact, for its finite values too (R223; notes/assumptions/106.md, DESIGN CHOICE). -/
def sideOf (d : TDesc) (data : List Nat × List Nat) (path x k0 len : Nat) : Side :=
  let kt := depthOf d.ty
  let codes := (data.1.drop (x * kt + k0)).take len
  let sc := match d.geom with
    | some g => data.2.getD (x * (kt / blockSize g) + k0 / blockSize g) 0
    | none => 0
  let xs := codes.map (decodeTy d.ty)
  let bad := (xs.any fun v => v.isNaN || v.isInf) || d.geom.any fun g => sc != unitScale && (decodeScale g sc).isNaN
  let split := path == 3 && d.ty == .f32
  let w := if split then 25 else pathWidth path
  let r := if bad then (0, xs.map fun _ => 0, false) else align xs d.ty d.geom.isSome w
  let s := scaleOf d.geom sc
  ⟨bad, r.1, s.1, s.2,
    if split then [r.2.1.map fun y => y / 4096, r.2.1.map fun y => y % 4096] else [r.2.1], r.2.2⟩

/-! ### Steps (R219, R224, R226) -/

/-- The sums that a run of steps adds: S by cell, RA by row, RB by column, CK by row. -/
structure Sums where
  s : List Nat
  ra : List Nat
  rb : List Nat
  ck : List Int
  deriving DecidableEq, Repr

def squares (l : List Int) : Nat := l.foldl (fun a y => a + y.natAbs * y.natAbs) 0

/-- The sums of a run of steps, for the parts of the rows and of the columns that a pass takes. -/
def stepSums (as_ bs : List (List Int)) : Sums :=
  let cols := match bs with
    | [] => []
    | b :: rest => rest.foldl (fun t c => List.zipWith (· + ·) t c) b
  { s := as_.flatMap fun a => bs.map fun b => squares (List.zipWith (· + ·) a b),
    ra := as_.map squares, rb := bs.map squares,
    ck := as_.map fun a => (List.zipWith (· * ·) a cols).foldl (· + ·) 0 }

/-- Add to unsigned registers of n bits, which saturate (R224). -/
def addSat (n : Nat) (l d : List Nat) : List Nat × Bool :=
  let r := List.zipWith (· + ·) l d
  (r.map fun x => min x (2 ^ n - 1), r.any fun x => decide (2 ^ n ≤ x))

/-- The same for the signed check registers of 128 bits (DEDUCED: notes/assumptions/48.md). -/
def addSatI (l d : List Int) : List Int × Bool :=
  let hi : Int := 2 ^ 127 - 1
  let r := List.zipWith (· + ·) l d
  (r.map fun x => max (-hi) (min x hi), r.any fun x => decide (x < -hi) || decide (hi < x))

/-- The sum of the cells of row r. -/
def rowTotal (s : List Nat) (r : Nat) : Nat := ((s.drop (128 * r)).take 128).foldl (· + ·) 0

/-- The check of a row (R226, R240). -/
def rowChecks (s ra rb : List Nat) (ck : List Int) (r : Nat) : Bool :=
  (rowTotal s r : Int) == 128 * (ra.getD r 0 : Int) + ((rb.foldl (· + ·) 0 : Nat) : Int) + 2 * ck.getD r 0

/-- `(S − RA − RB)/2` of cell (r, j). -/
def halfDiff (s ra rb : List Nat) (r j : Nat) : Int :=
  ((s.getD (128 * r + j) 0 : Int) - (ra.getD r 0 : Int) - (rb.getD j 0 : Int)) / 2

/-- A bed's block registers, cleared (R224). -/
def TBed.freshBlock (b : TBed) : TBed :=
  { b with sb := b.sb.map fun _ => 0, rab := b.rab.map fun _ => 0, rbb := b.rbb.map fun _ => 0, ck := b.ck.map fun _ => 0 }

/-- `BlockClose` (R226): the bed after it and the flags; none where a row does not check. -/
def blockClose (b : TBed) (rows : Nat) (as_ bs : List Side) (wsh : Int) : Option (TBed × Flags) :=
  if !(List.range rows).all (rowChecks b.sb b.rab b.rbb b.ck) then none
  else
    let cells := (List.range rows).flatMap fun r => (List.range 128).map fun j =>
      match as_[r]?, bs[j]? with
      | some x, some y =>
        if b.mark.getD (128 * r + j) false then (0, 0)
        else (halfDiff b.sb b.rab b.rbb r j * x.ms * y.ms, x.e + y.e + x.es + y.es + wsh)
      | _, _ => ((0 : Int), (0 : Int))
    let live := cells.filter fun c => c.1 != 0
    let b : TBed := match b.e0v, live with
      | false, c :: cs => { b with e0 := (cs.foldl (fun m x => max m x.2) c.2) - 48, e0v := true }
      | _, _ => b
    let qs := cells.map fun c =>
      let q : Int := if c.1 < 0 then -(roundTies c.1.natAbs (c.2 - b.e0) : Int) else roundTies c.1.natAbs (c.2 - b.e0)
      (q, c.1 != 0 && decide (c.2 < b.e0) && c.1.natAbs % 2 ^ (b.e0 - c.2).toNat != 0)
    let hi : Int := 2 ^ 127 - 1
    let ps := List.zipWith (fun p q => p + q.1) b.p qs
    some (TBed.freshBlock { b with p := ps.map fun x => max (-hi) (min x hi) },
      (if qs.any Prod.snd then fUFL else 0) ||| (if ps.any fun x => decide (x < -hi) || decide (hi < x) then fOVF else 0))

/-- The passes of R222 as pairs of parts, with `Wsh`. -/
def passesOf (a b : Bool) : List (Nat × Nat × Int) :=
  match a, b with
  | true, true => [(0, 0, 24), (0, 1, 12), (1, 0, 12), (1, 1, 0)]
  | true, false => [(0, 0, 12), (1, 0, 0)]
  | false, true => [(0, 0, 12), (0, 1, 0)]
  | false, false => [(0, 0, 0)]

/-- Steps `o` to `o + n` of one pass of a block of `len` steps in a bed: none where the block does not check. -/
def passSteps (modeB : Bool) (rows len o n : Nat) (as_ bs : List Side) (p : Nat × Nat × Int) (b : TBed) :
    Option (TBed × Flags) :=
  let cut := fun (part : Nat) (x : Side) => ((x.parts.getD part []).drop o).take n
  let d := stepSums (as_.map (cut p.1)) (bs.map (cut p.2.1))
  if modeB then
    let b := if o = 0 then b.freshBlock else b
    let b := { b with sb := (addSat 40 b.sb d.s).1, rab := (addSat 39 b.rab d.ra).1, rbb := (addSat 39 b.rbb d.rb).1,
                      ck := (addSatI b.ck d.ck).1 }
    if o + n < len then some (b, 0) else blockClose b rows as_ bs p.2.2
  else
    let s := addSat 105 b.s d.s
    let ra := addSat 104 b.ra d.ra
    let rb := addSat 104 b.rb d.rb
    let ck := addSatI b.ck d.ck
    some ({ b with s := s.1, ra := ra.1, rb := rb.1, ck := ck.1 }, if s.2 || ra.2 || rb.2 || ck.2 then fOVF else 0)

/-- The passes of a block of a tile pair on a path. -/
def passesFor (path : Nat) (da db : TDesc) : List (Nat × Nat × Int) :=
  passesOf (path == 3 && da.ty == .f32) (path == 3 && db.ty == .f32)

/-- Steps `o` to `o + n` of pass `pass` of the block at `k0` of a `TSTEP` in a bed (R239): none where it does not check. -/
def blockStep (modeB : Bool) (rows path k0 len pass o n : Nat) (da db : TDesc) (ta tb : List Nat × List Nat) (b : TBed) :
    Option (TBed × Flags) :=
  let as_ := (List.range rows).map fun r => sideOf da ta path r k0 len
  let bs := (List.range 128).map fun j => sideOf db tb path j k0 len
  let f : Flags := (if as_.any Side.bad || bs.any Side.bad then fNV else 0) |||
    (if as_.any Side.lost || bs.any Side.lost then fALN else 0)
  let mark := (List.range rows).flatMap fun r => (List.range 128).map fun j =>
    b.mark.getD (128 * r + j) false || (as_[r]?.any Side.bad) || (bs[j]?.any Side.bad)
  let b := { b with mark, ea := as_.map Side.e, eb := bs.map Side.e }
  (passSteps modeB rows len o n as_ bs ((passesFor path da db).getD pass (0, 0, 0)) b).map fun x => (x.1, f ||| x.2)

/-- A bed's cells after `TZERO` (R238). -/
def TBed.zeroed (rows : Nat) (e0 : Int) (e0v : Bool) : TBed :=
  { s := List.replicate (128 * rows) 0, p := List.replicate (128 * rows) 0, sb := List.replicate (128 * rows) 0,
    ra := List.replicate rows 0, rb := List.replicate 128 0, ck := List.replicate rows 0, rab := List.replicate rows 0,
    rbb := List.replicate 128 0, ea := List.replicate rows 0, eb := List.replicate 128 0,
    mark := List.replicate (128 * rows) false, e0, e0v }

/-- The value of a cell that a drain takes (R227, R240). -/
def cellValue (modeB : Bool) (b : TBed) (r j : Nat) : Num :=
  if b.mark.getD (128 * r + j) false then .nan
  else
    let v := if modeB then (if b.e0v then b.p.getD (128 * r + j) 0 else 0) else halfDiff b.s b.ra b.rb r j
    .fin (v < 0) v.natAbs b.e0

namespace State

def setTrl (s : State) (t : Trl) : State := { s with me := { s.me with trl := t } }

def tslot (s : State) (n : Nat) : TSlot := s.me.trl.slots.getD n TSlot.empty

def setSlot (s : State) (n : Nat) (x : TSlot) : State :=
  s.setTrl { s.me.trl with slots := s.me.trl.slots.mapIdx fun k y => if k = n then x else y }

/-! ### Rows and slots (R233 to R235) -/

/-- Streams other than the moving one that stand on a bed of its span. -/
def trlPeers (s : State) : List Trl :=
  (s.bands.filter fun b => b.status != .free && b.beds.any fun x => s.me.beds.contains x).map Band.trl

/-- Stopped streams keep their operand slots, not their rows (notes/assumptions/30.md, DEDUCED). -/
def trlStopped (s : State) : List Trl :=
  (s.stopped.filter fun x => x.band.beds.any fun y => s.me.beds.contains y).map fun x => x.band.trl

/-- Whether array rows [b, b + g) are free in every bed of the span. -/
def rowsFree (s : State) (b g : Nat) : Bool :=
  s.trlPeers.all fun t => !t.att || t.rows == 0 || decide (b + g ≤ t.start) || decide (t.start + t.rows ≤ b)

/-- The lowest base that fits g rows. -/
def rowBase (s : State) (g : Nat) : Option Nat :=
  [0, 32, 64, 96].find? fun b => decide (b + g ≤ 128) && s.rowsFree b g

/-- The grant for r rows: the largest multiple of 32 that fits (R233). -/
def grantRows (s : State) (r : Nat) : Nat × Nat :=
  (([128, 96, 64, 32].filter fun g => g ≤ r).findSome? fun g => (s.rowBase g).map fun b => (g, b)).getD (0, 0)

/-- The lowest slot that is unclaimed in every bed of the span. -/
def freeSlot (s : State) : Option Nat :=
  (List.range 16).find? fun n =>
    (s.me.trl :: s.trlPeers ++ s.trlStopped).all fun t => !(t.slots.getD n TSlot.empty).claimed

/-- The rows start as after `TZERO.d 0`. -/
def attached (s : State) (g b : Nat) : State :=
  s.setTrl { s.me.trl with
    att := true, rows := g, start := b, modeB := false, nextB := false, path := 0, pass := 0, knext := 0,
    beds := s.me.beds.map fun _ => TBed.zeroed g 0 true }

/-- The stream leaves the Trellis (R234). -/
def detach (s : State) : State := s.setTrl Trl.empty

/-! ### Data faults of a Trellis command (R244) -/

/-- `TCAUSE` of a place that a loader reads. -/
def loaderCause (s : State) (l : Loc) : Option Nat :=
  let ks := l.keys ++ l.scale.toList
  match ks.findSome? (s.placeCause l) with
  | some c => some (c - 31)
  | none =>
    if ks.any fun k => !s.granted 50 .read (s.route k) || s.isPoisoned k then some 8
    else if ks.any fun k => isNear k && s.isUE k then some 4
    else none

/-- A loader reads places: through the codes of their sectors and words, counting each refusal. -/
def loaderRead (s : State) (ls : List Loc) : State :=
  let ks := ls.flatMap fun l => l.keys ++ l.scale.toList
  let ok := ks.filter fun k => s.granted 50 .read (s.route k)
  let s := s.refuseEach 50 64 (ks.filter fun k => !s.granted 50 .read (s.route k))
  (s.eccRead ok).nearRead (ok.filter isNear)

def locPat (s : State) (w : Nat) (l : Loc) : Nat := ofBytesLE (l.keys.map s.byteAt) / 2 ^ l.bit % 2 ^ w

/-! ### Loads (R236) -/

/-- The elements of a tile by bed, row and step: none where padded; with the causes that the probe found. -/
def tilePlaces (s : State) (r : TRec) (coord : Word) : List (List (Option Loc)) × List Cand :=
  let kt := depthOf r.ty
  let c0 := coord.toNat % 2 ^ 32
  let c1 := coord.toNat / 2 ^ 32
  let all := (List.range s.me.beds.length).map fun (b : Nat) =>
    (List.range 128).flatMap fun x => (List.range kt).map fun k =>
      let idx := [c0 * kt + k, c1 * 128 + x, 0, 0, 0, 0, 0, 0]
      if r.has idx then
        let p := r.pos idx b
        let e := c0 * kt + k + r.sizes.getD 0 1 * (c1 * 128 + x)
        some (if p.byte < 0 ∨ isNearVa p.byte.toNat = false then .error (recCand cFORMAT r.addr 0)
          else s.recPlace .read false opRecord 0 r e p)
      else none
  (all.map fun l => l.map fun x => match x with
      | some (.ok l) => some l
      | _ => none,
   all.flatMap fun l => l.filterMap fun x => match x with
      | some (.error c) => some c
      | _ => none)

/-- The codes and scale bytes of one bed's tile, as they stand. -/
def tileData (s : State) (ty : Ty) (geom : Option Geom) (pad : Nat) (ls : List (Option Loc)) : List Nat × List Nat :=
  let kt := depthOf ty
  (ls.map fun l => match l with
      | some l => s.locPat ty.width l
      | none => pad % 2 ^ ty.width,
   match geom with
   | none => []
   | some g => (List.range (128 * (kt / blockSize g))).map fun n =>
      match (ls.getD (n * blockSize g) none).bind Loc.scale with
      | some k => (s.byteAt k).toNat
      | none => unitScale)

/-- Load a tile into slot n: its data, or the data fault that leaves the slot empty (R244). -/
def loadTile (s : State) (n : Nat) (d : TDesc) (pad : Nat) (locs : List (List (Option Loc))) : State × Option Nat :=
  let flat := locs.flatMap fun l => l.filterMap id
  let s := s.loaderRead flat
  let x := s.tslot n
  match flat.findSome? s.loaderCause with
  | some c => (s.setSlot n { x with lost := false, tile := none, data := [] }, some c)
  | none =>
    (s.setSlot n { x with lost := false, tile := some d, data := locs.map (s.tileData d.ty d.geom pad) }, none)

/-! ### The image (R245, R246) -/

/-- The bytes of an image for a stream with `rows` rows. -/
def imageSize (rows : Nat) : Nat := 5120 + 4160 * rows

def padTo (n : Nat) (l : List Byte) : List Byte := l ++ List.replicate (n - l.length) 0

/-- The image of the bed at span position b. -/
def imageOf (t : Trl) (b : TBed) : List Byte :=
  let slot := fun (x : TSlot) => padTo 48 (match x.tile with
    | some d => bytesLE 8 d.recAddr.toNat ++ bytesLE 8 d.coord.toNat ++
        bytesLE 1 (bitOf d.roleB) ++ bytesLE 1 (tyFCode (some d.ty)) ++ bytesLE 1 (geomFCode d.geom)
    | none => [])
  let tiles := (t.slots.zipIdx.filter fun x => x.1.tile.isSome).foldl (fun n x => n + 2 ^ x.2) 0
  let head := padTo 1024 ([0x54, 0x52, 0x4C, 0x31] ++ bytesLE 1 t.rows ++ bytesLE 1 (bitOf t.modeB) ++ bytesLE 1 (bitOf b.e0v) ++
    bytesLE 1 t.path ++ bytesLE 2 (wrap 16 b.e0) ++ bytesLE 2 t.knext ++ bytesLE 1 t.pass ++ bytesLE 1 t.tsr ++
    bytesLE 2 tiles ++ t.slots.flatMap slot)
  let cols := (List.range 128).flatMap fun j =>
    padTo 32 (bytesLE 16 (b.rb.getD j 0) ++ bytesLE 8 (b.rbb.getD j 0) ++ bytesLE 2 (wrap 16 (b.eb.getD j 0)))
  let rows := (List.range t.rows).flatMap fun r =>
    padTo 64 (bytesLE 16 (b.ra.getD r 0) ++ bytesLE 16 (wrap 128 (b.ck.getD r 0)) ++ bytesLE 8 (b.rab.getD r 0) ++
      bytesLE 2 (wrap 16 (b.ea.getD r 0))) ++
    (List.range 128).flatMap fun j =>
      let k := 128 * r + j
      padTo 32 (bytesLE 16 (if t.modeB then wrap 128 (b.p.getD k 0) else b.s.getD k 0) ++ bytesLE 5 (b.sb.getD k 0) ++
        bytesLE 1 (bitOf (b.mark.getD k false)))
  head ++ cols ++ rows

/-- Cut a list into k pieces of n. -/
def pieces {α : Type} (n : Nat) : Nat → List α → List (List α)
  | 0, _ => []
  | k + 1, l => l.take n :: pieces n k (l.drop n)

/-- A field of a piece. -/
def pieceNat (l : List Byte) (off n : Nat) : Nat := ofBytesLE ((l.drop off).take n)

/-- The bed that an image describes. -/
def bedOfImage (rows : Nat) (im : List Byte) : TBed :=
  let modeB := pieceNat im 5 1 == 1
  let cols := pieces 32 128 (im.drop 1024)
  let rws := pieces 4160 rows (im.drop 5120)
  let cells := rws.flatMap fun r => pieces 32 128 (r.drop 64)
  { s := cells.map fun c => if modeB then 0 else pieceNat c 0 16 % 2 ^ 105,
    p := cells.map fun c => if modeB then signed 128 (pieceNat c 0 16) else 0,
    sb := cells.map fun c => pieceNat c 16 5,
    ra := rws.map fun r => pieceNat r 0 16 % 2 ^ 104, rb := cols.map fun c => pieceNat c 0 16 % 2 ^ 104,
    ck := rws.map fun r => signed 128 (pieceNat r 16 16), rab := rws.map fun r => pieceNat r 32 8 % 2 ^ 39,
    rbb := cols.map fun c => pieceNat c 16 8 % 2 ^ 39, ea := rws.map fun r => signed 16 (pieceNat r 40 2),
    eb := cols.map fun c => signed 16 (pieceNat c 24 2), mark := cells.map fun c => bit (pieceNat c 21 1) 0,
    e0 := signed 16 (pieceNat im 8 2), e0v := pieceNat im 6 1 % 2 == 1 }

/-- The slots that an image marks as holding a tile, with what it records of each. -/
def imageSlots (im : List Byte) : List (Nat × TDesc) :=
  let mask := pieceNat im 14 2
  (List.range 16).filterMap fun n =>
    if bit mask n then
      let o := 16 + 48 * n
      some (n, ⟨pieceNat im (o + 16) 1 % 2 == 1, (((tyFOf (pieceNat im (o + 17) 1)).join).getD .i8), geomOf (pieceNat im (o + 18) 1),
        BitVec.ofNat 64 (pieceNat im o 8), BitVec.ofNat 64 (pieceNat im (o + 8) 8)⟩)
    else none

/-- Whether the image of every bed at address v may be written with respect to bindings (R267). -/
def imageHeld (s : State) (v n : Nat) : Bool :=
  (List.range s.me.beds.length).all fun b => (List.range ((imageSize s.me.trl.rows + 127) / 128)).all fun q =>
    s.heldOk (v + q / 64 * 128 * n + (64 * b + q % 64) * 128) (min 128 (imageSize s.me.trl.rows - 128 * q))

/-- The keys of the image of every bed in a frame at offset o0 (R246). -/
def imageKeys (s : State) (f : Frame) (o0 : Nat) : List (List Nat) :=
  let n := 64 * s.me.beds.length
  (List.range s.me.beds.length).map fun b => (List.range (imageSize s.me.trl.rows)).map fun x =>
    let p := s.frameAt f (o0 + x / 8192 * 128 * n + (64 * b + x / 128 % 64) * 128 + x % 128)
    nearKey p.1 p.2

/-- The frame and offset of an image, or the cause (R246), in the order of R349 where several hold. -/
def imagePlace (s : State) (v : Word) (write : Bool) : Except Nat (List (List Nat)) :=
  match s.namedFrame v with
  | none => .error cFORMAT
  | some f =>
    let n := 64 * s.me.beds.length
    let o := v.toNat % 2 ^ 32
    if o % (128 * n) ≠ 0 then .error cALIGN
    else if f.run || f.spane != s.me.spane || f.ty.isSome || f.geom.isSome then .error cFORMAT
    else if f.size < o + (imageSize s.me.trl.rows + 8191) / 8192 * 128 * n then .error cNEARRANGE
    else if write && !s.imageHeld v.toNat n then .error cUNHELD
    else .ok (s.imageKeys f o)

/-- `TCAUSE` of the bytes of an image, read or written. -/
def imageCause (s : State) (keys : List Nat) (write : Bool) : Option Nat :=
  keys.findSome? fun k =>
    match s.runnerNear k with
    | some c => some (c - 31)
    | none =>
      if !s.granted 50 (if write then .write else .read) k then some 8
      else if !write && s.isUE k then some 4
      else none

/-- The refused accesses to an image are counted (R373). -/
def imageRefused (s : State) (keys : List Nat) (write : Bool) : State :=
  s.refuseEach 50 64 (keys.filter fun k => (s.runnerNear k).isNone && !s.granted 50 (if write then .write else .read) k)

/-- The slots that a queued load will fill. -/
def loading (s : State) : List Nat :=
  s.me.trl.queue.filterMap fun c => match c.instr with
    | some (.tlda _) | some (.tldb _) => some (c.vals[0]).toNat
    | _ => none

/-- Whether a queued `TZERO` will set the mode. -/
def zeroing (s : State) : Bool :=
  s.me.trl.queue.any fun c => match c.instr with
    | some (.tzero _) => true
    | _ => false

/-- What the issue checks see of a slot from now on, unless a queued load will fill it. -/
def setNext (s : State) (n : Nat) (d : TDesc) : State :=
  if s.loading.contains n then s else s.setSlot n { (s.tslot n) with next := some d }

/-- Reload a slot from the record that an image names, as both stand now (R247). Where a check before issue would refuse the load
the slot is lost, as by a data fault (notes/assumptions/107.md, DESIGN CHOICE). -/
def reloadSlot (s : State) (n : Nat) (d : TDesc) : State :=
  let x := s.tslot n
  let lose := fun (s : State) => (s.setSlot n { (s.tslot n) with lost := true, tile := none, data := [] }).setNext n d
  if !x.claimed then lose s
  else
    let r := s.readRecords [d.recAddr.toNat]
    match r.2 with
    | .ok [(rc, _)] =>
      let pl := r.1.tilePlaces rc d.coord
      if rc.rank ≠ 2 ∨ (pathOf rc.ty).isNone = true ∨ pl.2.isEmpty = false then lose r.1
      else
        let d' : TDesc := ⟨d.roleB, rc.ty, rc.geom, d.recAddr, d.coord⟩
        let t := r.1.loadTile n d' rc.pad pl.1
        match t.2 with
        | some _ => lose t.1
        | none => t.1.setNext n d'
    | _ => lose r.1

/-- Replace the stream's Trellis state by images, one for each bed, and reload the slots (R247). A slot that was lost and that the
image does not mark holds nothing and is no longer lost (notes/assumptions/108.md, DESIGN CHOICE). -/
def restoreImages (s : State) (ims : List (List Byte)) : State :=
  match ims with
  | [] => s
  | im :: _ =>
    let t := s.me.trl
    let modeB := pieceNat im 5 1 == 1
    let busy := s.loading
    let s := s.setTrl { t with
      modeB, nextB := if s.zeroing then t.nextB else modeB, path := pieceNat im 7 1 % 4,
      knext := pieceNat im 10 2, pass := pieceNat im 12 1 % 4,
      tsr := pieceNat im 13 1 % 128, beds := ims.map (bedOfImage t.rows),
      slots := t.slots.mapIdx fun n x =>
        { x with tile := none, next := if busy.contains n then x.next else none, lost := false, data := [] } }
    (imageSlots im).foldl (fun s p => s.reloadSlot p.1 p.2) s

/-! ### Performing a queued command -/

/-- `CHECK` of a drain or a block (R241, R348). -/
def checkEvent (s : State) (kind : Nat) (bed : Nat) (addr : Word) : State :=
  { s with sysPend := s.sysPend ++ [⟨cCHECK, addr,
      BitVec.ofNat 64 (packFields [(7, bed), (1, 0), (2, kind), (6, 0), (16, s.me.ctx), (8, s.me.spane)])⟩] }

/-- What a turn of a command leaves: the state, the flags, its failure, and whether it has still something to do (R248). -/
structure TTurn where
  s : State
  flags : Flags
  failed : Option Nat
  more : Bool

/-- A command that has done what it does. -/
def tDone (s : State) (failed : Option Nat) : TTurn := ⟨s, 0, failed, false⟩

/-- The steps of a `TSTEP` of `total` steps up to the end of the running pass of a block, `left` at most: what is left. -/
def stepChunk (c : TCmd) (da db : TDesc) (ta tb : List (List Nat × List Nat)) (total len : Nat) (r : TTurn × Nat) :
    TTurn × Nat :=
  let t := r.1.s.me.trl
  if r.1.failed.isSome || r.2 = 0 || total ≤ t.knext then r
  else
    let k0 := t.knext / len * len
    let o := t.knext - k0
    let n := min r.2 (len - o)
    let beds := t.beds.mapIdx fun i b =>
      blockStep t.modeB t.rows t.path k0 len t.pass o n da db (ta.getD i ([], [])) (tb.getD i ([], [])) b
    match beds.findIdx? Option.isNone with
    | some i => (⟨r.1.s.checkEvent 3 (r.1.s.me.beds.getD i 0) c.addr, r.1.flags, some 6, false⟩, 0)
    | none =>
      let next : Nat × Nat := if o + n < len then (t.knext + n, t.pass)
        else if t.pass + 1 < (passesFor t.path da db).length then (k0, t.pass + 1) else (k0 + len, 0)
      ({ r.1 with
          s := r.1.s.setTrl { t with beds := beds.filterMap fun x => x.map Prod.fst, knext := next.1, pass := next.2 },
          flags := beds.foldl (fun f x => match x with
            | some y => f ||| y.2
            | none => f) r.1.flags }, r.2 - n)

/-- `TSTEP` (R239), from `KNEXT` and `PASS` on, for at most `n` steps. -/
def runStep (s : State) (c : TCmd) (n : Nat) : TTurn :=
  let k := (c.vals[2]).toNat
  let a := s.tslot (c.vals[0]).toNat
  let b := s.tslot (c.vals[1]).toNat
  if a.lost || b.lost then tDone s (some 5)
  else
    match a.tile, b.tile with
    | some da, some db =>
      let path := max ((pathOf da.ty).getD 0) ((pathOf db.ty).getD 0)
      let len := if da.geom = some .mx16 ∨ db.geom = some .mx16 then 16 else 32
      let s := s.setTrl { s.me.trl with path }
      let s := if c.begun then s else s.setTrl { s.me.trl with pass := 0, knext := 0 }
      if s.me.trl.rows = 0 then tDone s none
      else
        let r := ((List.range (4 * (k / len) + 1)).foldl (fun r _ => stepChunk c da db a.data b.data k len r)
          (tDone s none, n)).1
        if r.failed.isNone && decide (r.s.me.trl.knext < k) then { r with more := true }
        else { r with s := r.s.setTrl { r.s.me.trl with knext := 0, pass := 0 } }
    | _, _ => tDone s none

/-- A write of a drain by the owner of its destination (R158, R240, R373). -/
def drainCause (s : State) (l : Loc) : Option Nat :=
  match l.keys.findSome? (s.placeCause l) with
  | some c => some (c - 31)
  | none => if l.keys.any fun k => !s.granted 48 .write (s.route k) then some 8 else none

def writePlaces (s : State) (cells : List (Nat × Byte)) : State :=
  let near := cells.filter fun c => isNear c.1
  ((s.putMem near).nearWritten (near.map Prod.fst)).writeCells (cells.filter fun c => !isNear c.1) false

/-- One row of a drain over every bed: the state, the flags, the failure. -/
def drainRow (s : State) (c : TCmd) (r : Nat) : State × Flags × Option Nat :=
  let t := s.me.trl
  match (t.beds.zipIdx).find? fun b => !t.modeB && !rowChecks b.1.s b.1.ra b.1.rb b.1.ck r with
  | some b => (s.checkEvent 2 (s.me.beds.getD b.2 0) c.addr, 0, some 6)
  | none =>
    let s := s.loaderRead ((c.rowLocs.drop r).take 1)
    match ((c.rowLocs.drop r).take 1).findSome? s.loaderCause with
    | some x => (s, 0, some x)
    | none =>
      let rs := ((c.rowLocs.drop r).head?).map fun l => decodeTy .f32 (s.locPat 32 l)
      let places := c.locs.map fun l => (l.drop (128 * r)).take 128
      match (places.flatMap fun l => l.filterMap id).findSome? s.drainCause with
      | some x =>
        ((if x = 8 then s.refuseEach 48 64 (((places.flatMap fun l => l.filterMap id).flatMap Loc.keys).filter fun k =>
            !s.granted 48 .write (s.route k)) else s), 0, some x)
      | none =>
        let out := (t.beds.zip places).flatMap fun b => (b.2.zipIdx).filterMap fun p =>
          p.1.map fun l =>
            let v := cellValue t.modeB b.1 r p.2
            let v1 := match rs with
              | some x => Num.mul v x
              | none => (v, 0)
            let v2 := match (c.colLocs.drop p.2).head? with
              | some l => Num.mul v1.1 (decodeTy .f32 (s.locPat 32 l))
              | none => (v1.1, 0)
            let e := encodeF c.ty v2.1.exact ⟨c.rm, c.sat, srHash c.seed (c.seq % 2 ^ 32) (r * 128 + p.2)⟩
            (l, e.1, v1.2 ||| v2.2 ||| e.2)
        let cells := out.flatMap fun o => o.1.keys.zip (bytesLE o.1.keys.length o.2.1)
        (s.writePlaces cells, out.foldl (fun f o => f ||| o.2.2) 0, none)

/-- One more row of a drain: `TSR` goes on behind it unless it fails. -/
def drainNext (c : TCmd) (r : TTurn) : TTurn :=
  if r.failed.isSome then r
  else
    let t := r.s.me.trl.tsr
    let x := r.s.drainRow c t
    match x.2.2 with
    | some e => ⟨x.1, r.flags ||| x.2.1, some e, false⟩
    | none => ⟨x.1.setTrl { x.1.me.trl with tsr := t + 1 }, r.flags ||| x.2.1, none, false⟩

/-- `TDRAIN` (R240), from `TSR` on, for at most `n` rows. -/
def runDrain (s : State) (c : TCmd) (n : Nat) : TTurn :=
  let s := s.loaderRead c.colLocs
  match c.colLocs.findSome? s.loaderCause with
  | some x => tDone s (some x)
  | none =>
    let r := (List.range (min n (s.me.trl.rows - s.me.trl.tsr))).foldl (fun r _ => drainNext c r) (tDone s none)
    if r.failed.isSome then r
    else if r.s.me.trl.tsr < r.s.me.trl.rows then { r with more := true }
    else { r with s := r.s.setTrl { r.s.me.trl with tsr := 0 } }

/-- `TSAVE` -/
def runSave (s : State) (c : TCmd) : State × Option Nat :=
  match c.image.flatten.findSome? fun k => s.imageCause [k] true with
  | some x => (if x = 8 then s.imageRefused c.image.flatten true else s, some x)
  | none =>
    -- a stream that is not attached has no rows (R234)
    let beds := if s.me.trl.att then s.me.trl.beds else c.image.map fun _ => TBed.zeroed 0 0 false
    let cells := (c.image.zip beds).flatMap fun p => p.1.zip (imageOf s.me.trl p.2)
    ((s.putMem cells).nearWritten (cells.map Prod.fst), none)

/-- `TREST` -/
def runRest (s : State) (c : TCmd) : State × Option Nat :=
  let s := s.nearRead c.image.flatten
  match c.image.flatten.findSome? fun k => s.imageCause [k] false with
  | some x => (if x = 8 then s.imageRefused c.image.flatten false else s, some x)
  | none =>
    let ims := c.image.map fun l => l.map s.byteAt
    if ims.any fun im => im.take 4 != [0x54, 0x52, 0x4C, 0x31] || pieceNat im 4 1 != s.me.trl.rows then (s, some 7)
    else (s.restoreImages ims, none)

/-- The effect of a command (R235 to R247): whole, or `n` more steps of a `TSTEP` or rows of a `TDRAIN`. -/
def performT (s : State) (c : TCmd) (n : Nat) : TTurn :=
  let load := fun (roleB : Bool) =>
    let d : TDesc := ⟨roleB, c.ty, geomOf (recField c.record 10 1), c.vals[1], c.vals[2]⟩
    let r := s.loadTile (c.vals[0]).toNat d (recField c.record 16 8) c.locs
    tDone r.1 r.2
  match c.instr with
  | some (.trel _) => tDone (s.setSlot (c.vals[0]).toNat TSlot.empty) none
  | some (.tlda _) => load false
  | some (.tldb _) => load true
  | some (.tzero x) =>
    let e := match x.set with
      | some (b, v) => (b, v.toInt, true)
      | none => (true, 0, false)
    if s.me.trl.att then
      tDone (s.setTrl { s.me.trl with modeB := e.1, beds := s.me.beds.map fun _ => TBed.zeroed s.me.trl.rows e.2.1 e.2.2 }) none
    else tDone s none
  | some (.tstep _) => s.runStep c n
  | some (.tdrain _) => s.runDrain c n
  | some (.tsave _) => let r := s.runSave c; tDone r.1 r.2
  | some (.trest _) => let r := s.runRest c; tDone r.1 r.2
  | _ => tDone s none

/-- What the issue checks see of the slots once no queued command will change them: what they hold. -/
def settleSlots (s : State) : State :=
  let busy := s.loading
  s.setTrl { s.me.trl with
    nextB := if s.zeroing then s.me.trl.nextB else s.me.trl.modeB,
    slots := s.me.trl.slots.mapIdx fun n x => if busy.contains n || x.lost then x else { x with next := x.tile } }

/-- A command's turn of at most `n` steps or rows: it has its effect unless a failure awaits `TSTAT` (R244). As it
completes, its flags go to `FPSR` (R242) and it leaves the queue. -/
def turnT (n : Nat) (s : State) (c : TCmd) : State :=
  let r : TTurn := match c.arrival with
    | some (o, g) => tDone (s.arrivePerform o g) none
    | none => if s.me.trl.failed.isSome then tDone s none else s.performT c n
  let f := c.flags ||| r.flags
  let t := r.s.me.trl
  if r.more then
    r.s.setTrl { t with queue := t.queue.map fun x => if x.id = c.id then { x with begun := true, flags := f } else x }
  else
    ((r.s.orFlags f).setTrl { t with
      queue := t.queue.filter fun x => x.id != c.id,
      failed := match r.failed with
        | some x => some (BitVec.ofNat 64 (x * 2 ^ 60 + c.addr.toNat % 2 ^ 55 / 16 * 16))
        | none => t.failed }).settleSlots

/-- A whole command: no command has as many steps or rows. -/
def runT (s : State) (c : TCmd) : State := turnT (2 ^ 16) s c

/-- Every Trellis command of the stream completes, in issue order. -/
def drainTrellis (s : State) : State := s.me.trl.queue.foldl runT s

/-! ### Issue -/

/-- Put a command into the queue, which holds 16: a full one first completes its oldest (R242). Unless the turn holds
work back, it is performed in the same step. -/
def queueT (s : State) (c : TCmd) : State :=
  let s : State := if 16 ≤ s.me.trl.queue.length then (match s.me.trl.queue.head? with
    | some d => s.runT d
    | none => s) else s
  let s : State := { s with nextOrder := s.nextOrder + 1 }
  let s := s.setTrl { s.me.trl with queue := s.me.trl.queue ++ [c] }
  if s.holdBack then s else s.drainTrellis

/-- A command with the values of its registers and its settings (R128). -/
def tcmd (s : State) (i : Instr) (a b c d : Word) : TCmd :=
  { id := s.nextOrder, instr := some i, arrival := none, addr := s.me.issueAddr, seq := s.me.seq,
    vals := #v[a, b, c, d], rm := s.rmNow, sat := s.satNow, seed := s.seedNow, record := [], ty := .i8, locs := [],
    rowLocs := [], colLocs := [], image := [], begun := false, flags := 0 }

/-- A queued form: what its probe settles, or its cause; then the seal and the queue (R242). -/
def queued (s : State) (k : State → State × Except FaultRec TCmd) : Out :=
  s.afterAll fun s =>
    let r := k s
    match r.2 with
    | .error f => .next (if f.cls = 1 then r.1.raiseData f else r.1.raise f)
    | .ok c => .next ((r.1.sealStrip.performed.queueT c).retire)

/-- Whether the stream is attached and claims a slot, as the commands issued so far leave it (R236)
(DEDUCED: notes/assumptions/49.md). -/
def slotMine (s : State) (v : Word) : Bool :=
  s.me.trl.att && decide (v.toNat < 16) && (s.tslot v.toNat).claimed &&
    s.me.trl.queue.all fun c => (match c.instr with
      | some (.trel _) => c.vals[0] != v
      | _ => true)

def protSlot (v : Word) : FaultRec := preFault cPROT v.toNat 0 opNone

/-- The places of a load (R125, R236), or the cause of its probe. -/
def loadPlaces (s : State) (c : TCmd) (rc : TRec) : Except FaultRec TCmd :=
  let pl := s.tilePlaces rc c.vals[2]
  match firstCand pl.2 with
  | some f => .error f.fault
  | none => .ok { c with locs := pl.1 }

/-- A load (R236). -/
def planLoad (s : State) (i : Instr) (roleB : Bool) (a b c : Word) : State × Except FaultRec TCmd :=
  if !s.slotMine a then (s, .error (protSlot a))
  else
    let r := s.readRecords [b.toNat]
    match r.2 with
    | .error f => (r.1, .error f)
    | .ok [(rc, bs)] =>
      if rc.rank ≠ 2 ∨ (pathOf rc.ty).isNone = true then (r.1, .error (preFault cFORMAT b.toNat 0 opRecord))
      else
        (match r.1.loadPlaces { r.1.tcmd i a b c 0 with record := bs, ty := rc.ty } rc with
        | .error f => (r.1, .error f)
        | .ok x => (r.1.setSlot a.toNat { (r.1.tslot a.toNat) with next := some ⟨roleB, rc.ty, rc.geom, b, c⟩ }, .ok x))
    | .ok _ => (r.1, .error (preFault cFORMAT b.toNat 0 opRecord))

/-- A cause of a `TSTEP` that names no address (R239, R348; notes/assumptions/11.md, DESIGN CHOICE). -/
def stepFormat (s : State) : State × Except FaultRec TCmd :=
  ({ s with nextFree := s.nextFree + 1 }, .error { preFault cFORMAT 0 0 opNone with addr := Config.freeAddr s.nextFree })

/-- `TSTEP` (R239). While a `TREST` waits before it, the mode and the tiles of before the restore are what it is checked against
(notes/assumptions/109.md, DESIGN CHOICE). -/
def planStep (s : State) (i : Instr) (a b c : Word) : State × Except FaultRec TCmd :=
  if !s.slotMine a then (s, .error (protSlot a))
  else if !s.slotMine b then (s, .error (protSlot b))
  else
    match (s.tslot a.toNat).next, (s.tslot b.toNat).next with
    | some da, some db =>
      let k := c.toNat
      if da.roleB || !db.roleB || k % 32 != 0 || decide (min (depthOf da.ty) (depthOf db.ty) < k) ||
          (!s.me.trl.nextB && (!da.ty.isInt || !db.ty.isInt || da.geom.isSome || db.geom.isSome)) then s.stepFormat
      else (s, .ok (s.tcmd i a b c 0))
    | _, _ => s.stepFormat

/-- A vector of `f32` scales: its places, or its causes (R240). -/
def scalePlaces (s : State) (v : Word) (n opnd rank : Nat) : List Loc × List Cand :=
  if v = 0 then ([], [])
  else
    let rs := (List.range n).map fun k =>
      let a := v.toNat + 4 * k
      let bad := fun c => (.error { elemCand c a k opnd with opRank := rank } : Except Cand Loc)
      if a % 4 ≠ 0 then bad cALIGN
      else
        match s.locate .read false a 4 with
        | .error c => bad c
        | .ok (w, keys) =>
          if (w.ty.isSome && w.ty != some .f32) || w.geom.isSome then bad cFORMAT
          else .ok ⟨keys, 0, a, s.ownerOf w a, w.near, w.slot, none⟩
    (rs.filterMap fun r => match r with
        | .ok l => some l
        | .error _ => none,
     rs.filterMap fun r => match r with
        | .ok _ => none
        | .error c => some c)

/-- The place of drained element `e`, in the shadow of an open region (R144, R242, R279), or the cause that the write meets
there (notes/assumptions/85.md, DESIGN CHOICE). -/
def shadowed (s : State) (e : Nat) (l : Loc) : Except Cand Loc :=
  let va := s.redirect l.va
  if va = l.va then .ok l
  else
    match s.locate .write false va l.keys.length with
    | .ok (w, keys) => .ok { l with keys, va, plot := s.ownerOf w va, near := w.near, slot := w.slot }
    | .error c => .error (elemCand c va e opRecord)

/-- The row at which a drain will begin: `TSR`, or the first that it may be where a queued command will set it. -/
def drainStart (s : State) : Nat :=
  if s.me.trl.queue.any fun c => (match c.instr with
    | some (.tdrain _) | some (.trest _) => true
    | _ => false) then 0 else s.me.trl.tsr

/-- The places of a drain that begins at row `start`, of its rows and of its scales, or the cause of its probe (R240). -/
def drainPlaces (s : State) (c : TCmd) (rc : TRec) (start : Nat) : Except FaultRec TCmd :=
  let rows := s.me.trl.rows
  let c0 := (c.vals[3]).toNat % 2 ^ 32
  let c1 := (c.vals[3]).toNat / 2 ^ 32
  let all := (List.range s.me.beds.length).map fun (bd : Nat) =>
    (List.range rows).flatMap fun r => (List.range 128).map fun j =>
      let idx := [c0 * 128 + j, c1 * rows + r, 0, 0, 0, 0, 0, 0]
      let e := c0 * 128 + j + rc.sizes.getD 0 1 * (c1 * rows + r)
      if decide (start ≤ r) && rc.has idx then
        some ((s.recPlace .write true opRecord 0 rc e (rc.pos idx bd)).bind (s.shadowed e))
      else none
  let cands := all.flatMap fun l => l.filterMap fun x => match x with
    | some (.error c) => some { c with opRank := 0 }
    | _ => none
  let rl := s.scalePlaces c.vals[1] rows opA 1
  let cl := s.scalePlaces c.vals[2] 128 opB 2
  match firstCand (cands ++ rl.2 ++ cl.2) with
  | some f => .error f.fault
  | none =>
    .ok { c with
      rowLocs := rl.1, colLocs := cl.1,
      locs := all.map fun l => l.map fun x => match x with
        | some (.ok l) => some l
        | _ => none }

/-- `TDRAIN` (R240). -/
def planDrain (s : State) (i : Instr) (a b c d : Word) : State × Except FaultRec TCmd :=
  let r := s.readRecords [a.toNat]
  match r.2 with
  | .error f => (r.1, .error f)
  | .ok [(rc, bs)] =>
    let s := r.1
    if rc.rank ≠ 2 ∨ rc.geom.isSome = true ∨ (rc.ty ≠ .f32 ∧ rc.ty ≠ .bf16 ∧ rc.ty ≠ .f16) then
      (s, .error (preFault cFORMAT a.toNat 0 opRecord))
    else (s, s.drainPlaces { s.tcmd i a b c d with record := bs, ty := rc.ty } rc s.drainStart)
  | .ok _ => (r.1, .error (preFault cFORMAT a.toNat 0 opRecord))

/-- The places of `TSAVE` or `TREST` (R246), or the cause of its probe. -/
def imagePlaces (s : State) (c : TCmd) (write : Bool) : Except FaultRec TCmd :=
  match s.imagePlace c.vals[0] write with
  | .error x => .error (preFault x (c.vals[0]).toNat 0 opNone)
  | .ok ks => .ok { c with image := ks }

/-- `TSAVE`, `TREST` (R246). -/
def planImage (s : State) (i : Instr) (v : Word) (write : Bool) : State × Except FaultRec TCmd :=
  (s, s.imagePlaces (s.tcmd i v 0 0 0) write)

/-- A stopped command that goes on is probed again, with the record that it captured at issue, and uses the new capture
(R99, R157). -/
def reprobeT (s : State) (c : TCmd) (start : Nat) : Except FaultRec TCmd :=
  match c.instr with
  | some (.tlda _) | some (.tldb _) => s.loadPlaces c (parseRecord (c.vals[1]).toNat c.record c.ty)
  | some (.tdrain _) => s.drainPlaces c (parseRecord (c.vals[0]).toNat c.record c.ty) start
  | some (.tsave _) => s.imagePlaces c true
  | some (.trest _) => s.imagePlaces c false
  | _ => .ok c

end State

/-! ### The forms (R232) -/

/-- `TATT` (R233). -/
def execTatt (x : EAD) (s : State) : Out :=
  s.afterAll fun s =>
    if s.me.trl.att then .next (s.finish x.d (-1))
    else
      let g := s.grantRows (min (s.reg x.a).toNat 128 / 32 * 32)
      .next ((if g.1 = 0 then s else s.attached g.1 g.2).finish x.d (BitVec.ofNat 64 g.1))

/-- `TDET` (R234). -/
def execTdet (_land : Bool) (s : State) : Out :=
  s.afterAll fun s =>
    if s.me.trl.att then .next (s.drainTrellis.detach.retire) else .next s.retire

namespace State

/-- The commands up to the latest `TREL` take effect (R235). -/
def drainToTrel (s : State) : State :=
  let q := s.me.trl.queue
  let n := (q.zipIdx.filter fun c => (match c.1.instr with
    | some (.trel _) => true
    | _ => false)).foldl (fun m c => max m (c.2 + 1)) 0
  (q.take n).foldl runT s

end State

/-- `TCLAIM` (R235). -/
def execTclaim (x : ED) (s : State) : Out :=
  s.afterAll fun s =>
    let s := s.drainToTrel
    match s.freeSlot with
    | none => .next (s.finish x.d (-1))
    | some n => .next ((s.setSlot n { TSlot.empty with claimed := true }).finish x.d (BitVec.ofNat 64 n))

/-- `TREL` (R235). -/
def execTrel (x : EA) (s : State) : Out := s.queued fun s => (s, .ok (s.tcmd (.trel x) (s.reg x.a) 0 0 0))

def execTlda (x : EABC) (s : State) : Out :=
  s.queued fun s => s.planLoad (.tlda x) false (s.reg x.a) (s.reg x.b) (s.reg x.c)

def execTldb (x : EABC) (s : State) : Out :=
  s.queued fun s => s.planLoad (.tldb x) true (s.reg x.a) (s.reg x.b) (s.reg x.c)

/-- `TZERO` (R238): the mode against which later steps are checked is set at issue. -/
def execTzero (x : TzeroF) (s : State) : Out :=
  s.queued fun s =>
    let modeB := match x.set with
      | some p => p.1
      | none => true
    (s.setTrl { s.me.trl with nextB := modeB }, .ok (s.tcmd (.tzero x) 0 0 0 0))

def execTstep (x : EABC) (s : State) : Out :=
  s.queued fun s => s.planStep (.tstep x) (s.reg x.a) (s.reg x.b) (s.reg x.c)

def execTdrain (x : EABCD) (s : State) : Out :=
  s.queued fun s => s.planDrain (.tdrain x) (s.reg x.a) (s.reg x.b) (s.reg x.c) (s.reg x.d)

def execTsave (x : EA) (s : State) : Out := s.queued fun s => s.planImage (.tsave x) (s.reg x.a) true
def execTrest (x : EA) (s : State) : Out := s.queued fun s => s.planImage (.trest x) (s.reg x.a) false

/-- `TSTAT` (R243). -/
def execTstat (x : ED) (s : State) : Out :=
  s.afterAll fun s =>
    let s := s.drainTrellis
    .next ((s.setTrl { s.me.trl with failed := none }).settleSlots.finish x.d (s.me.trl.failed.getD 0))

end Sys2Proof.Machine
end

