-- ==== Sys2Proof/Machine/Csr.lean ====
section
/-! DEFINITION. The CSRs (11 R289 to R294, 01 R35, R36, 03 R84 to R87, 07 R173, R174, 08 R217, 09 R228 to R231,
17 R345, R347, 20 R370). -/

namespace Sys2Proof.Machine

def rmCode (b : Band) : Nat := b.rm.code

/-- `FPCR` as software reads it. -/
def fpcrOf (b : Band) : Word := BitVec.ofNat 64 (b.rm.code + 8 * b.sat)

/-- `TVEC` with `INH` (R294). -/
def tvecOf (b : Band) : Word := b.tvec ||| (if b.inh then 1 else 0)

/-- `TFLG` (R231). -/
def tflgOf (t : Trl) : Word :=
  let b := t.beds.headD (TBed.zeroed 0 0 false)
  BitVec.ofNat 64 (packFields [(1, bitOf (!t.queue.isEmpty)), (1, bitOf (t.slots.any TSlot.lost)), (1, bitOf t.failed.isSome),
    (1, bitOf t.att), (12, 0), (16, t.knext), (2, t.pass), (10, 0), (2, t.path), (1, bitOf t.modeB),
    (1, bitOf b.e0v), (16, wrap 16 b.e0)])

namespace State

/-- The horizon as the Bandstand knows it (R174, R181). -/
def horizNow (s : State) : Word :=
  BitVec.ofNat 64 (if s.me.jobs.isEmpty then s.me.seq - 1 else s.me.horiz)

/-- The value of a CSR; none for a number that R289 does not list. -/
def readCsr (s : State) (n : Nat) : Option Word :=
  let b := s.me
  match n with
  | 0x000 => some (BitVec.ofNat 64 (b.vl + 2 ^ 63 * bitOf b.strip.sealed))
  | 0x001 => some (BitVec.ofNat 64 maxVl)
  | 0x002 => some (fpcrOf b)
  | 0x003 => some (b.fpsr.setWidth 64)
  | 0x004 => some (boolWord b.trusted)
  | 0x005 => some (BitVec.ofNat 64 b.seq)
  | 0x006 => some s.horizNow
  | 0x010 => some b.ntfa
  | 0x011 => some (b.seed.setWidth 64)
  | 0x020 => some (BitVec.ofNat 64 b.trl.rows)
  | 0x021 => some (BitVec.ofNat 64 b.trl.start)
  | 0x022 => some (BitVec.ofNat 64 b.trl.tsr)
  | 0x023 => some (tflgOf b.trl)
  | 0x030 => some (s.retn.setWidth 64)
  | 0x031 => some (BitVec.ofNat 64 s.now)
  | 0x040 => some (BitVec.ofNat 64 (b.gidx + 256 * b.spane))
  | 0x041 => some (BitVec.ofNat 64 b.beds.length)
  | 0x042 => some (BitVec.ofNat 64 (64 * b.beds.length))
  | 0x043 => some (BitVec.ofNat 64 b.bedrank)
  | 0x050 => some (BitVec.ofNat 64 (b.ctx + 2 ^ 63 * bitOf b.supv))
  | 0x100 => some (tvecOf b)
  | 0x101 => some b.epc
  | 0x102 => some b.ecause
  | 0x103 => some b.eaddr
  | 0x104 => some b.eelem
  | 0x105 => some b.estat
  | 0x106 => some b.einfo
  | 0x200 => some featOffer
  | 0x201 => some s.feata
  | 0x300 => some b.hintmiss
  | _ => none

/-- Accept features (R370): the first write after reset to the low register of `FEATA` counts, every later one only
sets `FEATERR`. -/
def acceptFeatures (s : State) (v : Word) : State :=
  if s.featWritten then s.setDreg (controlBase + 0x20) 1
  else { s.setDreg (controlBase + 0x10) (v &&& featOffer) with featWritten := true }

/-- A write of `FPCR` (R86): a value that a field may not take leaves it as it was. -/
def fpcrWrite (s : State) (v : Word) : State :=
  let rm := match rmOf (v.toNat % 8) with
    | some .sr => if s.featSround then .sr else s.me.rm
    | some r => r
    | none => s.me.rm
  let sat := if v.toNat / 8 % 4 = 3 then s.me.sat else v.toNat / 8 % 4
  { s with me := { s.me with rm, sat } }

/-- The registers that user mode may write, and those that only supervisor mode may (R289). -/
def userCsr (n : Nat) : Bool := [0x002, 0x003, 0x004, 0x010, 0x011, 0x022, 0x100, 0x101, 0x300].contains n
def superCsr (n : Nat) : Bool := [0x102, 0x103, 0x104, 0x105, 0x106, 0x201].contains n

/-- Whether `NTFA` may name an object (R217, R218): none, or a sync object that the stream may write
(DEDUCED: notes/assumptions/55.md). -/
def ntfaOk (s : State) (obj : Nat) : Bool :=
  obj == 0 || match s.objPlace obj with
    | .ok w => s.granted 48 .atomic (s.route w.key)
    | .error _ => false

/-- A write of a CSR that the mode may write. -/
def writeCsr (s : State) (n : Nat) (v : Word) : State :=
  let b := s.me
  let put := fun (b : Band) => ({ s with me := b } : State)
  match n with
  | 0x002 => s.fpcrWrite v
  | 0x003 => put { b with fpsr := v.setWidth 8 }
  | 0x004 => put { b with trusted := v.getLsbD 0 && s.featTrusted }
  | 0x010 => put { b with ntfa := v &&& ~~~63, ntfCount := 0 }
  | 0x011 => put { b with seed := v.setWidth 32 }
  | 0x022 => put { b with trl := { b.trl with tsr := v.toNat % 128 } }
  | 0x100 => put { b with tvec := v &&& ~~~15 }
  | 0x101 => put { b with epc := v &&& ~~~15 }
  | 0x102 => put { b with ecause := v &&& 0xF0FF }
  | 0x103 => put { b with eaddr := v }
  | 0x104 => put { b with eelem := v }
  | 0x105 => put { b with estat := v }
  | 0x106 => put { b with einfo := v }
  | 0x201 => s.sealStrip.acceptFeatures v
  | 0x300 => put { b with hintmiss := v }
  | _ => s

end State

/-- The registers that `CSRR` reads as they stand (R290): all but `VL`, `FPSR` and `TSR`. -/
def State.readsNow (csr : BitVec 16) : Bool := csr != 0x000 && csr != 0x003 && csr != 0x022

/-- `CSRR` (R290). Most registers are read as they stand, unless an older reduction has still to write the same scalar
register; `FPSR` and `VL` after the earlier instructions have finished (R87, R209), and `TSR` after the stream's Trellis
commands (R230) (DEDUCED: notes/assumptions/67.md). -/
def execCsrr (_land : Bool) (d : Reg) (csr : BitVec 16) (s : State) : Out :=
  match s.readCsr csr.toNat with
  | none => s.afterAll fun s => .next (s.raiseNoAddr cILLEGAL)
  | some v =>
    if State.readsNow csr && !s.me.jobs.any (fun j => j.sd == some d) then .next (s.finish d v)
    else
      s.afterAll fun s =>
        let s := if csr = 0x022 then s.drainTrellis else s
        .next (s.finish d ((s.readCsr csr.toNat).getD 0))

/-- `CSRW` (R289, R290). -/
def execCsrw (_land : Bool) (csr : BitVec 16) (a : Reg) (s : State) : Out :=
  let n := csr.toNat
  if !State.userCsr n && !(s.me.supv && State.superCsr n) then
    s.afterAll fun s => .next (s.raiseNoAddr (if State.superCsr n then cPRIV else cILLEGAL))
  else
    s.afterAll fun s =>
      let v := s.reg a
      if n = 0x010 ∧ s.ntfaOk (v &&& ~~~63).toNat = false then
        .next (s.raise (preFault cSYNCUSE (v &&& ~~~63).toNat 0 opObject))
      else
        let s := if n = 0x022 then s.drainTrellis else s
        .next (s.writeCsr n v).retire

end Sys2Proof.Machine
end

