-- ==== Sys2Proof/Machine/VectorForms.lean ====
section
/-! DEFINITION. The class V and VI forms (08 R194 to R216, 07 R191, 10 R273): each names its operation and
its type rule; `elemResult`, `performElems` and the reductions give its element its result. -/

namespace Sys2Proof.Machine

/-! ### Arithmetic, logic and shifts (R196 to R200) -/

def descVadd (x : V3) : VDesc := v3Desc x .add .arith
def execVadd (x : V3) (s : State) : Out := s.execV (descVadd x)
def descVsub (x : V3) : VDesc := v3Desc x .sub .arith
def execVsub (x : V3) (s : State) : Out := s.execV (descVsub x)
def descVmul (x : V3) : VDesc := v3Desc x .mul .arith
def execVmul (x : V3) (s : State) : Out := s.execV (descVmul x)
def descVfma (x : V3) : VDesc := v3Desc x .fma .arith
def execVfma (x : V3) (s : State) : Out := s.execV (descVfma x)
def descVfms (x : V3) : VDesc := v3Desc x .fms .arith
def execVfms (x : V3) (s : State) : Out := s.execV (descVfms x)
def descVfnma (x : V3) : VDesc := v3Desc x .fnma .arith
def execVfnma (x : V3) (s : State) : Out := s.execV (descVfnma x)
def descVdiv (x : V3) : VDesc := v3Desc x .div (.r92 true)
def execVdiv (x : V3) (s : State) : Out := s.execV (descVdiv x)
def descVsqrt (x : V2) : VDesc := v2Desc x .sqrt (.r92 true)
def execVsqrt (x : V2) (s : State) : Out := s.execV (descVsqrt x)
def descVrcp (x : V2) : VDesc := v2Desc x .rcp (.r92 false)
def execVrcp (x : V2) (s : State) : Out := s.execV (descVrcp x)
def descVrsq (x : V2) : VDesc := v2Desc x .rsq (.r92 false)
def execVrsq (x : V2) (s : State) : Out := s.execV (descVrsq x)
def descVexp2 (x : V2) : VDesc := v2Desc x .exp2 (.r92 false)
def execVexp2 (x : V2) (s : State) : Out := s.execV (descVexp2 x)
def descVlog2 (x : V2) : VDesc := v2Desc x .log2 (.r92 false)
def execVlog2 (x : V2) (s : State) : Out := s.execV (descVlog2 x)
def descVtanh (x : V2) : VDesc := v2Desc x .tanh (.r92 false)
def execVtanh (x : V2) (s : State) : Out := s.execV (descVtanh x)
def descVmin (x : V3) : VDesc := v3Desc x .min .minmax
def execVmin (x : V3) (s : State) : Out := s.execV (descVmin x)
def descVmax (x : V3) : VDesc := v3Desc x .max .minmax
def execVmax (x : V3) (s : State) : Out := s.execV (descVmax x)
def descVclamp (x : V3) : VDesc := v3Desc x .clamp .minmax
def execVclamp (x : V3) (s : State) : Out := s.execV (descVclamp x)
def descVabs (x : V2) : VDesc := v2Desc x .abs .any
def execVabs (x : V2) (s : State) : Out := s.execV (descVabs x)
def descVneg (x : V2) : VDesc := v2Desc x .neg .any
def execVneg (x : V2) (s : State) : Out := s.execV (descVneg x)
def descVmulw (x : V3) : VDesc := v3Widen x .mulw
def execVmulw (x : V3) (s : State) : Out := s.execV (descVmulw x)
def descVfmaw (x : V3) : VDesc := v3Widen x .fmaw
def execVfmaw (x : V3) (s : State) : Out := s.execV (descVfmaw x)
def descVmulh (x : V3) : VDesc := v3Desc x .mulh .ints
def execVmulh (x : V3) (s : State) : Out := s.execV (descVmulh x)
def descVand (x : V3) : VDesc := v3Desc x .and .same
def execVand (x : V3) (s : State) : Out := s.execV (descVand x)
def descVor (x : V3) : VDesc := v3Desc x .or .same
def execVor (x : V3) (s : State) : Out := s.execV (descVor x)
def descVxor (x : V3) : VDesc := v3Desc x .xor .same
def execVxor (x : V3) (s : State) : Out := s.execV (descVxor x)
def descVnot (x : V2) : VDesc := v2Desc x .not .any
def execVnot (x : V2) (s : State) : Out := s.execV (descVnot x)
def descVshl (x : V3) : VDesc := v3Desc x .shl .ints
def execVshl (x : V3) (s : State) : Out := s.execV (descVshl x)
def descVshr (x : V3) : VDesc := v3Desc x .shr .ints
def execVshr (x : V3) (s : State) : Out := s.execV (descVshr x)
def descVsar (x : V3) : VDesc := v3Desc x .sar .ints
def execVsar (x : V3) (s : State) : Out := s.execV (descVsar x)

/-! ### Immediate forms (R19, R196, R199) -/

def descVaddImm (x : I2) : VDesc := i2Desc x .add .any
def execVaddImm (x : I2) (s : State) : Out := s.execV (descVaddImm x)
def descVsubImm (x : I2) : VDesc := i2Desc x .sub .any
def execVsubImm (x : I2) (s : State) : Out := s.execV (descVsubImm x)
def descVmulImm (x : I2) : VDesc := i2Desc x .mul .any
def execVmulImm (x : I2) (s : State) : Out := s.execV (descVmulImm x)
def descVfmaImm (x : I2) : VDesc := i2Desc x .fma .any
def execVfmaImm (x : I2) (s : State) : Out := s.execV (descVfmaImm x)
def descVfmsImm (x : I2) : VDesc := i2Desc x .fms .any
def execVfmsImm (x : I2) (s : State) : Out := s.execV (descVfmsImm x)
def descVfnmaImm (x : I2) : VDesc := i2Desc x .fnma .any
def execVfnmaImm (x : I2) (s : State) : Out := s.execV (descVfnmaImm x)
def descVminImm (x : I2) : VDesc := i2Desc x .min .any
def execVminImm (x : I2) (s : State) : Out := s.execV (descVminImm x)
def descVmaxImm (x : I2) : VDesc := i2Desc x .max .any
def execVmaxImm (x : I2) (s : State) : Out := s.execV (descVmaxImm x)
def descVandImm (x : I2) : VDesc := i2Desc x .and .any
def execVandImm (x : I2) (s : State) : Out := s.execV (descVandImm x)
def descVorImm (x : I2) : VDesc := i2Desc x .or .any
def execVorImm (x : I2) (s : State) : Out := s.execV (descVorImm x)
def descVxorImm (x : I2) : VDesc := i2Desc x .xor .any
def execVxorImm (x : I2) (s : State) : Out := s.execV (descVxorImm x)
def descVshlImm (x : I2) : VDesc := i2Desc x .shl .ints
def execVshlImm (x : I2) (s : State) : Out := s.execV (descVshlImm x)
def descVshrImm (x : I2) : VDesc := i2Desc x .shr .ints
def execVshrImm (x : I2) (s : State) : Out := s.execV (descVshrImm x)
def descVsarImm (x : I2) : VDesc := i2Desc x .sar .ints
def execVsarImm (x : I2) (s : State) : Out := s.execV (descVsarImm x)

/-! ### Conversion and moves (R201 to R209) -/

def descVcvt (x : V2X) : VDesc := v2xDesc x .cvt .cvt
def execVcvt (x : V2X) (s : State) : Out := s.execV (descVcvt x)
def descVbq (nov : Bool) (x : V2X) : VDesc := v2xDesc x (.bq nov) .bq
def execVbq (nov : Bool) (x : V2X) (s : State) : Out := s.execV (descVbq nov x)
def descVbdq (scale : Bool) (x : V2X) : VDesc := v2xDesc x (.bdq scale) .bdq
def execVbdq (scale : Bool) (x : V2X) (s : State) : Out := s.execV (descVbdq scale x)
def descVclass (x : V2X) : VDesc := v2xDesc x .cls .cls
def execVclass (x : V2X) (s : State) : Out := s.execV (descVclass x)
def descVmov (x : V2) : VDesc := v2Desc x .mov .any
def execVmov (x : V2) (s : State) : Out := s.execV (descVmov x)
def descVsel (x : V3) : VDesc := v3Desc x .sel .same
def execVsel (x : V3) (s : State) : Out := s.execV (descVsel x)
def descViota (x : V1) : VDesc := v1Desc x .iota
def execViota (x : V1) (s : State) : Out := s.execV (descViota x)
def descVcomp (x : V2) : VDesc := v2Desc x .comp .any
def execVcomp (x : V2) (s : State) : Out := s.execV (descVcomp x)
def descVexpd (x : V2) : VDesc := v2Desc x .expd .any
def execVexpd (x : V2) (s : State) : Out := s.execV (descVexpd x)
def descVgath (x : V2) : VDesc := v2Desc x .mov .any
def execVgath (x : V2) (s : State) : Out := s.execV (descVgath x)
def descVgathFF (x : V2) : VDesc := { v2Desc x .mov .any with ff := true }
def execVgathFF (x : V2) (s : State) : Out := s.execV (descVgathFF x)
def descVscat (x : V2) : VDesc := v2Desc x .mov .any
def execVscat (x : V2) (s : State) : Out := s.execV (descVscat x)
def descVmovImm (x : I1) : VDesc := i1Desc x .movImm
def execVmovImm (x : I1) (s : State) : Out := s.execV (descVmovImm x)

/-! ### Compares, locality, reductions (R191, R212, R215, R216) -/

def descVcmp (c : Cmp) (x : VC) : VDesc := vcDesc x (.cmp c)
def execVcmp (c : Cmp) (x : VC) (s : State) : Out := s.execV (descVcmp c x)
def descVcmpImm (c : Cmp) (x : IC) : VDesc := icDesc x (.cmp c)
def execVcmpImm (c : Cmp) (x : IC) (s : State) : Out := s.execV (descVcmpImm c x)
def descVloc (x : VC) : VDesc := vcDesc x .loc
def execVloc (x : VC) (s : State) : Out := s.execV (descVloc x)
def descVred (op : RedOp) (x : VRs) : VDesc := vrsDesc x op
def execVred (op : RedOp) (x : VRs) (s : State) : Out := s.execV (descVred op x)
def descVscan (max : Bool) (x : V2) : VDesc := v2Desc x (.scan max) .any
def execVscan (max : Bool) (x : V2) (s : State) : Out := s.execV (descVscan max x)

/-! ### Vector atomics (R273) -/

def descVaadd (x : V3) : VDesc := v3Desc x .aadd .atom
def execVaadd (x : V3) (s : State) : Out := s.execV (descVaadd x)
def descVamin (x : V3) : VDesc := v3Desc x .amin .atom
def execVamin (x : V3) (s : State) : Out := s.execV (descVamin x)
def descVamax (x : V3) : VDesc := v3Desc x .amax .atom
def execVamax (x : V3) (s : State) : Out := s.execV (descVamax x)
def descVacas (x : V3) : VDesc := v3Desc x .acas .atom
def execVacas (x : V3) (s : State) : Out := s.execV (descVacas x)

/-- The description of a class V or VI word; none for every other instruction. -/
def descOf (i : Instr) : Option VDesc :=
  match i with
  | .vadd x => some (descVadd x)
  | .vsub x => some (descVsub x)
  | .vmul x => some (descVmul x)
  | .vfma x => some (descVfma x)
  | .vfms x => some (descVfms x)
  | .vfnma x => some (descVfnma x)
  | .vdiv x => some (descVdiv x)
  | .vsqrt x => some (descVsqrt x)
  | .vrcp x => some (descVrcp x)
  | .vrsq x => some (descVrsq x)
  | .vexp2 x => some (descVexp2 x)
  | .vlog2 x => some (descVlog2 x)
  | .vtanh x => some (descVtanh x)
  | .vmin x => some (descVmin x)
  | .vmax x => some (descVmax x)
  | .vclamp x => some (descVclamp x)
  | .vabs x => some (descVabs x)
  | .vneg x => some (descVneg x)
  | .vmulw x => some (descVmulw x)
  | .vfmaw x => some (descVfmaw x)
  | .vmulh x => some (descVmulh x)
  | .vand x => some (descVand x)
  | .vor x => some (descVor x)
  | .vxor x => some (descVxor x)
  | .vnot x => some (descVnot x)
  | .vshl x => some (descVshl x)
  | .vshr x => some (descVshr x)
  | .vsar x => some (descVsar x)
  | .vaddImm x => some (descVaddImm x)
  | .vsubImm x => some (descVsubImm x)
  | .vmulImm x => some (descVmulImm x)
  | .vfmaImm x => some (descVfmaImm x)
  | .vfmsImm x => some (descVfmsImm x)
  | .vfnmaImm x => some (descVfnmaImm x)
  | .vminImm x => some (descVminImm x)
  | .vmaxImm x => some (descVmaxImm x)
  | .vandImm x => some (descVandImm x)
  | .vorImm x => some (descVorImm x)
  | .vxorImm x => some (descVxorImm x)
  | .vshlImm x => some (descVshlImm x)
  | .vshrImm x => some (descVshrImm x)
  | .vsarImm x => some (descVsarImm x)
  | .vcvt x => some (descVcvt x)
  | .vbq nov x => some (descVbq nov x)
  | .vbdq scale x => some (descVbdq scale x)
  | .vclass x => some (descVclass x)
  | .vmov x => some (descVmov x)
  | .vsel x => some (descVsel x)
  | .viota x => some (descViota x)
  | .vcomp x => some (descVcomp x)
  | .vexpd x => some (descVexpd x)
  | .vgath x => some (descVgath x)
  | .vgathFF x => some (descVgathFF x)
  | .vscat x => some (descVscat x)
  | .vmovImm x => some (descVmovImm x)
  | .vcmp c x => some (descVcmp c x)
  | .vcmpImm c x => some (descVcmpImm c x)
  | .vloc x => some (descVloc x)
  | .vred op x => some (descVred op x)
  | .vscan max x => some (descVscan max x)
  | .vaadd x => some (descVaadd x)
  | .vamin x => some (descVamin x)
  | .vamax x => some (descVamax x)
  | .vacas x => some (descVacas x)
  | _ => none

end Sys2Proof.Machine
end

