-- ==== Sys2Proof/Machine/Record.lean ====
section
/-! DEFINITION. Moving between Bandstands: acting for another stream, the pre-emption record and plot blocks (17 R352,
R355, R356), the issuing again of stopped instructions (11 R318, 17 R357), and the end of a stream's stay. -/

namespace Sys2Proof.Machine

namespace State

/-! ### Acting for another stream -/

/-- Do something as a stopped stream, whose commands still run (R145). -/
def asStopped (s : State) (x : Stopped) (f : State → State) : State :=
  let t := f { s with me := x.band, bands := s.me :: s.bands, stopped := s.stopped.filter fun y => y.band.sid != x.band.sid }
  match t.bands with
  | [] => t
  | m :: bs => { t with me := m, bands := bs, stopped := t.stopped ++ [{ x with band := t.me }] }

/-- The Runner commands and, on a Bandstand, the Trellis commands of a stream complete. -/
def drainEngines (s : State) : State := s.drainRunner.drainTrellis

/-- Every begun instruction, store on its way and command of the context finishes; the moving stream's own instructions have
(R122, R144, R157) (DEDUCED: notes/assumptions/54.md). -/
def quiesce (s : State) (ctx : Nat) : State :=
  let s := if s.me.ctx = ctx then s.performed.drainEngines else s
  let s := (s.bands.filter fun b => b.status = .run && b.ctx == ctx).foldl
    (fun s b => s.asBand b.id fun s => s.settledOr.performed.drainEngines) s
  (s.stopped.filter fun x => x.band.ctx == ctx).foldl (fun s x => s.asStopped x drainRunner) s

/-! ### The pre-emption record (R356) -/

/-- The save area of a span entry; 0 for none. -/
def spsave (s : State) (e : Nat) : Nat := bits (s.dreg (arbourBase + 0x3000 + 8 * e)).toNat 12 36 * 4096

/-- The layout of a list of fields from an offset on. -/
def layout (off : Nat) : List (Nat × Nat) → List (Nat × Byte)
  | [] => []
  | (n, v) :: rest => ((bytesLE n v).mapIdx fun k b => (off + k, b)) ++ layout (off + n) rest

/-- The fields of 8 bytes from offset 536 on. -/
def recordCsrs (b : Band) : List Nat :=
  [b.vl + 2 ^ 63 * bitOf b.strip.sealed, (fpcrOf b).toNat, b.fpsr.toNat, bitOf b.trusted, b.ntfa.toNat, b.ntfCount, b.seed.toNat,
   b.trl.tsr, (tvecOf b).toNat,
   b.epc.toNat, b.ecause.toNat, b.eaddr.toNat, b.eelem.toNat, b.estat.toNat, b.einfo.toNat, b.hintmiss.toNat,
   (b.node.map NodeRef.va).getD 0]

/-- An uncompleted Trellis command: word, address, registers, settings and record snapshot. -/
def recordTrl (c : TCmd) : List (Nat × Nat) :=
  [(16, (c.instr.map fun i => (encode i).toNat).getD 0), (8, c.addr.toNat), (8, (c.vals[0]).toNat), (8, (c.vals[1]).toNat),
   (8, (c.vals[2]).toNat), (8, (c.vals[3]).toNat), (8, c.rm.code + 8 * c.sat), (8, c.seed.toNat),
   (192, ofBytesLE c.record)]

/-- The 16,384 bytes of the record of a stream. -/
def recordCells (b : Band) (stops : List StopInstr) (out : Bool) : List (Nat × Byte) :=
  let some_ := layout 0 [(4, 0x31455250), (2, b.ctx), (1, b.gidx), (1, bitOf out + 2 * bitOf b.trl.att + 4 * bitOf b.inh),
      (1, b.beds.length), (1, (stops.take 16).length), (1, (b.node.map NodeRef.level).getD 0), (1, (b.node.map NodeRef.queue).getD 0),
      (4, 0), (8, b.seq), (8, b.pc.toNat)] ++
    layout 32 ((List.range 63).map fun k => (8, (b.regs.toList.getD (k + 1) 0).toNat)) ++
    layout 536 ((recordCsrs b).map fun v => (8, v)) ++
    layout 672 (b.slots.toList.map fun x => (8, x.getD 0)) ++
    layout 736 ((stops.take 16).flatMap fun x => [(8, x.addr.toNat), (8, x.seq)]) ++
    ((b.trl.queue.filter fun c => c.arrival.isNone).zipIdx.take 16).flatMap fun c => layout (1024 + 320 * c.2) (recordTrl c.1)
  (List.range 16384).map fun o => (o, (assoc some_ o).getD 0)

/-! ### Plot blocks (R352) -/

/-- `KIND` of a stopped instruction. -/
def carryKind (x : StopInstr) : Nat :=
  match x.op with
  | some (.red .add) | some (.scan false) => if x.ty.isInt && x.geom.isNone then 3 else if x.ty = .f64 then 2 else 1
  | some (.red _) | some (.scan true) => 3
  | some .comp | some .expd => 4
  | _ => 0

/-- `CARRY` and `SPEC` of a stopped instruction at a span position (DESIGN CHOICE: notes/assumptions/81.md). -/
def carryOfPlot (x : StopInstr) (pos count : Nat) : Nat × Nat :=
  let c := carryAt x.carry pos
  let spec := packFields [(1, bitOf c.pinf), (1, bitOf c.ninf), (1, bitOf c.nan), (1, bitOf c.nonempty),
    (1, bitOf (c.nonempty && c.allNegZero))]
  match carryKind x with
  | 1 => (wrap 384 c.total, spec)
  | 2 | 3 => (c.pat, spec)
  | 4 => (count, 0)
  | _ => (0, 0)

/-- A carry as a plot block gives it back, where the block does not tell, as it was. -/
def carryBack (x : StopInstr) (pos carry spec : Nat) : List Carry :=
  let c := carryAt x.carry pos
  let put := fun (c : Carry) => (x.carry.filter fun y => y.pos != pos) ++ [c]
  let c := { c with
    pinf := bit spec 0, ninf := bit spec 1, nan := bit spec 2, nonempty := bit spec 3, allNegZero := bit spec 4 || !bit spec 3 }
  match carryKind x with
  | 1 => put { c with total := signed 384 carry }
  | 2 | 3 => put { c with pat := carry % 2 ^ 64 }
  | _ => x.carry

/-- The mask groups of a plot: those with a bit below `VL`, or a set bit, whose home it is, eight at most, and the bits. -/
def maskGroups (beds : List Nat) (vl : Nat) (m : MaskV) (plot : Nat) : List (Nat × Nat) :=
  let here := (List.range (max vl (if m.bits = 0 then 0 else Nat.log2 m.bits + 1))).filter fun i => m.home beds i == plot
  let gs := here.foldl (fun l i => insertNat (i / 512) l) []
  (gs.take 8).map fun g => (g, (here.filter fun i => i / 512 == g).foldl (fun n i => if m.bit i then n + 2 ^ (i % 512) else n) 0)

/-- The stopped instructions that a plot has not finished, sixteen at most. -/
def stopsAt (stops : List StopInstr) (plot : Nat) : List StopInstr :=
  (stops.filter fun x => (assoc x.left plot).isSome).take 16

/-- The 8,192 bytes of a plot block. -/
def plotBlock (b : Band) (stops : List StopInstr) (plot : Nat) : List (Nat × Byte) :=
  let here := stopsAt stops plot
  let pos := (bedsPos b.beds plot).getD 0
  let some_ := layout 0 [(4, 0x31544C50), (2, plot), (1, here.length)] ++
    (here.zipIdx.flatMap fun x =>
      let c := carryOfPlot x.1 pos ((assoc x.1.left plot).getD 0)
      layout (64 + 64 * x.2) [(8, x.1.seq), (4, (assoc x.1.prog plot).getD 0), (1, carryKind x.1), (1, c.2), (2, 0), (48, c.1)]) ++
    (b.masks.toList.zipIdx.flatMap fun m =>
      let gs := maskGroups b.beds b.vl m.1 plot
      (List.range 8).flatMap fun y =>
        match gs[y]? with
        | some g => layout (1088 + 544 * m.2 + 68 * y) [(4, g.1), (64, g.2)]
        | none => layout (1088 + 544 * m.2 + 68 * y) [(4, 0xFFFFFFFF)])
  (List.range 8192).map fun o => (o, (assoc some_ o).getD 0)

/-- Write a stopped stream's plot blocks to its save area. -/
def writePlotBlocks (s : State) (at_ : Nat) (b : Band) (stops : List StopInstr) : State :=
  (List.range (64 * b.beds.length)).foldl (fun s j =>
    s.writeCells ((plotBlock b stops (bedsPlot b.beds j)).map fun c => (at_ + 16384 + 8192 * j + c.1, c.2)) false) s

/-- A stopped instruction with what the entries of a stream's plot blocks say of it (R357). -/
def stopBack (s : State) (at_ : Nat) (b : Band) (x : StopInstr) : StopInstr :=
  (List.range (64 * b.beds.length)).foldl (fun x j =>
    let blk := at_ + 16384 + 8192 * j
    let plot := bedsPlot b.beds j
    match (List.range (min 16 (s.readNat (blk + 6) 1))).find? fun y => s.readNat (blk + 64 + 64 * y) 8 == x.seq with
    | none => x
    | some y =>
      let e := blk + 64 + 64 * y
      { x with prog := assocSet x.prog plot (s.readNat (e + 8) 4),
               carry := carryBack x j (s.readNat (e + 16) 48) (s.readNat (e + 13) 1) }) x

/-- A mask with the bits that its homes' plot blocks hold (R210, R357). -/
def maskBack (s : State) (at_ : Nat) (b : Band) (m : Nat) (old : MaskV) : MaskV :=
  (List.range (64 * b.beds.length)).foldl (fun v j =>
    let plot := bedsPlot b.beds j
    (List.range 8).foldl (fun v y =>
      let r := at_ + 16384 + 8192 * j + 1088 + 544 * m + 68 * y
      let g := s.readNat r 4
      if 2048 ≤ g then v
      else
        let bs := s.readNat (r + 4) 64
        ((List.range 512).filter fun k => old.home b.beds (512 * g + k) == plot && bit v.bits (512 * g + k) != bit bs k).foldl
          (fun v k => { v with bits := Nat.xor v.bits (2 ^ (512 * g + k)) }) v) v) old

/-- Write its record and, when it is attached, its Trellis images. -/
def writeRecord (s : State) (at_ : Nat) (b : Band) (stops : List StopInstr) (out : Bool) : State :=
  let s := s.writeCells ((recordCells b stops out).map fun c => (at_ + c.1, c.2)) false
  if b.trl.att then
    (b.trl.beds.zipIdx).foldl (fun s x =>
      s.writeCells (cellsOf (at_ + 16384 + 524288 * b.beds.length + 540672 * x.2) (imageOf b.trl x.1)) false) s
  else s

/-! ### Pre-emption (R355) -/

/-- The last words that have issued and that no plot has begun, up to the next number: a word that has issued behind one of
them and is no broadcast word has completed, so those before it are not fetched again (notes/assumptions/110.md, DESIGN
CHOICE). -/
def unbegunTail (s : State) : List Job :=
  ((s.unbegun 0).reverse.foldl (fun (r : Nat × List Job) j => if j.seq + 1 = r.1 then (j.seq, j :: r.2) else r)
    (s.me.seq, [])).2

/-- The stream as a pre-emption leaves it: fetch stops at the first word that has not issued or that no plot has begun, begun
instructions stop at a group boundary, a wait is abandoned without having used a number (DESIGN CHOICE:
notes/assumptions/96.md), and the strip is sealed. A data fault that has stopped it enters its handler first. -/
def halted (s : State) : State × List StopInstr :=
  let s := (if s.me.pending.isSome then s.settledOr else s).endedWait
  let tail := s.unbegunTail
  let at_ := (tail.head?.map Job.addr).getD s.me.issueAddr
  let st := (s.discard tail).stopJobs 0
  let s := st.1.sealStrip.performed
  ({ s with me := { s.me with pc := at_, pfx := none, waiting := none, pending := none } }, st.2)

/-- Stop the moving stream and save it; its Bandstand is free. It has a save area. -/
def preemptMe (s : State) (out : Bool) (pos : Option QPos) : State :=
  let h := s.halted
  let s := h.1
  if s.me.status ≠ .run then s else
  let at_ := s.spsave s.me.spane
  let stops := s.me.stops ++ h.2
  let s := s.writeRecord at_ s.me stops out
  let s := if out then s.writePlotBlocks at_ s.me stops else s
  let x : Stopped := ⟨s.me, out, pos, h.2⟩
  State.fixHeads { s with me := Band.reset s.me.id, stopped := s.stopped ++ [x] }

/-! ### Issuing stopped instructions again (R318, R357) -/

/-- The decoded word at an address, with its prefix taken up: the state that is about to issue it
(DEDUCED: notes/assumptions/41.md). -/
def takeUp (s : State) (addr : Word) : Option (State × Instr) :=
  let s := (s.setPc addr).fetchReads addr.toNat
  match s.fetchWord addr.toNat with
  | none => none
  | some w =>
    match decode w with
    | .error _ => none
    | .ok (.pfx x) =>
      (match (s.fetchWord (addr + 16).toNat).map decode with
      | some (.ok i) =>
        some ({ s with me := { s.me with
          pc := addr + 16, pfx := some ⟨addr, x.rm, x.sat, x.seed.map fun r => (s.reg r).setWidth 32⟩ } }, i)
      | _ => none)
    | .ok i => some (s, i)

/-- The buffered far stores of the stream, as they stand or with others. -/
def withFar (s : State) (l : List FarPkt) : State := { s with me := { s.me with strip := { s.me.strip with far := l } } }

/-- The plan of a stopped broadcast instruction with its captured guard and with the indices that it had (R185, R188); none for
any other instruction. -/
def replan (s : State) (i : Instr) (x : StopInstr) : Option (State × Planned) :=
  match i with
  | .vxform y => some (s.planRecords y.h (s.reg y.a) (s.reg y.b) none)
  | .vxpos y => some (s.planRecords y.h (s.reg y.a) (s.reg y.b) (some y.perm))
  | i => (descOf i).map fun d =>
      let t := (s.withFar (s.me.strip.far ++ [⟨0, 0, x.saved, []⟩])).readIndexes d x.guard
      (t.withFar s.me.strip.far, t.planV d x.guard)

/-- A job that continues from saved indices and carries, with the old content of what it has written, with what has reached its
plots whole (R188), and with the index at which it has found a fault that it does not raise (R209). -/
def continued (j : Job) (x : StopInstr) : Job :=
  let j := { j with prog := x.prog, carry := x.carry, saved := x.saved,
                    landed := x.landed.filter fun l => l.bad.isEmpty && l.refused.isNone,
                    ff := match j.ff, x.ff with
                      | some a, some b => some (min a b)
                      | a, _ => a }
  match j.op with
  | .red _ => j
  | _ => { j with elems := dropDone x.prog j.elems }

/-- Whether another slot's groups come between those that stopped instructions have left, so that they wait for their turns
(R340). -/
def stopsContended (s : State) (l : List StopInstr) : Bool := s.contendedIn (l.flatMap fun x => x.left.map Prod.fst)

/-- Issue stopped instructions again, in order, and go on at an address, or after the youngest of them. A word that can no
longer be taken up, or that is no broadcast word, is left to fetch; a fault keeps what the instructions that have not
finished had saved (DEDUCED: notes/assumptions/41.md). -/
def reissue (fin : Option Word) : List StopInstr → State → State
  | [], s => match fin with
    | some a => s.setPc a
    | none => s
  | x :: rest, s =>
    match s.takeUp x.addr with
    | none => s.setPc x.addr
    | some (t, i) =>
      match t.replan i x with
      | none => s.setPc x.addr
      | some (t, .error f) =>
        if f.cls = 1 then t.raiseDataWith f x rest else t.enterTrap f t.me.issueAddr t.me.seq (x :: rest)
      | some (t, .ok p) =>
        let t := t.begin_ p
        match t.me.jobs.getLast? with
        | none => t
        | some j =>
          let r := t.runCharged (continued j x)
          match r.2.2 with
          | none => reissue fin rest (r.1.finishJob r.2.1)
          | some f =>
            let t := r.1.putJob r.2.1
            if t.rewindsFor f then t.rewind
            else
              let st := t.stopJobs j.seq
              st.1.enterTrap f j.addr j.seq (st.2 ++ rest)

/-! ### Resuming (R357, R361) -/

/-- Read a stream's registers and CSRs back from its record, a `SAT` of 3 and an `RM` of 5 too (DEDUCED:
notes/assumptions/53.md). -/
def readRecord (s : State) (at_ : Nat) (b : Band) : Band :=
  let f := fun k => s.readNat (at_ + 536 + 8 * k) 8
  let w := fun k => BitVec.ofNat 64 (f k)
  { b with
    regs := Vector.ofFn fun (k : Fin 64) => if k.val = 0 then 0 else BitVec.ofNat 64 (s.readNat (at_ + 32 + 8 * (k.val - 1)) 8),
    seq := s.readNat (at_ + 16) 8, pc := BitVec.ofNat 64 (s.readNat (at_ + 24) 8),
    vl := min (f 0 % 2 ^ 63) maxVl, rm := (rmOf (f 1 % 8)).getD b.rm, sat := f 1 / 8 % 4, fpsr := BitVec.ofNat 8 (f 2), trusted := bit (f 3) 0,
    ntfa := w 4, ntfCount := f 5, seed := BitVec.ofNat 32 (f 6), trl := { b.trl with tsr := f 7 % 128 },
    tvec := w 8 &&& ~~~15, inh := bit (s.readNat (at_ + 7) 1) 2, epc := w 9 &&& ~~~15, ecause := w 10, eaddr := w 11, eelem := w 12,
    estat := w 13, einfo := w 14, hintmiss := w 15,
    slots := Vector.ofFn fun (k : Fin 7) =>
      let v := s.readNat (at_ + 672 + 8 * k.val) 8
      if v = 0 then none else some v }

/-- Whether a stopped stream's rows are free again on its span (R248). -/
def rowsBack (s : State) (x : Stopped) : Bool :=
  !x.band.trl.att || x.band.trl.rows == 0 ||
    (({ s with me := { x.band with id := s.me.id }, bands := s.me :: s.bands }).rowBase x.band.trl.rows).isSome

/-- The moving stream, just placed, takes its Trellis rows and images back (R248). -/
def trlBack (s : State) (at_ : Nat) : State :=
  let t := s.me.trl
  if !t.att then s
  else
    let s := s.setTrl { t with start := (s.rowBase t.rows).getD 0 }
    let ims := (List.range s.me.beds.length).map fun b =>
      s.readBytes (at_ + 16384 + 524288 * s.me.beds.length + 540672 * b) (imageSize t.rows)
    let tsr := s.me.trl.tsr
    let s := s.restoreImages ims
    -- a slot that was lost stays so, with the tile that it was to hold (R239, R247)
    s.setTrl { s.me.trl with
      tsr, slots := s.me.trl.slots.mapIdx fun n x =>
        let old := t.slots.getD n TSlot.empty
        if old.lost then { x with lost := true, next := old.next } else x }

/-- Probe the stopped Trellis commands again (R99, R157): those that fail leave the queue; the first cause. -/
def retryTrl (s : State) : State × Option FaultRec :=
  let r := s.me.trl.queue.foldl (fun (r : List TCmd × Nat × Option FaultRec) c =>
    let start := match c.instr with
      | some (.tdrain _) | some (.trest _) => 0
      | _ => r.2.1
    match s.reprobeT c r.2.1 with
    | .ok x => (r.1 ++ [x], start, r.2.2)
    | .error f => (r.1, start, r.2.2.orElse fun _ => some f)) ([], s.me.trl.tsr, none)
  (s.setTrl { s.me.trl with queue := r.1 }, r.2.2)

/-- A stopped stream goes on on a free Bandstand, once the frames that its context has newly allocated read as zero (R155): its plot
blocks are read back when they were written. A cause that a Trellis
command meets as it is probed again enters the handler before the rest goes on (notes/assumptions/86.md, DESIGN CHOICE). -/
def resumeOn (s : State) (x : Stopped) (b : Fin 64) : State :=
  let at_ := s.spsave x.band.spane
  let s : State := { s with stopped := s.stopped.filter fun y => y.band.sid != x.band.sid }
  let back := fun (l : List StopInstr) => if x.out then l.map (s.stopBack at_ x.band) else l
  let band := { (s.readRecord at_ x.band) with id := b, status := .run, stops := back x.band.stops }
  let band := if x.out then { band with masks := band.masks.mapIdx fun m v => s.maskBack at_ x.band m v } else band
  s.asBand b fun s =>
    let r := (({ s with me := band }).afresh.zeroFrames.trlBack at_).retryTrl
    (match r.2 with
    | none => reissue (some band.pc) (back x.reissue) r.1
    | some f => r.1.enterTrap f band.pc band.seq (back x.reissue)).fixHeads

/-- Whether a stopped stream, were it placed, would wait for its turns before it goes on (R340). -/
def resumeWaits (s : State) (x : Stopped) : Bool :=
  State.stopsContended { s with me := x.band, bands := s.me :: s.bands } x.reissue

end State

end Sys2Proof.Machine
end

