-- ==== Sys2Proof/Machine/Streams.lean ====
section
/-! DEFINITION. The forms that wait for the stream's commands (10 R269, R271, R275, R280, 06 R157), streams of one context
and their ends (11 R304, R309 to R314), and the return from the handler (R318). -/

namespace Sys2Proof.Machine

namespace State

/-- Every earlier Runner and Trellis command of the stream has completed. -/
def drained (s : State) : State := s.drainEngines

/-- The bytes that a Trellis command may write, by virtual address. -/
def writtenByT (s : State) (c : TCmd) : List (Nat × Nat) :=
  match c.instr with
  | some (.tdrain _) => c.locs.flatMap fun l => l.filterMap fun p => p.map fun l => (l.va, l.keys.length)
  | some (.tsave _) => [((c.vals[0]).toNat, (imageSize s.me.trl.rows + 8191) / 8192 * 8192 * s.me.beds.length)]
  | _ => []

/-- How many commands of a list must complete before those that satisfy a predicate have. -/
def upToLast {α : Type} (p : α → Bool) (l : List α) : Nat :=
  l.zipIdx.foldl (fun n c => if p c.1 then c.2 + 1 else n) 0

/-- The bytes that an open shadow sets beside some bytes, of its visible region or of the one behind it (R279). -/
def mirrored (c : Ctx) (e : Nat × Nat) : List (Nat × Nat) :=
  c.shadows.flatMap fun h =>
    let at_ := fun x => if h.near then slotBase x else x * 65536
    let n := if h.near then 2 ^ 32 else 65536
    [(at_ h.v, at_ h.w), (at_ h.w, at_ h.v)].filterMap fun r =>
      let lo := max e.1 r.1
      let hi := min (e.1 + e.2) (r.1 + n)
      if lo < hi then some (lo - r.1 + r.2, hi - lo) else none

/-- Every earlier command of the stream that writes a region bound to an object has completed (R269); a shadow may have sent its
writes there, or away from there (R279). -/
def drainBound (s : State) (o : Nat) : State :=
  let bs := (s.myCtx.map fun c => c.bindings.filter fun b => b.key == o).getD []
  let meets := fun (e : Nat × Nat) => (e :: (s.myCtx.map fun c => mirrored c e).getD []).any fun x =>
    bs.any fun b => decide (x.1 < b.base + b.len) && decide (b.base < x.1 + x.2)
  let s := s.drainRunnerTo (upToLast (fun c => c.dests.any meets) s.me.runner)
  (s.me.trl.queue.take (upToLast (fun c => (s.writtenByT c).any meets) s.me.trl.queue)).foldl runT s

/-- Detach the Trellis of an attached stream (R234); the claims of any other end too, since they stand for every bed of the span
that it leaves (R235). -/
def leaveTrellis (s : State) : State :=
  if s.me.trl.att then s.detach else s.setTrl { s.me.trl with slots := Trl.empty.slots }

end State

/-! ### BAR, REL, ARRIVE, PUB, CFREE -/

/-- `BAR` (R271). -/
def execBar (_land : Bool) (s : State) : Out := s.syncForm fun s => .next s.drained.retire

/-- `REL` (R269). -/
def execRel (x : EAD) (s : State) : Out :=
  s.object x.a isBarrier fun s o =>
    match s.holdsOf o with
    | none => .next (s.finish x.d (-1))
    | some h => .next (((s.drainBound o).release h).finish x.d 0)

namespace State

/-- A queued arrival as a Runner command (R275). -/
def arrivalCmd (s : State) (o g : Nat) : RCmd :=
  { id := s.nextOrder, kind := .fill, arrival := some (o, g), mode := .none, chn := false, cmp := false, seed := 0,
    expect := 0, word := none, pred := none, predStat := 0, predValue := 0, width := 1, base := 0, far := 0, index := [],
    flat := [], view := none, begun := true, dests := [], lines := [], delivered := [], saved := [], pois := false, stat := 0, faultAt := 0, frame := 0,
    issued := s.now, entry := none }

/-- A queued arrival as a Trellis command. -/
def arrivalT (s : State) (o g : Nat) : TCmd :=
  { id := s.nextOrder, instr := none, arrival := some (o, g), addr := s.me.pc, seq := s.me.seq, vals := #v[0, 0, 0, 0],
    rm := .rne, sat := 0, seed := 0, record := [], ty := .i8, locs := [], rowLocs := [], colLocs := [], image := [],
    begun := false, flags := 0 }

end State

/-- `ARRIVE` (R275): a stream arrival is performed at once, since every earlier write is performed. -/
def execArrive (k : ArriveKind) (x : EAD) (s : State) : Out :=
  s.object x.a isLock fun s o =>
    let r := s.arriveBegin o
    let t := match k with
      | .stream => r.1.arrivePerform o r.2
      | .run => r.1.queueCmd (r.1.arrivalCmd o r.2)
      | .trl => r.1.queueT (r.1.arrivalT o r.2)
    .next (t.finish x.d (BitVec.ofNat 64 r.2))

namespace State

/-- Drop the cached translations that a predicate names (R99, R122), and with them what the scalar data caches hold
(DESIGN CHOICE: notes/assumptions/77.md). -/
def dropTlb (s : State) (p : TlbEntry → Bool) : State := { s with tlb := s.tlb.filter fun t => !p t, dcache := [] }

/-- What an exchange leaves at the address of an entry: with a page of the other tier's range it stays in use as it stands
(R118, R120; notes/assumptions/20.md, DEDUCED). -/
def markCrossed (s : State) (at_ e : Nat) : State :=
  let s : State := { s with crossed := s.crossed.filter fun x => x.1 != at_ }
  if pteTier e == 2 || s.tierRange at_ e 3 then s else { s with crossed := (at_, e) :: s.crossed }

/-- Exchange bits [51:20] of two leaf entries, and drop the cached translations of both pages (R120, R280). -/
def exchangeLeaves (s : State) (a b : Nat) : State :=
  let ea := s.readNat a 8
  let eb := s.readNat b 8
  let mid := fun e => bits e 20 32
  let put := fun e m => e % 2 ^ 20 + m * 2 ^ 20 + e / 2 ^ 52 * 2 ^ 52
  let s := (s.writeNat a 8 (put ea (mid eb))).writeNat b 8 (put eb (mid ea))
  let s := (s.markCrossed a (put ea (mid eb))).markCrossed b (put eb (mid ea))
  s.dropTlb fun t => t.size == 65536 && pteTier t.entry != 2 && (ptePpn t.entry == mid ea || ptePpn t.entry == mid eb)

/-- The shadow whose visible region an address names (R280). -/
def shadowAt (c : Ctx) (va : Nat) : Option Shadow :=
  let near := isNearVa va
  c.shadows.find? fun h => h.near == near && h.v == (if near then slotOf va else va / 65536)

/-- Publish a shadow: exchange the storage of V and W (R280). -/
def publish (s : State) (c : Ctx) (h : Shadow) : State :=
  -- loads that are probed from now on see what was published (R255, R261)
  let s : State := { s with dcache := [] }
  let c' := { c with shadows := c.shadows.filter fun x => !(x == h) }
  if h.near then
    match c.frame h.v, c.frame h.w with
    | some f, some g =>
      s.setCtx ((c'.setFrame { f with lb := g.lb, expiry := g.expiry }).setFrame { g with lb := f.lb, expiry := f.expiry })
    | _, _ => s.setCtx c'
  else
    let s := s.setCtx c'
    match s.walkFrom (h.v * 65536) 3 1 c.ptRoot, s.walkFrom (h.w * 65536) 3 1 c.ptRoot with
    | some l, some m => if l.level = 3 ∧ m.level = 3 then s.exchangeLeaves l.at_ m.at_ else s
    | _, _ => s

/-- Whether a stopped stream of the context has still a drain into a shadow region to make (R144, R280): it goes on once the
stream has resumed. -/
def drainStopped (s : State) (ctx : Nat) (h : Shadow) : Bool :=
  s.stopped.any fun x => x.band.ctx == ctx && x.band.trl.queue.any fun c => (match c.instr with
    | some (.tdrain _) => c.locs.any fun l => l.any fun p => p.any fun l =>
        l.near == h.near && (if h.near then l.slot else l.va / 65536) == h.w
    | _ => false)

end State

/-- `PUB` (R280): after every command of the context that was issued before it. -/
def execPub (x : EAD) (s : State) : Out :=
  s.syncForm fun s =>
    match s.myCtx with
    | none => .next (s.finish x.d (-1))
    | some c =>
      match State.shadowAt c (s.reg x.a).toNat with
      | none => .next (s.finish x.d (-1))
      | some h =>
        let s := s.drained.quiesce s.me.ctx
        match s.myCtx with
        | none => .next (s.finish x.d (-1))
        | some c =>
          if s.drainStopped c.id h then .next (s.hold .ending)
          else .next ((s.publish c h).finish x.d 0)

/-- `CFREE` (R157): every probe from now on finds the slot empty; what captured the frame finishes, and then the slot
and its storage are free. -/
def execCfree (x : EAD) (s : State) : Out :=
  s.frameForm x.d fun s =>
    match s.namedFrame (s.reg x.a), s.myCtx with
    | some f, some c =>
      let s := s.setCtx { c with frames := c.frames.filter fun g => g.slot != f.slot, leaving := c.leaving ++ [f] }
      ((s.drained.quiesce s.me.ctx).pruneLeaving, 0)
    | _, _ => (s, -1)

/-! ### Streams -/

namespace State

/-- Whether a stream is live: on a Bandstand or stopped. -/
def live (s : State) (sid : Nat) : Bool :=
  ((s.me :: s.bands).any fun b => b.sid == sid && b.status == .run) || s.stopped.any fun x => x.band.sid == sid

/-- The span entry that a group index of a context names (R286). -/
def groupSpan (s : State) (ctx g : Nat) : Option Nat := (s.findCtx ctx).bind fun c => (c.groups[g]?).join

/-- Whether a stream or `RUNNER` node of a context holds a span; `but` is a stream that does not count. -/
def spanHeld (s : State) (ctx e : Nat) (but : Option Nat) : Bool :=
  ((s.me :: s.bands).any fun b => b.status != .free && b.ctx == ctx && b.spane == e && some b.sid != but) ||
    s.stopped.any fun x => x.band.ctx == ctx && x.band.spane == e && some x.band.sid != but

/-- `BEDRANK` (R292). -/
def bedrankOf (s : State) (ctx g : Nat) : Nat :=
  (List.range g).foldl (fun n k => match s.groupSpan ctx k with
    | some e => n + s.spanNB e
    | none => n) 0

/-- A free Bandstand among 0 to 62, the lowest. -/
def freeStand (s : State) : Option (Fin 64) :=
  (List.finRange 64).find? fun b => b.val != 63 && (s.me :: s.bands).any fun x => x.id == b && x.status == .free

/-- A stream that starts on a Bandstand (R288, R304, R319): its span, its first registers, its text and its first strip. -/
def freshBand (s : State) (b : Fin 64) (ctx g e : Nat) (pc : Word) (s1 s2 : Word) : Band :=
  let x : Band := { Band.reset b with
    status := .run, sid := s.nextSid, order := s.nextOrder, ctx, supv := false, gidx := g, spane := e, beds := s.spanBeds e,
    bedrank := s.bedrankOf ctx g, regs := ((Vector.replicate 64 0).set 1 s1).set 2 s2, pc, seq := 1,
    text := [⟨0, 2 ^ 55, s.textNow⟩], xhold := s.freshXhold s.nextSid }
  (State.openStrip { s with me := x } pc).me

/-- Place a stream on its Bandstand. -/
def placeBand (s : State) (x : Band) : State :=
  { s with me := if s.me.id = x.id then x else s.me,
           dcache := s.dcache.filter fun l => l.band != x.id,
           bands := s.bands.map fun y => if y.id = x.id then x else y,
           nextSid := s.nextSid + 1, nextOrder := s.nextOrder + 1 }

/-- The live children of the stream. -/
def liveChildren (s : State) : List (Nat × Nat) := s.me.children.filter fun c => s.live c.2

/-- The lowest child number that no live child holds. -/
def childNumber (s : State) : Option Nat :=
  (List.range 64).find? fun n => s.liveChildren.all fun c => c.1 != n

/-- `FORK` once it takes effect: the statuses in their order, and the child (R309). -/
def forkChild (s : State) (g : Word) (arg entry : Word) : State × Word :=
  match (if g.toNat > 15 then none else s.groupSpan s.me.ctx g.toNat) with
  | none => (s, -2)
  | some e =>
    if s.spanHeld s.me.ctx e none then (s, -2)
    else
      match s.childNumber, s.freeStand with
      | none, _ => (s, -3)
      | some _, none => (s, -1)
      | some n, some b =>
        let p := s.me
        let x := s.freshBand b p.ctx g.toNat e entry arg (s.reg 2)
        let x : Band := { x with
          rm := p.rm, sat := p.sat, seed := p.seed, trusted := p.trusted, tvec := p.tvec,
          node := p.node.map fun r => { r with launched := false } }
        let x := (State.openStrip { s with me := x } entry).me
        let sid := s.nextSid
        let s := s.placeBand x
        ({ s with me := { s.me with children := s.liveChildren ++ [(n, sid)] } }, BitVec.ofNat 64 n)

end State

/-- `FORK` (R309): the entry is checked before issue. -/
def execFork (x : ForkF) (s : State) : Out :=
  s.afterAll fun s =>
    let entry := s.branchTarget x.off
    match s.targetCause entry with
    | some f => .next ((s.targetRead entry).raise f)
    | none =>
      let r := s.sealStrip.performed.forkChild (s.reg x.a) (s.reg x.b) entry
      .next (r.1.finish x.d r.2)

/-- `RVZ` (R310). -/
def execRvz (x : S1) (s : State) : Out :=
  s.afterAll fun s =>
    if s.liveChildren.any fun c => (s.reg x.a).getLsbD c.1 then .next (s.hold .other) else .next s.afresh.retire

/-- `SPAN` (R311) (DEDUCED: notes/assumptions/50.md). -/
def execSpan (x : S1) (s : State) : Out :=
  s.afterAll fun s =>
    let g := (s.reg x.a).toNat
    match (if g > 15 then none else s.groupSpan s.me.ctx g) with
    | none => .next (s.raise (preFault cSPANOWN g 0 opNone))
    | some e =>
      if s.spanHeld s.me.ctx e (some s.me.sid) then .next (s.raise (preFault cSPANOWN g 0 opNone))
      else
        let s := s.sealStrip.performed.drained.commitStrip.leaveTrellis
        let b := s.me
        let s : State := { s with me := { b with
          gidx := g, spane := e, beds := s.spanBeds e, bedrank := s.bedrankOf b.ctx g,
          masks := Vector.replicate 12 MaskV.zero, slots := Vector.replicate 7 none, vl := 0 } }
        let s := s.retire
        .next (s.openStrip s.me.pc)

namespace State

/-- Whether a node of equal or higher priority is ready on the stream's queue (R312, R335)
(DEDUCED: notes/assumptions/18.md). -/
def yieldsTo (s : State) : Bool :=
  match s.me.node with
  | none => false
  | some r =>
    s.ready.any fun c => c.queue == r.queue &&
      decide (r.level ≤ match s.heads.find? fun h => h.q == c.queue && h.sid.isNone && h.pa == c.pa with
        | some h => s.levelAt c.queue c.level h.since
        | none => c.level)

end State

/-- `YIELD` (R312): it seals the strip; the stream is pre-empted at the next word when other work of its queue is ready
and its span has a save area. -/
def execYield (_land : Bool) (s : State) : Out :=
  s.afterAll fun s =>
    let t := s.sealStrip.performed.retire
    if s.yieldsTo && s.spsave s.me.spane != 0 then
      .next ({ t with nextOrder := t.nextOrder + 1 }.preemptMe false (some ⟨t.now, false, t.nextOrder⟩))
    else .next t

namespace State

/-- Every hold of the stream is released (R269, R314). -/
def releaseAll (s : State) : State := s.me.holds.foldl release s

/-- A stream that ends no longer counts as anybody's child (R310). -/
def forgetChild (sid : Nat) (b : Band) : Band := { b with children := b.children.filter fun c => c.2 != sid }

/-- The end of the stream (R314, step 5): a node's launched stream leaves its Bandstand to the completion of the node,
any other frees it. -/
def endStream (s : State) (final : Nat) : State :=
  let sid := s.me.sid
  let s : State := { s with
    bands := s.bands.map (forgetChild sid),
    stopped := s.stopped.map fun x => { x with band := forgetChild sid x.band } }
  match s.nodes.find? fun n => n.sid == sid with
  | some n =>
    { s with me := { s.me with status := .dead, waiting := none }, completing := s.completing ++ [(n.copy, final, 0)] }
  | none => { s with me := Band.reset s.me.id }

/-- `EXIT` and `HALT` (R314): wait as `BAR`, commit, wait for the children, release, detach, end. -/
def leave (s : State) (final : Nat) : Out :=
  s.afterAll fun s =>
    let s := s.performed.drained.commitStrip.performed
    let s : State := { s with me := { s.me with strip := ⟨true, s.me.strip.resume, none, [], [], [], none, false⟩ } }
    if !s.liveChildren.isEmpty then .next (s.hold .ending)
    else .next (s.releaseAll.leaveTrellis.counted.endStream final)

end State

def execExit (_land : Bool) (s : State) : Out := s.leave 4
def execHalt (_land : Bool) (s : State) : Out := s.leave 5

/-- `ERET` (R318): out of the handler, with the stopped instructions issued again when `EPC` is what trap entry wrote; where
another slot's groups come before theirs it waits (R340). -/
def execEret (_land : Bool) (s : State) : Out :=
  s.afterAll fun s =>
    if !s.me.inh then .next (s.raiseNoAddr cILLEGAL)
    else
      let stops := if s.me.epc = s.me.stopEpc then s.me.stops else []
      if s.stopsContended stops then .next s
      else .next (State.reissue none stops (s.counted.leaveTrap s.me.epc))

end Sys2Proof.Machine
end

