-- ==== Sys2Proof/Machine/Arbour.lean ====
section
/-! DEFINITION. The Arbour (15 R325 to R342): `GARM` and `GREL`, staging, launch and dispatch, the lists of `RUNNER`
nodes, completion, ageing, the Arbour's own pre-emption, and the watchdogs. -/

namespace Sys2Proof.Machine

/-! ### GARM and GREL (R328) -/

namespace State

/-- The node of a form: its cause before issue, the refusal or poison of its granule, and then, in a sealed strip and
after the waits of `BAR`, its effect. -/
def nodeForm (s : State) (a : Reg) (k : State → Nat → State) : Out :=
  s.afterAll fun s =>
    let va := (s.reg a).toNat
    let bad := fun c => Host.Outcome.next (s.raise (preFault c va 0 opObject))
    if va % 64 ≠ 0 then bad cALIGN
    else
      match s.translate .atomic false va with
      | .error c => bad c
      | .ok w =>
        if !w.graph || s.graphOwner (w.key / 65536) != some s.me.ctx then bad cPROT
        else
          let keys := (List.range 64).map fun o => w.key + o
          let s := (s.fillTlb va).readThrough .atomic keys
          match s.badDatum .atomic keys with
          | some b =>
            .next (s.sealStrip.performed.raiseData
              { dataFaultRec b.code va 0 opObject 0x1FFF with refused := b.refused, rmt := b.rmt })
          | none => .next (k s.sealStrip.performed.drained w.key)

/-- `GARM`: arm a node with a count. -/
def garm (s : State) (pa va : Nat) (c : Word) : State × Word :=
  if 2 ^ 31 ≤ c.toNat then (s, -2)
  else if s.readNat (pa + 48) 1 = 2 ∨ s.readNat (pa + 48) 1 = 3 then (s, -1)
  else if !s.nodeOk pa then (s, -3)
  else (((s.writeNat pa 4 c.toNat).writeNat (pa + 48) 1 1).predAtomic pa va, 0)

/-- `GREL`: one release. -/
def grel (s : State) (pa va : Nat) : State × Word :=
  let new := (s.readNat pa 4 + (2 ^ 32 - 1)) % 2 ^ 32
  ((s.writeNat pa 4 new).predAtomic pa va, (BitVec.ofNat 32 new).signExtend 64)

end State

def execGarm (x : EABD) (s : State) : Out :=
  s.nodeForm x.a fun s pa =>
    let r := s.garm pa (s.reg x.a).toNat (s.reg x.b)
    r.1.finish x.d r.2

def execGrel (x : EAD) (s : State) : Out :=
  s.nodeForm x.a fun s pa =>
    let r := s.grel pa (s.reg x.a).toNat
    r.1.finish x.d r.2

namespace State

/-! ### Who can launch (R329, R336, R359) -/

/-- Whether a Bandstand holds a stream of a context that runs. -/
def runsStream (b : Band) : Bool := b.status == .run && b.list.isNone && !b.supv

/-- The resident contexts: those of which a stream runs or keeps stream slots (R359). -/
def residents (s : State) : List Nat :=
  (((s.me :: s.bands).filter runsStream).map Band.ctx ++
    (s.stopped.filter fun x => !x.out).map fun x => x.band.ctx).foldl (fun l c => insertNat c l) []

def mayReside (s : State) (ctx : Nat) : Bool := s.residents.contains ctx || decide (s.residents.length < 64)

/-- The work that a head stands for: a stopped stream, or a ready node. -/
def headWork (s : State) (h : Head) : Option (Stopped ⊕ NodeCopy) :=
  match h.sid with
  | some n => (s.stopped.find? fun x => x.band.sid == n && x.queued.isSome).map .inl
  | none => (s.ready.find? fun c => c.pa == h.pa && c.queue == h.q).map .inr

/-- Whether a head can launch but for the Bandstand: its span is free, its rows are back, its context may be resident. -/
def headFit (s : State) (h : Head) : Bool :=
  match s.headWork h with
  | some (.inl x) => s.rowsBack x && s.mayReside x.band.ctx
  | some (.inr c) =>
    (match s.groupSpan c.ctx c.gidx with
    | some e => !s.spanHeld c.ctx e none && s.mayReside c.ctx
    | none => false)
  | none => false

def headLevel (s : State) (h : Head) : Nat :=
  let base := match s.headWork h with
    | some (.inl x) => (x.band.node.map NodeRef.level).getD 0
    | some (.inr c) => c.level
    | none => 0
  s.levelAt h.q base h.since

/-- The head of two that dispatch prefers: the higher level, then the earlier time, then the lower queue. -/
def betterHead (s : State) (x y : Head) : Head :=
  let a := s.headLevel x
  let b := s.headLevel y
  if b < a ∨ (a = b ∧ (x.since < y.since ∨ (x.since = y.since ∧ x.q ≤ y.q))) then x else y

/-- The head that dispatch chooses (R336). -/
def bestHead (s : State) : Option Head :=
  (s.heads.filter s.headFit).foldl (fun r h => match r with
    | none => some h
    | some g => some (s.betterHead g h)) none

/-! ### The list of a RUNNER node (R330) -/

/-- An entry of a list as the request that it issues; none when it breaks the table or the conditions of R137. -/
def listEntry (bs : List Byte) (k : Nat) : Option RReq :=
  let f := recField bs
  let md := f 1 1
  let kind : Option RKind := match f 0 1 with
    | 0 => some .copy
    | 1 => some .fill
    | 2 => some .gather
    | 3 => some .scatter
    | _ => none
  match kind, sumModeOf (md % 4) with
  | some kind, some mode =>
    let wide := kind == .gather || kind == .scatter
    let seed := BitVec.ofNat 32 (f 48 4)
    let expect := BitVec.ofNat 32 (f 52 4)
    let run : RunF := ⟨false, 0, 0, 0, 0, mode, bit md 2, bit md 3, seed, expect⟩
    if run.ok && (if wide then md / 16 < 9 else md / 16 == 0 && f 32 8 == 0) && f 2 6 == 0 && f 56 8 == 0 then
      some ⟨kind, f 8 8, f 16 8, f 24 8, f 32 8, if f 40 8 = 0 then none else some (f 40 8), mode, bit md 2, bit md 3, seed,
        expect, 2 ^ (md / 16), some k⟩
    else none
  | _, _ => none

/-- The whole list, read in the owner's page table; none where an entry cannot be read or is malformed. -/
def readList (s : State) (c : NodeCopy) : Option (List RReq) :=
  (List.range c.arg.toNat).mapM fun k =>
    match s.arbourPlace c.ctx .read (c.code.toNat + 64 * k) with
    | none => none
    | some pa => (s.arbourRead pa 64).bind fun v => listEntry (bytesLE 64 v) k

/-- The entries issue in order on the node's Bandstand, up to the first whose probe faults
(DEDUCED: notes/assumptions/58.md). -/
def issueList : List RReq → State → State
  | [], s => s
  | r :: rs, s =>
    match s.probeRunner r with
    | .error _ => { s with me := { s.me with list := some (0x100 + r.entry.getD 0) } }
    | .ok c => issueList rs (s.zeroFrames.queueCmd c)

/-! ### Launch (R329, R336, R342) -/

/-- Where a node launches: on the free Bandstand that staged it, else on the lowest free one. -/
def launchStand (s : State) (pa : Nat) : Option (Fin 64) :=
  match (List.finRange 64).find? fun b => b.val != 63 && s.staged.contains (b.val, pa) &&
      (s.me :: s.bands).any fun x => x.id == b && x.status == .free with
  | some b => some b
  | none => s.freeStand

/-- A ready node takes a Bandstand and its span; its timer is armed. -/
def launchNode (s : State) (c : NodeCopy) (b : Fin 64) (e : Nat) : State :=
  let h := s.heads.find? fun h => h.sid.isNone && h.pa == c.pa
  let level := s.levelAt c.queue c.level ((h.map Head.since).getD s.now)
  let s := s.setNodeState c.pa 3
  let s : State := { s with
    ready := s.ready.filter fun x => x.pa != c.pa,
    nodes := s.nodes ++ [⟨c, s.now, s.nextOrder, s.nextSid⟩],
    staged := s.staged.filter fun x => x.2 != c.pa && x.1 != b.val,
    timers := if c.wdog = 0 then s.timers else assocSet s.timers c.queue (s.now + usToCycles c.wdog) }
  let x : Band := { s.freshBand b c.ctx c.gidx e c.code c.arg (BitVec.ofNat 64 c.va) with
    node := some ⟨true, c.va, c.pa, c.queue, level, c.weight⟩ }
  if c.kind = 0 then (s.placeBand x).fixHeads
  else
    let s := (s.placeBand { x with list := some 0 }).fixHeads
    let s := (List.range c.arg.toNat).foldl (fun s k => s.arbourLooks c.ctx (c.code.toNat + 64 * k) 64) s
    match s.readList c with
    | none => s.asBand b fun s => { s with me := { s.me with list := some 4 } }
    | some rs =>
      { (s.asBand b fun s => issueList rs { s with holdBack := true }) with holdBack := s.holdBack }

/-- `NODE_LAUNCH`: the dispatch of R336, when some head can launch and a Bandstand is free. A stopped stream whose instructions
must share a plot goes on once their turn has come (R340). -/
def launch (s : State) : State :=
  match s.bestHead with
  | none => s
  | some h =>
    match s.headWork h with
    | some (.inl x) =>
      (match s.freeStand with
      | some b => if s.resumeWaits x then s else s.resumeOn x b
      | none => s)
    | some (.inr c) =>
      (match s.launchStand c.pa, s.groupSpan c.ctx c.gidx with
      | some b, some e => s.launchNode c b e
      | _, _ => s)
    | none => s

/-- The node that is staged next (R338): of those that are one release short and not staged, the one that dispatch would
choose, by level, then the longest so, then by queue. -/
def stageNext (s : State) : Option Nat :=
  (s.armed.filter fun pa => s.staged.all fun x => x.2 != pa).foldl (fun r pa => match r with
    | none => some pa
    | some a =>
      let x := s.nodeCopy 0 a 0
      let y := s.nodeCopy 0 pa 0
      if x.level < y.level then some pa else some a) none

/-- `NODE_STAGE` (R338): a free Bandstand that stages none takes the next node. It changes only timing. -/
def stageNode (s : State) (b : Fin 64) (pa : Nat) : State :=
  if b.val ≠ 63 ∧ ((s.me :: s.bands).any fun x => x.id == b && x.status == .free) = true ∧
      (s.staged.all fun x => x.1 != b.val) = true ∧ s.stageNext = some pa then
    { s with staged := s.staged ++ [(b.val, pa)] }
  else s

/-! ### Completion (R331, R332) -/

/-- The completions that are due: those noted, and the `RUNNER` nodes whose commands have all completed. -/
def due (s : State) : List (NodeCopy × Nat × Nat) :=
  s.completing ++ s.nodes.filterMap fun n =>
    match (s.me :: s.bands).find? fun b => b.sid == n.sid && b.status == .run && b.runner.isEmpty with
    | some b => b.list.map fun d => (n.copy, if d = 0 then 4 else 6, d)
    | none => none

/-- The completion word at `DONEW` (R331). -/
def doneWord (now : Nat) (badSucc : Bool) (final detail : Nat) : Nat :=
  packFields [(24, detail), (4, final), (2, 0), (1, bitOf badSucc), (1, 1), (32, now)]

/-- Write the completion word, where `DONEW` names one and translates. -/
def writeDone (s : State) (c : NodeCopy) (badSucc : Bool) (final detail : Nat) : State :=
  if c.donew = 0 then s
  else
    let s := s.walkedIn c.ctx c.donew
    match s.arbourPlace c.ctx .write c.donew with
    | none => s
    | some k => s.arbourWrite k 8 (doneWord s.now badSucc final detail)

/-- An MSI-X message of a function: sent, or pending while its vector is masked (R369)
(PRESUMED: notes/assumptions/7.md). -/
def msix (s : State) (fn vec : Nat) : State :=
  if s.msixOn.contains (fn, vec) then { s with answers := s.answers ++ [.msix fn vec] }
  else if s.msixPend.contains (fn, vec) then s
  else { s with msixPend := s.msixPend ++ [(fn, vec)] }

/-- The successors of a node with the physical address of each, none for one that is skipped
(DEDUCED: notes/assumptions/59.md). -/
def successors (s : State) (c : NodeCopy) : List (Nat × Option Nat) :=
  (List.range c.nsucc).map fun k =>
    match (s.arbourPlace c.ctx .read (c.succ + 8 * k)).bind fun pa => s.arbourRead pa 8 with
    | none => (0, none)
    | some va =>
      if va % 64 ≠ 0 then (va, none)
      else
        match s.arbourWhere c.ctx .atomic va with
        | some w => (va, if w.graph ∧ s.graphOwner (w.key / 65536) = some c.ctx then some w.key else none)
        | none => (va, none)

/-- A successor release: a decrement by 1, as an atomic of R325. -/
def releaseSucc (s : State) (ctx va pa : Nat) : State :=
  if !s.granted 52 .atomic (s.route pa) then s.refuse 52 pa
  else
    let s := s.eccRead [pa]
    (s.writeNat pa 4 ((s.readNat pa 4 + (2 ^ 32 - 1)) % 2 ^ 32)).predNow ctx va pa

/-- The Bandstand of a stream is free (R332, step 7). -/
def freeBand (s : State) (sid : Nat) : State :=
  let f := fun (b : Band) => if b.sid = sid ∧ b.supv = false ∧ b.status ≠ .free then Band.reset b.id else b
  { s with me := f s.me, bands := s.bands.map f }

/-- A queue with no node in state 3 has its timer disarmed (R342). -/
def disarmIdle (s : State) (q : Nat) : State :=
  if s.nodes.any fun n => n.copy.queue == q then s else { s with timers := assocDel s.timers q }

/-- `NODE_COMPLETE`: the steps of R332 for a node whose completion is due. -/
def completeNode (s : State) (pa : Nat) : State :=
  match s.due.find? fun x => x.1.pa == pa with
  | none => s
  | some (c, final, detail) =>
    let sid := (s.nodes.find? fun n => n.copy.pa == pa).map RunNode.sid
    let s : State := { s with completing := s.completing.filter fun x => x.1.pa != pa }
    let s := s.setNodeState pa final
    let s := if final = 4 then (List.range c.nsucc).foldl (fun s k => s.arbourLooks c.ctx (c.succ + 8 * k) 8) s else s
    let succ := if final = 4 then s.successors c else []
    let s := (succ.map Prod.fst).foldl (fun s a => s.walkedIn c.ctx a) s
    let s := s.writeDone c (succ.any fun x => x.2.isNone) final detail
    let s := if final = 4 ∧ c.kind = 2 then s.msix (((s.findCtx c.ctx).map Ctx.fn).getD 0) (c.code.toNat % 2048) else s
    let s := succ.foldl (fun s x => match x.2 with
      | some p => s.releaseSucc c.ctx x.1 p
      | none => s) s
    let s : State := if final = 5 ∨ final = 6 then
        { s with sysPend := s.sysPend ++ [⟨cNODE, BitVec.ofNat 64 c.va, BitVec.ofNat 64 (c.ctx + final * 2 ^ 16)⟩] }
      else s
    let s : State := { s with nodes := s.nodes.filter fun n => n.copy.pa != pa }
    ((match sid with
      | some n => s.freeBand n
      | none => s).disarmIdle c.queue).fixHeads

/-! ### Ageing, pre-emption, watchdogs -/

/-- `HEAD_AGEING` (R335): the head's level as it stands now is noted. -/
def ageHead (s : State) (q : Nat) : State :=
  { s with heads := s.heads.map fun h => if h.q = q then { h with level := s.headLevel h } else h }

/-- The victim of R337: a running stream of lowest level below 7, whose queue allows it and whose span has a save area;
at equal level the one launched latest. -/
def victim (s : State) : Option Band :=
  ((s.me :: s.bands).filter fun b => runsStream b && s.spsave b.spane != 0 &&
      b.node.any fun n => decide (n.level < 7) && !s.qNoPre n.queue).foldl (fun r b =>
    let lv := fun (x : Band) => (x.node.map NodeRef.level).getD 0
    match r with
    | none => some b
    | some a => if lv b < lv a ∨ (lv b = lv a ∧ a.order < b.order) then some b else some a) none

/-- `ARBOUR_PREEMPT` (R337): a head at level 7 lacks only a Bandstand. -/
def arbourPreempts (s : State) : State :=
  if s.freeStand.isNone && s.heads.any fun h => s.headFit h && s.headLevel h == 7 then
    match s.victim with
    | none => s
    | some b =>
      ({ s with nextOrder := s.nextOrder + 1 }).asBand b.id fun t => t.preemptMe false (some ⟨s.now, true, s.nextOrder⟩)
  else s

/-- The node of a queue that was launched earliest and runs. -/
def earliestNode (s : State) (q : Nat) : Option RunNode :=
  (s.nodes.filter fun n => n.copy.queue == q).foldl (fun r n => match r with
    | none => some n
    | some m => if n.order < m.order then some n else some m) none

/-- `WATCHDOG_EXPIRY` (R342): the timer is disarmed and reported. -/
def watchdog (s : State) (q : Nat) : State :=
  match assoc s.timers q with
  | none => s
  | some t =>
    if s.now < t then s
    else
      let s : State := { s with timers := assocDel s.timers q }
      match s.earliestNode q with
      | none => s
      | some n =>
        { s with sysPend := s.sysPend ++ [⟨cWDOG, BitVec.ofNat 64 n.copy.va, BitVec.ofNat 64 (q + n.copy.ctx * 2 ^ 16)⟩] }

/-- `QSTAT` of a queue (R334). -/
def qstat (s : State) (q : Nat) : Word :=
  let left := match assoc s.timers q with
    | some t => max 1 (((t - s.now) * 769 + 999999) / 1000000)
    | none => 0
  BitVec.ofNat 64 (packFields [(31, min left (2 ^ 31 - 1)), (1, bitOf (assoc s.timers q).isSome),
    (16, (s.ready.filter fun c => c.queue == q).length), (16, (s.nodes.filter fun n => n.copy.queue == q).length)])

end State

def execNodeStage (b : Fin 64) (node : Nat) (s : State) : Out := .next (s.stageNode b node)
def execNodeLaunch (s : State) : Out := .next s.launch
def execNodeComplete (node : Nat) (s : State) : Out := .next (s.completeNode node)
def execHeadAgeing (q : Fin 256) (s : State) : Out := .next (s.ageHead q.val)
def execArbourPreempt (s : State) : Out := .next s.arbourPreempts
def execWatchdogExpiry (q : Fin 256) (s : State) : Out := .next (s.watchdog q.val)

end Sys2Proof.Machine
end

