-- ==== Sys2Proof/Machine/Supervisor.lean ====
section
/-! DEFINITION. The supervisor forms (17 R358 to R362), the killing of a context (17 R363, 10 R282, 05 R145, 09 R249),
and the steps by which faults and system events enter handlers (11 R316, R317, 17 R351 to R357, 19 R366). -/

namespace Sys2Proof.Machine

namespace State

/-! ### Killing a context (R363) -/

/-- The arrivals that stand in the stream's queues: the object and the generation of each. -/
def arrivals (b : Band) : List (Nat × Nat) := b.runner.filterMap RCmd.arrival ++ b.trl.queue.filterMap TCmd.arrival

/-- Steps 1 to 3 for the moving stream: it stops, its Runner commands write `STAT` 4, its objects are poisoned and its
holds dropped, and its queued arrivals are performed as discarded (R275) (DEDUCED: notes/assumptions/60.md). -/
def killStream (s : State) : State :=
  let s : State := { s with me := { s.me with jobs := [], wpkts := [], pending := none, waiting := none } }
  let s := (s.me.runner.filter fun c => c.arrival.isNone).foldl
    (fun s c => s.writeWord { c with stat := 4, faultAt := 0 }) s
  let s := (s.me.holds.map Hold.key ++ (arrivals s.me).map Prod.fst).foldl poisonObject s
  let s := (arrivals s.me).foldl (fun s a => s.arrivePerform a.1 a.2) s
  let s := s.me.holds.foldl (fun s h =>
    if h.shared then s.setField h.key 2 2 (s.oNsh h.key - 1) else s.setField h.key 4 4 0) s
  let s := match (if s.me.ntfa = 0 then none else some s.me.ntfa).map fun a => s.translate .atomic true a.toNat with
    | some (.ok w) => if w.sync then s.poisonObject w.key else s
    | _ => s
  { s with me := { s.me with runner := [], holds := [], trl := Trl.empty, status := .dead } }

/-- A node of the context becomes KILLED (step 5). -/
def killNode (s : State) (c : NodeCopy) : State := (s.setNodeState c.pa 7).writeDone c false 7 0

/-- The context is killed. `why` is the cause of a kill by the hardware, with the `EPC` of the stream that met it. -/
def killContext (s : State) (ctx : Nat) (why : Option (Nat × Word)) : State :=
  let mine := fun (b : Band) => b.status != .free && b.ctx == ctx && !b.supv
  let s := ((s.me :: s.bands).filter mine).foldl (fun s b => s.asBand b.id killStream) s
  let s := (s.stopped.filter fun x => x.band.ctx == ctx).foldl (fun s x => s.asStopped x killStream) s
  let s : State := { s with
    stopped := s.stopped.filter fun x => x.band.ctx != ctx,
    me := if mine s.me then Band.reset s.me.id else s.me,
    bands := s.bands.map fun b => if mine b then Band.reset b.id else b,
    ctxs := s.ctxs.map fun c => if c.id = ctx then
      { c with frames := [], leaving := [], bindings := [], shadows := [], killed := true } else c,
    pendKill := s.pendKill.filter fun k => k.ctx != ctx }
  let ns := (s.nodes.map RunNode.copy ++ s.ready ++ s.completing.map Prod.fst).filter fun c => c.ctx == ctx
  let s := ns.foldl killNode s
  let s : State := { s with
    nodes := s.nodes.filter fun n => n.copy.ctx != ctx,
    ready := s.ready.filter fun c => c.ctx != ctx,
    completing := s.completing.filter fun c => c.1.ctx != ctx }
  let s := (ns.foldl (fun s c => s.disarmIdle c.queue) s).fixHeads
  match why with
  | none => s
  | some (code, epc) =>
    { s with sysPend := s.sysPend ++ [⟨cKILL, epc, BitVec.ofNat 64 (ctx + code * 2 ^ 16)⟩] }

/-! ### The supervisor forms -/

/-- A supervisor form that writes a result. -/
def supForm (s : State) (d : Reg) (f : State → State × Word) : Out :=
  s.supervised fun s => s.afterAll fun s =>
    let r := f s
    .next (r.1.finish d r.2)

/-- The context stream that runs on a Bandstand. -/
def streamOn (s : State) (b : Fin 64) : Option Band :=
  if b.val = 63 then none else (s.me :: s.bands).find? fun x => x.id == b && runsStream x

/-- `PREEMPT` (R359). -/
def preemptForm (s : State) (out : Bool) (b : Fin 64) : State × Word :=
  match s.streamOn b with
  | none => (s, -1)
  | some x => if s.spsave x.spane = 0 then (s, -3) else (s.asBand b fun s => s.preemptMe out none, 0)

/-- Act on a frame as the user mode of its context would, by the Runners of the frame's beds (R360). -/
def asFrame (s : State) (ctx : Nat) (f : Frame) (k : State → State × Word) : State × Word :=
  let b := s.me
  let beds := (s.framePlots f).foldl (fun l p => if l.contains (p / 64) then l else l ++ [p / 64]) []
  let r := k (State.zeroFrames { s with me := { b with ctx, supv := false, beds, holds := [], runner := [] } })
  ({ r.1 with me := b }, r.2)

/-- The frame that `PREEMPT.park` and `PREEMPT.renew` name, or the status that refuses it; −4 before −3
(DESIGN CHOICE: notes/assumptions/56.md). -/
def parkTarget (s : State) (v : Word) : Except Word (Nat × Frame) :=
  let ctx := bits v.toNat 0 16
  match (if 2 ^ 24 ≤ v.toNat then none else s.findCtx ctx).bind fun c =>
      if c.killed then none else c.frame (bits v.toNat 16 8) with
  | none => .error (-1)
  | some f =>
    if (s.me :: s.bands).any fun b => runsStream b && b.ctx == ctx then .error (-2)
    else if f.park || f.wd || s.frameOff f || decide (s.lifeLeft f < 4096) then .error (-4)
    else .ok (ctx, f)

def parkRenew (s : State) (v : Word) : State × Word :=
  match s.parkTarget v with
  | .error r => (s, r)
  | .ok (ctx, f) => s.asFrame ctx f fun s => ((s.crenew f s.lifeCap).1, 0)

/-- The park address of a frame slot (R360). -/
def parkAddress (slot : Nat) : Nat := 0x007FFE0000000000 + slot * 2 ^ 32

/-- `PREEMPT.park`: the copy of `RPARK`, performed before the form completes. -/
def parkCopy (s : State) (v : Word) : State × Word :=
  match s.parkTarget v with
  | .error r => (s, r)
  | .ok (ctx, f) =>
    s.asFrame ctx f fun s =>
      match s.probeRunner ⟨.park, slotBase f.slot, parkAddress f.slot, f.size, 0, none, .none, false, false, 0, 0, 1, none⟩ with
      | .error _ => (s, -3)
      | .ok c =>
        let b := s.beginCmd c
        let r := runLines b.2.lines b.1 b.2
        if r.2.stat = 0 then (r.1.parked r.2, 0) else (r.1, -3)

/-- `CRES` (R361) (DEDUCED: notes/assumptions/57.md). -/
def cres (s : State) (v : Word) : State × Word :=
  match (if v.toNat > 255 then none else s.stopped.find? fun x => x.band.spane == v.toNat) with
  | none => (s, -1)
  | some x =>
    let at_ := s.spsave v.toNat
    let s := s.arbourReads at_ 16
    if s.arbourRead at_ 4 ≠ some 0x31455250 ∨ s.arbourRead (at_ + 4) 2 ≠ some (s.spanCtx v.toNat) ∨
        s.arbourRead (at_ + 8) 1 ≠ some (s.spanNB v.toNat) then (s, -2)
    else if !s.mayReside x.band.ctx then (s, -3)
    else
      let s : State := { s with
        nextOrder := s.nextOrder + 1,
        stopped := (s.stopped.filter fun y => y.band.sid != x.band.sid) ++ [{ x with queued := some ⟨s.now, true, s.nextOrder⟩ }] }
      (s.fixHeads, 0)

/-- `KILL` (R363) (DEDUCED: notes/assumptions/52.md). -/
def killForm (s : State) (v : Word) : State × Word :=
  match (if 2 ^ 16 ≤ v.toNat then none else s.findCtx v.toNat) with
  | none => (s, -1)
  | some c => if c.killed then (s, -1) else if c.id = s.me.ctx then (s, -2) else (s.killContext c.id none, 0)

/-- `WDOG` (R362). -/
def wdogForm (s : State) (v : Word) (us : Nat) : State × Word :=
  let q := v.toNat
  if q > 255 then (s, -1)
  else if (s.nodes.all fun n => n.copy.queue != q) ∧ us ≠ 0 then (s, -2)
  else
    ({ s with timers := if us = 0 then assocDel s.timers q else assocSet s.timers q (s.now + usToCycles us) },
      BitVec.ofNat 64 ((s.qstat q).toNat % 2 ^ 31))

end State

def execPreempt (_land out : Bool) (d : Reg) (b : Fin 64) (s : State) : Out := s.supForm d fun s => s.preemptForm out b
def execPreemptPark (x : S2) (s : State) : Out := s.supForm x.d fun s => s.parkCopy (s.reg x.a)
def execPreemptRenew (x : S2) (s : State) : Out := s.supForm x.d fun s => s.parkRenew (s.reg x.a)
def execCres (x : S2) (s : State) : Out := s.supForm x.d fun s => s.cres (s.reg x.a)
def execKill (x : S2) (s : State) : Out := s.supForm x.d fun s => s.killForm (s.reg x.a)
def execWdog (x : SI2) (s : State) : Out := s.supForm x.d fun s => s.wdogForm (s.reg x.a) x.imm.toNat

namespace State

/-! ### The steps of faults and system events -/

/-- The moving stream's met data fault is settled once no other slot's groups come between: older instructions finish, and the
strip is rewound or the handler is entered (R317, R340, R351, R353). -/
def resolve (s : State) : State :=
  if s.contended then s
  else
    let t := s.settledOr
    { t with me := { t.me with pending := none } }

/-- `TRAP_ENTRY` and `STRIP_REWIND`: the met fault of a stream, when it goes to the handler, or when it rewinds. -/
def faultTurn (s : State) (b : Fin 64) (rewinds : Bool) : State :=
  s.asBand b fun s =>
    match s.me.pending with
    | some p => if s.rewindsFor p.1 = rewinds then s.resolve else s
    | none => s

/-- `SYSTEM_EVENT_ENTRY` (R366): the oldest pending event enters the supervisor's handler once every issued instruction has
finished; a wait whose end has been told has, and the end of a stream and `PUB` are no waits that are abandoned. -/
def systemEvent (s : State) : State :=
  match s.sysPend with
  | [] => s
  | e :: rest =>
    s.asBand 63 fun t =>
      if t.me.status ≠ .run ∨ t.me.inh = true ∨ t.me.waiting = some .ending then t
      else
        match t.settled with
        | .error u => u
        | .ok u =>
          let u := u.endedWait
          let r : FaultRec := ⟨causeClass e.code, e.code, e.addr, 0, opNone, 0, false, 0x1FFF, e.info, false⟩
          State.enterTrap { u with sysPend := rest } r u.me.issueAddr 0 []

/-- `CONTEXT_KILL`: a kill that an unhandled fault or a lane mismatch has asked for (R317, R354). -/
def contextKill (s : State) (ctx : Nat) : State :=
  match s.pendKill.find? fun k => k.ctx == ctx with
  | some k => s.killContext ctx (some (k.code, k.epc))
  | none => s

/-- The mask whose bits an M form writes or counts. -/
def maskOf : Instr → Option Mask
  | .mand x | .mor x | .mxor x | .mandn x => some x.d
  | .mnot x | .mmov x | .mbef x => some x.d
  | .mset x | .mclr x => some x.d
  | .mpop _ x | .mfirst x => some x.a
  | _ => none

/-- The address of the instruction with a number that a plot performs or has just performed: one in flight, of which the plot
has or had groups, or an M form that is the stream's last, with bits at the plot (R210). -/
def checkedAt (s : State) (seq plot : Nat) : Option Word :=
  match s.me.jobs.find? fun j => j.seq == seq with
  | some j => if (j.elems.any fun e => e.plot == plot) || (assoc j.prog plot).isSome then some j.addr else none
  | none =>
    if seq + 1 ≠ s.me.seq then none
    else
      match (s.fetchWord (s.me.pc - 16).toNat).map decode with
      | some (.ok i) =>
        (maskOf i).bind fun d =>
          if (List.range s.me.vl).any fun k => (s.me.masks[d.val]).home s.me.beds k == plot then some (s.me.pc - 16) else none
      | _ => none

/-- `CHECKING_LANE_MISMATCH` (R354): the lane of a bed of the span differs in an instruction that it checks
(DEDUCED: notes/assumptions/61.md). -/
def laneMismatch (s : State) (b : Fin 64) (seq plot : Nat) : State :=
  s.asBand b fun s =>
    match s.checkedAt seq plot with
    | none => s
    | some addr =>
      if s.me.status ≠ .run ∨ plot % 64 ≠ seq % 64 then s
      else if !s.me.strip.sealed && !s.me.strip.rewound then s.rewind
      else if s.me.supv then s.unhandled cCHECK addr
      else if s.spsave s.me.spane = 0 then
        State.unhandled { s with me := { s.me with pc := s.me.issueAddr, pfx := none } } cCHECK s.me.issueAddr
      else
        let info := plot / 64 + 1 * 2 ^ 8 + s.me.ctx * 2 ^ 16 + s.me.spane * 2 ^ 32
        State.preemptMe { s with sysPend := s.sysPend ++ [⟨cCHECK, addr, BitVec.ofNat 64 info⟩] } false none

/-- `STREAM_PREEMPTION` (R355, R356): the stream on a Bandstand is taken off it and stays stopped until `CRES`. -/
def preemption (s : State) (b : Fin 64) (out : Bool) : State := (s.preemptForm out b).1

/-- `STREAM_RESUME` (R357): the stopped stream of a span entry, when dispatch chooses it. -/
def resumption (s : State) (e : Nat) : State :=
  match s.bestHead.bind s.headWork with
  | some (.inl x) => if x.band.spane = e then s.launch else s
  | _ => s

end State

def execSystemEventEntry (s : State) : Out := .next s.systemEvent
def execTrapEntry (b : Fin 64) (s : State) : Out := .next (s.faultTurn b false)
def execStripRewind (b : Fin 64) (s : State) : Out := .next (s.faultTurn b true)
def execCheckingLaneMismatch (b : Fin 64) (seq plot : Nat) (s : State) : Out := .next (s.laneMismatch b seq plot)
def execStreamPreemption (b : Fin 64) (out : Bool) (s : State) : Out := .next (s.preemption b out)
def execStreamResume (entry : Nat) (s : State) : Out := .next (s.resumption entry)
def execContextKill (ctx : Nat) (s : State) : Out := .next (s.contextKill ctx)

end Sys2Proof.Machine
end

