-- ==== Sys2Proof/Machine/Cellar.lean ====
section
/-! DEFINITION. Swap pairs and invalidations (04 R118 to R122), and the dropping of cached records (05 R127). -/

namespace Sys2Proof.Machine

namespace State

/-! ### Swap pairs (R118 to R121) -/

/-- Opcodes that exist only once swap pairs are accepted (R43, R120). -/
def swapForm (s : State) (k : State → Out) : Out :=
  if s.featSwap then k s else s.afterAll fun s => .next (s.raiseNoAddr cILLEGAL)

/-- The entry at a physical address of the HBM range, or none where it cannot be read: refused, poisoned or uncorrectable
(DESIGN CHOICE: notes/assumptions/62.md). -/
def entryAt (s : State) (pa : Nat) : Option Nat :=
  if pa % 8 ≠ 0 ∨ hbmEnd ≤ pa then none
  else if s.granted 48 .read (s.route pa) then s.soundNat pa 8
  else none

/-- What the reading of the two entries does at their channels (R109, R373). -/
def entryReads (s : State) (pa : Nat) : State :=
  if pa % 8 ≠ 0 ∨ hbmEnd ≤ pa then s
  else if s.granted 48 .read (s.route pa) then s.eccRead [pa] else s.refuse 48 pa

/-- Whether an entry at an address is a well-formed leaf of level 3 of a tier (R97, R120). -/
def leafOfTier (s : State) (tier at_ e : Nat) : Bool := pteV e && pteLeaf e && pteTier e == tier && s.pteOk at_ e 3

/-- `PSWAP` (R120); an entry that cannot be read is no leaf (DESIGN CHOICE: notes/assumptions/62.md). -/
def pswap (s : State) (pc ph : Nat) : State × Word :=
  let s := (s.entryReads pc).entryReads ph
  match (s.entryAt pc).filter (s.leafOfTier 1 pc), (s.entryAt ph).filter (s.leafOfTier 0 ph) with
  | none, _ =>
    -- a misaligned or distant `ph` comes before a wrong entry at `pc`
    if pc % 8 = 0 ∧ pc < hbmEnd ∧ (ph % 8 ≠ 0 ∨ hbmEnd ≤ ph) then (s, -3) else (s, -2)
  | some _, none => (s, -3)
  | some ec, some eh =>
    let c := ptePpn ec
    let h := ptePpn eh
    if s.pairs.any fun p => p.c == c || p.h == c || p.c == h || p.h == h then (s, -4)
    else
      match (List.range 64).find? fun q => s.pairs.all fun p => p.q != q with
      | none => (s, -1)
      | some q => ({ s with pairs := s.pairs ++ [⟨q, c, h, pc, ph, 0⟩] }, BitVec.ofNat 64 q)

/-- The report of a pair (R121). -/
def pairWord : Option Pair → Word
  | none => 0
  | some p => BitVec.ofNat 64 (packFields [(9, p.moved), (7, 0), (6, p.q), (40, 0), (1, bitOf (p.moved == 256)), (1, 1)])

/-- The other page's key of a key on either page of a pair. -/
def otherKey (p : Pair) (k : Nat) : Nat :=
  if k / 65536 = p.c then p.h * 65536 + k % 65536
  else if k / 65536 = p.h then p.c * 65536 + k % 65536 else k

/-- Cells with the keys of one line of the pair exchanged, or of whole pages. -/
def swapCells (f : Nat → Nat) (m : List Host.Cell) : List Host.Cell := m.foldl (fun r c => Memory.put r (f c.1) c.2) []

/-- Change every stream, running or stopped. -/
def mapBands (s : State) (f : Band → Band) : State :=
  { s with me := f s.me, bands := s.bands.map f, stopped := s.stopped.map fun x => { x with band := f x.band } }

/-- `SWAP_LINE_EXCHANGE` (R119): the next line of a MOVING pair, with its poison; what streams fetch moves along. -/
def exchangeLine (s : State) (q : Nat) : State :=
  match s.pairs.find? fun p => p.q == q with
  | none => s
  | some p =>
    if 256 ≤ p.moved then s
    else
      let kc := p.c * 65536 + p.moved * 256
      let kh := p.h * 65536 + p.moved * 256
      let s := s.eccRead ((List.range 256).flatMap fun o => [kc + o, kh + o])
      let bc := s.readBytes kc 256
      let bh := s.readBytes kh 256
      let xc := s.isPoisoned kc
      let xh := s.isPoisoned kh
      let s := (s.writeCells (cellsOf kc bh) xh).writeCells (cellsOf kh bc) xc
      let f := fun k => if k / 256 = kc / 256 ∨ k / 256 = kh / 256 then otherKey p k else k
      let s := s.mapBands fun b => { b with text := b.text.map fun t => { t with cells := swapCells f t.cells } }
      { s with dcache := [], pairs := s.pairs.map fun x => if x.q = q then { x with moved := x.moved + 1 } else x }

/-- Every begun instruction and command of every stream finishes. -/
def quiesceAll (s : State) : State :=
  let s := (((s.me :: s.bands).filter fun b => b.status = .run).map Band.id).foldl
    (fun s b => s.asBand b fun s => s.settledOr.performed.drainEngines) s
  s.stopped.foldl (fun s x => s.asStopped x drainRunner) s

/-- What a stream holds by physical address, at its new address. -/
def rekeyBand (f : Nat → Nat) (b : Band) : Band :=
  { b with
    strip := { b.strip with far := b.strip.far.map (fun p => { p with cells := p.cells.map fun c => (f c.1, c.2) }),
                             farAt := b.strip.farAt.map fun x => (x.1, f (x.2 * 64) / 64) },
    holds := b.holds.map fun h => { h with key := f h.key },
    waiting := b.waiting.map fun w => match w with
      | .acq k sh n x => .acq (f k) sh n x
      | .await k g x r => .await (f k) g x r
      | .awaitGe k b x r => .awaitGe (f k) b x r
      | .ending => .ending
      | .other => .other,
    node := b.node.map fun n => { n with pa := f n.pa } }

def rekeyNode (f : Nat → Nat) (c : NodeCopy) : NodeCopy := { c with pa := f c.pa }

/-- What the device holds by physical address, at its new address (DEDUCED: notes/assumptions/63.md). -/
def rekey (s : State) (f : Nat → Nat) : State :=
  let s := s.mapBands (rekeyBand f)
  { s with
    ctxs := s.ctxs.map fun c => { c with bindings := c.bindings.map fun b => { b with key := f b.key } },
    ready := s.ready.map (rekeyNode f),
    heads := s.heads.map fun h => { h with pa := f h.pa },
    nodes := s.nodes.map fun n => { n with copy := rekeyNode f n.copy },
    completing := s.completing.map fun c => (rekeyNode f c.1, c.2),
    crossed := s.crossed.map fun x => (f x.1, x.2),
    staged := s.staged.map fun x => (x.1, f x.2) }

/-- `SWAP_FLIP` (R118, R120): users finish, the two entries exchange bits [51:20], cached translations of either page
go, and the slot is free (DEDUCED: notes/assumptions/71.md). -/
def flip (s : State) (q : Nat) : State :=
  match s.pairs.find? fun p => p.q == q with
  | none => s
  | some p =>
    if p.moved < 256 then s
    else
      let s := s.quiesceAll
      let s := s.exchangeLeaves p.pc p.ph
      let s := s.dropTlb fun t => pteTier t.entry != 2 &&
        [p.c, p.h].any fun g => decide (ptePpn t.entry ≤ g) && decide (g < ptePpn t.entry + t.size / 65536)
      { (s.rekey (otherKey p)) with pairs := s.pairs.filter fun x => x.q != q }

/-- A pair in FLIP holds the issue of what touches its pages (R118): the flip comes first. -/
def flipFirst (s : State) (i : Instr) : State :=
  match i with
  | .pswq true _ => s
  | _ => (s.pairs.filter fun p => decide (256 ≤ p.moved)).foldl (fun s p => s.flip p.q) s

end State

def execPswap (x : EABD) (s : State) : Out :=
  s.swapForm fun s => s.supForm x.d fun s => s.pswap (s.reg x.a).toNat (s.reg x.b).toNat

/-- `PSWQ` and `PSWQ.pair` (R121). -/
def execPswq (pair : Bool) (x : EAD) (s : State) : Out :=
  s.swapForm fun s =>
    if pair then s.supForm x.d fun s => (s, State.pairWord (s.pairs.find? fun p => p.q == (s.reg x.a).toNat))
    else
      s.afterAll fun s =>
        let va := (s.reg x.a).toNat
        match s.translate .read false va with
        | .error c => .next (s.raise (preFault c va 0 opNone))
        | .ok w =>
          .next ((s.fillTlb va).finish x.d (State.pairWord (if w.near || w.remote then none
            else s.pairs.find? fun p => p.c == w.key / 65536 || p.h == w.key / 65536)))

namespace State

/-! ### TLBI (R122, R319) -/

/-- The streams of a context fetch an interval of addresses as memory now stands. -/
def refreshText (s : State) (ctx lo hi : Nat) : State :=
  let t : TextCopy := ⟨lo, hi, s.textNow⟩
  s.mapBands fun b => if b.status = .run ∧ b.ctx = ctx then
    { b with text := t :: b.text.filter fun x => !(decide (lo ≤ x.lo) && decide (x.hi ≤ hi)) } else b

/-- The page that contains an address of a context: first address and size. -/
def pageOf (s : State) (c : Ctx) (va : Nat) : Nat × Nat :=
  match s.leafOf c va with
  | some l => (va - va % pageSize l.level, pageSize l.level)
  | none => (va - va % 65536, 65536)

/-- Drop what one context's translations of the pages that meet [lo, hi) are. -/
def tlbiRange (s : State) (ctx lo hi : Nat) : State :=
  match s.findCtx ctx with
  | none => s
  | some c =>
    let first := (s.pageOf c lo).1
    let last := let p := s.pageOf c (hi - 1); p.1 + p.2
    let s := s.quiesce ctx
    let s := s.dropTlb fun t => t.ctx == ctx && decide (t.base < hi) && decide (lo < t.base + t.size)
    s.refreshText ctx first last

/-- Everything of one context. -/
def tlbiCtx (s : State) (ctx : Nat) : State :=
  match s.findCtx ctx with
  | none => s
  | some _ => ((s.quiesce ctx).dropTlb fun t => t.ctx == ctx).refreshText ctx 0 (2 ^ 55)

/-- `TLBI`: the named translations are dropped once what uses them has finished. -/
def tlbi (s : State) (k : TlbiKind) : State :=
  match k with
  | .all =>
    let s := (s.ctxs.foldl (fun s c => s.quiesce c.id) s).dropTlb fun _ => true
    s.ctxs.foldl (fun s c => s.refreshText c.id 0 (2 ^ 55)) s
  | .ctx a => s.tlbiCtx (s.reg a).toNat
  | .page a b =>
    let va := (s.reg b).toNat
    if 2 ^ 55 ≤ va ∨ isNearVa va = true then s else s.tlbiRange (s.reg a).toNat va (va + 1)
  | .range a b c =>
    let va := (s.reg b).toNat
    let n := (s.reg c).toNat
    if 2 ^ 55 ≤ va ∨ n = 0 then s else s.tlbiRange (s.reg a).toNat va (min (va + 65536 * n) (2 ^ 55))

end State

def execTlbi (_land : Bool) (k : TlbiKind) (s : State) : Out :=
  s.supervised fun s => s.afterAll fun s => .next (s.tlbi k).retire

/-- `RECF` (R127). -/
def execRecf (_land : Bool) (a : Option Reg) (s : State) : Out :=
  s.afterAll fun s =>
    let gone := fun (p : Nat × List Byte) => match a with
      | none => true
      | some r => p.1 == (s.reg r).toNat
    .next (s.mapBands fun b => if b.ctx = s.me.ctx then { b with recs := b.recs.filter fun p => !gone p } else b).retire

def execSwapLineExchange (q : Fin 64) (s : State) : Out := .next (s.exchangeLine q.val)
def execSwapFlip (q : Fin 64) (s : State) : Out := .next (s.flip q.val)

end Sys2Proof.Machine
end

