-- ==== Sys2Proof/Machine/Plots.lean ====
section
/-! DEFINITION. The steps of the plots (07 R176 to R187, 15 R340, R341): the performing of a destination group, pulls and far
returns, the horizon, and the span-wide reductions. -/

namespace Sys2Proof.Machine

namespace State

def jobAt (s : State) (seq : Nat) : Option Job := s.me.jobs.find? fun j => j.seq == seq

/-! ### Performing a group -/

/-- What landed for elements that are all performed is dropped, and the routes that bring nothing more are free (R103). -/
def pruneLanded (j : Job) : Job :=
  { j with landed := j.landed.filter fun x => j.elems.any fun e =>
             (sources j e).any fun y => y.recv == x.plot && y.grp == x.grp,
           routes := openRoutes j }

/-- What is bad of the bytes of a group (R109, R147, R373). -/
def badOf (s : State) (keys : List Nat) : List (Nat × Nat) :=
  keys.filterMap fun k =>
    if (s.buffered k).isSome then none
    else if !s.granted 48 .read (s.route k) then some (k, cPOISON + 256 + if isRemote k then 256 else 0)
    else if s.isPoisoned k then some (k, cPOISON)
    else if isNear k && s.isUE k then some (k, cNEARUE) else none

/-- The bytes of a group as the instruction sees them now: those that it has replaced itself as they were. -/
def groupCells (s : State) (j : Job) (g : Nat) : List (Nat × Byte) :=
  if 2 ^ 60 ≤ g then []
  else (List.range 64).map fun o => (g * 64 + o, (assoc j.saved (g * 64 + o)).getD (s.seen (g * 64 + o)))

/-- The plot keeps the groups that it has read in place and that a later group of the instruction reads too, so that every
element sees one content of a group (R26, R38). -/
def keepSources (s : State) (j : Job) (g : List Elem) : List Landed :=
  let plot := (g.head?.map Elem.plot).getD 0
  let later := (j.elems.filter fun e => e.plot == plot && !g.contains e).flatMap (sources j)
  let now := ((g.flatMap (sources j)).filter fun x =>
    x.recv == plot && !landedAt j plot x.grp && later.any fun y => y.recv == plot && y.grp == x.grp).foldl
      (fun l x => insertNat x.grp l) []
  now.map fun x => ⟨plot, x, s.groupCells j x, s.badOf ((s.groupCells j x).map Prod.fst), none⟩

/-- `ELEMENT_GROUP_PERFORM` (R176, R192, R340, R351); `only` asks for the fault alone, as `DATA_FAULT` reports it. -/
def groupTurn (s : State) (seq plot : Nat) (only : Bool) : State :=
  match s.jobAt seq with
  | none => s
  | some j =>
    match nextGroup j plot, (s.bandSlot s.me plot).bind (s.takeSlot plot) with
    | some g, some a =>
      if s.me.status ≠ .run ∨ s.groupReady j g = false then s
      else
        let r := s.performGroup s j g
        (match r.2.2 with
        | some f => ((r.1.putJob r.2.1).putArb a).meet f seq
        | none =>
          if only then s
          else
            let k := pruneLanded { r.2.1 with landed := r.2.1.landed ++ s.keepSources j g }
            (r.1.putJob k).charge a k (groupPasses s j g))
    | _, _ => s

/-! ### Pulls (R178 to R182, R187) -/

/-- A group of a job that travels to a plot, with the element that needs it. -/
def wanted (j : Job) (plot g : Nat) (near : Bool) : Option (Elem × Src) :=
  j.elems.findSome? fun e => ((sources j e).find? fun x => x.recv == plot && x.grp == g && x.near == near && x.travels).map fun x => (e, x)

def setFetch (j : Job) (plot g : Nat) (leg : Option Leg) (tags : List (Nat × Nat)) : Job :=
  { j with fetches := (j.fetches.filter fun f => !(f.plot == plot && f.grp == g)) ++
      (leg.map fun x => (⟨plot, g, x, tags⟩ : Fetch)).toList }

/-- The group as the owner or the channel delivers it: its bytes, what is bad of them, or the owner's cause. -/
def deliver (s : State) (j : Job) (e : Elem) (x : Src) : State × Job :=
  let cells := s.groupCells j x.grp
  let keys := cells.map Prod.fst
  let s := s.readThrough .read keys
  let cause := if 2 ^ 60 ≤ x.grp then none
    else (sourceLocs j e).findSome? fun l => if (locGroups l).contains x.grp then s.placeCause l (x.grp * 64) else none
  let y : Landed := match cause with
    | some c => ⟨x.recv, x.grp, [], [], some c⟩
    | none => ⟨x.recv, x.grp, s.groupCells j x.grp, s.badOf keys, none⟩
  (s, { j with landed := (j.landed.filter fun z => !(z.plot == x.recv && z.grp == x.grp)) ++ [y] })

/-- Whether a group travels over the pull network. -/
def pulled (g : Nat) : Bool := decide (2 ^ 60 ≤ g) || isNear (g * 64)

/-- The entries that pulls of the stream take at an owner, and the response slots that they take at a requester (R182): a request
that must be sent again takes no entry, and a group that has landed gives its slot back; the four places that are kept for
instruction H' + 1 are the last that are given (notes/assumptions/89.md, DESIGN CHOICE). -/
def entriesAt (s : State) (owner : Nat) : Nat :=
  ((s.me.jobs.flatMap Job.fetches).filter fun f => f.leg == .sent && pulled f.grp && groupOwner f.grp == owner).length
def slotsAt (s : State) (plot : Nat) : Nat :=
  ((s.me.jobs.flatMap Job.fetches).filter fun f => f.plot == plot && pulled f.grp).length

/-- A request that has its entry is served after the owner's writes of earlier instructions, and waits for them there (R178). -/
def serve (s : State) (j : Job) (plot g : Nat) (e : Elem) (x : Src) : State :=
  if s.readWaits j x then s.putJob (setFetch j plot g (some .sent) [])
  else
    let r := s.deliver j e x
    r.1.putJob (setFetch r.2 plot g (some .served) [])

/-- A request reaches the owner, which has no entry for it and answers with a retry, or takes it (R182). -/
def askOwner (s : State) (j : Job) (plot g : Nat) (e : Elem) (x : Src) : State :=
  if (if j.seq == s.me.horiz + 1 then 64 else 60) ≤ s.entriesAt x.owner then s.putJob (setFetch j plot g (some .retry) [])
  else s.serve j plot g e x

/-- `PULL_REQUEST` (R176, R180, R182): the requester has begun the instruction and reserves a response slot; a request that waits
at its owner is looked at again. -/
def pullRequest (s : State) (seq plot g : Nat) : State :=
  match s.jobAt seq with
  | none => s
  | some j =>
    match wanted j plot g true with
    | none => s
    | some (e, x) =>
      if s.me.status ≠ .run ∨ landedAt j plot g = true ∨ s.begun j = false then s
      else
        match (j.fetches.find? fun f => f.plot == plot && f.grp == g).map Fetch.leg with
        | some .served | some .retry => s
        | some .sent => s.serve j plot g e x
        | none => if (if seq == s.me.horiz + 1 then 32 else 28) ≤ s.slotsAt plot then s else s.askOwner j plot g e x

/-- `PULL_RESPONSE`, `FAR_RETURN`: the served group lands at the requester. -/
def pullResponse (s : State) (seq plot g : Nat) : State :=
  match s.jobAt seq with
  | none => s
  | some j =>
    if j.fetches.any fun f => f.plot == plot && f.grp == g && f.leg == .served then
      let k := setFetch j plot g none []
      s.putJob { k with routes := openRoutes k }
    else s

/-- `PULL_RETRY`: the requester, whose response slot is still reserved, sends again (R182). -/
def pullRetry (s : State) (seq plot g : Nat) : State :=
  match s.jobAt seq with
  | none => s
  | some j =>
    if s.me.status = .run ∧ (j.fetches.any fun f => f.plot == plot && f.grp == g && f.leg == .retry) = true then
      match wanted j plot g true with
      | some (e, x) => s.askOwner j plot g e x
      | none => s.putJob (setFetch j plot g none [])
    else s

/-! ### Request packets (04 R102, R103, 15 R341) -/

/-- The packet of a job that asks for a group of an element. -/
def packetOf (j : Job) (e : Elem) (g : Nat) : Option (Nat × RPkt) :=
  (farPlaces j e).findSome? fun x =>
    if (locGroups x.2.2.1).contains g then
      ((j.pkts.zipIdx.find? fun p => p.1.has x.1 x.2.1).map fun p => (p.2, p.1))
    else none

/-- `REQUEST_PACKET` (R102, R103, R109, R341): once the plots may begin the instruction (R176), the packet leaves as soon as its landing
slots are reserved and no earlier packet waits for its own, and the channel or port returns the group. -/
def requestPacket (s : State) (seq plot g : Nat) : State :=
  match s.jobAt seq with
  | none => s
  | some j =>
    match wanted j plot g false with
    | none => s
    | some (e, x) =>
      if s.me.status ≠ .run ∨ servedAt j plot g = true ∨ s.readWaits j x = true ∨ s.begun j = false then s
      else
        match packetOf j e g with
        | none => s
        | some (n, p) =>
          if p.sent = false ∧ s.pktReady j n p = false then s
          else
            let j := if p.sent then j else s.sendPkt j n p
            let r := s.deliver j e x
            r.1.putJob (setFetch r.2 plot g (some .served) (tagsOf j plot g))

/-! ### The horizon (R181, R87) -/

/-- A job is finished at every plot: nothing left to perform, to receive, or to be answered. -/
def jobDone (j : Job) : Bool :=
  !wholeOp j.op && j.elems.isEmpty && (j.fetches.all fun f => f.leg == .retry) && j.sent.isEmpty

def finishDone : List Job → State → State
  | [], s => s
  | j :: js, s => if jobDone j then finishDone js (s.finishJob j) else s

/-- `HORIZON_UPDATE`: the oldest finished instructions leave, and the plots and the Bandstand learn the horizon. -/
def horizonUpdate (s : State) : State :=
  let s := finishDone s.me.jobs s
  let h := match s.me.jobs.head? with
    | some j => j.seq - 1
    | none => s.me.seq - 1
  { s with me := { s.me with horiz := max s.me.horiz h } }

/-- `SPAN_WIDE_REDUCTION` (R185, R215, R216, R273): the oldest instruction, where it is one that is performed whole, takes the
parts that its plots have formed, and finishes. It waits for its turns at its plots (R340). -/
def reductionTurn (s : State) (seq : Nat) : State :=
  match s.me.jobs with
  | [] => s
  | j :: _ =>
    if j.seq ≠ seq ∨ wholeOp j.op = false ∨ s.me.status ≠ .run ∨ s.me.pending.isSome = true ∨ s.contendedAt j.elems = true then s
    else
      let r := s.runCharged j
      match r.2.2 with
      | none => r.1.finishJob r.2.1
      | some f => (r.1.putJob r.2.1).meet f seq

end State

def execElementGroupPerform (b : Fin 64) (seq plot : Nat) (s : State) : Out := .next (s.asBand b fun s => s.groupTurn seq plot false)
def execDataFault (b : Fin 64) (seq plot : Nat) (s : State) : Out := .next (s.asBand b fun s => s.groupTurn seq plot true)
def execPullRequest (b : Fin 64) (seq plot group : Nat) (s : State) : Out := .next (s.asBand b fun s => s.pullRequest seq plot group)
def execPullResponse (b : Fin 64) (seq plot group : Nat) (s : State) : Out := .next (s.asBand b fun s => s.pullResponse seq plot group)
def execPullRetry (b : Fin 64) (seq plot group : Nat) (s : State) : Out := .next (s.asBand b fun s => s.pullRetry seq plot group)
def execHorizonUpdate (b : Fin 64) (s : State) : Out := .next (s.asBand b State.horizonUpdate)
def execRequestPacket (b : Fin 64) (seq plot group : Nat) (s : State) : Out := .next (s.asBand b fun s => s.requestPacket seq plot group)
def execFarReturn (b : Fin 64) (seq plot group : Nat) (s : State) : Out := .next (s.asBand b fun s => s.pullResponse seq plot group)
def execSpanWideReduction (b : Fin 64) (seq : Nat) (s : State) : Out := .next (s.asBand b fun s => s.reductionTurn seq)

end Sys2Proof.Machine
end

