-- ==== Sys2Proof/Machine/Events.lean ====
section
/-! DEFINITION. The steps of plots, networks, Runners, Keepers and rails that no word names (spec/95): what work in
flight does one step at a time, and what the device does on its own. A step whose condition does not hold leaves the
state as it stands. -/

namespace Sys2Proof.Machine

namespace State

/-! ### Writes on their way (R104, R117) -/

/-- `WRITE_PACKET`: the stream's oldest packet for a granule updates it. -/
def writePacket (s : State) (key : Nat) : State :=
  match s.me.wpkts.find? fun p => p.granule == key / 256 with
  | none => s
  | some p => State.arriveFar { s with me := { s.me with wpkts := s.me.wpkts.erase p } } p.cells

/-- `REMOTE_ANSWER`: the answer for an element's remote write returns. -/
def remoteAnswer (s : State) (seq i : Nat) : State :=
  match s.jobAt seq with
  | none => s
  | some j => s.putJob { j with sent := j.sent.erase i }

/-- The class of a peer (R371): none for the reserved values. -/
def peerClass (s : State) (dev : Nat) : Option Nat :=
  let n := (s.dreg (controlBase + 0x9000 + 8 * dev)).toNat % 16
  if n < 14 then some (34 + n) else none

def answer (s : State) (a : Answer) : State := { s with answers := s.answers ++ [a] }

/-- An access of a peer (R117, R371, R373): checked at the Zynfy ingress and at the memory target. `op` is the type code
times 8 and the operation, for an atomic (DEDUCED: notes/assumptions/65.md); `poisoned` marks write data with the poison
indication (R109). A refused read returns poisoned; the spec gives its data no value, and they are free
(notes/assumptions/105.md, DESIGN CHOICE). -/
def remoteAccess (s : State) (dev : Nat) (kind : Access) (pa op : Nat) (data : List Byte) (len : Nat) (poisoned : Bool) : State :=
  let ok := fun c =>
    let e := s.dreg (tableBase + 512 * 61 + 8 * c)
    (match kind with
      | .read => e.getLsbD 0
      | .write => e.getLsbD 1
      | .atomic => e.getLsbD 2) && (isHbm pa || (isCxl pa && s.featCxl)) &&
      (List.range (max len data.length)).all fun o => s.granted c kind (s.route (pa + o))
  if s.featZynfy = false ∨ s.ports = 0 ∨ 4096 ≤ dev then s
  else if !(s.peerClass dev).any ok then
    let s := s.refuse ((s.peerClass dev).getD 63) pa
    s.answer (match kind with
      | .read => .peerRead dev ((List.range len).map fun o => Config.refusedByte (pa + o)) true
      | _ => .peerRefused dev)
  else
    let keys := (List.range (max len data.length)).map fun o => pa + o
    match kind with
    | .read =>
      let s := s.eccRead keys
      s.answer (.peerRead dev (s.readBytes pa len) (keys.any s.isPoisoned))
    | .write => (s.writeCells (cellsOf pa data) poisoned).answer (.peerDone dev)
    | .atomic =>
      match tyFOf (op / 8) with
      | some (some t) =>
        let w := t.width / 8
        let s := s.eccRead keys
        let old := s.readNat pa w
        let b := ofBytesLE (data.take w)
        let c := ofBytesLE ((data.drop w).take w)
        let aop : AOp := match op % 8 with
          | 0 => .add | 1 => .and | 2 => .or | 3 => .xor | 4 => .min | 5 => .max | 6 => .xchg | _ => .cas
        let new := (atomicNew aop t ⟨.rne, 0, 0⟩ old b c).1
        ((s.writeCells (cellsOf pa (bytesLE w new)) poisoned).predOutside pa).answer (.peerRead dev (bytesLE w old) (keys.any s.isPoisoned))
      | _ => s.answer (.peerRefused dev)

/-! ### Runner and Trellis commands (05 R136, R138, R141, 09 R242, 10 R275) -/

/-- Do something as the stream that holds a Runner command: on its Bandstand, or stopped (R145). -/
def asHolder (s : State) (b : Fin 64) (has : Band → Bool) (f : State → State) : State :=
  match (s.me :: s.bands).find? fun x => x.id == b && has x with
  | some _ => s.asBand b f
  | none =>
    match s.stopped.find? fun x => x.band.id == b && has x.band with
    | some x => s.asStopped x f
    | none => s

/-- The keys that a line writes. -/
def lineWrites (l : RLine) : List Nat := l.moves.map fun m => m.2.2

/-- The keys of a command's completion word. -/
def wordKeys (c : RCmd) : List Nat := (c.word.map fun k => (List.range 8).map fun o => k + o).getD []

/-- The commands of the stream that issued before one. -/
def earlierCmds (s : State) (c : RCmd) : List RCmd :=
  (s.me.runner.takeWhile fun x => x.id != c.id).filter fun x => x.arrival.isNone

/-- The bytes that a command is still to read; none where that is not known before it begins (R136). -/
def stillReads (s : State) (x : RCmd) : Option (List Nat) :=
  let lines := x.lines.flatMap (freshReads x)
  match x.kind with
  | .copy | .fill => some lines
  | .gather => if x.begun then some lines else none
  | .scatter => some (if x.begun then lines else indexBytes x.index ++ x.flat)
  | .park => some (if x.begun then lines
      else ((s.capturedFrame x.frame).map fun f => s.frameKeys f x.flat.length).getD [])
  | .unpark => some x.flat

/-- The bytes behind a shadow that a `RUNPARK` is to write; the storage that its frame will have is nobody else's. -/
def unparkWrites (s : State) (x : RCmd) : List Nat :=
  match s.capturedFrame x.frame with
  | some g => ((s.unparkTarget x g).map fun d => if d.slot = g.slot then [] else s.frameKeys d x.flat.length).getD []
  | none => []

/-- The bytes that a command is still to write, its completion word among them; none where that is not known yet. -/
def stillWrites (s : State) (x : RCmd) : Option (List Nat) :=
  let lines := x.lines.flatMap lineWrites
  (match x.kind with
    | .copy | .fill => some lines
    | .gather | .park => some (if x.begun then lines else x.flat)
    | .scatter => if x.begun then some lines else none
    | .unpark => some (s.unparkWrites x)).map fun l => wordKeys x ++ l

/-- Whether a command is still to read or write what a later one writes, or to write what that one reads (R136). -/
def cmdMeets (s : State) (x : RCmd) (reads writes : List Nat) : Bool :=
  (match s.stillWrites x with
    | none => !(reads.isEmpty && writes.isEmpty)
    | some ws => ws.any fun k => reads.contains k || writes.contains k) ||
  match s.stillReads x with
    | none => !writes.isEmpty
    | some rs => rs.any writes.contains

/-- Whether two commands park or restore one frame, so that the later one follows the earlier. -/
def sameFrame (x y : RCmd) : Bool :=
  let f := fun (c : RCmd) => c.kind == .park || c.kind == .unpark
  f x && f y && x.frame == y.frame

/-- Whether an earlier command stands in the way of a command's beginning, in which it reads its indices or finds its frame. -/
def beginWaits (s : State) (c : RCmd) : Bool :=
  !c.begun && (s.earlierCmds c).any fun x => sameFrame x c ||
    ((c.kind == .gather || c.kind == .scatter) && s.cmdMeets x (indexBytes c.index) [])

/-- Whether an earlier command stands in the way of a line of a later one (R136). -/
def lineWaits (s : State) (c : RCmd) (l : RLine) : Bool :=
  (s.earlierCmds c).any fun x => s.cmdMeets x (freshReads c l ++ blockReads c l) (lineWrites l)

/-- Whether an earlier command stands in the way of a command's completion: of its word, of the frame that `RPARK` gives up, or of
what `RUNPARK` copies. -/
def completionWaits (s : State) (c : RCmd) : Bool :=
  let r : List Nat × List Nat := match c.kind with
    | .park => ([], ((s.capturedFrame c.frame).map fun f => s.frameKeys f c.flat.length).getD [])
    | .unpark => (c.flat, s.unparkWrites c)
    | _ => ([], [])
  (s.earlierCmds c).any fun x => sameFrame x c || s.cmdMeets x r.1 (wordKeys c ++ r.2)

def putCmd (s : State) (c : RCmd) : State :=
  { s with me := { s.me with runner := s.me.runner.map fun x => if x.id = c.id then c else x } }

/-- `RUNNER_LINE`: the command begins if it has not, and moves one of its lines. -/
def runnerLine (s : State) (id line : Nat) : State :=
  match s.me.runner.find? fun c => c.id == id with
  | none => s
  | some c =>
    if c.arrival.isSome || c.pred.isSome || s.beginWaits c then s
    else
      let b := s.beginCmd c
      match b.2.lines.find? fun l => l.line == line with
      | none => b.1.putCmd b.2
      | some l =>
        if b.1.lineWaits b.2 l then b.1.putCmd b.2
        else
          let r := b.1.lineStep b.2 l
          r.1.putCmd r.2

/-- `RUNNER_COMPLETE` (R136, R140): a command completes, in any order, once its lines are moved, its predecessor has completed, and
no earlier one is still to touch what its completion touches. -/
def runnerComplete (s : State) (id : Nat) : State :=
  match s.me.runner.find? fun c => c.id == id with
  | none => s
  | some c =>
    if c.arrival.isNone ∧ c.begun = true ∧ c.lines.isEmpty ∧ c.pred.isNone ∧ s.completionWaits c = false then s.finishCmd c else s

/-- `QUEUED_ARRIVAL`: an arrival at the front of its queue is performed. -/
def queuedArrival (s : State) (trl : Bool) : State :=
  if trl then
    match s.me.trl.queue with
    | c :: _ => if c.arrival.isSome then s.runT c else s
    | [] => s
  else
    match s.me.runner with
    | c :: _ => if c.arrival.isSome then s.finishCmd c else s
    | [] => s

/-- `TRELLIS_COMPLETE` (R242, R248): the oldest Trellis command is performed and completes, or goes on by `part` steps or
rows. -/
def trellisComplete (s : State) (part : Option Nat) : State :=
  match s.me.trl.queue with
  | c :: _ =>
    if c.arrival.isNone ∧ s.me.status = .run then
      match part with
      | none => s.runT c
      | some n => turnT n s c
    else s
  | [] => s

/-! ### Waits that end (10 R268, 11 R313) -/

/-- The word at which a stream waits, decoded. -/
def waitingWord (s : State) : Option Instr :=
  if s.me.waiting.isNone ∨ s.me.status ≠ .run then none
  else
    match (s.fetchWord s.me.pc.toNat).map decode with
    | some (.ok i) => some i
    | _ => none

/-- `ACQ_GRANT`: a queued request is tried again. -/
def acqGrant (s : State) : State :=
  match s.waitingWord with
  | some (.acq sh x) => s.nextOr (execAcq sh x s)
  | _ => s

/-- `WAIT_WAKE`: the wake time has come. -/
def waitWake (s : State) : State :=
  match s.waitingWord with
  | some (.wait x) => s.nextOr (execWait x s)
  | _ => s

/-! ### The Coldframe (06 R149, R155, R161, R168 to R171) -/

/-- Change one frame of a context. -/
def onFrame (s : State) (ctx slot : Nat) (k : Ctx → Frame → State) : State :=
  match s.findCtx ctx with
  | none => s
  | some c => match c.frame slot with
    | some f => k c f
    | none => s

/-- `FRAME_ZEROED` -/
def frameZeroed (s : State) (ctx slot : Nat) : State :=
  s.onFrame ctx slot fun c f => if f.zeroing then (s.zeroFrame f).setCtx (c.setFrame { f with zeroing := false }) else s

/-- Whether the Keepers renew a frame (R161). -/
def keeps (s : State) (f : Frame) : Bool := f.keep && !f.wd && !f.park && decide (s.now < f.expiry)

/-- A byte of a frame's shares at which the controller of its layer refuses the Keepers (R372, R373). -/
def keeperBarred (s : State) (f : Frame) : Option Nat :=
  (s.framePlots f).findSome? fun p =>
    (f.lb :: [65536, 131072, 196608].filter fun o => decide (f.lb < o) && decide (o < f.lb + s.frameShare f)).findSome? fun o =>
      if [.read, .write].all fun a => s.granted 51 a (nearKey p o) then none else some (nearKey p o)

/-- The Keepers renew the shares of a frame at a time: single-bit errors go (R147), and `EXPIRY` is the time plus cap, never
earlier than it was. -/
def keeperTurn (s : State) (ctx : Nat) (f : Frame) (t : Nat) : State :=
  match s.keeperBarred f, s.findCtx ctx with
  | some k, _ => s.refuse 51 k
  | none, some c => (s.renewFrame f).setCtx (c.setFrame { f with expiry := max f.expiry (t + s.lifeCap) })
  | none, none => s

/-- `KEEPER_RENEWAL` -/
def keeperRenewal (s : State) (ctx slot : Nat) : State :=
  s.onFrame ctx slot fun _ f => if s.keeps f then s.keeperTurn ctx f s.now else s

/-- Change every frame of the device, allocated or leaving. -/
def mapFrames (s : State) (f : Frame → Frame) : State :=
  { s with ctxs := s.ctxs.map fun c => { c with frames := c.frames.map f, leaving := c.leaving.map f } }

/-- Time passes: the Keepers keep the remaining life of their frames at cap/2 or above (R161)
(DESIGN CHOICE: notes/assumptions/74.md). -/
def pass (s : State) (cycles : Nat) : State :=
  let t := s.now + cycles
  let due := s.ctxs.flatMap fun c =>
    (c.frames.filter fun f => s.keeps f && decide (f.expiry < t + s.lifeCap / 2)).map fun f => (c.id, f)
  { due.foldl (fun s x => s.keeperTurn x.1 x.2 t) s with now := t }

/-- `OVERTEMP` (R149): every frame with a share on the Garden counts as expired; the event is logged. -/
def overtemp (s : State) (g : Nat) : State :=
  (s.mapFrames fun f => if (s.framePlots f).any fun p => p / 2048 == g then { f with expiry := min f.expiry s.now } else f).logErr
    255 1 g

/-- `EINFO` of a bus (R348). -/
def busWord (bus : Nat) : Nat := packFields [(13, bus / 16), (3, 0), (2, bus % 16 / 4), (2, bus % 4)]

/-- `RETPEND` (R169): a section is pending. -/
def retpend (s : State) (bus : Nat) : State :=
  if 131072 ≤ bus ∨ s.holes.contains bus = true then s
  else
    { s with retiring := insertNat bus s.retiring,
             sysPend := s.sysPend ++ [⟨cRETPEND, 0, BitVec.ofNat 64 (busWord bus)⟩] }

/-- `BUS_FAIL` (R171): a hole at once, and the frames on it are withdrawn. -/
def busFail (s : State) (bus : Nat) : State :=
  if 131072 ≤ bus ∨ s.holes.contains bus = true then s
  else
    let p := bus / 16
    let lo := bus % 16 * 16384
    let s := s.mapFrames fun f =>
      if !f.park && decide (f.lb < lo + 16384) && decide (lo < f.lb + s.frameShare f) && s.onPlot f p then { f with wd := true } else f
    { s with holes := insertNat bus s.holes, retiring := s.retiring.filter (· != bus),
             sysPend := s.sysPend ++ [⟨cRETPEND, 0, BitVec.ofNat 64 (busWord bus + 2 ^ 20)⟩] }

/-- `ZYNFY_PORT_CHANGE` (R371): without `ZYNFY` accepted the ports stay down. -/
def portChange (s : State) (port : Fin 48) (up : Bool) : State :=
  if up then (if s.featZynfy then { s with ports := s.ports ||| (1#48 <<< port.val) } else s)
  else { s with ports := s.ports &&& ~~~(1#48 <<< port.val) }

end State

def execWritePacket (b : Fin 64) (key : Nat) (s : State) : Out := .next (s.asBand b fun s => s.writePacket key)
def execRemoteAccess (source : Nat) (kind : Access) (pa op : Nat) (data : Payload) (len : Nat) (s : State) : Out :=
  .next (s.remoteAccess source kind pa op data.bytes len data.poisoned)
def execRemoteAnswer (b : Fin 64) (seq elem : Nat) (s : State) : Out := .next (s.asBand b fun s => s.remoteAnswer seq elem)
def execRunnerLine (b : Fin 64) (cmd line : Nat) (s : State) : Out :=
  .next (s.asHolder b (fun x => x.runner.any fun c => c.id == cmd) fun s => s.runnerLine cmd line)
def execRunnerComplete (b : Fin 64) (cmd : Nat) (s : State) : Out :=
  .next (s.asHolder b (fun x => x.runner.any fun c => c.id == cmd) fun s => s.runnerComplete cmd)
def execQueuedArrival (b : Fin 64) (trl : Bool) (s : State) : Out :=
  .next (s.asHolder b (fun x => if trl then !x.trl.queue.isEmpty && x.status == .run else !x.runner.isEmpty) fun s => s.queuedArrival trl)
def execTrellisComplete (b : TrlTurn) (s : State) : Out := .next (s.asBand b.band fun s => s.trellisComplete b.part)
def execAcqGrant (b : Fin 64) (s : State) : Out := .next (s.asBand b State.acqGrant)
def execWaitWake (b : Fin 64) (s : State) : Out := .next (s.asBand b State.waitWake)
def execFrameZeroed (ctx slot : Nat) (s : State) : Out := .next (s.frameZeroed ctx slot)
def execKeeperRenewal (ctx slot : Nat) (s : State) : Out := .next (s.keeperRenewal ctx slot)
def execOvertemp (garden : Fin 4) (s : State) : Out := .next (s.overtemp garden.val)
def execRailDown (rail : Fin 24) (s : State) : Out := .next (s.setRail rail.val false)
def execRailUp (rail : Fin 24) (s : State) : Out := .next (s.setRail rail.val true)
def execRetpend (bus : Nat) (s : State) : Out := .next (s.retpend bus)
def execBusFail (bus : Nat) (s : State) : Out := .next (s.busFail bus)
def execZynfyPortChange (port : Fin 48) (up : Bool) (s : State) : Out := .next (s.portChange port up)

end Sys2Proof.Machine
end

