-- ==== Sys2Proof/Machine/HostPort.lean ====
section
/-! DEFINITION. The registers of the part as masters reach them, the host port, and the access tables (20 R367 to R373,
04 R113, 15 R326, R334). Function f of the host is master class f; the Pavilion cores are class 32. -/

namespace Sys2Proof.Machine

namespace State

/-! ### Registers (R367) -/

/-- `CHPOP` (R113, R114): the granules of a channel that hold a code. -/
def chpop (s : State) (ch code : Nat) : Nat :=
  let here := s.gcode.filter fun g => channelOf (g.1 * 256) == ch
  if code = 1 then 7864320 - here.length else (here.filter fun g => g.2 == code).length

/-! ### The frame table in a context record (R151) -/

/-- Where the registers of the Pavilion-private block hold word w of entry f of a context's frame table; the spec gives that
block no addresses (DESIGN CHOICE: notes/assumptions/94.md). -/
def recordBase : Nat := 0x400000400000
def recordReg (pa : Nat) : Option (Nat × Nat × Nat) :=
  if recordBase ≤ pa ∧ pa < recordBase + 65536 * 8192 then
    some ((pa - recordBase) / 8192, (pa - recordBase) % 8192 / 32, (pa - recordBase) % 32 / 8)
  else none

/-- Word w of a frame-table entry. -/
def frameWord (f : Frame) (w : Nat) : Word :=
  match w with
  | 0 => BitVec.ofNat 64 (packFields [(7, 0), (1, bitOf f.tv), (18, f.lb), (4, f.log2n), (13, f.start), (8, f.spane), (6, tyFCode f.ty),
      (2, match f.geom with
        | none => 0
        | some .mx32 => 1
        | some .mx16 => 2), (1, bitOf f.run), (1, bitOf f.park), (1, bitOf f.wd), (1, bitOf f.keep), (1, 1)])
  | 1 => BitVec.ofNat 64 f.size
  | 2 => BitVec.ofNat 64 f.expiry
  | _ => f.fartag

/-- An entry whose word w is written. -/
def putFrameWord (f : Frame) (w : Nat) (v : Word) : Frame :=
  let n := v.toNat
  match w with
  | 0 => { f with keep := bit n 62, wd := bit n 61, park := bit n 60, run := bit n 59, geom := geomOf (bits n 57 2),
                  ty := (tyFOf (bits n 51 6)).getD none, spane := bits n 43 8, start := bits n 30 13, log2n := bits n 26 4,
                  lb := bits n 8 18, tv := bit n 7 }
  | 1 => { f with size := n }
  | 2 => { f with expiry := n }
  | _ => { f with fartag := v }

/-- A frame-table register as it reads. -/
def readFrameReg (s : State) (x : Nat × Nat × Nat) : Word :=
  match (s.findCtx x.1).bind fun c => c.frame x.2.1 with
  | some f => frameWord f x.2.2
  | none => 0

/-- A frame-table register is written, while no stream of the context is on a Bandstand (R151). -/
def writeFrameReg (s : State) (x : Nat × Nat × Nat) (v : Word) : State :=
  match s.findCtx x.1 with
  | none => s
  | some c =>
    if (s.me :: s.bands).any fun b => b.status == .run && b.ctx == c.id then s
    else
      match c.frame x.2.1 with
      | some f => s.setCtx (if x.2.2 = 0 ∧ v.getLsbD 63 = false then { c with frames := c.frames.filter fun g => g.slot != f.slot }
          else c.setFrame (putFrameWord f x.2.2 v))
      | none =>
        if x.2.2 = 0 ∧ v.getLsbD 63 = true then
          s.setCtx { c with frames := c.frames ++
            [putFrameWord ⟨x.2.1, false, false, false, false, none, none, 0, 0, 0, 0, false, 0, 0, 0, false⟩ 0 v] }
        else s

/-- Where the registers of the Pavilion-private block hold word w of the rest of a context record (DESIGN CHOICE:
notes/assumptions/94.md): 0 the root of the page table, with bit 63 when the context exists, 1 the function, 2 + g group g. -/
def contextReg (pa : Nat) : Option (Nat × Nat) :=
  let base := recordBase + 65536 * 8192
  if base ≤ pa ∧ pa < base + 65536 * 256 ∧ (pa - base) % 256 < 144 then some ((pa - base) / 256, (pa - base) % 256 / 8) else none

/-- An entry of a group table, with bit 63 when it names a span-table entry. -/
def groupWord (e : Option Nat) : Word :=
  match e with
  | some e => BitVec.ofNat 64 (2 ^ 63 + e)
  | none => 0

/-- A register of a context record as it reads, of a context or of one that is still to be created. -/
def readContextReg (s : State) (pa : Nat) (x : Nat × Nat) : Word :=
  match s.findCtx x.1 with
  | none => s.dreg pa
  | some c =>
    match x.2 with
    | 0 => BitVec.ofNat 64 (2 ^ 63 + c.ptRoot)
    | 1 => BitVec.ofNat 64 c.fn
    | g + 2 => groupWord ((c.groups[g]?).join)

/-- Pavilion OS writes a word of a context record (R94, R286, R369). The root with bit 63 creates the context, with the groups
and the function written before it, no frame and no binding; from then on its root and its groups do not change. -/
def writeContextReg (s : State) (pa : Nat) (x : Nat × Nat) (v : Word) : State :=
  match s.findCtx x.1 with
  | some c => if x.2 = 1 then s.setCtx { c with fn := v.toNat % 32 } else s
  | none =>
    if x.2 = 0 ∧ v.getLsbD 63 = true then
      let group := fun g => (s.dreg (pa + 8 * (g + 2))).toNat
      { s with ctxs := s.ctxs ++ [
        { id := x.1, ptRoot := v.toNat % 2 ^ 48, fn := (s.dreg (pa + 8)).toNat % 32,
          groups := (List.range 16).map fun g => if bit (group g) 63 then some (group g % 256) else none,
          frames := [], leaving := [], bindings := [], shadows := [], killed := false }] }
    else s.setDreg pa v

/-- Whether a span-table entry may not change: a stream runs on it, or an allocated frame names it (R151, R284). -/
def spanKept (s : State) (e : Nat) : Bool :=
  ((s.me :: s.bands).any fun b => b.status != .free && b.spane == e) || (s.stopped.any fun x => x.band.spane == e) ||
    s.ctxs.any fun c => (c.frames ++ c.leaving).any fun f => !f.run && f.spane == e

/-- A register as it reads: the computed ones, else what is stored (R113, R334, R370). -/
def readReg (s : State) (pa : Nat) : Word :=
  if arbourBase + 0x1800 ≤ pa ∧ pa < arbourBase + 0x2000 then s.qstat ((pa - arbourBase - 0x1800) / 8)
  else if channelBase ≤ pa ∧ pa < channelBase + 4096 * 256 ∧ 0x080 ≤ pa % 4096 ∧ pa % 4096 < 0x0F8 then
    BitVec.ofNat 64 (s.chpop ((pa - channelBase) / 4096) ((pa % 4096 - 0x080) / 8 + 1))
  else if pa = controlBase then featOffer
  else if pa = controlBase + 0x08 ∨ pa = controlBase + 0x18 then 0
  else
    match recordReg pa, contextReg pa with
    | some x, _ => s.readFrameReg x
    | none, some x => s.readContextReg pa x
    | none, none => s.dreg pa

/-- The bits of a register that a plain write stores (R113, R284, R324, R334, R356, R368, R371); none for one that it
does not change. -/
def regMask (pa : Nat) : Word :=
  let a := pa - arbourBase
  let c := pa - controlBase
  if pa < arbourBase then 0
  else if pa < arbourBase + 0x20000 then
    if 0x1000 ≤ a ∧ a < 0x1800 then 0x000001FFFFFF0007
    else if 0x3000 ≤ a ∧ a < 0x3800 then 0x0000FFFFFFFFF000
    else if 0x4000 ≤ a ∧ a < 0xC000 then 0x8000FFFFFFFFFFFF
    else if 0x10000 ≤ a then BitVec.allOnes 64 else 0
  else if channelBase ≤ pa ∧ pa < channelBase + 4096 * 256 then
    if pa % 4096 = 0 then 3 else if pa % 4096 = 0x100 then BitVec.allOnes 64 else 0
  else if controlBase ≤ pa ∧ pa < controlBase + 0x20000 then
    if 0x100 ≤ c ∧ c < 0x200 then BitVec.allOnes 64
    else if c = 0x200 then 0xFFF
    else if 0x1000 ≤ c ∧ c < 0x9000 then 0x0000FFFFFFFFFFFF
    else if 0x9000 ≤ c ∧ c ≤ 0x10FF8 then 0xF else 0
  else 0

/-- The value that a plain write leaves: a weight of 0 stores 1, and `PALREJ` is only cleared (R334, R113). -/
def writtenReg (s : State) (pa : Nat) (v : Word) : Word :=
  let m := regMask pa
  let w := (s.dreg pa &&& ~~~m) ||| (v &&& m)
  if arbourBase + 0x1000 ≤ pa ∧ pa < arbourBase + 0x1800 then
    if bits w.toNat 32 8 = 0 then w ||| (1 <<< 32) else w
  else if channelBase ≤ pa ∧ pa < channelBase + 4096 * 256 ∧ pa % 4096 = 0 then
    w &&& (s.dreg pa ||| 1)
  else w

/-- Whether a class may configure the block of a register (R372). -/
def mayConfigure (s : State) (cls pa : Nat) : Bool := (s.tableEntry (targetOf pa) cls).getLsbD 3

/-- `CHPAL_WRITE` (R113): entry k + 2 of a channel. -/
def chpalWrite (s : State) (cls ch k : Nat) (v : Word) : State :=
  let pa := fun j => chReg ch (0x010 + 8 * j)
  let pat := v &&& 0xFFFFFFFF
  if s.mayConfigure cls (pa k) = false then s.refuse cls (pa k)
  else if s.chpop ch (k + 2) = 0 ∧
      (pat = 0 ∨ ((List.range 14).all fun j => j == k || s.dreg (pa j) != pat) = true) then s.setDreg (pa k) pat
  else s.setDreg (chReg ch 0) (s.dreg (chReg ch 0) ||| 2)

/-- `ACCESS_TABLE_WRITE` (R373): `ADM` in the table of the target, or of target 59. -/
def accessTableWrite (s : State) (cls pa : Nat) (v : Word) : State :=
  let k := (pa - tableBase) / 512
  if pa % 8 ≠ 0 ∨ pa < tableBase ∨ 62 ≤ k ∨ 53 ≤ cls ∨
      ((s.tableEntry k cls).getLsbD 4 || (s.tableEntry 59 cls).getLsbD 4) = false then s.refuse cls pa
  else s.setDreg pa (v &&& 0x1F)

/-- `FEATA_WRITE` (R370): by a master with configure right on device control. -/
def feataWrite (s : State) (cls : Nat) (v : Word) : State :=
  if s.mayConfigure cls controlBase then s.acceptFeatures v else s.refuse cls (controlBase + 0x10)

/-- A write of an aligned register of a block that has no behaviour of its own, by a master that may configure it. -/
def plainWrite (s : State) (pa : Nat) (v : Word) : State :=
  match recordReg pa, contextReg pa with
  | some x, _ => s.writeFrameReg x v
  | none, some x => s.writeContextReg pa x v
  | none, none =>
    if regMask pa = 0 ∨ (arbourBase + 0x10000 ≤ pa ∧ pa < arbourBase + 0x20000 ∧ s.spanKept ((pa - arbourBase - 0x10000) / 256)) then s
    else s.setDreg pa (s.writtenReg pa v)

/-- `REGISTER_WRITE` (R367, R373): an access of `len` bytes to a register by a master of a class, which writes a value or reads.
A write needs `CFG`, a read `R`; one that is not of a whole aligned register is refused. -/
def registerWrite (s : State) (cls pa len : Nat) (v : Option Word) : State :=
  let sized := pa % 8 = 0 ∧ len = 8
  match v with
  | none =>
    if sized ∧ (s.tableEntry (targetOf pa) cls).getLsbD 0 = true then s.answer (.regRead cls (s.readReg pa) false)
    else (s.refuse cls pa).answer (.regRead cls (BitVec.ofNat 64 (ofBytesLE ((List.range 8).map fun o => Config.refusedByte (pa + o)))) true)
  | some v =>
    if ¬sized then s.refuse cls pa
    else if tableBase ≤ pa ∧ pa < tableBase + 512 * 62 then s.accessTableWrite cls pa v
    else if pa = controlBase + 0x10 then s.feataWrite cls v
    else if channelBase ≤ pa ∧ pa < channelBase + 4096 * 256 ∧ 0x010 ≤ pa % 4096 ∧ pa % 4096 < 0x080 then
      s.chpalWrite cls ((pa - channelBase) / 4096) ((pa % 4096 - 0x010) / 8) v
    else if s.mayConfigure cls pa = false then s.refuse cls pa
    else s.plainWrite pa v

/-! ### The host port (R368) -/

/-- The answer to a refused access of the host (R373): a write is dropped; what expects a completion is aborted
(DEDUCED: notes/assumptions/64.md). -/
def hostRefused (s : State) (fn : Nat) (op : HostOp) (at_ : Nat) : State :=
  let s := s.refuse fn at_
  match op with
  | .write => s
  | .read | .fetchAdd | .swap | .cas => s.answer (.hostAbort fn)

/-- BAR0 of function 0: the feature registers, by accesses of 8 bytes, as class 0 on device control (R370). -/
def barZero (s : State) (fn : Nat) (op : HostOp) (off : Nat) (data : List Byte) (len : Nat) : State :=
  let e := s.tableEntry 58 fn
  let pa := controlBase + off
  if fn ≠ 0 ∨ 0x20 ≤ off then
    match op with
    | .write => s
    | .read => s.answer (.hostRead fn (List.replicate len 0) false)
    | .fetchAdd | .swap | .cas => s.answer (.hostUnsupported fn)
  else if off % 8 ≠ 0 then s.hostRefused fn op pa
  else
    match op with
    | .read =>
      if len = 8 ∧ e.getLsbD 0 = true then s.answer (.hostRead fn (bytesLE 8 (s.readReg pa).toNat) false) else s.hostRefused fn op pa
    | .write =>
      if data.length = 8 ∧ e.getLsbD 3 = true then
        (if off = 0x10 then s.acceptFeatures (BitVec.ofNat 64 (ofBytesLE data)) else s)
      else s.hostRefused fn op pa
    | .fetchAdd | .swap | .cas => s.hostRefused fn op pa

/-- Where the entry of a slot of a function's window lies. -/
def windowEntry (s : State) (fn slot : Nat) : Nat := (s.dreg (controlBase + 0x100 + 8 * fn)).toNat + 8 * slot

/-- The page that a slot of a function's window maps, with its writability (R368). -/
def windowPage (s : State) (fn slot : Nat) : Option (Nat × Bool) :=
  let e := (s.soundNat (s.windowEntry fn slot) 8).getD 0
  let pa := e % 2 ^ 32 * 65536
  if bit e 63 && decide (pa + 65536 ≤ hbmEnd) then some (pa, bit e 62) else none

/-- An AtomicOp of the host on a word of 4 or 8 bytes: the operand, and for CAS the compared value before it. -/
def hostNew (op : HostOp) (n old : Nat) (data : List Byte) : Nat :=
  let a := ofBytesLE (data.take n)
  match op with
  | .fetchAdd => (old + a) % 2 ^ (8 * n)
  | .swap => a
  | .cas => if old = a then ofBytesLE ((data.drop n).take n) else old
  | .read | .write => old

/-- An access through BAR2 (R368, R373, R326): each byte is checked at its own target, so that a write may be performed in
part; `poisoned` marks data that arrives poisoned (R109). -/
def barTwo (s : State) (fn : Nat) (op : HostOp) (off : Nat) (data : List Byte) (len : Nat) (poisoned : Bool) : State :=
  let n := match op with
    | .cas => data.length / 2
    | .fetchAdd | .swap => data.length
    | .read => len
    | .write => data.length
  let atomic := !(op == .read || op == .write)
  let acc : Access := match op with
    | .read => .read
    | .write => .write
    | .fetchAdd | .swap | .cas => .atomic
  if 2 ^ 36 ≤ off ∨ 65536 < off % 65536 + n ∨ n = 0 ∨ (atomic = true ∧ ((n ≠ 4 ∧ n ≠ 8) ∨ off % n ≠ 0)) then
    match op with
    | .write => s
    | .read | .fetchAdd | .swap | .cas => s.answer (.hostUnsupported fn)
  else
    let page := s.windowPage fn (off / 65536)
    let s := s.eccRead [s.windowEntry fn (off / 65536)]
    match page with
    | none => s.hostRefused fn op off
    | some (page, wr) =>
      let pa := page + off % 65536
      let keys := (List.range n).map fun o => pa + o
      let ok := fun k => s.granted fn acc (s.route k)
      if (op != .read && !wr) || (op != .write && !keys.all ok) || (op == .write && !keys.any ok) then s.hostRefused fn op pa
      else
        match op with
        | .read =>
          let s := s.eccRead keys
          s.answer (.hostRead fn (s.readBytes pa n) (keys.any s.isPoisoned))
        | .write =>
          let s := if keys.all ok then s else s.hostRefused fn op pa
          s.writeCells ((cellsOf pa data).filter fun c => ok c.1) poisoned
        | .fetchAdd | .swap | .cas =>
          let s := s.eccRead keys
          let bad := keys.any s.isPoisoned
          let old := s.readNat pa n
          let s := s.writeCells (cellsOf pa (bytesLE n (hostNew op n old data))) poisoned
          (if n = 4 ∨ pa % 64 = 16 then s.predOutside pa else s).answer (.hostRead fn (bytesLE n old) bad)

/-- `MSIX_UNMASK` (R369): a pending message is sent; the host may mask the vector again. -/
def msixUnmask (s : State) (fn vec : Nat) (mask : Bool) : State :=
  if mask then { s with msixOn := s.msixOn.filter fun x => x != (fn, vec) } else
  let s : State := if s.msixOn.contains (fn, vec) then s else { s with msixOn := s.msixOn ++ [(fn, vec)] }
  if s.msixPend.contains (fn, vec) then
    State.msix { s with msixPend := s.msixPend.filter fun x => x != (fn, vec) } fn vec
  else s

end State

def execHostBarAccess (fn : Fin 32) (bar0 : Bool) (op : HostOp) (off : Nat) (data : Payload) (len : Nat) (s : State) : Out :=
  .next (if bar0 then s.barZero fn.val op off data.bytes len else s.barTwo fn.val op off data.bytes len data.poisoned)

/-- A 32-bit FetchAdd, a release of a node when it falls on its `PRED` word (R326). -/
def execHostFetchadd (fn : Fin 32) (off : Nat) (addend : BitVec 32) (s : State) : Out :=
  .next (s.barTwo fn.val .fetchAdd off (bytesLE 4 addend.toNat) 4 false)

/-- The host writes the mask bit of a vector (R369). -/
def execMsixUnmask (fn : MsixF) (vec : Nat) (s : State) : Out :=
  .next (if vec < 2048 then s.msixUnmask fn.fn.val vec fn.mask else s)
def execFeataWrite (v : Word) (s : State) : Out := .next (s.feataWrite 32 v)
def execChpalWrite (ch : Fin 256) (k : Fin 14) (v : Word) (s : State) : Out := .next (s.chpalWrite 32 ch.val k.val v)
def execAccessTableWrite (cls pa : Nat) (v : Word) (s : State) : Out := .next (s.accessTableWrite cls pa v)
/-- A master writes a register, or reads it where no value is given (R367). -/
def execRegisterWrite (pa : RegF) (v : Option Word) (s : State) : Out := .next (s.registerWrite pa.cls pa.pa pa.len v)

end Sys2Proof.Machine
end

