-- ==== Sys2Proof/Machine/Boot.lean ====
section
/-! DEFINITION. The Lodge, boot and attestation (20 R374 to R378, 16 R344), with SHA-256 and the verification of
RSASSA-PSS signatures that they name (FIPS 180-4, RFC 8017; notes/assumptions/14.md, DESIGN CHOICE). -/

namespace Sys2Proof.Machine

/-! ### SHA-256

R375 names the hash of FIPS 180-4. Its constants are bits of roots of primes, so they are computed here. -/

/-- The greatest r below 2^40 with r^k ≤ n. -/
def rootOf (k n : Nat) : Nat :=
  (List.range 40).foldr (fun b r => if (r + 2 ^ b) ^ k ≤ n then r + 2 ^ b else r) 0

/-- The first 64 primes. -/
def shaPrimes : List Nat :=
  (List.range 312).filter fun p => decide (2 ≤ p) && (List.range 18).all fun d => decide (d < 2) || decide (p ≤ d) || p % d != 0

/-- The first 32 bits of the fractions of cube roots, one for each round, and of square roots, where a digest begins. -/
def roundWords : List (BitVec 32) := shaPrimes.map fun p => BitVec.ofNat 32 (rootOf 3 (p * 2 ^ 96))

/-- The eight working words of a digest. -/
structure Digest where
  (a b c d e f g h : BitVec 32)
  deriving DecidableEq, Repr

def Digest.ofWords (l : List Nat) : Digest :=
  let w := fun k => BitVec.ofNat 32 (l.getD k 0)
  ⟨w 0, w 1, w 2, w 3, w 4, w 5, w 6, w 7⟩

def Digest.start : Digest := .ofWords (shaPrimes.map fun p => rootOf 2 (p * 2 ^ 64))

def Digest.words (x : Digest) : List (BitVec 32) := [x.a, x.b, x.c, x.d, x.e, x.f, x.g, x.h]

def Digest.add (x y : Digest) : Digest :=
  ⟨x.a + y.a, x.b + y.b, x.c + y.c, x.d + y.d, x.e + y.e, x.f + y.f, x.g + y.g, x.h + y.h⟩

/-- Bytes of a number, most significant first, and back. -/
def bytesBE (n v : Nat) : List Byte := (bytesLE n v).reverse
def ofBytesBE (bs : List Byte) : Nat := ofBytesLE bs.reverse

/-- The exclusive or of a word turned right by each of some counts. -/
def turned (x : BitVec 32) (ns : List Nat) : BitVec 32 := (ns.map x.rotateRight).foldl (· ^^^ ·) 0

/-- One round with its constant: the working words, and the next sixteen words of the message, of which the oldest is used and
a new one joins. -/
def digestRound (x : Digest × List (BitVec 32)) (k : BitVec 32) : Digest × List (BitVec 32) :=
  let r := x.1
  let w := fun n => x.2.getD n 0
  let pick := (r.e &&& r.f) ||| (~~~r.e &&& r.g)
  let most := (r.a &&& (r.b ||| r.c)) ||| (r.b &&& r.c)
  let add := r.h + turned r.e [6, 11, 25] + pick + k + w 0
  (⟨add + turned r.a [2, 13, 22] + most, r.a, r.b, r.c, r.d + add, r.e, r.f, r.g⟩,
    x.2.drop 1 ++ [w 0 + (turned (w 1) [7, 18] ^^^ (w 1 >>> 3)) + w 9 + (turned (w 14) [17, 19] ^^^ (w 14 >>> 10))])

/-- A block of sixteen words joins a digest. -/
def digestBlock (ks : List (BitVec 32)) (x : Digest) (block : List (BitVec 32)) : Digest :=
  x.add (ks.foldl digestRound (x, block)).1

/-- Cut a list into pieces of n, `fuel` at most. -/
def pieces {α : Type} (n : Nat) : Nat → List α → List (List α)
  | 0, _ => []
  | fuel + 1, l => if l.isEmpty then [] else l.take n :: pieces n fuel (l.drop n)

def sha256 (m : List Byte) : List Byte :=
  let zeros := (64 - (m.length + 9) % 64) % 64
  let whole := m ++ 0x80 :: List.replicate zeros 0 ++ bytesBE 8 (8 * m.length)
  let words := (pieces 4 whole.length whole).map fun bs => BitVec.ofNat 32 (ofBytesBE bs)
  let ks := roundWords
  (((pieces 16 words.length words).foldl (digestBlock ks) Digest.start).words).flatMap fun w => bytesBE 4 w.toNat

/-! ### RSASSA-PSS with RSA-3072, SHA-256 and a salt of 32 bytes -/

def powMod (b e n : Nat) : Nat :=
  (List.range (Nat.log2 e + 1)).foldr (fun k r => let r := r * r % n; if bit e k then r * b % n else r) 1

/-- The mask generation function MGF1. -/
def mgf1 (seed : List Byte) (n : Nat) : List Byte :=
  ((List.range ((n + 31) / 32)).flatMap fun c => sha256 (seed ++ bytesBE 4 c)).take n

/-- The signature of a message under a key (modulus of 384 bytes, then the exponent). -/
def pssVerify (key msg sig : List Byte) : Bool :=
  let n := ofBytesBE (key.take 384)
  let sg := ofBytesBE sig
  if sig.length ≠ 384 ∨ key.length ≤ 384 ∨ n ≤ sg then false
  else
    let em := bytesBE 384 (powMod sg (ofBytesBE (key.drop 384)) n)
    let masked := em.take 351
    let h := (em.drop 351).take 32
    let db := ((masked.zip (mgf1 h 351)).map fun x => x.1 ^^^ x.2).mapIdx fun k b => if k = 0 then b &&& 0x7F else b
    em.getD 383 0 == 0xBC && (masked.headD 0).getLsbD 7 == false && (db.take 318).all (· == 0) && db.getD 318 0 == 1 &&
      h == sha256 (List.replicate 8 0 ++ sha256 msg ++ db.drop 319)

/-! ### Images (R375, R376) -/

/-- What an image's signature and digest cover: its security version and its bytes. -/
def imageMessage (x : Image) : List Byte := bytesLE 4 x.version ++ x.body

/-- The checks of the ROM: the key's hash, the signature, the security version. -/
def imageOk (key : List Byte) (x : Image) : Bool :=
  sha256 key == Config.fusedKeyHash && pssVerify key (imageMessage x) x.sig && decide (Config.fusedCounter ≤ x.version)

namespace State

/-- Extend a measurement register (R376). -/
def extendM (s : State) (k : Nat) (digest : List Byte) : State :=
  { s with measure := s.measure.set k (sha256 (s.measure.getD k [] ++ digest)) }

def flashSlot (s : State) (b : Bool) : Flash := if b then s.flashB else s.flashA

def setFlash (s : State) (b : Bool) (f : Flash) : State := if b then { s with flashB := f } else { s with flashA := f }

/-! ### Boot (R375) -/

/-- The part halts, and the Lodge reports it. -/
def haltPart (s : State) : State := { s with phase := .halted, answers := s.answers ++ [.lodge 0 [0xFF]] }

/-- `ROM_BOOT`: steps 1 and 2. -/
def romBoot (s : State) : State :=
  if s.phase ≠ .rom then s
  else
    let good := fun (f : Flash) => f.bootable && imageOk f.key f.stage1
    if !good s.flashA && !good s.flashB then s.haltPart
    else
      let b := !good s.flashA
      let f := s.flashSlot b
      { (s.extendM 0 (sha256 (imageMessage f.stage1))) with
        phase := .stage1, bootB := b, versions := s.versions.set 0 f.stage1.version }

/-- `STAGE1_VERIFY`: step 3. -/
def stage1Verify (s : State) : State :=
  if s.phase ≠ .stage1 then s
  else
    let f := s.flashSlot s.bootB
    if imageOk f.key f.fw && imageOk f.key f.os then
      { ((s.extendM 1 (sha256 (imageMessage f.fw))).extendM 2 (sha256 (imageMessage f.os))) with
        phase := .firmware, versions := [s.versions.getD 0 0, f.fw.version, f.os.version] }
    else s.haltPart

/-- `DEVICE_FIRMWARE_INIT`: step 4. -/
def firmwareInit (s : State) : State :=
  if s.phase ≠ .firmware then s
  else
    { s with
      mem := s.mem.filter (fun c => !isHbm c.1), gcode := [], hbmErr := [],
      poison := s.poison.filter fun g => !isHbm (g * 256),
      retn := BitVec.ofNat 32 (min (50000 + Config.retentionSpare) (2 ^ 32 - 1)),
      holes := Config.bringUpHoles.foldl (fun l x => if x < 131072 then insertNat x l else l) [], retiring := [],
      dregs := s.dregs.filter fun r => !(decide (arbourBase + 0x10000 ≤ r.1) && decide (r.1 < arbourBase + 0x20000)),
      phase := .pavilion }

/-- The supervisor's context (notes/assumptions/15.md, DESIGN CHOICE). -/
def supervisorCtx : Ctx :=
  { id := 0, ptRoot := Config.supervisorRoot, groups := some Config.supervisorSpan :: List.replicate 15 none, frames := [],
    leaving := [], bindings := [], shadows := [], fn := 0, killed := false }

/-- `PAVILION_START`: step 5, the supervisor stream starts on Bandstand 63. -/
def pavilionStart (s : State) : State :=
  if s.phase ≠ .pavilion then s
  else
    let s : State := { s with phase := .up, ctxs := if (s.findCtx 0).isSome then s.ctxs else s.ctxs ++ [supervisorCtx] }
    let x := s.freshBand 63 0 0 Config.supervisorSpan Config.supervisorEntry Config.supervisorArg 0
    s.placeBand { x with supv := true }

/-! ### The Lodge (R374) -/

/-- The answer to a command: a status and a payload. -/
def lodge (s : State) (status : Nat) (payload : List Byte) : State := s.answer (.lodge status payload)

/-- A command that needs a right of the Lodge on device control. -/
def lodgeNeeds (s : State) (right : Nat) (k : State → State) : State :=
  if (s.tableEntry 58 33).getLsbD right then k s else (s.refuse 33 controlBase).lodge 3 []

/-- The main domain is down once the part has halted, and while every rail but the Lodge's is off
(notes/assumptions/92.md, DESIGN CHOICE). -/
def mainDown (s : State) : Bool := s.phase == .halted || s.rails.toNat % 2 ^ 23 == 0

/-- A command that reaches the main domain. -/
def mainDomain (s : State) (k : State → State) : State := if s.mainDown then s.lodge 2 [] else k s

/-- The temperature of each Garden and the power, as they are when asked for: free values (notes/assumptions/8.md, DESIGN CHOICE), and
`PCAP`. -/
def readSensors (s : State) : State :=
  s.mainDomain fun s => s.lodgeNeeds 0 fun s =>
    State.lodge { s with nextFree := s.nextFree + 1 } 0
      (((List.range 5).flatMap fun k => bytesLE 2 (Config.sensor k s.nextFree)) ++ bytesLE 2 (s.dreg (controlBase + 0x300)).toNat)

def recordBytes (r : ErrRec) : List Byte := bytesLE 8 r.time ++ bytesLE 4 r.source ++ bytesLE 4 r.cause ++ bytesLE 8 r.addr

/-- Up to 32 records from an index, or the certificate at 0xFFFF (R377). -/
def readErrorLog (s : State) (first : Nat) : State :=
  if first = 0xFFFF then s.lodge 0 Config.certificate
  else s.lodge 0 (((s.errlog.drop first).take 32).flatMap recordBytes)

/-- A reset (R374): everything but the flash, the memories beyond the part, what has left the part and the schedule;
a reset of the main domain keeps the error log. The counter of free values goes on. -/
def resetDevice (s : State) (domain : Nat) : State :=
  if 2 ≤ domain then s.lodge 1 []
  else
    let outside := fun k => isCxl k || isRemote k
    State.lodge { State.reset with
      mem := s.mem.filter (fun c => outside c.1), poison := s.poison.filter (fun g => outside (g * 256)),
      flashA := { s.flashA with staged := [] }, flashB := { s.flashB with staged := [] },
      answers := s.answers, agenda := s.agenda, nextFree := s.nextFree,
      errlog := if domain = 1 then s.errlog else [] } 0 []

/-- Bytes join what is staged in slot 0 or 1 of the flash. -/
def firmwareStage (s : State) (slot off : Nat) (data : List Byte) : State :=
  if 1024 < data.length ∨ 1 < slot then s.lodge 1 []
  else
    let b := slot == 1
    let f := s.flashSlot b
    (s.setFlash b { f with staged := data.zipIdx.foldl (fun l x => assocSet l (off + x.2) x.1) f.staged, bootable := false }).lodge
      0 []

/-- Commit (R376): the staged slot is verified before it is bootable. -/
def firmwareCommit (s : State) (slot : Nat) : State :=
  let b := slot == 1
  let f := s.flashSlot b
  let x := Config.slotImages f.staged
  if 1 < slot then s.lodge 1 []
  else if imageOk x.1 x.2.1 && imageOk x.1 x.2.2.1 && imageOk x.1 x.2.2.2 then
    (s.setFlash b ⟨x.1, x.2.1, x.2.2.1, x.2.2.2, f.staged, true⟩).lodge 0 [1]
  else s.lodge 3 [0]

def setPowerCap (s : State) (watts : Nat) : State :=
  if watts < 1000 ∨ 2400 < watts then s.lodge 1 []
  else s.mainDomain fun s => s.lodgeNeeds 3 fun s => (s.setDreg (controlBase + 0x300) (BitVec.ofNat 64 watts)).lodge 0 []

/-- A bit of a near word flips (R147): one is corrected later, a second makes the word uncorrectable. -/
def flipNear (s : State) (w b : Nat) : State :=
  match assoc s.nearFlip w with
  | none => { s with nearFlip := (w, b) :: s.nearFlip }
  | some c =>
    { s with nearFlip := assocDel s.nearFlip w, nearUE := if c = b then s.nearUE else insertNat w s.nearUE }

/-- The key of a byte of HBM that an injection strikes (R374; notes/assumptions/14.md, DESIGN CHOICE): with target 0 a data
byte by its address, with target c + 1 a byte of a check granule by its address in channel c. -/
def struckKey (target off : Nat) : Option Nat :=
  if target = 0 then (if isHbm off then some off else none)
  else if target ≤ 256 ∧ 3840 ≤ off % 4096 ∧ off < 2 ^ 31 then some (checkKey (target - 1) off)
  else none

/-- Where the struck bytes 240 to 255 of a check granule stand as near to another code word as to the one that was made, that
one tells the codes and poison bits of the chunk from now on, and what is left of the error is counted from it: a channel that reads
them delivers what that word holds (R108, R109; notes/assumptions/72.md, DEDUCED). -/
def rebaseChunk (s : State) (c q : Nat) : State :=
  let sec := chunkSector c q
  let e := errorWord (s.sectorErrs sec)
  let left : Option (Nat × Nat) := match judge 16 false (syndromes e) with
    | .clean => some (0, 0)
    | .corrected p v => some (p, v)
    | .uncorrectable => none
  match left with
  | none => s
  | some (p, v) =>
    let x := Nat.xor e (v * 2 ^ (8 * p))
    if x = 0 then s else
    let field := fun (o n : Nat) => ofBytesLE ((List.range n).map fun i => BitVec.ofNat 8 (x / 2 ^ (8 * (255 - (o + i)))))
    let s := s.settleSector sec
    let s : State := if v = 0 then s else { s with hbmErr := assocSet s.hbmErr (checkKey c (4096 * q + 4095 - p)) v }
    (List.range 15).foldl (fun s i =>
      let g := granuleAt c q i
      let s := s.setCode g (Nat.xor (s.codeOf g) (bits (field 240 8) (4 * i) 4))
      if bit (field 248 2) i then (if s.poison.contains g then s.clearPoison g else s.setPoison g) else s) s

/-- A byte of a data or check granule in DRAM is changed by a pattern. -/
def strike (s : State) (k v : Nat) : State :=
  let e := Nat.xor ((assoc s.hbmErr k).getD 0) v
  let s := if isHbm k then
      (s.materialise (k / 256)).putMem [(k, Memory.get (s.materialise (k / 256)).mem k ^^^ BitVec.ofNat 8 v)]
    else s
  let s : State := { s with hbmErr := if e = 0 then assocDel s.hbmErr k else assocSet s.hbmErr k e }
  if isHbm k ∨ k % 256 < 240 then s else s.rebaseChunk ((k - checkBase) / 2 ^ 31) ((k - checkBase) % 2 ^ 31 / 4096)

/-- What the Lodge strikes, it writes: the target that holds it must grant it (R373; notes/assumptions/111.md, DESIGN CHOICE). -/
def lodgeStrikes (s : State) (k : Nat) (f : State → State) : State :=
  let may := if checkBase ≤ k ∧ k < checkBase + 2 ^ 39 then (s.tableEntry ((k - checkBase) / 2 ^ 31 / 8) 33).getLsbD 1
    else s.granted 33 .write k
  if may then f s else (s.refuse 33 k).lodge 3 []

/-- `INJECT` (R344, R374): a Runner flip (bed, address, bit), a byte of an HBM sector (data or check byte, pattern), or a bit
of a near word (plot, local offset, bit). -/
def inject (s : State) (x : InjectF) : State :=
  if s.featInject = false ∨ featOffer.getLsbD 6 = false then s.lodge 4 []
  else
    s.mainDomain fun s =>
      match x.kind with
      | 0 =>
        if x.target < 128 ∧ x.arg < 8 then State.lodge { s with flips := s.flips ++ [(x.target, x.off, x.arg)] } 0 []
        else s.lodge 1 []
      | 1 =>
        match struckKey x.target x.off with
        | some k => if x.arg < 256 then s.lodgeStrikes k fun s => (s.strike k x.arg).lodge 0 [] else s.lodge 1 []
        | none => s.lodge 1 []
      | 2 =>
        if x.target < 8192 ∧ x.off < 2 ^ 18 ∧ x.arg < 72 then
          s.lodgeStrikes (nearKey x.target x.off) fun s => (s.flipNear (nearKey x.target x.off / 8) x.arg).lodge 0 []
        else s.lodge 1 []
      | _ => s.lodge 1 []

/-- The attestation report (R377), with its signature. -/
def report (s : State) (nonce : List Byte) : List Byte :=
  let body := nonce ++ s.measure.flatten ++ ((s.versions.flatMap fun v => bytesLE 2 v) ++ [0, 0]) ++
    bytesLE 4 featOffer.toNat ++ bytesLE 4 s.feata.toNat
  body ++ (Config.attestSignature body).toList

def attest (s : State) (nonce : List Byte) : State :=
  if nonce.length ≠ 32 then s.lodge 1 [] else s.mainDomain fun s => s.lodgeNeeds 0 fun s => s.lodge 0 (s.report nonce)

end State

def execReadSensors (s : State) : Out := .next s.readSensors
/-- The log from an index; none is a private write that is malformed: an opcode of no command, or a length that is not its
payload's (R374; notes/assumptions/14.md, DESIGN CHOICE). -/
def execReadErrorLog (first : Option Nat) (s : State) : Out :=
  .next (match first with
    | some n => s.readErrorLog n
    | none => s.lodge 1 [])
def execReset (domain : Nat) (s : State) : Out := .next (s.resetDevice domain)
def execFirmwareStage (slot off : Nat) (data : List Byte) (s : State) : Out := .next (s.firmwareStage slot off data)
def execFirmwareCommit (slot : Nat) (s : State) : Out := .next (s.firmwareCommit slot)
def execSetPowerCap (watts : Nat) (s : State) : Out := .next (s.setPowerCap watts)
def execInject (x : InjectF) (s : State) : Out := .next (s.inject x)
def execAttest (nonce : List Byte) (s : State) : Out := .next (s.attest nonce)
def execRomBoot (s : State) : Out := .next s.romBoot
def execStage1Verify (s : State) : Out := .next s.stage1Verify
def execDeviceFirmwareInit (s : State) : Out := .next s.firmwareInit
def execPavilionStart (s : State) : Out := .next s.pavilionStart

end Sys2Proof.Machine
end

