-- ==== Sys2Proof/Machine/Masks.lean ====
section
/-! DEFINITION. The class M forms (08 R210 to R214). Each issues once everything before it has finished (R15). -/

namespace Sys2Proof.Machine

namespace State

/-- The mask that an M form writes (R210, R213): below `VL`, `f` where the element is enabled and the old bit elsewhere,
at the homes given; 0 at its default home from `VL` on. -/
def maskResult (s : State) (d : Mask) (g : Option Guard) (f : Nat → Bool) (home : Nat → Nat) : MaskV :=
  let gb := s.guardBitsOf g
  let old := s.me.masks[d.val]
  maskFrom s.me.beds ((List.range s.me.vl).map fun i => (i, if enabledBit g gb i then f i else old.bit i, home i))

/-- Write a mask, unless a plot would hold too many of its bits (R211). -/
def writeMask (s : State) (d : Mask) (g : Option Guard) (f : Nat → Bool) (home : Nat → Nat) : State :=
  match maskCapAt ((List.range s.me.vl).map fun i => (i, home i)) with
  | some i =>
    ({ s with nextFree := s.nextFree + 1 }).raise
      { preFault cMASKCAP 0 i opNone with addr := Config.freeAddr s.nextFree }
  | none => (s.setMask d (s.maskResult d g f home)).retire

/-- The enabled indices below `VL` whose bit of a mask is 1. -/
def setBits (s : State) (a : Mask) (g : Option Guard) : List Nat :=
  let gb := s.guardBitsOf g
  (List.range s.me.vl).filter fun i => enabledBit g gb i && s.me.masks[a.val].bit i

/-- A form on the bits of `MA` and `MB`. -/
def maskBinary (s : State) (x : M3) (f : Bool → Bool → Bool) : State :=
  let a := s.me.masks[x.a.val]
  let b := s.me.masks[x.b.val]
  s.writeMask x.d x.g (fun i => f (a.bit i) (b.bit i)) (fun i => a.home s.me.beds i)

/-- A form on the bits of `MA`. -/
def maskUnary (s : State) (x : M2) (f : Nat → Bool → Bool) : State :=
  let a := s.me.masks[x.a.val]
  s.writeMask x.d x.g (fun i => f i (a.bit i)) (fun i => a.home s.me.beds i)

/-- A form that sets every enabled bit to one value. -/
def maskConst (s : State) (x : M1) (v : Bool) : State :=
  s.writeMask x.d x.g (fun _ => v) (fun i => defaultHome s.me.beds i)

end State

def execMand (x : M3) (s : State) : Out := s.afterAll fun s => .next (s.maskBinary x fun a b => a && b)
def execMor (x : M3) (s : State) : Out := s.afterAll fun s => .next (s.maskBinary x fun a b => a || b)
def execMxor (x : M3) (s : State) : Out := s.afterAll fun s => .next (s.maskBinary x fun a b => a != b)
def execMandn (x : M3) (s : State) : Out := s.afterAll fun s => .next (s.maskBinary x fun a b => a && !b)
def execMnot (x : M2) (s : State) : Out := s.afterAll fun s => .next (s.maskUnary x fun _ a => !a)
def execMmov (x : M2) (s : State) : Out := s.afterAll fun s => .next (s.maskUnary x fun _ a => a)
def execMset (x : M1) (s : State) : Out := s.afterAll fun s => .next (s.maskConst x true)
def execMclr (x : M1) (s : State) : Out := s.afterAll fun s => .next (s.maskConst x false)

/-- `MBEF`: 1 below the first set bit (R213). -/
def execMbef (x : M2) (s : State) : Out :=
  s.afterAll fun s =>
    let f := (s.setBits x.a x.g).headD s.me.vl
    .next (s.maskUnary x fun i _ => decide (i < f))

/-- `MPOP` and `MPOP.VL` (R214): the count, and `VL` shortened to it. -/
def execMpop (setsVl : Bool) (x : MS) (s : State) : Out :=
  s.afterAll fun s =>
    let n := (s.setBits x.a x.g).length
    let t := s.finish x.sd (BitVec.ofNat 64 n)
    .next (if setsVl then { t with me := { t.me with vl := n } } else t)

/-- `MFIRST` (R214): the lowest index, or −1. -/
def execMfirst (x : MS) (s : State) : Out :=
  s.afterAll fun s =>
    .next (s.finish x.sd (match s.setBits x.a x.g with
      | i :: _ => BitVec.ofNat 64 i
      | [] => -1))

end Sys2Proof.Machine
end

