-- ==== Sys2Proof/Machine/ScalarFloat.lean ====
section
/-! DEFINITION. The scalar floating-point forms (11 R297, R298). -/

namespace Sys2Proof.Machine

namespace State

/-- The value of a register's low bits in a type. -/
def num (s : State) (t : Ty) (r : Reg) : Num := decodeTy t (s.reg r).toNat

/-- A floating form: its pattern goes to the register and its flags to `FPSR` (R87). The stochastic index is 0. -/
def scalarF (s : State) (d : Reg) (t : Ty) (f : State → RCtl → Nat × Flags) : Out :=
  s.afterAll fun s =>
    let r := f s (s.rctl 0)
    .next ((s.orFlags r.2).finish d (toReg t r.1))

end State

def execFadd (x : SF) (s : State) : Out :=
  s.scalarF x.d x.ty fun s c => arithResult x.ty (Num.add c.rm (s.num x.ty x.a) (s.num x.ty x.b)) c
def execFsub (x : SF) (s : State) : Out :=
  s.scalarF x.d x.ty fun s c => arithResult x.ty (Num.sub c.rm (s.num x.ty x.a) (s.num x.ty x.b)) c
def execFmul (x : SF) (s : State) : Out :=
  s.scalarF x.d x.ty fun s c => arithResult x.ty (Num.mul (s.num x.ty x.a) (s.num x.ty x.b)) c
def execFfma (x : SF4) (s : State) : Out :=
  s.scalarF x.d x.ty fun s c => arithResult x.ty (Num.fma c.rm (s.num x.ty x.a) (s.num x.ty x.b) (s.num x.ty x.c)) c
def execFdiv (x : SF) (s : State) : Out :=
  s.scalarF x.d x.ty fun s c => fnResult x.ty (Num.div (s.num x.ty x.a) (s.num x.ty x.b)) c
def execFsqrt (x : SF2) (s : State) : Out :=
  s.scalarF x.d x.ty fun s c => fnResult x.ty (s.num x.ty x.a).sqrt c
def execFmin (x : SF) (s : State) : Out :=
  s.scalarF x.d x.ty fun s c => pickResult x.ty (Num.minR (s.num x.ty x.a) (s.num x.ty x.b)) c
def execFmax (x : SF) (s : State) : Out :=
  s.scalarF x.d x.ty fun s c => pickResult x.ty (Num.maxR (s.num x.ty x.a) (s.num x.ty x.b)) c

/-- `FCMP` writes 1 or 0 and sets no flag. -/
def execFcmp (c : Cmp) (x : SF) (s : State) : Out :=
  s.scalar x.d fun s => boolWord (cmpNum c (s.num x.ty x.a) (s.num x.ty x.b))

def execFcvt (x : SFC) (s : State) : Out :=
  s.scalarF x.d x.ty fun s c => convert x.ty false (s.num x.src x.a) c

end Sys2Proof.Machine
end

