-- ==== Sys2Proof/Machine/ScalarMem.lean ====
section
/-! DEFINITION. Scalar loads, stores and atomics (11 R299, 10 R272). -/

namespace Sys2Proof.Machine

namespace State

/-- The bytes of a scalar access, or its pre-issue cause (R299, R272, R101, R263, R267). A near group that is written must have its
owner in the span, as R175 and R183 have it for every write of the stream (R177). -/
def scalarPlace (s : State) (acc : Acc) (t : Ty) (a : Nat) : Except Nat (Where × List Nat) :=
  let n := t.width / 8
  if a % n ≠ 0 then .error cALIGN
  else
    match s.locate acc false a n with
    | .error c => .error c
    | .ok (w, keys) =>
      if w.geom.isSome || (w.ty.isSome && w.ty != some t) then .error cFORMAT
      else if acc != .read && w.near && (bedsPos s.me.beds (plotOf w.key)).isNone then .error cSPANOWN
      else if acc == .atomic && w.sync && a % 64 != 16 then .error cSYNCUSE
      else if acc == .atomic && w.sync && t != .i64 && t != .n64 then .error cFORMAT
      else if (acc == .write || acc == .atomic) && !s.heldOk a n then .error cUNHELD
      else .ok (w, keys)

/-- The data fault of a scalar read or atomic (R299): a near one is a pull of the group's owner. -/
def scalarReadBad (s : State) (acc : Access) (w : Where) (keys : List Nat) (a : Nat) : Option FaultRec :=
  let dplot := if w.near then plotOf w.key else 0x1FFF
  match (if w.near then (s.myFrame w.slot).bind fun f => s.nearCause f (plotOf w.key) (localOf w.key) else none) with
  | some c => some { dataFaultRec cPULL a 0 opNone dplot with subc := c }
  | none => (s.badDatum acc keys).map fun b => { dataFaultRec b.code a 0 opNone dplot with refused := b.refused, rmt := b.rmt }

/-- The data fault of a scalar store, which meets the causes itself (R299). -/
def scalarWriteBad (s : State) (w : Where) (keys : List Nat) (a : Nat) : Option FaultRec :=
  let dplot := if w.near then plotOf w.key else 0x1FFF
  match (if w.near then (s.myFrame w.slot).bind fun f => s.nearCause f (plotOf w.key) (localOf w.key) else none) with
  | some c => some (dataFaultRec c a 0 opNone dplot)
  | none =>
    if keys.any fun k => !s.granted 48 .write (s.route k) then
      some { dataFaultRec cPOISON a 0 opNone dplot with refused := true, rmt := keys.any isRemote }
    else none

/-- What the scalar data cache answers a load: far data that the Bandstand has fetched and that the stream has not stored
to, where the turn has it answer (R299; DESIGN CHOICE: notes/assumptions/77.md). -/
def lineOf (s : State) (w : Where) (keys : List Nat) : Option Nat :=
  let k := keys.headD 0
  let n := keys.length
  if w.near || !s.fills || keys.any fun x => (s.buffered x).isSome then none
  else
    (s.dcache.find? fun l => l.band == s.me.id && decide (l.key ≤ k) && decide (k + n ≤ l.key + l.bytes.length)).map fun l =>
      ofBytesLE ((l.bytes.drop (k - l.key)).take n)

/-- What a far load fetched takes the place of what the cache held of it, or it keeps nothing. The cache holds 64 KiB
(R283), which is 8,192 values of at most 8 bytes. -/
def keepLine (s : State) (w : Where) (keys : List Nat) : State :=
  if w.near then s
  else
    let s := s.dropLines keys
    if s.fills && keys.all fun x => (s.buffered x).isNone then
      let mine := (⟨s.me.id, keys.headD 0, keys.map s.byteAt⟩ : DLine) :: s.dcache.filter fun l => l.band == s.me.id
      { s with dcache := mine.take 8192 ++ s.dcache.filter fun l => l.band != s.me.id }
    else s

/-- The address of a scalar access: s(A) plus the offset, modulo 2^64 (notes/assumptions/24.md, DEDUCED). -/
def scalarAddr (s : State) (x : SIM) : Nat := (s.reg x.a + x.imm.signExtend 64).toNat

/-- Store bytes of a scalar of a type at its place, far ones under a write packet of their own (R102). -/
def storeScalar (s : State) (w : Where) (t : Ty) (a : Nat) (cells : List (Nat × Byte)) : State :=
  if w.near then s.storeNear cells
  else (s.storeFar s.me.seq 0 [s.scalarPkt 1 a w.key t] (s.ownerOf w a) cells).flushFar s.me.seq

end State

/-- `LD` (R299). -/
def execLd (x : SIM) (s : State) : Out :=
  s.afterAll fun s =>
    let a := s.scalarAddr x
    match s.scalarPlace .read x.ty a with
    | .error c => .next (s.raise (preFault c a 0 opNone))
    | .ok (w, keys) =>
      match s.lineOf w keys with
      | some n => .next ((s.fillTlb a).finish x.d (toReg x.ty n))
      | none =>
        let s := (s.fillTlb a).readThrough .read keys
        match s.scalarReadBad .read w keys a with
        | some f => .next (s.raiseData f)
        | none => .next ((s.keepLine w keys).finish x.d (toReg x.ty (s.seenNat keys)))

/-- `ST` (R299): its source is s(D). A store to a remote page seals the strip (R307). -/
def execSt (x : SIM) (s : State) : Out :=
  s.afterAll fun s =>
    let a := s.scalarAddr x
    match s.scalarPlace .write x.ty a with
    | .error c => .next (s.raise (preFault c a 0 opNone))
    | .ok (w, keys) =>
      let s : State := if w.remote then (s.fillTlb a).sealStrip else s.fillTlb a
      match s.scalarWriteBad w keys a with
      | some f => .next ((if f.refused then s.refuse 48 (keys.headD 0) else s).raiseData f)
      | none =>
        .next (s.storeScalar w x.ty a (keys.zip (bytesLE keys.length ((s.reg x.d).toNat % 2 ^ x.ty.width)))).retire

namespace State

/-- A scalar atomic (R272): performed at its home, indivisibly, in a sealed strip; s(D) receives the old value. -/
def scalarAtomic (s : State) (op : AOp) (d a b c : Reg) (t : Ty) : Out :=
  s.afterAll fun s =>
    let va := (s.reg a).toNat
    match s.scalarPlace .atomic t va with
    | .error e => .next (s.raise (preFault e va 0 opNone))
    | .ok (w, keys) =>
      let s := ((s.fillTlb va).sealStrip.performedAt (w.key / 256)).readThrough .atomic keys
      match s.scalarReadBad .atomic w keys va with
      | some f => .next (s.raiseData f)
      | none =>
        let old := s.seenNat keys
        let ctl : RCtl := ⟨s.me.rm, s.me.sat, srHash (s.me.seed.setWidth 32) (s.me.seq % 2 ^ 32) 0⟩
        let r := atomicNew op t ctl old ((s.reg b).toNat % 2 ^ t.width) (s.reg c).toNat
        let cells := keys.zip (bytesLE keys.length r.1)
        let s := if w.near then s.storeNear cells else (s.writeCells cells false).predAtomic w.key va
        .next ((s.orFlags r.2).finish d (toReg t old))

end State

def execAadd (x : SF) (s : State) : Out := s.scalarAtomic .add x.d x.a x.b x.b x.ty
def execAand (x : SF) (s : State) : Out := s.scalarAtomic .and x.d x.a x.b x.b x.ty
def execAor (x : SF) (s : State) : Out := s.scalarAtomic .or x.d x.a x.b x.b x.ty
def execAxor (x : SF) (s : State) : Out := s.scalarAtomic .xor x.d x.a x.b x.b x.ty
def execAmin (x : SF) (s : State) : Out := s.scalarAtomic .min x.d x.a x.b x.b x.ty
def execAmax (x : SF) (s : State) : Out := s.scalarAtomic .max x.d x.a x.b x.b x.ty
def execAxchg (x : SF) (s : State) : Out := s.scalarAtomic .xchg x.d x.a x.b x.b x.ty
/-- `ACAS`: the compared pattern is the low bits of s(C). -/
def execAcas (x : SF4) (s : State) : Out := s.scalarAtomic .cas x.d x.a x.b x.c x.ty

end Sys2Proof.Machine
end

