-- ==== Sys2Proof/Machine/Dispatch.lean ====
section
/-! DEFINITION. One arm for each row of the opcode table: a direct call of its meaning. -/

namespace Sys2Proof.Machine

def exec (i : Instr) (s : State) : Host.Outcome State Fault Refusal :=
  match i with
  | .add x => Sys2Proof.Machine.execAdd x s
  | .addi x => Sys2Proof.Machine.execAddi x s
  | .sub x => Sys2Proof.Machine.execSub x s
  | .mul x => Sys2Proof.Machine.execMul x s
  | .mulh k x => Sys2Proof.Machine.execMulh k x s
  | .div x => Sys2Proof.Machine.execDiv x s
  | .divu x => Sys2Proof.Machine.execDivu x s
  | .rem u x => Sys2Proof.Machine.execRem u x s
  | .and x => Sys2Proof.Machine.execAnd x s
  | .or x => Sys2Proof.Machine.execOr x s
  | .xor x => Sys2Proof.Machine.execXor x s
  | .andn x => Sys2Proof.Machine.execAndn x s
  | .shl x => Sys2Proof.Machine.execShl x s
  | .shr x => Sys2Proof.Machine.execShr x s
  | .sar x => Sys2Proof.Machine.execSar x s
  | .clz x => Sys2Proof.Machine.execClz x s
  | .popc x => Sys2Proof.Machine.execPopc x s
  | .seq x => Sys2Proof.Machine.execSeq x s
  | .slt x => Sys2Proof.Machine.execSlt x s
  | .sltu x => Sys2Proof.Machine.execSltu x s
  | .sel x => Sys2Proof.Machine.execSel x s
  | .min u x => Sys2Proof.Machine.execMin u x s
  | .max u x => Sys2Proof.Machine.execMax u x s
  | .li x => Sys2Proof.Machine.execLi x s
  | .la x => Sys2Proof.Machine.execLa x s
  | .fadd x => Sys2Proof.Machine.execFadd x s
  | .fsub x => Sys2Proof.Machine.execFsub x s
  | .fmul x => Sys2Proof.Machine.execFmul x s
  | .ffma x => Sys2Proof.Machine.execFfma x s
  | .fdiv x => Sys2Proof.Machine.execFdiv x s
  | .fsqrt x => Sys2Proof.Machine.execFsqrt x s
  | .fmin x => Sys2Proof.Machine.execFmin x s
  | .fmax x => Sys2Proof.Machine.execFmax x s
  | .fcmp c x => Sys2Proof.Machine.execFcmp c x s
  | .fcvt x => Sys2Proof.Machine.execFcvt x s
  | .ld x => Sys2Proof.Machine.execLd x s
  | .st x => Sys2Proof.Machine.execSt x s
  | .br x => Sys2Proof.Machine.execBr x s
  | .beq x => Sys2Proof.Machine.execBeq x s
  | .bne x => Sys2Proof.Machine.execBne x s
  | .blt x => Sys2Proof.Machine.execBlt x s
  | .bge x => Sys2Proof.Machine.execBge x s
  | .bltu x => Sys2Proof.Machine.execBltu x s
  | .bgeu x => Sys2Proof.Machine.execBgeu x s
  | .call x => Sys2Proof.Machine.execCall x s
  | .ret x => Sys2Proof.Machine.execRet x s
  | .jr x => Sys2Proof.Machine.execJr x s
  | .loop x => Sys2Proof.Machine.execLoop x s
  | .setvl x => Sys2Proof.Machine.execSetvl x s
  | .pfx x => Sys2Proof.Machine.execPfx x s
  | .fork x => Sys2Proof.Machine.execFork x s
  | .rvz x => Sys2Proof.Machine.execRvz x s
  | .span x => Sys2Proof.Machine.execSpan x s
  | .yield land => Sys2Proof.Machine.execYield land s
  | .halt land => Sys2Proof.Machine.execHalt land s
  | .exit land => Sys2Proof.Machine.execExit land s
  | .csrr land d csr => Sys2Proof.Machine.execCsrr land d csr s
  | .csrw land csr a => Sys2Proof.Machine.execCsrw land csr a s
  | .trap land imm => Sys2Proof.Machine.execTrap land imm s
  | .eret land => Sys2Proof.Machine.execEret land s
  | .wait x => Sys2Proof.Machine.execWait x s
  | .nop land => Sys2Proof.Machine.execNop land s
  | .preempt land out d b => Sys2Proof.Machine.execPreempt land out d b s
  | .preemptPark x => Sys2Proof.Machine.execPreemptPark x s
  | .preemptRenew x => Sys2Proof.Machine.execPreemptRenew x s
  | .cres x => Sys2Proof.Machine.execCres x s
  | .kill x => Sys2Proof.Machine.execKill x s
  | .wdog x => Sys2Proof.Machine.execWdog x s
  | .vadd x => Sys2Proof.Machine.execVadd x s
  | .vsub x => Sys2Proof.Machine.execVsub x s
  | .vmul x => Sys2Proof.Machine.execVmul x s
  | .vfma x => Sys2Proof.Machine.execVfma x s
  | .vfms x => Sys2Proof.Machine.execVfms x s
  | .vfnma x => Sys2Proof.Machine.execVfnma x s
  | .vdiv x => Sys2Proof.Machine.execVdiv x s
  | .vsqrt x => Sys2Proof.Machine.execVsqrt x s
  | .vrcp x => Sys2Proof.Machine.execVrcp x s
  | .vrsq x => Sys2Proof.Machine.execVrsq x s
  | .vexp2 x => Sys2Proof.Machine.execVexp2 x s
  | .vlog2 x => Sys2Proof.Machine.execVlog2 x s
  | .vtanh x => Sys2Proof.Machine.execVtanh x s
  | .vmin x => Sys2Proof.Machine.execVmin x s
  | .vmax x => Sys2Proof.Machine.execVmax x s
  | .vabs x => Sys2Proof.Machine.execVabs x s
  | .vneg x => Sys2Proof.Machine.execVneg x s
  | .vclamp x => Sys2Proof.Machine.execVclamp x s
  | .vmulw x => Sys2Proof.Machine.execVmulw x s
  | .vfmaw x => Sys2Proof.Machine.execVfmaw x s
  | .vmulh x => Sys2Proof.Machine.execVmulh x s
  | .vand x => Sys2Proof.Machine.execVand x s
  | .vor x => Sys2Proof.Machine.execVor x s
  | .vxor x => Sys2Proof.Machine.execVxor x s
  | .vnot x => Sys2Proof.Machine.execVnot x s
  | .vshl x => Sys2Proof.Machine.execVshl x s
  | .vshr x => Sys2Proof.Machine.execVshr x s
  | .vsar x => Sys2Proof.Machine.execVsar x s
  | .vaddImm x => Sys2Proof.Machine.execVaddImm x s
  | .vsubImm x => Sys2Proof.Machine.execVsubImm x s
  | .vmulImm x => Sys2Proof.Machine.execVmulImm x s
  | .vfmaImm x => Sys2Proof.Machine.execVfmaImm x s
  | .vfmsImm x => Sys2Proof.Machine.execVfmsImm x s
  | .vfnmaImm x => Sys2Proof.Machine.execVfnmaImm x s
  | .vminImm x => Sys2Proof.Machine.execVminImm x s
  | .vmaxImm x => Sys2Proof.Machine.execVmaxImm x s
  | .vandImm x => Sys2Proof.Machine.execVandImm x s
  | .vorImm x => Sys2Proof.Machine.execVorImm x s
  | .vxorImm x => Sys2Proof.Machine.execVxorImm x s
  | .vshlImm x => Sys2Proof.Machine.execVshlImm x s
  | .vshrImm x => Sys2Proof.Machine.execVshrImm x s
  | .vsarImm x => Sys2Proof.Machine.execVsarImm x s
  | .vcvt x => Sys2Proof.Machine.execVcvt x s
  | .vbq nov x => Sys2Proof.Machine.execVbq nov x s
  | .vbdq scale x => Sys2Proof.Machine.execVbdq scale x s
  | .vclass x => Sys2Proof.Machine.execVclass x s
  | .vmov x => Sys2Proof.Machine.execVmov x s
  | .vsel x => Sys2Proof.Machine.execVsel x s
  | .viota x => Sys2Proof.Machine.execViota x s
  | .vcomp x => Sys2Proof.Machine.execVcomp x s
  | .vexpd x => Sys2Proof.Machine.execVexpd x s
  | .vgath x => Sys2Proof.Machine.execVgath x s
  | .vgathFF x => Sys2Proof.Machine.execVgathFF x s
  | .vscat x => Sys2Proof.Machine.execVscat x s
  | .vxform x => Sys2Proof.Machine.execVxform x s
  | .vxpos x => Sys2Proof.Machine.execVxpos x s
  | .vmovImm x => Sys2Proof.Machine.execVmovImm x s
  | .vcmp c x => Sys2Proof.Machine.execVcmp c x s
  | .vcmpImm c x => Sys2Proof.Machine.execVcmpImm c x s
  | .mand x => Sys2Proof.Machine.execMand x s
  | .mor x => Sys2Proof.Machine.execMor x s
  | .mxor x => Sys2Proof.Machine.execMxor x s
  | .mandn x => Sys2Proof.Machine.execMandn x s
  | .mnot x => Sys2Proof.Machine.execMnot x s
  | .mmov x => Sys2Proof.Machine.execMmov x s
  | .mset x => Sys2Proof.Machine.execMset x s
  | .mclr x => Sys2Proof.Machine.execMclr x s
  | .mpop vl x => Sys2Proof.Machine.execMpop vl x s
  | .mfirst x => Sys2Proof.Machine.execMfirst x s
  | .mbef x => Sys2Proof.Machine.execMbef x s
  | .vred op x => Sys2Proof.Machine.execVred op x s
  | .vscan max x => Sys2Proof.Machine.execVscan max x s
  | .own x => Sys2Proof.Machine.execOwn x s
  | .vloc x => Sys2Proof.Machine.execVloc x s
  | .calloc x => Sys2Proof.Machine.execCalloc x s
  | .cfree x => Sys2Proof.Machine.execCfree x s
  | .crenew lost x => Sys2Proof.Machine.execCrenew lost x s
  | .cage x => Sys2Proof.Machine.execCage x s
  | .clook x => Sys2Proof.Machine.execClook x s
  | .ctag x => Sys2Proof.Machine.execCtag x s
  | .ckeep x => Sys2Proof.Machine.execCkeep x s
  | .lgate x => Sys2Proof.Machine.execLgate x s
  | .vbret x => Sys2Proof.Machine.execVbret x s
  | .bind x => Sys2Proof.Machine.execBind x s
  | .unbind x => Sys2Proof.Machine.execUnbind x s
  | .acq shared x => Sys2Proof.Machine.execAcq shared x s
  | .rel x => Sys2Proof.Machine.execRel x s
  | .binit force x => Sys2Proof.Machine.execBinit force x s
  | .arrive k x => Sys2Proof.Machine.execArrive k x s
  | .await x => Sys2Proof.Machine.execAwait x s
  | .awaitGe x => Sys2Proof.Machine.execAwaitGe x s
  | .fence land sc => Sys2Proof.Machine.execFence land sc s
  | .shadow x => Sys2Proof.Machine.execShadow x s
  | .pub x => Sys2Proof.Machine.execPub x s
  | .bar land => Sys2Proof.Machine.execBar land s
  | .aadd x => Sys2Proof.Machine.execAadd x s
  | .aand x => Sys2Proof.Machine.execAand x s
  | .aor x => Sys2Proof.Machine.execAor x s
  | .axor x => Sys2Proof.Machine.execAxor x s
  | .amin x => Sys2Proof.Machine.execAmin x s
  | .amax x => Sys2Proof.Machine.execAmax x s
  | .axchg x => Sys2Proof.Machine.execAxchg x s
  | .acas x => Sys2Proof.Machine.execAcas x s
  | .vaadd x => Sys2Proof.Machine.execVaadd x s
  | .vamin x => Sys2Proof.Machine.execVamin x s
  | .vamax x => Sys2Proof.Machine.execVamax x s
  | .vacas x => Sys2Proof.Machine.execVacas x s
  | .tatt x => Sys2Proof.Machine.execTatt x s
  | .tdet land => Sys2Proof.Machine.execTdet land s
  | .tclaim x => Sys2Proof.Machine.execTclaim x s
  | .trel x => Sys2Proof.Machine.execTrel x s
  | .tlda x => Sys2Proof.Machine.execTlda x s
  | .tldb x => Sys2Proof.Machine.execTldb x s
  | .tzero x => Sys2Proof.Machine.execTzero x s
  | .tstep x => Sys2Proof.Machine.execTstep x s
  | .tdrain x => Sys2Proof.Machine.execTdrain x s
  | .tsave x => Sys2Proof.Machine.execTsave x s
  | .trest x => Sys2Proof.Machine.execTrest x s
  | .tstat x => Sys2Proof.Machine.execTstat x s
  | .rcopy x => Sys2Proof.Machine.execRcopy x s
  | .rfill x => Sys2Proof.Machine.execRfill x s
  | .rgath x => Sys2Proof.Machine.execRgath x s
  | .rscat x => Sys2Proof.Machine.execRscat x s
  | .rpark x => Sys2Proof.Machine.execRpark x s
  | .runpark x => Sys2Proof.Machine.execRunpark x s
  | .rqwait x => Sys2Proof.Machine.execRqwait x s
  | .recf land a => Sys2Proof.Machine.execRecf land a s
  | .garm x => Sys2Proof.Machine.execGarm x s
  | .grel x => Sys2Proof.Machine.execGrel x s
  | .pswap x => Sys2Proof.Machine.execPswap x s
  | .pswq pair x => Sys2Proof.Machine.execPswq pair x s
  | .tlbi land k => Sys2Proof.Machine.execTlbi land k s
  | .nodeStage b node => Sys2Proof.Machine.execNodeStage b node s
  | .nodeLaunch => Sys2Proof.Machine.execNodeLaunch s
  | .nodeComplete node => Sys2Proof.Machine.execNodeComplete node s
  | .headAgeing q => Sys2Proof.Machine.execHeadAgeing q s
  | .arbourPreempt => Sys2Proof.Machine.execArbourPreempt s
  | .watchdogExpiry q => Sys2Proof.Machine.execWatchdogExpiry q s
  | .systemEventEntry => Sys2Proof.Machine.execSystemEventEntry s
  | .trapEntry b => Sys2Proof.Machine.execTrapEntry b s
  | .dataFault b seq plot => Sys2Proof.Machine.execDataFault b seq plot s
  | .stripRewind b => Sys2Proof.Machine.execStripRewind b s
  | .checkingLaneMismatch b seq plot => Sys2Proof.Machine.execCheckingLaneMismatch b seq plot s
  | .streamPreemption b out => Sys2Proof.Machine.execStreamPreemption b out s
  | .streamResume entry => Sys2Proof.Machine.execStreamResume entry s
  | .contextKill ctx => Sys2Proof.Machine.execContextKill ctx s
  | .elementGroupPerform b seq plot => Sys2Proof.Machine.execElementGroupPerform b seq plot s
  | .pullRequest b seq plot group => Sys2Proof.Machine.execPullRequest b seq plot group s
  | .pullResponse b seq plot group => Sys2Proof.Machine.execPullResponse b seq plot group s
  | .pullRetry b seq plot group => Sys2Proof.Machine.execPullRetry b seq plot group s
  | .horizonUpdate b => Sys2Proof.Machine.execHorizonUpdate b s
  | .requestPacket b seq plot group => Sys2Proof.Machine.execRequestPacket b seq plot group s
  | .farReturn b seq plot group => Sys2Proof.Machine.execFarReturn b seq plot group s
  | .writePacket b key => Sys2Proof.Machine.execWritePacket b key s
  | .remoteAccess source kind pa op data len => Sys2Proof.Machine.execRemoteAccess source kind pa op data len s
  | .remoteAnswer b seq elem => Sys2Proof.Machine.execRemoteAnswer b seq elem s
  | .runnerLine b cmd line => Sys2Proof.Machine.execRunnerLine b cmd line s
  | .runnerComplete b cmd => Sys2Proof.Machine.execRunnerComplete b cmd s
  | .queuedArrival b trl => Sys2Proof.Machine.execQueuedArrival b trl s
  | .trellisComplete b => Sys2Proof.Machine.execTrellisComplete b s
  | .acqGrant b => Sys2Proof.Machine.execAcqGrant b s
  | .waitWake b => Sys2Proof.Machine.execWaitWake b s
  | .swapLineExchange q => Sys2Proof.Machine.execSwapLineExchange q s
  | .swapFlip q => Sys2Proof.Machine.execSwapFlip q s
  | .frameZeroed ctx slot => Sys2Proof.Machine.execFrameZeroed ctx slot s
  | .keeperRenewal ctx slot => Sys2Proof.Machine.execKeeperRenewal ctx slot s
  | .overtemp garden => Sys2Proof.Machine.execOvertemp garden s
  | .railDown rail => Sys2Proof.Machine.execRailDown rail s
  | .railUp rail => Sys2Proof.Machine.execRailUp rail s
  | .retpend bus => Sys2Proof.Machine.execRetpend bus s
  | .busFail bus => Sys2Proof.Machine.execBusFail bus s
  | .zynfyPortChange port up => Sys2Proof.Machine.execZynfyPortChange port up s
  | .hostBarAccess fn bar0 op off data len => Sys2Proof.Machine.execHostBarAccess fn bar0 op off data len s
  | .hostFetchadd fn off addend => Sys2Proof.Machine.execHostFetchadd fn off addend s
  | .msixUnmask fn vec => Sys2Proof.Machine.execMsixUnmask fn vec s
  | .feataWrite v => Sys2Proof.Machine.execFeataWrite v s
  | .chpalWrite ch k v => Sys2Proof.Machine.execChpalWrite ch k v s
  | .accessTableWrite cls pa v => Sys2Proof.Machine.execAccessTableWrite cls pa v s
  | .registerWrite pa v => Sys2Proof.Machine.execRegisterWrite pa v s
  | .readSensors => Sys2Proof.Machine.execReadSensors s
  | .readErrorLog first => Sys2Proof.Machine.execReadErrorLog first s
  | .reset domain => Sys2Proof.Machine.execReset domain s
  | .firmwareStage slot off data => Sys2Proof.Machine.execFirmwareStage slot off data s
  | .firmwareCommit slot => Sys2Proof.Machine.execFirmwareCommit slot s
  | .setPowerCap watts => Sys2Proof.Machine.execSetPowerCap watts s
  | .inject x => Sys2Proof.Machine.execInject x s
  | .attest nonce => Sys2Proof.Machine.execAttest nonce s
  | .romBoot => Sys2Proof.Machine.execRomBoot s
  | .stage1Verify => Sys2Proof.Machine.execStage1Verify s
  | .deviceFirmwareInit => Sys2Proof.Machine.execDeviceFirmwareInit s
  | .pavilionStart => Sys2Proof.Machine.execPavilionStart s
  | .spanWideReduction b seq => Sys2Proof.Machine.execSpanWideReduction b seq s

end Sys2Proof.Machine
end

