-- ==== Sys2Proof/Machine/Schedule.lean ====
section
/-! DEFINITION. Which agent moves next, fetch and issue (01 R8, R10, R31, R34, R39), and one turn. The agenda of State names
the turns to come; once it is empty the model's own order applies (notes/assumptions/2.md, DESIGN CHOICE). -/

namespace Sys2Proof.Machine

namespace State

/-! ### Issue -/

/-- The fetch of a word that is not there (R34): `EPC` and `EADDR` are the page's first address, or the word's own where
the page can be fetched and the word cannot. -/
def fetchFault (s : State) : State :=
  let a := s.me.pc.toNat
  let at_ := match s.translate .exec false a with
    | .ok _ => a
    | .error _ => s.pageStart a
  State.raise { s with me := { s.me with pc := BitVec.ofNat 64 at_ } } (preFault cIFETCH at_ 0 opNone)

/-- The second word of a prefix unit is not there (R31). -/
def fetchFaultPfx (s : State) (second : Word) : State :=
  (s.fetchReads second.toNat).raise (preFault cIFETCH second.toNat 0 opNone)

/-- An instruction at the pc issues once the pairs in FLIP that hold it are flipped (R118). What the flip waits for may have
stopped the stream or sent it elsewhere; then the word does not issue. -/
def issueInstr (s : State) (i : Instr) : Out :=
  let t := s.flipFirst i
  if t.me.status = .run ∧ t.me.pc = s.me.pc ∧ t.me.pfx = s.me.pfx then exec i t else .next t

/-- A word at the pc issues: a prefix whose target word is not there, a word with no form, or an instruction. -/
def issueWord (s : State) (w : IWord) : Out :=
  if s.me.pfx.isNone ∧ opcOf w = 0x10C ∧ (s.fetchWord (s.me.pc + 16).toNat).isNone = true then
    s.afterAll fun s => .next (s.fetchFaultPfx (s.me.pc + 16))
  else
    match decode w with
    | .error _ => s.afterAll fun s => .next (s.raiseNoAddr cILLEGAL)
    | .ok i => s.issueInstr i

/-- The moving stream fetches and issues. -/
def issue (s : State) : Out :=
  let s := s.fetchReads s.me.pc.toNat
  match s.fetchWord s.me.pc.toNat with
  | none => s.afterAll fun s => .next (if s.me.pfx.isSome then s.raise (preFault cIFETCH s.me.pc.toNat 0 opNone) else s.fetchFault)
  | some w => s.issueWord w

/-! ### One turn -/

/-- The commands that the Lodge still takes once the part has halted (R374). -/
def lodgeCommand : Instr → Bool
  | .readSensors | .readErrorLog _ | .reset _ | .firmwareStage _ _ _ | .firmwareCommit _ | .setPowerCap _ | .inject _
  | .attest _ => true
  | _ => false

/-- The stream on a Bandstand moves, when it runs. -/
def issueTurn (s : State) (b : Fin 64) (holdBack fills : Bool) : Out :=
  match s.swapIn b with
  | none => .next s
  | some t => if t.me.status = .run ∧ t.me.list.isNone = true then State.issue { t with holdBack, fills } else .next s

/-- A step that no word names; a pair in FLIP is flipped before a stream comes onto a Bandstand (R118). -/
def eventTurn (s : State) (e : Instr) : Out :=
  if e.isWord then .next s
  else
    let s : State := { s with holdBack := false, fills := false }
    match e with
    | .nodeLaunch | .streamResume _ => exec e (s.flipFirst e)
    | e => exec e s

/-- Time passes with a turn, and `THROTL` counts the cycles by which the governor has delayed it (R378; notes/assumptions/74.md,
DESIGN CHOICE). -/
def elapse (s : State) (cycles delayed : Nat) : State :=
  let s := s.pass (cycles + delayed)
  if delayed = 0 then s
  else s.setDreg (controlBase + 0x308) (s.dreg (controlBase + 0x308) + BitVec.ofNat 64 delayed)

def afterTurn (t : Turn) : Out → Out
  | .next s => .next (s.elapse t.cycles t.delayed)
  | .fault f => .fault f
  | .refused r => .refused r

/-- One turn. A halted part does nothing but answer the Lodge (R375) (DESIGN CHOICE: notes/assumptions/75.md). -/
def takeTurn (s : State) (t : Turn) : Out :=
  match t.who with
  | .issue b holdBack fills =>
    if s.phase = .halted then .fault .halted else afterTurn t (s.issueTurn b holdBack fills)
  | .event e =>
    if s.phase = .halted ∧ lodgeCommand e = false then .fault .halted else afterTurn t (s.eventTurn e)

/-! ### The order of turns once the agenda is empty -/

/-- The next element group that a plot can perform for a stream in its turn (R340, R343). -/
def laneNext (s : State) : Option Instr :=
  (s.me :: s.bands).findSome? fun b => (s.swapIn b.id).bind fun t => t.me.jobs.findSome? fun j => (j.elems.find? fun e =>
    b.status == .run && ((t.bandSlot t.me e.plot).bind (t.takeSlot e.plot)).isSome && (nextGroup j e.plot).any (t.groupReady j)).map
      fun e => Instr.elementGroupPerform b.id j.seq e.plot

/-- What the queues of a stream hold that completes without it: packets, Runner commands and, while it stands on its Bandstand,
Trellis commands (R145, R248). -/
def queueTurn (here : Bool) (b : Band) : Option Instr :=
  match b.wpkts with
  | p :: _ => some (.writePacket b.id (p.granule * 256))
  | [] =>
    match b.runner with
    | c :: _ =>
      if c.arrival.isSome then some (.queuedArrival b.id false)
      else if c.begun && c.lines.isEmpty then some (.runnerComplete b.id c.id)
      else some (.runnerLine b.id c.id ((c.lines.head?.map RLine.line).getD 0))
    | [] =>
      match b.trl.queue with
      | c :: _ =>
        if b.status ≠ .run ∨ here = false then none
        else some (if c.arrival.isSome then .queuedArrival b.id true else .trellisComplete ⟨b.id, none⟩)
      | [] => none

/-- The device's own business, in the model's order: kills, groups that a plot can perform, met faults, completions, queues, system
events, watchdogs, ageing, swap pairs, dispatch. -/
def deviceTurn (s : State) : Option Instr :=
  let all := s.me :: s.bands
  let fault := all.findSome? fun b => b.pending.map fun p =>
    if State.rewindsFor { s with me := b } p.1 then Instr.stripRewind b.id else .trapEntry b.id
  let event : Option Instr :=
    if !s.sysPend.isEmpty && all.any fun b => b.id.val == 63 && b.status == .run && !b.inh && b.waiting != some .ending then
      some .systemEventEntry
    else none
  let expired := s.timers.findSome? fun t =>
    if t.2 ≤ s.now ∧ t.1 < 256 then some (Instr.watchdogExpiry (Fin.ofNat 256 t.1)) else none
  let older := s.heads.findSome? fun h =>
    if h.level < s.headLevel h ∧ h.q < 256 then some (Instr.headAgeing (Fin.ofNat 256 h.q)) else none
  let swap := s.pairs.findSome? fun p =>
    if p.q < 64 then some (if p.moved < 256 then Instr.swapLineExchange (Fin.ofNat 64 p.q) else .swapFlip (Fin.ofNat 64 p.q))
    else none
  let dispatch : Option Instr :=
    if s.freeStand.isSome && s.bestHead.isSome then some .nodeLaunch
    else if s.freeStand.isNone && (s.heads.any fun h => s.headFit h && s.headLevel h == 7) && s.victim.isSome then
      some .arbourPreempt
    else none
  let stage : Option Instr :=
    match (s.me :: s.bands).find? fun b => b.status == .free && b.id.val != 63 && s.staged.all fun x => x.1 != b.id.val with
    | some b => s.stageNext.map fun pa => .nodeStage b.id pa
    | none => none
  (s.pendKill.head?.map fun k => Instr.contextKill k.ctx) <|> s.laneNext <|> fault <|>
    (s.due.head?.map fun c => Instr.nodeComplete c.1.pa) <|>
    (all.findSome? (queueTurn true)) <|> ((s.stopped.map Stopped.band).findSome? (queueTurn false)) <|> event <|> expired <|>
    older <|> swap <|> dispatch <|> stage

/-- The stream that moves next: by Bandstand number after the one that moved last, so that each moves in turn, one that waits
too: it looks whether its wait is over (R343). -/
def nextStream (s : State) : Option (Fin 64) :=
  let run := (s.me :: s.bands).filter fun b => b.status == .run && b.list.isNone
  let rank := fun (b : Band) => (b.id.val + 63 - s.me.id.val) % 64
  (run.foldl (fun (r : Option Band) b => match r with
    | none => some b
    | some a => if rank b < rank a then some b else some a) none).map Band.id

/-- The agent that moves when the agenda is empty. -/
def defaultWho (s : State) : Who :=
  match s.phase with
  | .rom => .event .romBoot
  | .stage1 => .event .stage1Verify
  | .firmware => .event .deviceFirmwareInit
  | .pavilion => .event .pavilionStart
  | .up | .halted =>
    match s.deviceTurn with
    | some e => .event e
    | none => .issue (s.nextStream.getD s.me.id) false false

/-- The turn that comes: the first of the agenda, or the model's own of one cycle. -/
def nextTurn (s : State) : Turn :=
  match s.agenda with
  | t :: _ => t
  | [] => ⟨1, 0, s.defaultWho⟩

/-- One step of the machine. -/
def oneStep (s : State) : Out := State.takeTurn { s with agenda := s.agenda.tail } s.nextTurn

/-! ### A word where the next fetch finds it -/

/-- Bytes stored in HBM as a whole, sound granule holds them. -/
def placeBytes (s : State) (k : Nat) (bs : List Byte) : State :=
  let s := (s.materialise (k / 256)).clearPoison (k / 256)
  State.putMem { s with hbmErr := s.hbmErr.filter fun e => sectorOf e.1 / 8 != k / 256 } (cellsOf k bs)

/-- Where the word stands, and the tables that map it: a table of level 1 at 0, one of level 2 at 0x10000, and a leaf of
512 MiB, readable, writable, executable and open to atomics (R95 to R97). -/
def wordAt : Nat := 0x20000
def tableWord : Nat := 1 + 1 * 2 ^ 20
def leafWord : Nat := 0x7F

/-- A context whose page table stands at 0. -/
def wordCtx : Ctx :=
  { id := 0, ptRoot := 0, groups := some 0 :: List.replicate 15 none, frames := [], leaving := [], bindings := [],
    shadows := [], fn := 0, killed := false }

/-- The moving stream is a supervisor stream of that context about to fetch at `wordAt`, and it moves next. -/
def placeWord (s : State) (w : Nat) : State :=
  let s := ((s.placeBytes 0 (bytesLE 8 tableWord)).placeBytes 0x10000 (bytesLE 8 leafWord)).placeBytes wordAt (bytesLE 32 w)
  { s with
    phase := .up, agenda := ⟨1, 0, .issue s.me.id false false⟩ :: s.agenda, pairs := [], tlb := [],
    ctxs := wordCtx :: s.ctxs.filter fun c => c.id != 0,
    me := { s.me with
      status := .run, list := none, ctx := 0, supv := true, pc := BitVec.ofNat 64 wordAt, pfx := none, waiting := none,
      text := [⟨0, 2 ^ 55, cellsOf wordAt (bytesLE 32 w)⟩] } }

end State

end Sys2Proof.Machine
end

