-- ==== Sys2Proof/Machine/Step.lean ====
section
/-! DEFINITION. One step of the machine, and the state whose next step runs a given word. -/

namespace Sys2Proof.Machine

/-- One step: the next turn of the agenda, or the model's own. -/
def step (s : State) : Host.Outcome State Fault Refusal := s.oneStep

/-- The state whose next step fetches and runs the word of `nbits` bits `w`, with zeros above it (notes/assumptions/17.md, DESIGN CHOICE). -/
def State.withFetchWord (s : State) (nbits w : Nat) : State := s.placeWord (w % 2 ^ nbits)

end Sys2Proof.Machine
end

