-- ==== Sys2Proof/Safety.lean ====
section
/-! DEFINITION. The terms in which statements speak: what it is for an instruction to complete, what a form that writes one
scalar register leaves, and the invariants of a state. -/

namespace Sys2Proof.Machine

/-- The instruction answers a next state, of which P holds. -/
def Completes (i : Instr) (s : State) (P : State → Prop) : Prop := ∃ t, exec i s = .next t ∧ P t

namespace State

/-! ### What a step leaves -/

/-- Everything outside the moving stream's Bandstand is as it was. -/
def SameOutside (s t : State) : Prop := { t with me := s.me } = s

/-- Every byte of memory reads as it did. -/
def SameBytes (s t : State) : Prop := ∀ k, t.byteAt k = s.byteAt k

/-- Outside the moving stream's Bandstand nothing differs but memory, what stands beside its bytes, the scalar data cache, and
what writes count: the channels' error counters, `ACCREF` and the error log. -/
def SameBut (s t : State) : Prop :=
  { t with me := s.me, mem := s.mem, gcode := s.gcode, poison := s.poison, hbmErr := s.hbmErr, dregs := s.dregs,
           errlog := s.errlog, dcache := s.dcache } = s ∧
  ∀ pa, pa ≠ controlBase + 0x28 → (∀ c < 256, pa ≠ chReg c 0x100) → t.dreg pa = s.dreg pa

/-- No packet of the stream holds a byte twice. -/
abbrev PacketsOk (s : State) : Prop :=
  (∀ p ∈ s.me.wpkts, (p.cells.map Prod.fst).Nodup) ∧ ∀ p ∈ s.me.strip.far, (p.cells.map Prod.fst).Nodup

/-- Whether the target of a byte accepts the stream's writes (R373). -/
abbrev Accepts (s : State) (k : Nat) : Prop := s.granted 48 .write (s.route k) = true

/-- `t` is `s` once every store that the stream has buffered or sent stands at its home (R104): what its target refuses is
dropped, no other byte changes, and the stream keeps no store and no journal. -/
structure Performed (s t : State) : Prop where
  bytes : ∀ k, s.Accepts k → t.byteAt k = s.seen k
  refused : ∀ k, ¬s.Accepts k → t.byteAt k = s.byteAt k
  empty : t.me.wpkts = [] ∧ t.me.strip.far = []
  stream : { t.me with strip := s.me.strip, wpkts := s.me.wpkts } = s.me
  outside : s.SameBut t

/-- A scalar register as it reads after a write of v to register d (R287). -/
def regAfter (s : State) (d : Reg) (v : Word) (r : Reg) : Word := if r = d ∧ d.val ≠ 0 then v else s.reg r

/-- `t` follows `s` by a form that writes v to s(d), sets flags f, and goes on at the next word: nothing else of the moving
stream changes, nothing outside it, and no byte of memory. -/
structure Wrote (s t : State) (d : Reg) (v : Word) (f : Flags) : Prop where
  regs : ∀ r, t.reg r = s.regAfter d v r
  pc : t.me.pc = s.me.pc + 16
  seq : t.me.seq = s.me.seq + 1
  flags : t.me.fpsr = s.me.fpsr ||| f
  spent : t.me.pfx = none ∧ t.me.waiting = none
  rest : { t.me with regs := s.me.regs, pc := s.me.pc, seq := s.me.seq, fpsr := s.me.fpsr, pfx := s.me.pfx,
                     waiting := s.me.waiting } = s.me
  outside : s.SameOutside t
  bytes : s.SameBytes t

/-- `t` follows `s` by a transfer to `target` that writes v to s(d). -/
structure Jumped (s t : State) (target : Word) (d : Reg) (v : Word) : Prop where
  regs : ∀ r, t.reg r = s.regAfter d v r
  pc : t.me.pc = target
  seq : t.me.seq = s.me.seq + 1
  rest : { t.me with regs := s.me.regs, pc := s.me.pc, seq := s.me.seq, pfx := s.me.pfx } = s.me
  outside : s.SameOutside t
  bytes : s.SameBytes t

/-- Register 0, which discards what is written to it. -/
abbrev noReg : Reg := 0

/-- The stream waits at the instruction: nothing but the wait is noted. -/
def Waits (s t : State) (w : Wait) : Prop := t = { s with me := { s.me with waiting := some w } }

/-- Whether a fault recurs after its strip was rewound (R353). -/
def recurs (s : State) (r : FaultRec) : Bool := s.me.strip.rewound && !r.refused && (r.code == cPOISON || r.code == cNEARUE)

/-- `t` is `s` in the handler (R317, steps 4 to 7) for a cause with the record r that stopped at `epc`, with the number that
`ESTAT` shows and the instructions kept for `ERET`: the strip is sealed, the trap CSRs are written, fetch goes on at `TVEC`, and
nothing else differs, in the stream or outside it. -/
structure InHandler (s t : State) (r : FaultRec) (epc : Word) (seq : Nat) (stops : List StopInstr) : Prop where
  epc : t.me.epc = epc &&& ~~~15
  ecause : t.me.ecause = ecauseOf r.code
  eaddr : t.me.eaddr = r.addr
  eelem : t.me.eelem = BitVec.ofNat 64 r.elem
  estat : t.me.estat = estatOf r (seq % 2 ^ 32) s.me.strip.sealed (s.recurs r) stops.length
  einfo : t.me.einfo = r.info
  inh : t.me.inh = true
  pc : t.me.pc = s.me.tvec
  sealed : t.me.strip.sealed = true
  regs : ∀ q, t.reg q = s.reg q
  masks : t.me.masks = s.me.masks
  vl : t.me.vl = s.me.vl
  fpsr : t.me.fpsr = s.me.fpsr
  kept : t.me.stops = stops
  rest : t = { s.sealStrip with me := { s.sealStrip.me with
    epc := t.me.epc, ecause := t.me.ecause, eaddr := t.me.eaddr, eelem := t.me.eelem, estat := t.me.estat, einfo := t.me.einfo,
    stopEpc := t.me.epc, stops, inh := true, pc := s.me.tvec, pfx := none, jobs := [], pending := none, waiting := none } }

/-- The stream's Bandstand holds `b` and goes on at the next word, and nothing outside it has changed. -/
def onward (s : State) (b : Band) : State :=
  { s with me := { b with pc := b.pc + 16, seq := b.seq + 1, pfx := none, waiting := none } }

/-- The record of a cause that names no address: `EADDR` is a free value (notes/assumptions/11.md, DESIGN CHOICE). -/
def noAddr (s : State) (code : Nat) : FaultRec := { preFault code 0 0 opNone with addr := Config.freeAddr s.nextFree }

/-- The handler is entered at the word that was to issue, which takes no number and has no effect (R39, R317): but for the walk
that met a translation cause (R98, R109), and the model's counter of free values. `ESTAT` shows the number that the word would
have taken, and 0 for `IFETCH` and `ORPHANPFX` (R347). -/
def Denied (s t : State) (r : FaultRec) : Prop :=
  ((({ s with nextFree := t.nextFree } : State).probed r).InHandler t r s.me.issueAddr
    (if r.code = cIFETCH ∨ r.code = cORPHANPFX then 0 else s.me.seq) []) ∧ t.me.seq = s.me.seq ∧ t.me.stops = []

/-- The handler is entered for a data fault at its issue: the word has taken its number and is kept for `ERET`. -/
def StoppedAt (s t : State) (r : FaultRec) : Prop :=
  s.counted.InHandler t r s.me.issueAddr s.me.seq t.me.stops ∧ t.me.seq = s.me.seq + 1 ∧
    t.me.stops.map (fun x => (x.addr, x.seq)) = [(s.me.issueAddr, s.me.seq)]

/-- The stream can take a fault: it has a handler and is not in it (R317, step 1). -/
abbrev CanTrap (s : State) : Prop := s.me.tvec ≠ 0 ∧ s.me.inh = false

/-- `t` is `u`, in which the stream of some Bandstand has moved, with the stream that moved in `s` back as the moving one. -/
def Back (s u t : State) : Prop := t = (u.swapIn s.me.id).getD u

/-! ### Invariants -/

/-- Memory is in its canonical form. -/
abbrev MemOk (s : State) : Prop := Memory.wf s.mem = true

/-- No page stands in two swap pairs, and every page of one is a page of far memory (R118, R120). -/
abbrev PairsOk (s : State) : Prop :=
  s.pairs.Pairwise (fun p q => p.c ≠ q.c ∧ p.c ≠ q.h ∧ p.h ≠ q.c ∧ p.h ≠ q.h) ∧ ∀ p ∈ s.pairs, p.c < 2 ^ 32 ∧ p.h < 2 ^ 32

/-- The supervisor runs on Bandstand 63, which runs no node, and nowhere else (R283, R315). -/
def ModesOk (s : State) : Prop :=
  (∀ b ∈ s.me :: s.bands, b.supv = (b.id == 63) ∧ (b.id = 63 → b.node = none)) ∧ ∀ x ∈ s.stopped, x.band.supv = false

/-! ### Broadcast work -/

/-- Element i is enabled by a guard (R28). -/
def Enabled (s : State) (g : Option Guard) (i : Nat) : Prop := ∀ k, g = some k → s.me.masks[k.k.val].bit i ≠ k.neg

/-- The state in which a class V or VI word issues: at once, or after everything before it has finished. -/
def VectorAt (s : State) (d : VDesc) (u : State) : Prop :=
  if s.mustSettle d = true ∨ s.openRed d = true then s.settled = .ok u else u = s

/-- A `VRED` of `min`, `max` or `and` over no element, whose type nothing resolves (R27; notes/assumptions/16.md, DESIGN CHOICE). -/
def OpenReduction (s : State) (d : VDesc) : Prop :=
  (d.op = .red .min ∨ d.op = .red .max ∨ d.op = .red .and) ∧ d.sd.isSome = true ∧ d.ty1 = none ∧
    ∀ i < s.me.vl, ¬s.Enabled d.g i

/-- The bytes that a planned instruction may write: its destinations, the blocks around their scale bytes (R74, R202), and
the targets of a vector atomic. -/
def MayWrite (p : Plan) (k : Nat) : Prop :=
  ∃ e ∈ p.elems, (∃ l, e.d = some l ∧ (k ∈ l.keys ∨ ∃ c, l.scale = some c ∧ k / 256 = c / 256)) ∨
    (isAtomicOp p.op = true ∧ ∃ l, e.a = some l ∧ k ∈ l.keys)

/-! ### Sync objects -/

/-- Every byte of memory outside the n bytes from o reads as it did. -/
def SameBytesBut (s t : State) (o n : Nat) : Prop := ∀ k, k < o ∨ o + n ≤ k → t.byteAt k = s.byteAt k

/-- The object at o that s(A) names passes the checks of a form that refuses the kinds `bad`, and v is the state in which
the form takes effect: its page read, the strip sealed, every earlier store performed (R263, R265). -/
def ObjectAt (s : State) (a : Reg) (bad : Nat → Bool) (o : Nat) (v : State) : Prop :=
  ∃ w, s.objPlace (s.reg a).toNat = .ok w ∧ w.key = o ∧ isNear o = false ∧
    let keys := (List.range 64).map fun k => o + k
    let r := (s.fillTlb (s.reg a).toNat).readThrough .atomic keys
    r.badDatum .atomic keys = none ∧ bad (r.oKind o) = false ∧ v = r.sealStrip.performed ∧ v.MemOk ∧ v.PairsOk

/-- Nothing of the moving stream but its holds, what it waits for, s(D) and the advance of fetch has changed. -/
structure SyncDone (s t : State) (d : Reg) (v : Word) : Prop where
  regs : ∀ r, t.reg r = s.regAfter d v r
  rest : { t.me with regs := s.me.regs, holds := s.me.holds } = (s.onward s.me).me

/-- The graph node at o that s(A) names passes the checks of `GARM` and `GREL`, and v is the state in which the form takes
effect: its granule read, the strip sealed, every earlier store and command of the stream performed (R328). -/
def NodeAt (s : State) (a : Reg) (o : Nat) (v : State) : Prop :=
  ∃ w, (s.reg a).toNat % 64 = 0 ∧ s.translate .atomic false (s.reg a).toNat = .ok w ∧ w.key = o ∧ w.graph = true ∧
    s.graphOwner (o / 65536) = some s.me.ctx ∧ isNear o = false ∧
    let keys := (List.range 64).map fun k => o + k
    let r := (s.fillTlb (s.reg a).toNat).readThrough .atomic keys
    r.badDatum .atomic keys = none ∧ v = r.sealStrip.performed.drained ∧ v.MemOk ∧ v.PairsOk

/-! ### Frames -/

/-- The frame that a `CALLOC` with these answers allocates (R151, R152, R155). -/
def callocFrame (s : State) (x : CallocF) (isRun : Bool) (st k slot lb : Nat) : Frame :=
  let shape := fun size => (⟨slot, x.keep, false, false, isRun, x.geom, x.ty, if isRun = true then 0 else s.me.spane, st, k, lb,
    false, size, s.now + s.lifeOf (s.reg x.c), 0, false⟩ : Frame)
  let row := frameUnit x.geom * s.frameCount (shape 0)
  shape (((s.reg x.a).toNat + row - 1) / row * row)

/-! ### The numbers of R289 -/

/-- Those that a CSR has. -/
def csrNumbers : List (BitVec 16) :=
  [0x000, 0x001, 0x002, 0x003, 0x004, 0x005, 0x006, 0x010, 0x011, 0x020, 0x021, 0x022, 0x023, 0x030, 0x031, 0x040, 0x041,
   0x042, 0x043, 0x050, 0x100, 0x101, 0x102, 0x103, 0x104, 0x105, 0x106, 0x200, 0x201, 0x300]

/-- Those that user mode may write, and those that only supervisor mode may. -/
def csrUser : List (BitVec 16) := [0x002, 0x003, 0x004, 0x010, 0x011, 0x022, 0x100, 0x101, 0x300]
def csrSuper : List (BitVec 16) := [0x102, 0x103, 0x104, 0x105, 0x106, 0x201]

end State

end Sys2Proof.Machine
end

