-- ==== Sys2Proof/Certificates/Slice0/Obligations.lean ====
section
/-! DEFINITION. The statements for the provers, from the numbered rules of spec/. A form issues once every begun
broadcast instruction of the stream has finished: `u` is the state in which it then takes effect (`s.settled = .ok u`), and
it is `s` itself, its new frames zeroed, where nothing is in flight. -/

open Sys2Proof Sys2Proof.Machine

/-! ### Scalar forms -/

/-- R295, arithmetic. `MULH` is the floor of the exact product by 2^64; by zero `DIV` and `DIVU` give all ones and `REM`
gives s(A); -2^63 by -1 stays.

R295 and R199, logic, shifts and counts: a count of 64 or more shifts everything out.

R295: compares and selections. -/
def Obligations.ScalarIntegerFormsCompute : Prop :=
  (∀ s u : State, s.settled = .ok u →
    (∀ x, Completes (.add x) s fun t => u.Wrote t x.d (u.reg x.a + u.reg x.b) 0) ∧
    (∀ x, Completes (.addi x) s fun t => u.Wrote t x.d (u.reg x.a + x.imm.signExtend 64) 0) ∧
    (∀ x, Completes (.sub x) s fun t => u.Wrote t x.d (u.reg x.a - u.reg x.b) 0) ∧
    (∀ x, Completes (.mul x) s fun t => u.Wrote t x.d (u.reg x.a * u.reg x.b) 0) ∧
    (∀ x, Completes (.mulh .ss x) s fun t =>
      u.Wrote t x.d (BitVec.ofInt 64 ((u.reg x.a).toInt * (u.reg x.b).toInt / 2 ^ 64)) 0) ∧
    (∀ x, Completes (.mulh .uu x) s fun t =>
      u.Wrote t x.d (BitVec.ofNat 64 ((u.reg x.a).toNat * (u.reg x.b).toNat / 2 ^ 64)) 0) ∧
    (∀ x, Completes (.mulh .su x) s fun t =>
      u.Wrote t x.d (BitVec.ofInt 64 ((u.reg x.a).toInt * (u.reg x.b).toNat / 2 ^ 64)) 0) ∧
    (∀ x, Completes (.div x) s fun t =>
      u.Wrote t x.d (if u.reg x.b = 0 then BitVec.allOnes 64 else (u.reg x.a).sdiv (u.reg x.b)) 0) ∧
    (∀ x, Completes (.divu x) s fun t =>
      u.Wrote t x.d (if u.reg x.b = 0 then BitVec.allOnes 64 else u.reg x.a / u.reg x.b) 0) ∧
    (∀ x, Completes (.rem false x) s fun t =>
      u.Wrote t x.d (if u.reg x.b = 0 then u.reg x.a else (u.reg x.a).srem (u.reg x.b)) 0) ∧
    (∀ x, Completes (.rem true x) s fun t => u.Wrote t x.d (u.reg x.a % u.reg x.b) 0)) ∧
  (∀ s u : State, s.settled = .ok u →
    (∀ x, Completes (.and x) s fun t => u.Wrote t x.d (u.reg x.a &&& u.reg x.b) 0) ∧
    (∀ x, Completes (.or x) s fun t => u.Wrote t x.d (u.reg x.a ||| u.reg x.b) 0) ∧
    (∀ x, Completes (.xor x) s fun t => u.Wrote t x.d (u.reg x.a ^^^ u.reg x.b) 0) ∧
    (∀ x, Completes (.andn x) s fun t => u.Wrote t x.d (u.reg x.a &&& ~~~u.reg x.b) 0) ∧
    (∀ x, Completes (.shl x) s fun t =>
      u.Wrote t x.d (if (u.reg x.b).toNat < 64 then u.reg x.a <<< (u.reg x.b).toNat else 0) 0) ∧
    (∀ x, Completes (.shr x) s fun t =>
      u.Wrote t x.d (if (u.reg x.b).toNat < 64 then u.reg x.a >>> (u.reg x.b).toNat else 0) 0) ∧
    (∀ x, Completes (.sar x) s fun t => u.Wrote t x.d ((u.reg x.a).sshiftRight (u.reg x.b).toNat) 0) ∧
    (∀ x, Completes (.clz x) s fun t => ∃ n, u.Wrote t x.d (BitVec.ofNat 64 n) 0 ∧
      n ≤ 64 ∧ (∀ k, 64 - n ≤ k → (u.reg x.a).getLsbD k = false) ∧ (n < 64 → (u.reg x.a).getLsbD (63 - n) = true)) ∧
    (∀ x, Completes (.popc x) s fun t =>
      u.Wrote t x.d (BitVec.ofNat 64 ((List.range 64).countP fun k => (u.reg x.a).getLsbD k)) 0)) ∧
  (∀ s u : State, s.settled = .ok u →
    (∀ x, Completes (.seq x) s fun t => u.Wrote t x.d (if u.reg x.a = u.reg x.b then 1 else 0) 0) ∧
    (∀ x, Completes (.slt x) s fun t => u.Wrote t x.d (if (u.reg x.a).toInt < (u.reg x.b).toInt then 1 else 0) 0) ∧
    (∀ x, Completes (.sltu x) s fun t => u.Wrote t x.d (if (u.reg x.a).toNat < (u.reg x.b).toNat then 1 else 0) 0) ∧
    (∀ x, Completes (.sel x) s fun t => u.Wrote t x.d (if u.reg x.a = 0 then u.reg x.c else u.reg x.b) 0) ∧
    (∀ x, Completes (.min false x) s fun t =>
      u.Wrote t x.d (if (u.reg x.a).toInt ≤ (u.reg x.b).toInt then u.reg x.a else u.reg x.b) 0) ∧
    (∀ x, Completes (.min true x) s fun t =>
      u.Wrote t x.d (if (u.reg x.a).toNat ≤ (u.reg x.b).toNat then u.reg x.a else u.reg x.b) 0) ∧
    (∀ x, Completes (.max false x) s fun t =>
      u.Wrote t x.d (if (u.reg x.a).toInt ≤ (u.reg x.b).toInt then u.reg x.b else u.reg x.a) 0) ∧
    (∀ x, Completes (.max true x) s fun t =>
      u.Wrote t x.d (if (u.reg x.a).toNat ≤ (u.reg x.b).toNat then u.reg x.b else u.reg x.a) 0))

/-- R296: `LI` writes its immediate, `LA` its own word's address plus its immediate; their words have opcodes 0x017 and
0x018. -/
def Obligations.ConstantsLoad : Prop :=
  ∀ (s u : State) (x : L1), s.settled = .ok u →
    (Completes (.li x) s fun t => u.Wrote t x.d x.imm 0) ∧ opcOf (encode (.li x)) = 0x017 ∧
    (Completes (.la x) s fun t => u.Wrote t x.d (u.me.pc + x.imm) 0) ∧ opcOf (encode (.la x)) = 0x018

/-- R297, R298: each form encodes its exact result once, under the rounding controls in force with index 0, and its flags
accumulate in `FPSR`; `FCMP` sets none. -/
def Obligations.ScalarFloatFormsCompute : Prop :=
  ∀ s u : State, s.settled = .ok u →
    let c := u.rctl 0
    let wrote := fun (t : State) (d : Reg) (ty : Ty) (r : Nat × Flags) => u.Wrote t d (toReg ty r.1) r.2
    (∀ x, Completes (.fadd x) s fun t =>
      wrote t x.d x.ty (arithResult x.ty (Machine.Num.add c.rm (u.num x.ty x.a) (u.num x.ty x.b)) c)) ∧
    (∀ x, Completes (.fsub x) s fun t =>
      wrote t x.d x.ty (arithResult x.ty (Machine.Num.sub c.rm (u.num x.ty x.a) (u.num x.ty x.b)) c)) ∧
    (∀ x, Completes (.fmul x) s fun t =>
      wrote t x.d x.ty (arithResult x.ty (Machine.Num.mul (u.num x.ty x.a) (u.num x.ty x.b)) c)) ∧
    (∀ x, Completes (.ffma x) s fun t =>
      wrote t x.d x.ty (arithResult x.ty (Machine.Num.fma c.rm (u.num x.ty x.a) (u.num x.ty x.b) (u.num x.ty x.c)) c)) ∧
    (∀ x, Completes (.fdiv x) s fun t =>
      wrote t x.d x.ty (fnResult x.ty (Machine.Num.div (u.num x.ty x.a) (u.num x.ty x.b)) c)) ∧
    (∀ x, Completes (.fsqrt x) s fun t => wrote t x.d x.ty (fnResult x.ty (u.num x.ty x.a).sqrt c)) ∧
    (∀ x, Completes (.fmin x) s fun t =>
      wrote t x.d x.ty (pickResult x.ty (Machine.Num.minR (u.num x.ty x.a) (u.num x.ty x.b)) c)) ∧
    (∀ x, Completes (.fmax x) s fun t =>
      wrote t x.d x.ty (pickResult x.ty (Machine.Num.maxR (u.num x.ty x.a) (u.num x.ty x.b)) c)) ∧
    (∀ c x, Completes (.fcmp c x) s fun t =>
      u.Wrote t x.d (if cmpNum c (u.num x.ty x.a) (u.num x.ty x.b) = true then 1 else 0) 0) ∧
    (∀ x, Completes (.fcvt x) s fun t => wrote t x.d x.ty (convert x.ty false (u.num x.src x.a) c))

/-! ### Control -/

/-- R300: a branch goes to its own address plus 16·`OFF32` when its condition holds, and to the next word when it does
not.

R301: calls write the next word's address and `JR` reads its target before it writes the link.

R8, R33, R34, R39: a taken transfer is refused to a misaligned target, to one that cannot be fetched and to a word
without `LAND`, in this order; then it has no effect on the registers, and the cause enters the handler at the
transfer itself. -/
def Obligations.TransfersSetThePc : Prop :=
  (∀ s u : State, s.settled = .ok u →
    let goes := fun (i : Instr) (off : BitVec 32) (taken : Prop) =>
      (taken → u.targetCause (u.me.pc + off.signExtend 64 * 16) = none →
        Completes i s fun t => u.Jumped t (u.me.pc + off.signExtend 64 * 16) State.noReg 0) ∧
      (¬taken → Completes i s fun t => u.Wrote t State.noReg 0 0)
    (∀ x, goes (.br x) x.off True) ∧
    (∀ x, goes (.beq x) x.off (u.reg x.a = u.reg x.b)) ∧
    (∀ x, goes (.bne x) x.off (u.reg x.a ≠ u.reg x.b)) ∧
    (∀ x, goes (.blt x) x.off ((u.reg x.a).toInt < (u.reg x.b).toInt)) ∧
    (∀ x, goes (.bge x) x.off ((u.reg x.b).toInt ≤ (u.reg x.a).toInt)) ∧
    (∀ x, goes (.bltu x) x.off ((u.reg x.a).toNat < (u.reg x.b).toNat)) ∧
    (∀ x, goes (.bgeu x) x.off ((u.reg x.b).toNat ≤ (u.reg x.a).toNat))) ∧
  (∀ s u : State, s.settled = .ok u →
    (∀ x, u.targetCause (u.me.pc + x.off.signExtend 64 * 16) = none →
      Completes (.call x) s fun t => u.Jumped t (u.me.pc + x.off.signExtend 64 * 16) x.lnk (u.me.pc + 16)) ∧
    (∀ x, u.targetCause (u.reg x.a) = none → Completes (.ret x) s fun t => u.Jumped t (u.reg x.a) State.noReg 0) ∧
    (∀ x, u.targetCause (u.reg x.a) = none →
      Completes (.jr x) s fun t => u.Jumped t (u.reg x.a) x.lnk (u.me.pc + 16))) ∧
  ((∀ (u : State) (t : Word),
    (t.toNat % 16 ≠ 0 → u.targetCause t = some (preFault cALIGN t.toNat 0 opNone)) ∧
    (t.toNat % 16 = 0 → u.fetchWord t.toNat = none →
      u.targetCause t = some (preFault cIFETCH (u.pageStart t.toNat) 0 opNone)) ∧
    (∀ w, t.toNat % 16 = 0 → u.fetchWord t.toNat = some w → w.getLsbD 122 = false →
      u.targetCause t = some (preFault cLANDING t.toNat 0 opNone)) ∧
    (∀ w, t.toNat % 16 = 0 → u.fetchWord t.toNat = some w → w.getLsbD 122 = true → u.targetCause t = none)) ∧
  ∀ (s u : State) (f : FaultRec), s.settled = .ok u → u.CanTrap →
    let refused := fun (i : Instr) (at_ : Word) =>
      u.targetCause at_ = some f → Completes i s fun t => (u.targetRead at_).Denied t f
    let off := fun (o : BitVec 32) => u.me.pc + o.signExtend 64 * 16
    (∀ x : BC, refused (.call x) (off x.off)) ∧ (∀ x : BJ, refused (.jr x) (u.reg x.a)) ∧
    (∀ x : S1, refused (.ret x) (u.reg x.a)) ∧ (∀ x : B0, refused (.br x) (off x.off)) ∧
    (∀ x : B2, (u.reg x.a = u.reg x.b → refused (.beq x) (off x.off)) ∧ (u.reg x.a ≠ u.reg x.b → refused (.bne x) (off x.off)) ∧
      ((u.reg x.a).toInt < (u.reg x.b).toInt → refused (.blt x) (off x.off)) ∧
      ((u.reg x.b).toInt ≤ (u.reg x.a).toInt → refused (.bge x) (off x.off)) ∧
      ((u.reg x.a).toNat < (u.reg x.b).toNat → refused (.bltu x) (off x.off)) ∧
      ((u.reg x.b).toNat ≤ (u.reg x.a).toNat → refused (.bgeu x) (off x.off))))

/-- R302: `LOOP` writes the decremented register, and its word is of class B with opcode 0x10A. -/
def Obligations.LoopCountsDown : Prop :=
  ∀ (s u : State) (x : B1), s.settled = .ok u →
    let left := u.reg x.a - 1
    let target := u.me.pc + x.off.signExtend 64 * 16
    (left ≠ 0 → u.targetCause target = none → Completes (.loop x) s fun t => u.Jumped t target x.a left) ∧
    (left = 0 → Completes (.loop x) s fun t => u.Wrote t x.a left 0) ∧
    (∀ f, left ≠ 0 → u.targetCause target = some f → u.CanTrap → Completes (.loop x) s fun t => (u.targetRead target).Denied t f) ∧
    opcOf (encode (.loop x)) = 0x10A

/-- R303, R218: `SETVL` commits the strip, sets `VL` to the smaller of s(A) and 2^20, writes it to s(D), and opens an
unsealed strip whose rewind resumes at the next word. The bytes of the strip's far stores stand where the stream reads
them, at their homes unless the turn sends them as packets; `w` is the state of the committed strip, and nothing else
differs.

R29: a prefix holds its settings for the next word alone, and takes no sequence number of its own; the word after it
must accept a prefix. That the prefix completes as a step of its own, before its target, is the model's, read from the
rules by inference (notes/assumptions/19.md).

R313, R310: `NOP` only goes on; `WAIT` goes on once `NOW` has reached s(A), both signed, and `RVZ` once no named child
lives, after which its loads fetch afresh; until then the stream waits at the word. -/
def Obligations.StripsOpenAndWaitsStand : Prop :=
  (∀ (s u : State) (x : S2), s.settled = .ok u →
    let n := min (u.reg x.a).toNat (2 ^ 20)
    Completes (.setvl x) s fun t =>
      t.me.vl = n ∧ (∀ r, t.reg r = u.regAfter x.d (BitVec.ofNat 64 n) r) ∧ t.me.pc = u.me.pc + 16 ∧
      t.me.strip.sealed = false ∧ t.me.strip.resume = u.me.pc + 16 ∧ t.me.strip.far = [] ∧ t.me.strip.journal = [] ∧
      t.me.strip.ntf = none ∧ t.me.strip.check = some t.checkpoint ∧
      t.me.masks = u.me.masks ∧ t.me.fpsr = u.me.fpsr ∧ t.me.rm = u.me.rm ∧ t.me.slots = u.me.slots ∧
      { t.me with regs := u.me.regs, vl := u.me.vl, strip := u.me.strip, wpkts := u.me.wpkts, ntfCount := u.me.ntfCount } =
        (u.onward u.me).me ∧
      u.SameBut t ∧
      (u.MemOk → u.PairsOk → u.PacketsOk → u.me.strip.ntf = none →
        (∀ k, u.Accepts k → t.seen k = u.seen k) ∧
        (u.me.strip.far = [] → u.SameBytes t) ∧
        (u.me.strip.far ≠ [] → u.holdBack = false → ∀ k,
          (u.Accepts k → t.byteAt k = u.seen k) ∧ (¬u.Accepts k → t.byteAt k = u.byteAt k))) ∧
      let w := u.commitStrip
      w.SameBytes t ∧ t.me.wpkts = w.me.wpkts ∧ t.me.ntfCount = w.me.ntfCount) ∧
  (∀ (s u : State) (x : PfxF) (w : IWord) (i : Instr), s.settled = .ok u →
    u.fetchWord (u.me.pc + 16).toNat = some w → w.getLsbD 122 = false → acceptsPrefix w = true → decode w = .ok i →
    (x.rm = some .sr → u.featSround = true) →
    Completes (.pfx x) s fun t =>
      t = { u with me := { u.me with
        pc := u.me.pc + 16,
        pfx := some ⟨u.me.pc, x.rm, x.sat, x.seed.map fun r => (u.reg r).setWidth 32⟩ } } ∧
      t.rmNow = x.rm.getD u.me.rm ∧ t.satNow = (x.sat.map Fin.val).getD u.me.sat ∧ t.me.issueAddr = u.me.pc) ∧
  (∀ s u : State, s.settled = .ok u →
    (∀ l, Completes (.nop l) s fun t => u.Wrote t State.noReg 0 0) ∧
    (∀ x, (u.reg x.a).toInt ≤ (u.now : Int) → Completes (.wait x) s fun t => u.Wrote t State.noReg 0 0) ∧
    (∀ x, (u.now : Int) < (u.reg x.a).toInt → Completes (.wait x) s fun t => u.Waits t .other) ∧
    (∀ x, (∀ c ∈ u.me.children, u.live c.2 = true → (u.reg x.a).getLsbD c.1 = false) →
      Completes (.rvz x) s fun t => u.afresh.Wrote t State.noReg 0 0) ∧
    (∀ x c, c ∈ u.me.children → u.live c.2 = true → (u.reg x.a).getLsbD c.1 = true →
      Completes (.rvz x) s fun t => u.Waits t .other))

/-- R317, R346, R348: `TRAP` enters the handler at `TVEC` with its immediate in `EINFO` and the next word's address in
`EPC`; no scalar register, mask or `VL` changes.

R317, step 1: with no handler, or in the handler, a `TRAP` of a context stream asks for its context to be killed and
the stream stops; the supervisor stream stops and is reported.

R318: `ERET` is `ILLEGAL` outside the handler; in it, `INH` becomes 0 and, where no stopped instruction is kept or
`EPC` is not what trap entry wrote, fetch goes on at `EPC`. -/
def Obligations.HandlersEnterAndReturn : Prop :=
  (∀ (s u : State) (l : Bool) (imm : BitVec 32), s.settled = .ok u → u.CanTrap →
    Completes (.trap l imm) s fun t =>
      u.counted.InHandler t { preFault cTRAP 0 0 opNone with info := imm.setWidth 64 } (u.me.pc + 16) u.me.seq [] ∧
      t.me.einfo = imm.setWidth 64 ∧ t.me.seq = u.me.seq + 1) ∧
  (∀ (s u : State) (l : Bool) (imm : BitVec 32), s.settled = .ok u → ¬u.CanTrap →
    Completes (.trap l imm) s fun t =>
      t.me.status = .dead ∧
      (u.me.supv = false → t.pendKill = u.pendKill ++ [⟨u.me.ctx, cTRAP, u.me.pc + 16⟩] ∧ t.answers = u.answers) ∧
      (u.me.supv = true → t.pendKill = u.pendKill ∧ t.answers = u.answers ++ [.report cTRAP (u.me.pc + 16)]) ∧
      (∀ r, t.reg r = u.reg r) ∧ u.SameBytes t) ∧
  (∀ (s u : State) (l : Bool), s.settled = .ok u →
    (u.me.inh = false → Completes (.eret l) s fun t => t = u.raiseNoAddr cILLEGAL ∧
      (u.CanTrap → u.Denied t (u.noAddr cILLEGAL))) ∧
    (u.me.inh = true → (u.me.stops = [] ∨ u.me.epc ≠ u.me.stopEpc) → Completes (.eret l) s fun t =>
      t.me.inh = false ∧ t.me.pc = u.me.epc ∧ t.me.stops = [] ∧ t.me.seq = u.me.seq + 1 ∧ (∀ r, t.reg r = u.reg r) ∧
      t.me.masks = u.me.masks ∧ t.me.epc = u.me.epc ∧ t.me.tvec = u.me.tvec ∧ u.SameOutside t ∧ u.SameBytes t))

/-- R290 to R294: what `CSRR` reads: a register as it stands, unless an older reduction has still to write the same scalar
register; `VL` and `FPSR` once every earlier instruction has finished (R87, R209; notes/assumptions/67.md); `TSR`
after the stream's Trellis commands (R230).

R174, R290: `HORIZ` is read as it stands, without waiting: one below `SEQ` when nothing is in flight. -/
def Obligations.CsrReads : Prop :=
  (∀ s u : State, s.settled = .ok u →
    let after := fun (n : BitVec 16) (v : Word) => ∀ l d, Completes (.csrr l d n) s fun t => u.Wrote t d v 0
    let reads := fun (n : BitVec 16) (v : State → Word) => ∀ l d,
      ((∀ j ∈ s.me.jobs, j.sd ≠ some d) → Completes (.csrr l d n) s fun t => s.Wrote t d (v s) 0) ∧
      ((∃ j ∈ s.me.jobs, j.sd = some d) → Completes (.csrr l d n) s fun t => u.Wrote t d (v u) 0)
    after 0x000 (BitVec.ofNat 64 (u.me.vl + 2 ^ 63 * bitOf u.me.strip.sealed)) ∧
    reads 0x001 (fun _ => BitVec.ofNat 64 (2 ^ 20)) ∧
    reads 0x002 (fun q => BitVec.ofNat 64 (q.me.rm.code + 8 * q.me.sat)) ∧
    after 0x003 (u.me.fpsr.setWidth 64) ∧
    reads 0x004 (fun q => if q.me.trusted then 1 else 0) ∧
    reads 0x005 (fun q => BitVec.ofNat 64 q.me.seq) ∧
    reads 0x010 (fun q => q.me.ntfa) ∧
    reads 0x011 (fun q => q.me.seed.setWidth 64) ∧
    reads 0x020 (fun q => BitVec.ofNat 64 q.me.trl.rows) ∧
    reads 0x021 (fun q => BitVec.ofNat 64 q.me.trl.start) ∧
    (∀ l d, Completes (.csrr l d 0x022) s fun t =>
      u.drainTrellis.Wrote t d (BitVec.ofNat 64 u.drainTrellis.me.trl.tsr) 0) ∧
    reads 0x023 (fun q => tflgOf q.me.trl) ∧
    reads 0x030 (fun q => q.retn.setWidth 64) ∧
    reads 0x031 (fun q => BitVec.ofNat 64 q.now) ∧
    reads 0x040 (fun q => BitVec.ofNat 64 (q.me.gidx + 256 * q.me.spane)) ∧
    reads 0x041 (fun q => BitVec.ofNat 64 q.me.beds.length) ∧
    reads 0x042 (fun q => BitVec.ofNat 64 (64 * q.me.beds.length)) ∧
    reads 0x043 (fun q => BitVec.ofNat 64 q.me.bedrank) ∧
    reads 0x050 (fun q => BitVec.ofNat 64 (q.me.ctx + 2 ^ 63 * bitOf q.me.supv)) ∧
    reads 0x100 (fun q => q.me.tvec ||| if q.me.inh then 1 else 0) ∧
    reads 0x101 (fun q => q.me.epc) ∧ reads 0x102 (fun q => q.me.ecause) ∧ reads 0x103 (fun q => q.me.eaddr) ∧
    reads 0x104 (fun q => q.me.eelem) ∧ reads 0x105 (fun q => q.me.estat) ∧
    reads 0x106 (fun q => q.me.einfo) ∧
    reads 0x200 (fun _ => if Config.developmentPart then 0x7F else 0x3F) ∧
    reads 0x201 (fun q => q.dreg (controlBase + 0x10)) ∧
    reads 0x300 (fun q => q.me.hintmiss)) ∧
  (∀ (s : State) (l : Bool) (d : Reg), (∀ j ∈ s.me.jobs, j.sd ≠ some d) → Completes (.csrr l d 0x006) s fun t =>
    s.Wrote t d (BitVec.ofNat 64 (if s.me.jobs = [] then s.me.seq - 1 else s.me.horiz)) 0)

/-- R290 with R35, R84 to R86, R217, R230, R292, R294: what `CSRW` writes. A field keeps its value where the value written
is one that it may not take.

R289: a number that is not listed is `ILLEGAL`; a write to a register that is read-only in the mode is `PRIV` where
supervisor mode may write it, and `ILLEGAL` otherwise. `EADDR` is a free value (notes/assumptions/11.md).

R217, R263: an `NTFA` that names no writable sync object is refused, with the address in `EADDR`. That every one that
fails is `SYNCUSE`, one whose page cannot be translated too, is the model's, read from the rules by inference
(notes/assumptions/55.md). -/
def Obligations.CsrWrites : Prop :=
  (∀ s u : State, s.settled = .ok u →
    let b := u.me
    let writes := fun (n : BitVec 16) (f : Word → Band) => ∀ l a, Completes (.csrw l n a) s fun t => t = u.onward (f (u.reg a))
    (∀ l a, Completes (.csrw l 0x002 a) s fun t => ∃ rm sat, t = u.onward { b with rm, sat } ∧
      let v := (u.reg a).toNat
      (∀ r : RMode, r.code = v % 8 → (r = .sr → u.featSround = true) → rm = r) ∧
      ((∀ r : RMode, r.code = v % 8 → r = .sr ∧ u.featSround = false) → rm = b.rm) ∧
      sat = if v / 8 % 4 = 3 then b.sat else v / 8 % 4) ∧
    writes 0x003 (fun v => { b with fpsr := v.setWidth 8 }) ∧
    writes 0x004 (fun v => { b with trusted := v.getLsbD 0 && u.featTrusted }) ∧
    (∀ l a, u.ntfaOk (u.reg a &&& ~~~63).toNat = true → Completes (.csrw l 0x010 a) s fun t =>
      t = u.onward { b with ntfa := u.reg a &&& ~~~63, ntfCount := 0 }) ∧
    writes 0x011 (fun v => { b with seed := v.setWidth 32 }) ∧
    (∀ l a, let w := u.drainTrellis
      Completes (.csrw l 0x022 a) s fun t => t = w.onward { w.me with trl := { w.me.trl with tsr := (u.reg a).toNat % 128 } }) ∧
    writes 0x100 (fun v => { b with tvec := v &&& ~~~15 }) ∧
    writes 0x101 (fun v => { b with epc := v &&& ~~~15 }) ∧
    writes 0x300 (fun v => { b with hintmiss := v }) ∧
    (s.me.supv = true →
      writes 0x102 (fun v => { b with ecause := v &&& 0xF0FF }) ∧ writes 0x103 (fun v => { b with eaddr := v }) ∧
      writes 0x104 (fun v => { b with eelem := v }) ∧ writes 0x105 (fun v => { b with estat := v }) ∧
      writes 0x106 (fun v => { b with einfo := v }) ∧
      ∀ l a, Completes (.csrw l 0x201 a) s fun t =>
        t.me.strip.sealed = true ∧ t.featWritten = true ∧ t.me.pc = b.pc + 16 ∧ t.me.seq = b.seq + 1 ∧
        (∀ r, t.reg r = u.reg r) ∧
        (u.featWritten = false → t.feata = u.reg a &&& featOffer) ∧
        (u.featWritten = true → t.feata = u.feata ∧ t.dreg (controlBase + 0x20) = 1))) ∧
  (∀ (s u : State) (n : BitVec 16), s.settled = .ok u → u.CanTrap →
    (n ∉ State.csrNumbers → ∀ l d, Completes (.csrr l d n) s fun t => u.Denied t (u.noAddr cILLEGAL)) ∧
    (n ∉ State.csrUser → n ∉ State.csrSuper → ∀ l a, Completes (.csrw l n a) s fun t => u.Denied t (u.noAddr cILLEGAL)) ∧
    (n ∈ State.csrSuper → s.me.supv = false → ∀ l a, Completes (.csrw l n a) s fun t => u.Denied t (u.noAddr cPRIV))) ∧
  (∀ (s u : State) (l : Bool) (a : Reg), s.settled = .ok u → u.CanTrap → u.ntfaOk (u.reg a &&& ~~~63).toNat = false →
    Completes (.csrw l 0x010 a) s fun t =>
      u.Denied t (preFault cSYNCUSE (u.reg a &&& ~~~63).toNat 0 opObject) ∧ t.me.ntfa = u.me.ntfa)

/-- R315: a form marked Sup in R41 is `PRIV` in user mode, before issue: no register changes and it takes no number. -/
def Obligations.PrivilegedFormsTrapInUserMode : Prop :=
  ∀ s u : State, s.settled = .ok u → u.CanTrap → s.me.supv = false →
    let denied := fun i => Completes i s fun t => u.Denied t (u.noAddr cPRIV)
    (∀ l out d b, denied (.preempt l out d b)) ∧ (∀ x, denied (.preemptPark x)) ∧ (∀ x, denied (.preemptRenew x)) ∧
    (∀ x, denied (.cres x)) ∧ (∀ x, denied (.kill x)) ∧ (∀ x, denied (.wdog x)) ∧ (∀ x, denied (.lgate x)) ∧
    (∀ x, denied (.vbret x)) ∧ (∀ l k, denied (.tlbi l k)) ∧
    (s.featSwap = true → (∀ x, denied (.pswap x)) ∧ ∀ x, denied (.pswq true x))

/-! ### Scalar memory -/

/-- R299, R101, R175, R177, R263, R267, R272, R349: what a scalar access checks before issue, in this order: the address is a
multiple of its size, the page or frame permits it, its type and geometry agree, a near byte that is written has its owner in
the span, an atomic on a SYNC page is an i64 or n64 at a progress word, and a bound byte is held.

R299: a scalar access that its checks refuse enters the handler before issue, with its address in `EADDR`, element 0
and no operand; the loaded register and memory are as they were. That `ESTAT.OPND` shows 7, no operand, is the model's
choice (notes/assumptions/23.md).

R299, R187, R351: a near load of a stale, withdrawn or unpowered group meets `PULL` with the owner's cause in
`ESTAT.SUBC`; a near store meets the cause itself. The word has taken its number and is kept for `ERET`. -/
def Obligations.ScalarAccessesAreChecked : Prop :=
  (∀ (u : State) (acc : Acc) (ty : Ty) (a : Nat), 8 ≤ ty.width →
    let n := ty.width / 8
    (a % n ≠ 0 → u.scalarPlace acc ty a = .error cALIGN) ∧
    (∀ c, a % n = 0 → u.translate acc false a = .error c → u.scalarPlace acc ty a = .error c) ∧
    (∀ w, a % n = 0 → u.translate acc false a = .ok w →
      (w.geom ≠ none ∨ (w.ty ≠ none ∧ w.ty ≠ some ty) → u.scalarPlace acc ty a = .error cFORMAT) ∧
      (w.geom = none → w.ty = none ∨ w.ty = some ty →
        let away := acc ≠ .read ∧ w.near = true ∧ bedsPos u.me.beds (plotOf w.key) = none
        (away → u.scalarPlace acc ty a = .error cSPANOWN) ∧
        (¬away → acc = .atomic → w.sync = true →
          (a % 64 ≠ 16 → u.scalarPlace acc ty a = .error cSYNCUSE) ∧
          (a % 64 = 16 → ty ≠ .i64 → ty ≠ .n64 → u.scalarPlace acc ty a = .error cFORMAT)) ∧
        (¬away → acc ≠ .atomic ∨ w.sync = false →
          (acc = .read ∨ u.heldOk a n = true → u.scalarPlace acc ty a = .ok (w, (List.range n).map fun o => w.key + o)) ∧
          (acc = .write ∨ acc = .atomic → u.heldOk a n = false → u.scalarPlace acc ty a = .error cUNHELD))))) ∧
  (∀ (s u : State) (x : SIM) (c : Nat), s.settled = .ok u → u.CanTrap → c < 32 →
    let a := (u.reg x.a + x.imm.signExtend 64).toNat
    (u.scalarPlace .read x.ty a = .error c → Completes (.ld x) s fun t => u.Denied t (preFault c a 0 opNone)) ∧
    (u.scalarPlace .write x.ty a = .error c → Completes (.st x) s fun t => u.Denied t (preFault c a 0 opNone))) ∧
  (∀ (s u : State) (x : SIM) (w : Where) (keys : List Nat) (f : Frame) (c : Nat), s.settled = .ok u → u.CanTrap →
    let a := (u.reg x.a + x.imm.signExtend 64).toNat
    w.near = true → w.remote = false → u.myFrame w.slot = some f → u.nearCause f (plotOf w.key) (localOf w.key) = some c →
    (u.scalarPlace .read x.ty a = .ok (w, keys) → Completes (.ld x) s fun t =>
      ((u.fillTlb a).readThrough .read keys).StoppedAt t { dataFaultRec cPULL a 0 opNone (plotOf w.key) with subc := c }) ∧
    (u.scalarPlace .write x.ty a = .ok (w, keys) → Completes (.st x) s fun t =>
      (u.fillTlb a).StoppedAt t (dataFaultRec c a 0 opNone (plotOf w.key))))

/-- R299, R104: `LD` writes its bytes as the stream sees them, least significant first, sign-extended for the signed types
and zero-extended otherwise. `r` is the state once the sectors were read through their codes; with no error in
storage, reading changes no byte. Where the scalar data cache answers (R299; notes/assumptions/77.md, the model's
choice), `LD` writes what it holds.

R299: `ST` stores the low bytes of s(D) and goes on; no register changes. A store to a remote page first seals the
strip (R307). -/
def Obligations.LoadsAndStores : Prop :=
  (∀ (s u : State) (x : SIM) (w : Where) (keys : List Nat), s.settled = .ok u →
    let a := (u.reg x.a + x.imm.signExtend 64).toNat
    let r := (u.fillTlb a).readThrough .read keys
    let value := fun n =>
      if x.ty.isSigned = true then BitVec.ofInt 64 (signed x.ty.width n) else BitVec.ofNat 64 (n % 2 ^ x.ty.width)
    u.scalarPlace .read x.ty a = .ok (w, keys) →
    (u.lineOf w keys = none → r.scalarReadBad .read w keys a = none → Completes (.ld x) s fun t =>
      (r.keepLine w keys).Wrote t x.d (value (ofBytesLE (keys.map r.seen))) 0 ∧
      (u.MemOk → u.SameBytes t) ∧ t.me.strip = u.me.strip ∧ t.me.holds = u.me.holds) ∧
    (∀ n, u.lineOf w keys = some n → Completes (.ld x) s fun t =>
      (u.fillTlb a).Wrote t x.d (value n) 0 ∧ (u.MemOk → u.SameBytes t) ∧ t.me.strip = u.me.strip ∧ t.me.holds = u.me.holds)) ∧
  (∀ (s u : State) (x : SIM) (w : Where) (keys : List Nat), s.settled = .ok u →
    let a := (u.reg x.a + x.imm.signExtend 64).toNat
    let r := if w.remote = true then (u.fillTlb a).sealStrip else u.fillTlb a
    u.scalarPlace .write x.ty a = .ok (w, keys) → r.scalarWriteBad w keys a = none →
    Completes (.st x) s fun t =>
      t = (r.storeScalar w x.ty a (keys.zip (bytesLE keys.length ((u.reg x.d).toNat % 2 ^ x.ty.width)))).retire ∧
      (∀ q, t.reg q = u.reg q) ∧ t.me.pc = u.me.pc + 16 ∧ t.me.seq = u.me.seq + 1 ∧ t.me.fpsr = u.me.fpsr ∧
      t.me.masks = u.me.masks ∧ t.me.vl = u.me.vl ∧ t.me.holds = u.me.holds)

/-- R268, R270, R276, R277, R299: the scalar data cache changes only timing within the stream: whatever the stream writes
goes from it, and what other Bandstands hold stays. A far value that a load fetched is what the cache answers next,
where it answers. A grant of `ACQ`, a `FENCE`, and an `AWAIT` or `AWAIT.GE` that is over leave the stream's cache
empty, so that its next load fetches afresh. The cache's contents are the model's (notes/assumptions/77.md). -/
def Obligations.ScalarCacheIsOrdered : Prop :=
  (∀ (s : State) (cells : List (Nat × Byte)) (p : Bool) (l : DLine), l ∈ (s.writeCells cells p).dcache ↔ l ∈ s.dcache ∧
    (l.band = s.me.id → ∀ c ∈ cells, c.1 < l.key ∨ l.key + l.bytes.length ≤ c.1)) ∧
  (∀ (s : State) (w : Where) (keys : List Nat), keys ≠ [] → (∀ k ∈ keys, s.buffered k = none) → w.near = false → s.fills = true →
    (s.keepLine w keys).lineOf w keys = some (ofBytesLE (keys.map s.byteAt))) ∧
  (∀ (s : State) (w : Where) (keys : List Nat), w.near = true ∨ s.fills = false ∨ (∃ k ∈ keys, s.buffered k ≠ none) →
    s.lineOf w keys = none) ∧
  (∀ (s u v : State) (y : EABD) (o : Nat), s.settled = .ok u →
    let empty := fun t : State => ∀ l ∈ t.dcache, l.band ≠ u.me.id
    (∀ l sc, Completes (.fence l sc) s empty) ∧
    (∀ shared x, u.ObjectAt x.a isBarrier o v → v.holdsOf o = none → v.me.holds.length < 16 → v.oPois o = false →
      v.grantable o shared (v.acqOrder o) = true → Completes (.acq shared x) s empty) ∧
    (u.ObjectAt y.a isLock o v → v.oPois o = true ∨ v.oGen o ≠ (u.reg y.b).toNat % 2 ^ 32 → Completes (.await y) s empty) ∧
    (u.ObjectAt y.a (fun _ => false) o v → v.oPois o = false → (u.reg y.b).toNat ≤ v.oProg o →
      Completes (.awaitGe y) s empty))

/-- R306, R307: where a near store's bytes go. In a sealed strip, or while the plot's journal has room for another group,
the bytes are stored at once, and every other byte of memory reads as before; in an unsealed strip the old group is in
the journal.

R306, R104: a far store in an unsealed strip changes no byte of memory. While the owner's buffer has room, its bytes
wait in the instruction's packet, every other packet stands, and the strip stays unsealed.

R307: in a sealed strip a far store is performed as its instruction finishes: its bytes read back, and every other
byte of memory reads as before. -/
def Obligations.StoresReachMemory : Prop :=
  (∀ (u : State) (w : Where) (ty : Ty) (a g : Nat) (cells : List (Nat × Byte)), u.MemOk → u.PairsOk → w.near = true →
    cells ≠ [] →
    (cells.map Prod.fst).Nodup → (∀ c ∈ cells, isNear c.1 = true ∧ c.1 / 64 = g) →
    let plot := plotOf (g * 64)
    u.me.strip.sealed = true ∨ (u.me.strip.journal.filter fun e => plotOf (e.1 * 64) == plot).length < 448 →
    let t := u.storeScalar w ty a cells
    (∀ c ∈ cells, t.byteAt c.1 = c.2) ∧ (∀ k, k ∉ cells.map Prod.fst → t.byteAt k = u.byteAt k) ∧
    t.me.strip.sealed = u.me.strip.sealed ∧ t.me.strip.far = u.me.strip.far ∧
    (u.me.strip.sealed = false → ∃ old, assoc t.me.strip.journal g = some old ∧
      ((assoc u.me.strip.journal g).isNone = true → old = (List.range 64).map fun o => u.byteAt (g * 64 + o)))) ∧
  (∀ (u : State) (w : Where) (ty : Ty) (a : Nat) (cells : List (Nat × Byte)), w.near = false → u.me.strip.sealed = false →
    (cells.map Prod.fst).Nodup → (∀ c ∈ cells, isRemote c.1 = false) →
    (u.me.strip.farAt.filter fun x => x.1 == farOwner u.me.beds a).length + cells.length ≤ 256 →
    let t := u.storeScalar w ty a cells
    u.SameBytes t ∧ t.me.strip.sealed = false ∧
    (∀ p ∈ u.me.strip.far, p.seq ≠ u.me.seq → p ∈ t.me.strip.far) ∧
    (cells ≠ [] → ∃ p ∈ t.me.strip.far, p.seq = u.me.seq ∧ ∀ c ∈ cells, assoc p.cells c.1 = some c.2)) ∧
  (∀ (u : State) (w : Where) (ty : Ty) (a : Nat) (cells : List (Nat × Byte)), u.MemOk → u.PairsOk → w.near = false →
    u.me.strip.sealed = true → u.me.strip.far = [] → u.me.wpkts = [] → u.holdBack = false →
    (cells.map Prod.fst).Nodup → (∀ c ∈ cells, isRemote c.1 = false ∧ isNear c.1 = false ∧ u.Accepts c.1) →
    let t := u.storeScalar w ty a cells
    (∀ c ∈ cells, t.byteAt c.1 = c.2) ∧ (∀ k, k ∉ cells.map Prod.fst → t.byteAt k = u.byteAt k) ∧
    t.me.strip.far = [] ∧ t.me.wpkts = [] ∧ t.me.regs = u.me.regs)

/-- R272: a scalar atomic returns the old value in s(D), and the new value stands at the address, in a sealed strip and
after every earlier store is performed; every other byte reads as before, unless the word makes a graph node ready
(R325). `r` is the state in which it is performed. -/
def Obligations.ScalarAtomics : Prop :=
  ∀ (s u : State) (d a b c : Reg) (ty : Ty) (l : Bool) (w : Where) (keys : List Nat), s.settled = .ok u →
    let va := (u.reg a).toNat
    let r := ((u.fillTlb va).sealStrip.performedAt (w.key / 256)).readThrough .atomic keys
    u.scalarPlace .atomic ty va = .ok (w, keys) → r.scalarReadBad .atomic w keys va = none →
    r.MemOk → r.PairsOk → (∀ k ∈ keys, r.buffered k = none) → (w.near = true ∨ ∀ k ∈ keys, isNear k = false) →
    let old := ofBytesLE (keys.map r.byteAt)
    let new := (u.reg b).toNat % 2 ^ ty.width
    let x := decodeTy ty old
    let y := decodeTy ty new
    let ctl : RCtl := ⟨u.me.rm, u.me.sat, srHash (u.me.seed.setWidth 32) (u.me.seq % 2 ^ 32) 0⟩
    let does := fun (i : Instr) (v : Nat) (f : Flags) => Completes i s fun t =>
      (∀ q, t.reg q = u.regAfter d (toReg ty old) q) ∧ t.me.pc = u.me.pc + 16 ∧ t.me.seq = u.me.seq + 1 ∧
      t.me.fpsr = u.me.fpsr ||| f ∧ t.me.strip.sealed = true ∧ t.me.masks = u.me.masks ∧ t.me.vl = u.me.vl ∧
      (w.near = true ∨ w.key % 64 ≠ 0 ∨ r.graphOwner (w.key / 65536) = none →
        (∀ p ∈ keys.zip (bytesLE keys.length v), t.byteAt p.1 = p.2) ∧ ∀ k, k ∉ keys → t.byteAt k = r.byteAt k)
    let arith := fun (i : Instr) (v : Nat × Flags) => does i v.1 v.2
    arith (.aadd ⟨l, d, a, b, ty⟩) (arithResult ty (Machine.Num.add ctl.rm x y) ctl) ∧
    does (.aand ⟨l, d, a, b, ty⟩) (old &&& new) 0 ∧ does (.aor ⟨l, d, a, b, ty⟩) (old ||| new) 0 ∧
    does (.axor ⟨l, d, a, b, ty⟩) (old ^^^ new) 0 ∧
    arith (.amin ⟨l, d, a, b, ty⟩) (pickResult ty (Machine.Num.minR x y) ctl) ∧
    arith (.amax ⟨l, d, a, b, ty⟩) (pickResult ty (Machine.Num.maxR x y) ctl) ∧
    does (.axchg ⟨l, d, a, b, ty⟩) new 0 ∧
    does (.acas ⟨l, d, a, b, c, ty⟩) (if old = (u.reg c).toNat % 2 ^ ty.width then new else old) 0

/-! ### Streams of one context -/

/-- R309, R288, R304: `FORK` that no status refuses starts a child on the lowest free Bandstand, on the span of group
entry s(A), with s1 = s(B) and the parent's s2, `FPCR`, `SRSEED`, `SCHED` and `TVEC` copied and everything else at its
launch value; s(D) receives the lowest free child number.

R309: the statuses of `FORK`, judged in this order; a failure leaves everything but the seal of the strip unchanged. A
bad entry word is a cause before issue. -/
def Obligations.ForksStartChildren : Prop :=
  (∀ (s u : State) (x : ForkF) (e n : Nat) (b : Fin 64), s.settled = .ok u →
    let entry := u.me.pc + x.off.signExtend 64 * 16
    let v := u.sealStrip.performed
    u.targetCause entry = none → (u.reg x.a).toNat ≤ 15 → v.groupSpan u.me.ctx (u.reg x.a).toNat = some e →
    v.spanHeld u.me.ctx e none = false → v.childNumber = some n → v.freeStand = some b → b ≠ u.me.id →
    Completes (.fork x) s fun t =>
      (∀ r, t.reg r = u.regAfter x.d (BitVec.ofNat 64 n) r) ∧ t.me.pc = u.me.pc + 16 ∧ t.me.seq = u.me.seq + 1 ∧
      t.me.strip.sealed = true ∧ (n, v.nextSid) ∈ t.me.children ∧
      ∃ c ∈ t.bands, c.id = b ∧ c.status = .run ∧ c.sid = v.nextSid ∧ c.ctx = u.me.ctx ∧ c.supv = false ∧ c.spane = e ∧
        c.gidx = (u.reg x.a).toNat ∧ c.beds = v.spanBeds e ∧
        (∀ r, c.reg r = if r = 1 then u.reg x.b else if r = 2 then u.reg 2 else 0) ∧
        c.pc = entry ∧ c.seq = 1 ∧ c.vl = 0 ∧ (∀ k : Fin 12, c.masks[k] = MaskV.zero) ∧
        c.rm = u.me.rm ∧ c.sat = u.me.sat ∧ c.seed = u.me.seed ∧ c.trusted = u.me.trusted ∧ c.tvec = u.me.tvec ∧
        c.inh = false ∧ c.fpsr = 0 ∧ c.ntfa = 0 ∧ c.epc = 0 ∧ c.ecause = 0 ∧ c.eaddr = 0 ∧ c.eelem = 0 ∧ c.estat = 0 ∧
        c.einfo = 0 ∧ c.hintmiss = 0 ∧ (∀ k : Fin 7, c.slots[k] = none) ∧ c.trl = Trl.empty ∧ c.holds = [] ∧ c.jobs = [] ∧
        c.strip.sealed = false ∧ c.strip.resume = entry ∧ c.strip.far = [] ∧ c.strip.check.isSome = true) ∧
  (∀ (s u : State) (x : ForkF), s.settled = .ok u →
    let entry := u.me.pc + x.off.signExtend 64 * 16
    let v := u.sealStrip.performed
    let g := (u.reg x.a).toNat
    (∀ f, u.CanTrap → u.targetCause entry = some f → Completes (.fork x) s fun t => (u.targetRead entry).Denied t f) ∧
    (u.targetCause entry = none →
      (15 < g ∨ v.groupSpan u.me.ctx g = none → Completes (.fork x) s fun t => v.Wrote t x.d (-2) 0) ∧
      (∀ e, g ≤ 15 → v.groupSpan u.me.ctx g = some e →
        (v.spanHeld u.me.ctx e none = true → Completes (.fork x) s fun t => v.Wrote t x.d (-2) 0) ∧
        (v.spanHeld u.me.ctx e none = false → v.childNumber = none → Completes (.fork x) s fun t => v.Wrote t x.d (-3) 0) ∧
        (v.spanHeld u.me.ctx e none = false → v.childNumber ≠ none → v.freeStand = none →
          Completes (.fork x) s fun t => v.Wrote t x.d (-1) 0))))

/-- R311, R234: `SPAN` to a group entry that no other stream of the context runs on. `w` is the state once the strip is
sealed and committed, every earlier instruction and command has finished and the Trellis is detached. That `SPAN`
commits the strip is the model's, read from the rules by inference (notes/assumptions/50.md).

R311: an empty entry, a number above 15, or an entry that another stream of the context runs on is `SPANOWN`, with
s(A) in `EADDR`, before issue.

R312, R356: with no ready node of equal or higher priority in its queue (or no save area), `YIELD` seals the strip and
does nothing else; with one, the stream leaves its Bandstand at the next word and goes behind the work that was ready
before it. That it only seals without a save area, and its place behind that work, are the model's, read from the
rules by inference (notes/assumptions/18.md, 51.md).

R314, R310: `EXIT` and `HALT` end the stream once its commands have completed, its strip is committed and its children
have ended: a node's launched stream leaves the node to complete with status 4 or 5, any other frees its Bandstand;
the objects it holds are released. While a child lives, the stream waits at the word. -/
def Obligations.SpansMoveAndStreamsEnd : Prop :=
  (∀ (s u : State) (x : S1) (e : Nat), s.settled = .ok u →
    let g := (u.reg x.a).toNat
    let w := u.sealStrip.performed.drained.commitStrip.leaveTrellis
    g ≤ 15 → u.groupSpan u.me.ctx g = some e → u.spanHeld u.me.ctx e (some u.me.sid) = false →
    Completes (.span x) s fun t =>
      t.me.gidx = g ∧ t.me.spane = e ∧ t.me.beds = w.spanBeds e ∧ t.me.bedrank = w.bedrankOf w.me.ctx g ∧
      (∀ k : Fin 12, t.me.masks[k] = MaskV.zero) ∧ (∀ k : Fin 7, t.me.slots[k] = none) ∧ t.me.vl = 0 ∧
      t.me.strip.sealed = false ∧ t.me.strip.resume = w.me.pc + 16 ∧ t.me.pc = w.me.pc + 16 ∧ t.me.seq = w.me.seq + 1 ∧
      (∀ r, t.reg r = w.reg r) ∧ w.me.trl.att = false ∧ w.SameOutside t ∧ w.SameBytes t) ∧
  (∀ (s u : State) (x : S1), s.settled = .ok u → u.CanTrap →
    let g := (u.reg x.a).toNat
    (15 < g ∨ u.groupSpan u.me.ctx g = none ∨ ∃ e, u.groupSpan u.me.ctx g = some e ∧
      u.spanHeld u.me.ctx e (some u.me.sid) = true) →
    Completes (.span x) s fun t => u.Denied t (preFault cSPANOWN g 0 opNone)) ∧
  (∀ (s u : State) (l : Bool), s.settled = .ok u →
    let v := u.sealStrip.performed
    (u.yieldsTo = false ∨ u.spsave u.me.spane = 0 → Completes (.yield l) s fun t => v.Wrote t State.noReg 0 0 ∧ t.me.strip.sealed = true) ∧
    (u.yieldsTo = true → u.spsave u.me.spane ≠ 0 → u.me.status = .run → u.me.pending = none → u.me.jobs = [] →
      Completes (.yield l) s fun t =>
        t.me = Band.reset u.me.id ∧ ∃ x, t.stopped = u.stopped ++ [x] ∧ x.band.pc = u.me.pc + 16 ∧
          x.band.regs = u.me.regs ∧ x.band.masks = u.me.masks ∧ x.band.vl = u.me.vl ∧
          x.queued = some ⟨u.now, false, u.nextOrder⟩ ∧ x.out = false)) ∧
  (∀ (s u : State) (l : Bool), s.settled = .ok u →
    let w := u.performed.drained.commitStrip.performed
    let ends := fun (i : Instr) (final : Nat) =>
      (w.liveChildren ≠ [] → Completes i s fun t =>
        t.me.waiting = some .ending ∧ t.me.pc = w.me.pc ∧ t.me.status = w.me.status ∧ t.me.seq = w.me.seq ∧
        (∀ r, t.reg r = w.reg r) ∧ w.SameOutside t) ∧
      (w.liveChildren = [] →
        (∀ n, w.nodes.find? (fun n => n.sid == w.me.sid) = some n → Completes i s fun t =>
          t.me.status = .dead ∧ t.me.trl.att = false ∧ t.me.holds = [] ∧
          t.completing = w.completing ++ [(n.copy, final, 0)] ∧ t.nodes = w.nodes ∧ w.releaseAll.SameBytes t ∧
          ∀ b ∈ t.bands, ∀ c ∈ b.children, c.2 ≠ w.me.sid) ∧
        (w.nodes.find? (fun n => n.sid == w.me.sid) = none → Completes i s fun t =>
          t.me = Band.reset w.me.id ∧ t.completing = w.completing ∧ w.releaseAll.SameBytes t ∧
          ∀ b ∈ t.bands, ∀ c ∈ b.children, c.2 ≠ w.me.sid))
    ends (.exit l) 4 ∧ ends (.halt l) 5)

/-! ### Broadcast instructions -/

/-- R41, R194 to R216, R273: the class V and VI words. Each issues once its probe has found no cause (`planV` answers a
plan) and, unless the turn leaves its work in flight, performs every element in the same step, when no datum that it
consumes has a data fault. A reduction over nothing of an unresolved type is the next statement's.

R130 to R132: a transform of two records that its probe accepts issues once everything before it has finished, and
performs every element of D when no datum has a data fault.

R39, R185, R349, R351: a class V or VI word whose probe finds a cause has no effect and enters the handler at itself,
without a number; where a probe phase met a data fault, the word has its number and is kept for `ERET`. `y` is the
state in which everything before it has finished.

R18, R21, R25, R41: the operation, the operands and the types that a word names. -/
def Obligations.BroadcastWordsRun : Prop :=
  (∀ (i : Instr) (d : VDesc) (s u : State) (p : Plan), descOf i = some d → s.VectorAt d u → ¬u.OpenReduction d →
    let bits := u.guardBitsOf d.g
    let v := u.readIndexes d bits
    v.planV d bits = .ok p →
    let b := (v.fillPlan p).begin_ p
    (u.holdBack = true → Completes i s fun t => t = b) ∧
    (∀ r, u.holdBack = false → b.settled = .ok r → Completes i s fun t => t = r)) ∧
  (∀ (s u : State) (h : BHdr) (a b : Reg) (perm : BitVec 24) (p : Plan), s.settled = .ok u →
    let runs := fun (i : Instr) (perm : Option (BitVec 24)) =>
      let r := u.planRecords h (u.reg a) (u.reg b) perm
      r.2 = .ok p →
      let x := (r.1.fillPlan p).begin_ p
      (u.holdBack = true → Completes i s fun t => t = x) ∧
      (∀ t', u.holdBack = false → x.settled = .ok t' → Completes i s fun t => t = t') ∧
      p.op = .xform ∧ p.sd = none ∧ p.kd = none
    runs (.vxform ⟨h, a, b⟩) none ∧ runs (.vxpos ⟨h, a, b, perm⟩) (some perm)) ∧
  (∀ (i : Instr) (d : VDesc) (s u y : State) (f : FaultRec), descOf i = some d → s.VectorAt d u → ¬u.OpenReduction d →
    let bits := u.guardBitsOf d.g
    let v := u.readIndexes d bits
    v.planV d bits = .error f → v.settled = .ok y → y.CanTrap →
    (f.cls ≠ 1 → Completes i s fun t => y.Denied t f) ∧
    (f.cls = 1 → y.rewindsFor f = false → Completes i s fun t => y.StoppedAt t f) ∧
    (f.cls = 1 → y.rewindsFor f = true → Completes i s fun t => t = y.counted.rewind)) ∧
  let three := fun (d : VDesc) (op : VOp) (x : V3) =>
    d.op = op ∧ d.d = some x.d ∧ d.a = some x.a ∧ d.b = some x.b ∧ d.ty1 = x.ty1 ∧ d.ty2 = x.ty2 ∧ d.g = x.g ∧ d.imm = none
  let two := fun (d : VDesc) (op : VOp) (x : V2) =>
    d.op = op ∧ d.d = some x.d ∧ d.a = some x.a ∧ d.b = none ∧ d.ty1 = x.ty1 ∧ d.g = x.g ∧ d.imm = none
  let imm := fun (d : VDesc) (op : VOp) (x : I2) =>
    d.op = op ∧ d.d = some x.d ∧ d.a = some x.a ∧ d.b = none ∧ d.ty1 = x.ty1 ∧ d.g = x.g ∧ d.imm = some x.imm
  let conv := fun (d : VDesc) (op : VOp) (x : V2X) =>
    d.op = op ∧ d.d = some x.d ∧ d.a = some x.a ∧ d.b = none ∧ d.ty1 = x.ty1 ∧ d.ty2 = x.ty2 ∧ d.aOn2 = true ∧ d.g = x.g
  let tells := fun (i : Instr) (P : VDesc → Prop) => ∃ d, descOf i = some d ∧ P d
  (∀ x, tells (.vadd x) (three · .add x) ∧ tells (.vsub x) (three · .sub x) ∧ tells (.vmul x) (three · .mul x) ∧
    tells (.vfma x) (three · .fma x) ∧ tells (.vfms x) (three · .fms x) ∧ tells (.vfnma x) (three · .fnma x) ∧
    tells (.vdiv x) (three · .div x) ∧ tells (.vmin x) (three · .min x) ∧ tells (.vmax x) (three · .max x) ∧
    tells (.vclamp x) (three · .clamp x) ∧ tells (.vmulw x) (three · .mulw x) ∧ tells (.vfmaw x) (three · .fmaw x) ∧
    tells (.vmulh x) (three · .mulh x) ∧ tells (.vand x) (three · .and x) ∧ tells (.vor x) (three · .or x) ∧
    tells (.vxor x) (three · .xor x) ∧ tells (.vshl x) (three · .shl x) ∧ tells (.vshr x) (three · .shr x) ∧
    tells (.vsar x) (three · .sar x) ∧ tells (.vsel x) (three · .sel x) ∧ tells (.vaadd x) (three · .aadd x) ∧
    tells (.vamin x) (three · .amin x) ∧ tells (.vamax x) (three · .amax x) ∧ tells (.vacas x) (three · .acas x)) ∧
  (∀ x, tells (.vsqrt x) (two · .sqrt x) ∧ tells (.vrcp x) (two · .rcp x) ∧ tells (.vrsq x) (two · .rsq x) ∧
    tells (.vexp2 x) (two · .exp2 x) ∧ tells (.vlog2 x) (two · .log2 x) ∧ tells (.vtanh x) (two · .tanh x) ∧
    tells (.vabs x) (two · .abs x) ∧ tells (.vneg x) (two · .neg x) ∧ tells (.vnot x) (two · .not x) ∧
    tells (.vmov x) (two · .mov x) ∧ tells (.vcomp x) (two · .comp x) ∧ tells (.vexpd x) (two · .expd x) ∧
    tells (.vgath x) (two · .mov x) ∧ tells (.vgathFF x) (fun d => two d .mov x ∧ d.ff = true) ∧
    tells (.vscat x) (two · .mov x) ∧ ∀ m, tells (.vscan m x) (two · (.scan m) x)) ∧
  (∀ x, tells (.vaddImm x) (imm · .add x) ∧ tells (.vsubImm x) (imm · .sub x) ∧ tells (.vmulImm x) (imm · .mul x) ∧
    tells (.vfmaImm x) (imm · .fma x) ∧ tells (.vfmsImm x) (imm · .fms x) ∧ tells (.vfnmaImm x) (imm · .fnma x) ∧
    tells (.vminImm x) (imm · .min x) ∧ tells (.vmaxImm x) (imm · .max x) ∧ tells (.vandImm x) (imm · .and x) ∧
    tells (.vorImm x) (imm · .or x) ∧ tells (.vxorImm x) (imm · .xor x) ∧ tells (.vshlImm x) (imm · .shl x) ∧
    tells (.vshrImm x) (imm · .shr x) ∧ tells (.vsarImm x) (imm · .sar x)) ∧
  (∀ x, tells (.vcvt x) (conv · .cvt x) ∧ tells (.vclass x) (conv · .cls x) ∧ (∀ n, tells (.vbq n x) (conv · (.bq n) x)) ∧
    ∀ c, tells (.vbdq c x) (conv · (.bdq c) x)) ∧
  (∀ x : V1, tells (.viota x) fun d => d.op = .iota ∧ d.d = some x.d ∧ d.a = none ∧ d.ty1 = x.ty1 ∧ d.g = x.g) ∧
  (∀ x : I1, tells (.vmovImm x) fun d => d.op = .movImm ∧ d.d = some x.d ∧ d.a = none ∧ d.imm = some x.imm ∧ d.g = x.g) ∧
  (∀ c (x : VC), tells (.vcmp c x) fun d => d.op = .cmp c ∧ d.kd = some x.k ∧ d.a = some x.a ∧ d.b = some x.b ∧ d.d = none) ∧
  (∀ c (x : IC), tells (.vcmpImm c x) fun d => d.op = .cmp c ∧ d.kd = some x.k ∧ d.a = some x.a ∧ d.imm = some x.imm) ∧
  (∀ x : VC, tells (.vloc x) fun d => d.op = .loc ∧ d.kd = some x.k ∧ d.a = some x.a ∧ d.b = some x.b ∧ d.d = none) ∧
  (∀ o (x : VRs), tells (.vred o x) fun d => d.op = .red o ∧ d.sd = some x.sd ∧ d.a = some x.a ∧ d.d = none)

/-- R27, R215: a `min`, `max` or `and` over no element whose type nothing resolves writes a value that the spec does not
give: a free value (notes/assumptions/16.md), and nothing else.

R215: an integer sum is the sum of the enabled elements' patterns modulo the width, in s(D) as the type is read into a
register; the logic reductions are the bitwise ones over the patterns.

R88 to R91, R215: a sum of a floating type but `f64`, or of a block source, is the exact sum, encoded once; with
infinities of both signs or a NaN it is NaN; a zero sum is −0 when every term is −0, or under `RDN` unless every term
is +0. An `f64` sum adds, plot by plot in ascending index and then by the tree over the plots, each addition rounded:
here the parts of one plot, and of two plots that the tree joins first. `min` and `max` give a member that no other is
below (above), by R197, the canonical NaN where all are NaN, and over a block source that member's value encoded
(notes/assumptions/80.md, the model's choice). -/
def Obligations.ReductionsGiveTheirValue : Prop :=
  (∀ (s u : State) (op : RedOp) (x : VRs), s.holdBack = false → s.settled = .ok u → u.OpenReduction (descVred op x) →
    (∀ c f, u.myCtx = some c → f ∈ c.frames → f.zeroing = false) →
    Completes (.vred op x) s fun t =>
      (∀ r, t.reg r = u.regAfter x.sd (Config.freeResult u.nextFree) r) ∧ t.me.pc = u.me.pc + 16 ∧
      t.me.seq = u.me.seq + 1 ∧ t.me.fpsr = u.me.fpsr ∧ t.me.masks = u.me.masks ∧ t.me.vl = u.me.vl ∧ u.SameBytes t) ∧
  (∀ (t : Ty) (ctl : Nat → RCtl) (n idx : Nat) (es : List State.RedElem), t.isInt = true →
    (State.reduceList .add t none ctl n idx es).1 = ((es.map fun e => e.pat.1).sum) % 2 ^ t.width ∧
    (∀ g k, (∀ e ∈ es, e.pat.1 < 2 ^ t.width) → k < t.width →
      (Sys2Proof.bit (State.reduceList .and t g ctl n idx es).1 k = es.all fun e => Sys2Proof.bit e.pat.1 k) ∧
      (Sys2Proof.bit (State.reduceList .or t g ctl n idx es).1 k = es.any fun e => Sys2Proof.bit e.pat.1 k)) ∧
    (∀ op, (State.reduceList op t none ctl n idx es).2 = 0)) ∧
  ((∀ (t : Ty) (g : Option Geom) (ctl : Nat → RCtl) (n idx : Nat) (es : List State.RedElem), t ≠ .f64 →
    let c := ctl idx
    let xs := es.map fun e => State.valueOf g t e.pat
    let r := State.reduceList .add t g ctl n idx es
    let S := (xs.map fun x => x.scaled (-160)).sum
    (t.isInt = true → g.isSome = true → (∀ x ∈ xs, x.isNaN = false ∧ x.isInf = false) → S % 2 ^ 160 = 0 →
      r = (wrap t.width (S / 2 ^ 160), 0)) ∧
    (t.isInt = false →
      (Machine.Num.inf true ∈ xs → Machine.Num.inf false ∈ xs → r = ((encodeX t .nan c).1, fNV ||| (encodeX t .nan c).2)) ∧
      (¬(Machine.Num.inf true ∈ xs ∧ Machine.Num.inf false ∈ xs) → Machine.Num.nan ∈ xs → r = encodeX t .nan c) ∧
      (∀ neg, Machine.Num.inf neg ∈ xs → Machine.Num.inf (!neg) ∉ xs → Machine.Num.nan ∉ xs → r = encodeX t (.inf neg) c) ∧
      ((∀ x ∈ xs, x.isNaN = false ∧ x.isInf = false) →
        (S ≠ 0 → r = encodeX t (Machine.Num.fin (decide (S < 0)) S.natAbs (-160)).exact c) ∧
        (S = 0 → ∃ neg, r = encodeX t (.zero neg) c ∧
          (neg = true ↔ xs ≠ [] ∧ ((∀ x ∈ xs, x.isZero = true ∧ x.neg? = true) ∨
            c.rm = .rdn ∧ ¬∀ x ∈ xs, x.isZero = true ∧ x.neg? = false)))))) ∧
  (∀ (ctl : Nat → RCtl) (n idx p : Nat) (es : List State.RedElem),
    let part := fun (p : Nat) => match es.filter fun e => e.pos == p with
      | [] => (Machine.Num.zero, (0 : Flags))
      | e :: l => l.foldl (fun r e =>
          let z := State.addRound (ctl e.i) r.1 (decodeTy .f64 e.pat.1)
          (z.1, r.2 ||| z.2)) (decodeTy .f64 e.pat.1, 0)
    let gives := fun (x : Machine.Num × Flags) =>
      let q := encodeF .f64 x.1.exact (ctl idx)
      State.reduceList .add .f64 none ctl n idx es = (q.1, x.2 ||| q.2)
    (es ≠ [] → (∀ e ∈ es, e.pos = p) → p ≤ n → n < 2 ^ 63 → gives (part p)) ∧
    ((∃ e ∈ es, e.pos = 2 * p) → (∃ e ∈ es, e.pos = 2 * p + 1) → (∀ e ∈ es, e.pos / 2 = p) → 2 * p + 1 < n → n < 2 ^ 63 →
      let z := State.addRound (ctl (2 ^ 31 + 2 ^ 16 + p)) (part (2 * p)).1 (part (2 * p + 1)).1
      gives (z.1, (part (2 * p)).2 ||| (part (2 * p + 1)).2 ||| z.2))) ∧
  (∀ (t : Ty) (ctl : Nat → RCtl) (n idx : Nat) (es : List State.RedElem) (least : Bool),
    let r := fun g => State.reduceList (if least = true then .min else .max) t g ctl n idx es
    let ps := es.map State.RedElem.pat
    let below := fun (x y : Machine.Num) => if least = true then x.below y else y.below x
    (es = [] → ∀ g, r g = (emptyExtreme t least, 0)) ∧
    ((∃ p ∈ ps, (decodeTy t p.1).isNaN = false) →
      (r none).2 = 0 ∧ (∃ p ∈ ps, p.1 = (r none).1) ∧ (decodeTy t (r none).1).isNaN = false ∧
      ∀ p ∈ ps, (decodeTy t p.1).isNaN = false → below (decodeTy t p.1) (decodeTy t (r none).1) = false) ∧
    (es ≠ [] → (∀ p ∈ ps, (decodeTy t p.1).isNaN = true) → ∀ c, nanCode t = some c → r none = (c, 0)) ∧
    ∀ g, (∃ p ∈ ps, (State.valueOf (some g) t p).isNaN = false) → ∃ p ∈ ps,
      r (some g) = encodeX t (State.valueOf (some g) t p).exact (ctl idx) ∧ (State.valueOf (some g) t p).isNaN = false ∧
      ∀ q ∈ ps, (State.valueOf (some g) t q).isNaN = false →
        below (State.valueOf (some g) t q) (State.valueOf (some g) t p) = false))

/-- R196 to R204, R207: what one element of each operation is worth, from its decoded operands (or their patterns), the
immediate in place of B, and the settings captured at issue with the element's index.

R192, R196, R87: performing a near destination group writes each element's result at its place, little-endian, and
gathers the flags.

R205, R212, R191: `VSEL` gives A where the guard enables the element and B elsewhere; `VCMP` gives the truth of its
comparison of the exact values, `VLOC` whether the two operands have one owner, each at the executing
plot; a finished word's mask holds those bits, the old ones where the guard disables, and 0 from its length on.

R202, R83: an MX32 block of finite values takes the scale 2^X with X the exponent of its largest magnitude less that of
the type's largest value (one more with `.NOV` where that value times 2^X would be too small), limited to −127 and 127;
an MX16 block takes the quotient of the two largest magnitudes on the `e4m3` grid, to nearest or, with `.NOV`, up, at most
448. Each code is the encoding of the value over the scale, saturating, and a zero where the scale is 0. A block of
zeros has scale 1 (MX32) or 0 (MX16) and zero codes, signed where the type has −0; one with a NaN or an infinity has the
scale NaN and codes 0. `placeCells` builds the destination's block bit by bit.

R273, R259: the vector atomics update their targets element by element in ascending index, each seeing what the one
before it left: the target takes the new value, D's element the old one. `VAADD`, `VAMIN` and `VAMAX` compute as the
forms on values do, `VACAS` stores B where the old value is D's.

R215, R216: element i of a scan is the reduction, by addition or by `max`, of the enabled sources up to it, all read
before anything is written.

R125, R130, R131: a transform's element J of D takes the element I of A with `I[perm[k]] = J[k]`, or A's padding where
A has no such element, converted to D's type under the stochastic index of its linear number. -/
def Obligations.ElementResults : Prop :=
  (∀ (src : State) (j : Job) (e : Elem),
    let c := State.jobCtl j e.i
    let x := src.elemInp j e
    let b := (j.imm.map (immNum j.t1)).getD x.b
    let pb := (j.imm.map (immPat j.t1)).getD x.pb
    let count : Machine.Num := (j.imm.map fun v => Machine.Num.ofInt v.toInt).getD x.b
    let w := j.t1.width
    let res := fun (op : VOp) (v : Nat × Flags) => j.op = op → src.memResult j e = v
    c.rm = j.rm ∧ c.sat = j.sat ∧ c.h = srHash j.seed (j.seq % 2 ^ 32) e.i ∧
    res .add (arithResult j.t1 (Machine.Num.add c.rm x.a b) c) ∧ res .sub (arithResult j.t1 (Machine.Num.sub c.rm x.a b) c) ∧
    res .mul (arithResult j.t1 (Machine.Num.mul x.a b) c) ∧ res .mulw (arithResult j.t1 (Machine.Num.mul x.a b) c) ∧
    res .fma (arithResult j.t1 (Machine.Num.fma c.rm x.a b x.d) c) ∧ res .fmaw (arithResult j.t1 (Machine.Num.fma c.rm x.a b x.d) c) ∧
    res .fms (arithResult j.t1 (Machine.Num.fma c.rm x.a b x.d.negate) c) ∧
    res .fnma (arithResult j.t1 (Machine.Num.fma c.rm x.a.negate b x.d) c) ∧
    res .div (fnResult j.t1 (Machine.Num.div x.a b) c) ∧ res .sqrt (fnResult j.t1 x.a.sqrt c) ∧
    res .rcp (fnResult j.t1 x.a.rcp c) ∧ res .rsq (fnResult j.t1 x.a.rsq c) ∧ res .exp2 (fnResult j.t1 x.a.exp2 c) ∧
    res .log2 (fnResult j.t1 x.a.log2 c) ∧ res .tanh (fnResult j.t1 x.a.tanh c) ∧
    res .min (pickResult j.t1 (Machine.Num.minR x.a b) c) ∧ res .max (pickResult j.t1 (Machine.Num.maxR x.a b) c) ∧
    res .clamp (pickResult j.t1 (clampNum j.t1 x.a b) c) ∧
    res .abs (arithResult j.t1 (x.a.abs, 0) c) ∧ res .neg (arithResult j.t1 (x.a.negate, 0) c) ∧
    (∀ p q, x.a.whole = some p → b.whole = some q → res .mulh (wrap w (p * q / (2 ^ w : Nat)), 0)) ∧
    (∀ n m ex, (Machine.Num.mul x.a b).1 = .fin n m ex → res .mulh (wrap w ((Machine.Num.fin n m ex).floorAt w), 0)) ∧
    res .and (x.pa &&& pb, 0) ∧ res .or (x.pa ||| pb, 0) ∧ res .xor (x.pa ^^^ pb, 0) ∧ res .not (2 ^ w - 1 - x.pa, 0) ∧
    (∀ n m ex, count = .fin n m ex →
      let f := count.floorAt 0
      (f < 0 ∨ (w : Int) ≤ f → res .shl (0, 0) ∧ res .shr (0, 0) ∧
        res .sar (if Sys2Proof.bit x.pa (w - 1) = true then 2 ^ w - 1 else 0, 0)) ∧
      (0 ≤ f → f < (w : Int) → count.whole = some f → res .shl (x.pa % 2 ^ w * 2 ^ f.toNat % 2 ^ w, 0) ∧
        res .shr (x.pa % 2 ^ w / 2 ^ f.toNat, 0) ∧ res .sar (wrap w (signed w x.pa / (2 ^ f.toNat : Nat)), 0))) ∧
    res .cvt (convert j.t1 (j.t2.isInt && j.ga.isNone) x.a c) ∧
    res (.bdq false) (encodeX j.t1 x.a.exact c) ∧ res (.bdq true) (encodeX j.t1 x.a.exact c) ∧
    res .mov (x.pa, 0) ∧ res .comp (x.pa, 0) ∧ res .expd (x.pa, 0) ∧
    res .movImm (convert j.t1 j.t1.isInt b c) ∧
    (j.t1.isInt = true → res .iota (e.i % 2 ^ w, 0)) ∧ (j.t1.isInt = false → res .iota (encodeF j.t1 (Machine.Num.ofInt e.i).exact c)) ∧
    res .cls (classOf j.t2 (if j.ga.isSome = true then decodeTy j.t2 x.pa else x.a) % 2 ^ w, 0)) ∧
  (∀ (src s : State) (j : Job) (g : List Elem) (grp : Nat), s.MemOk → s.pairs = [] → g ≠ [] →
    (∀ c, j.op ≠ .cmp c) → j.op ≠ .loc → (∀ n, j.op ≠ .bq n) → State.isAtomicOp j.op = false →
    (∀ e ∈ g, ∃ l, e.d = some l ∧ l.bit = 0 ∧ l.keys ≠ [] ∧ 8 * l.keys.length = j.t1.width ∧
      ∀ k ∈ l.keys, isNear k = true ∧ k / 64 = grp) →
    (g.flatMap fun e => (e.d.map Loc.keys).getD []).Nodup →
    (s.me.strip.sealed = true ∨
      (s.me.strip.journal.filter fun x => plotOf (x.1 * 64) == plotOf (grp * 64)).length < 448) →
    let r := src.performElems s j g
    (∀ e ∈ g, ∀ l, e.d = some l →
      ofBytesLE (l.keys.map r.1.byteAt) = (src.memResult j e).1 % 2 ^ j.t1.width) ∧
    (∀ k, (∀ e ∈ g, ∀ l, e.d = some l → k ∉ l.keys) → r.1.byteAt k = s.byteAt k) ∧
    r.2.flags = g.foldl (fun f e => f ||| (src.memResult j e).2) j.flags) ∧
  ((∀ (src : State) (j : Job) (e : Elem), j.op = .sel →
    (∀ l, e.a = some l → src.memResult j e = ((src.consumePat j e.plot j.t1.width l).1, 0)) ∧
    (∀ l, e.a = none → e.b = some l → src.memResult j e = ((src.consumePat j e.plot j.t2.width l).1, 0))) ∧
  (∀ x beds vl on ix home la lb ld, x.op = .sel → ∀ e ∈ planElems x beds vl on ix home la lb ld,
    e.a = (if on e.i = true then assoc la e.i else none) ∧ e.b = (if on e.i = true then none else assoc lb e.i)) ∧
  (∀ (src s : State) (j : Job) (g : List Elem),
    let r := src.performElems s j g
    (∀ c, j.op = .cmp c → r.1 = s ∧ r.2.flags = j.flags ∧ r.2.maskBits = j.maskBits ++ g.map fun e =>
      (e.i, cmpNum c (src.elemInp j e).a ((j.imm.map (immNum j.t1)).getD (src.elemInp j e).b), e.plot)) ∧
    (j.op = .loc → r.1 = s ∧ r.2.flags = j.flags ∧ r.2.maskBits = j.maskBits ++ g.map fun e =>
      (e.i, e.a.map Loc.plot == e.b.map Loc.plot, e.plot))) ∧
  (∀ a b : Machine.Num, a.isNaN = true ∨ b.isNaN = true → ∀ c, cmpNum c a b = (c == .ne || c == .un)) ∧
  (∀ (n n' : Bool) (m m' : Nat) (e e' u : Int), u ≤ e → u ≤ e' →
    let x := Machine.Num.fin n m e
    let y := Machine.Num.fin n' m' e'
    (cmpNum .eq x y = true ↔ x.scaled u = y.scaled u) ∧ (cmpNum .ne x y = true ↔ x.scaled u ≠ y.scaled u) ∧
    (cmpNum .lt x y = true ↔ x.scaled u < y.scaled u) ∧ (cmpNum .le x y = true ↔ x.scaled u ≤ y.scaled u) ∧
    (cmpNum .gt x y = true ↔ y.scaled u < x.scaled u) ∧ (cmpNum .ge x y = true ↔ y.scaled u ≤ x.scaled u) ∧
    cmpNum .un x y = false) ∧
  (∀ (s : State) (j : Job) (k : Mask), j.kd = some k →
    let m := (s.finishJob j).me.masks[k.val]
    (∀ i < j.vl, m.bit i = match j.maskBits.find? fun b => b.1 == i with
      | some b => b.2.1
      | none => (s.me.masks[k.val]).bit i) ∧
    ∀ i, j.vl ≤ i → m.bit i = false)) ∧
  ((∀ (g : Geom) (nov : Bool) (t : Ty) (ctl : Nat → RCtl) (first : Nat) (xs : List Machine.Num),
    (∃ x ∈ xs, x.isNaN = true ∨ x.isInf = true) →
    State.quantise g nov t ctl first xs = ((match g with
      | .mx32 => 0xFF
      | .mx16 => 0x7F), xs.map fun _ => 0, if xs.any Machine.Num.isInf = true then fNV else 0)) ∧
  (∀ (nov : Bool) (t : Ty) (ctl : Nat → RCtl) (first : Nat) (xs : List Machine.Num) (n : Bool) (m : Nat) (e : Int),
    (∀ x ∈ xs, x.isNaN = false ∧ x.isInf = false) → m ≠ 0 →
    xs.foldl (fun a x => if a.cmp x.abs < 0 then x.abs else a) Machine.Num.zero = .fin n m e →
    let big := State.blockMax t
    let x0 : Int := (Nat.log2 m : Int) + e - big.1
    let x1 : Int := if nov = true ∧ (Machine.Num.fin false big.2.1 (big.2.2 + x0)).cmp (.fin n m e) < 0 then x0 + 1 else x0
    let scale : Int := min (max x1 (-127)) 127
    let q := State.quantise .mx32 nov t ctl first xs
    q.1 = (scale + 127).toNat ∧ q.2.1.length = xs.length ∧
    ∀ k n' m' e', xs[k]? = some (.fin n' m' e') → m' ≠ 0 → q.2.1[k]? = some
      (if t = .i8 then encodeI t (.val n' (magQuot m' 1 (e' - scale + 6))) { ctl (first + k) with sat := 1 }
        else encodeF t (.val n' (magQuot m' 1 (e' - scale))) { ctl (first + k) with sat := 1 }).1) ∧
  (∀ (nov : Bool) (t : Ty) (ctl : Nat → RCtl) (first : Nat) (xs : List Machine.Num) (n : Bool) (m : Nat) (e : Int),
    (∀ x ∈ xs, x.isNaN = false ∧ x.isInf = false) → m ≠ 0 →
    xs.foldl (fun a x => if a.cmp x.abs < 0 then x.abs else a) Machine.Num.zero = .fin n m e →
    let big := State.blockMax t
    let ratio := magQuot m big.2.1 (e - big.2.2)
    let quantum := max ratio.lg (-6) - 3
    let r := (roundGrid ⟨if nov = true then .rup else .rne, 0, (ctl first).h⟩ false ratio quantum).1
    let top := Machine.Num.fin false 448 0
    let S := if top.cmp (.fin false r quantum) < 0 then top else .fin false r quantum
    let q := State.quantise .mx16 nov t ctl first xs
    q.1 = (encodeF .e4m3 S.exact ⟨.rne, 1, 0⟩).1 ∧ q.2.1.length = xs.length ∧
    ∀ k n' m' e', xs[k]? = some (.fin n' m' e') →
      (S.isZero = true → q.2.1[k]? = some (if n' = true ∧ hasNegZero t = true then signCode t true 0 else 0)) ∧
      ∀ m0 e0, S = .fin false m0 e0 → m0 ≠ 0 → m' ≠ 0 → q.2.1[k]? = some
        (if t = .i8 then encodeI t (.val n' (magQuot m' m0 (e' - e0 + 6))) { ctl (first + k) with sat := 1 }
          else encodeF t (.val n' (magQuot m' m0 (e' - e0))) { ctl (first + k) with sat := 1 }).1) ∧
  (∀ (g : Geom) (nov : Bool) (t : Ty) (ctl : Nat → RCtl) (first : Nat) (xs : List Machine.Num),
    (∀ x ∈ xs, ∃ n e, x = .fin n 0 e) → t ∈ ([.e2m1, .e2m3, .e3m2, .e4m3, .e5m2, .i8] : List Ty) →
    State.quantise g nov t ctl first xs = ((match g with
      | .mx32 => 127
      | .mx16 => 0), xs.map fun x => if x.neg? = true ∧ hasNegZero t = true then 2 ^ (t.width - 1) else 0, 0)) ∧
  (∀ (src s : State) (j : Job) (g : List Elem) (nov : Bool) (e : Elem) (l : Loc) (k : Nat), j.op = .bq nov →
    g.head? = some e → e.d = some l → l.scale = some k →
    let geo := j.gd.getD .mx32
    let xs := g.map fun e => (e.a.map fun l => State.valueOf none j.t2 (src.consumePat j e.plot j.t2.width l)).getD Machine.Num.zero
    let q := State.quantise geo nov j.t1 (State.jobCtl j) e.i xs
    let cells := (g.zip q.2.1).foldl (fun h p => match p.1.d with
      | some l => State.placeCells s h l j.t1.width p.2
      | none => h) [(k, BitVec.ofNat 8 q.1)]
    let r := src.performElems s j g
    r.2.flags = j.flags ||| q.2.2 ∧ ∃ pad : List (Nat × Byte), (∀ c ∈ pad, c.2 = 0 ∧ c.1 / 256 = k / 256) ∧
      r.1 = s.storeCells j l.plot 0 (cells ++ pad)) ∧
  (∀ (s : State) (h : List (Nat × Byte)) (l : Loc) (w v : Nat), l.keys.Nodup → l.bit + w ≤ 8 * l.keys.length →
    let value := fun (h : List (Nat × Byte)) => ofBytesLE (l.keys.map fun k => (assoc h k).getD (s.seen k))
    let h' := State.placeCells s h l w v
    value h' / 2 ^ l.bit % 2 ^ w = v % 2 ^ w ∧ value h' % 2 ^ l.bit = value h % 2 ^ l.bit ∧
    value h' / 2 ^ (l.bit + w) = value h / 2 ^ (l.bit + w) ∧ ∀ k, k ∉ l.keys → assoc h' k = assoc h k) ∧
  (∀ (s : State) (j : Job) (plot part grp : Nat) (cells : List (Nat × Byte)), s.MemOk → s.pairs = [] → cells ≠ [] →
    (cells.map Prod.fst).Nodup → (∀ c ∈ cells, isNear c.1 = true ∧ c.1 / 256 = grp) → s.me.strip.sealed = true →
    let r := s.storeCells j plot part cells
    (∀ c ∈ cells, r.byteAt c.1 = c.2) ∧ ∀ k, k ∉ cells.map Prod.fst → r.byteAt k = s.byteAt k)) ∧
  ((∀ (src s : State) (j : Job) (g h : List Elem), State.isAtomicOp j.op = true →
    let r := src.performElems s j g
    src.performElems s j (g ++ h) = src.performElems r.1 r.2 h) ∧
  (∀ (src s : State) (j : Job) (e : Elem) (l : Loc), State.isAtomicOp j.op = true → s.MemOk → s.pairs = [] →
    e.a = some l → l.keys ≠ [] → l.keys.Nodup → 8 * l.keys.length = j.t1.width →
    (∀ k ∈ l.keys, isNear k = l.near ∧ k / 64 = l.keys.headD 0 / 64 ∧ s.buffered k = none) →
    (l.near = true ∨ l.keys.headD 1 % 64 ≠ 0 ∨ s.graphOwner (l.keys.headD 1 / 65536) = none) →
    s.me.strip.sealed = true →
    (∀ d, e.d = some d → ∀ k ∈ d.keys, k ∉ l.keys ∧ isNear k = true) →
    let x := src.elemInp j e
    let old := ofBytesLE (l.keys.map s.byteAt)
    let c := State.jobCtl j e.i
    let new : Nat × Flags := match j.op with
      | .aadd => arithResult j.t1 (Machine.Num.add c.rm (decodeTy j.t1 old) (decodeTy j.t1 x.pb)) c
      | .amin => pickResult j.t1 (Machine.Num.minR (decodeTy j.t1 old) (decodeTy j.t1 x.pb)) c
      | .amax => pickResult j.t1 (Machine.Num.maxR (decodeTy j.t1 old) (decodeTy j.t1 x.pb)) c
      | _ => (if old = x.pd % 2 ^ j.t1.width then x.pb % 2 ^ j.t1.width else old, 0)
    let r := src.performElems s j [e]
    ofBytesLE (l.keys.map r.1.byteAt) = new.1 % 2 ^ j.t1.width ∧ r.2.flags = j.flags ||| new.2 ∧
    (∀ d, e.d = some d → d.bit = 0 → d.keys.Nodup → 8 * d.keys.length = j.t1.width → d.keys ≠ [] →
      ofBytesLE (d.keys.map r.1.byteAt) = old) ∧
    ∀ k, k ∉ l.keys → (∀ d, e.d = some d → k ∉ d.keys) → r.1.byteAt k = s.byteAt k)) ∧
  (∀ (s t : State) (j j' : Job) (mx : Bool), s.MemOk → s.pairs = [] → s.me.strip.sealed = true →
    (∀ e ∈ j.elems, ∃ l m, e.d = some l ∧ e.a = some m ∧ l.bit = 0 ∧ l.keys ≠ [] ∧ 8 * l.keys.length = j.t1.width ∧
      ∀ k ∈ l.keys, isNear k = true ∧ k / 64 = e.grp) →
    (j.elems.flatMap fun e => (e.d.map Loc.keys).getD []).Nodup → (j.elems.map Elem.i).Nodup → (∀ e ∈ j.elems, e.i < 2 ^ 20) →
    s.runScan j mx = (t, j', none) →
    let n := 64 * s.me.beds.length
    let at_ := fun (p : Nat) => (bedsPos s.me.beds p).getD n
    let src := fun (e : Elem) => e.a.map fun l => (⟨e.i, at_ e.plot, at_ l.plot, s.consumePat j e.plot j.t1.width l⟩ : State.RedElem)
    ∀ (k : Nat) (e : Elem) (l : Loc), j.elems[k]? = some e → e.d = some l →
      ofBytesLE (l.keys.map t.byteAt) =
        (State.reduceWith (if mx = true then .max else .add) j.t1 j.ga (State.jobCtl j) n e.i j.carry
          ((j.elems.take (k + 1)).filterMap src)).1 % 2 ^ j.t1.width) ∧
  ((∀ (src : State) (j : Job) (e : Elem), j.op = .xform →
    let pad := State.valueOf j.ga j.t2 (j.pad % 2 ^ j.t2.width, match j.ga with
      | some .mx32 => 127
      | some .mx16 => 0x38
      | none => 0)
    (∀ l, e.a = some l → src.memResult j e = convert j.t1 (j.t2.isInt && j.ga.isNone)
      (State.valueOf j.ga j.t2 (src.consumePat j e.plot j.t2.width l)) (State.jobCtl j (e.i % 2 ^ 32))) ∧
    (e.a = none → src.memResult j e = convert j.t1 (j.t2.isInt && j.ga.isNone) pad (State.jobCtl j (e.i % 2 ^ 32)))) ∧
  ∀ (u : State) (d x : TRec) (h : BHdr) (perm : Option (BitVec 24)) (p : Plan), u.planXform d x h perm = .ok p →
    let q := (State.permOf perm d.rank).1
    let sizes := d.sizes.take d.rank
    p.elems.map Elem.i = List.range (prodOf sizes) ∧
    ∀ el ∈ p.elems, ∀ src : List Nat,
      let dst := indexOf sizes el.i ++ List.replicate (8 - d.rank) 0
      src.length = 8 → (∀ k < d.rank, src.getD (q.getD k 0) 0 = dst.getD k 0) → (∀ m, d.rank ≤ m → src.getD m 0 = 0) →
      (∃ l, el.d = some l ∧ u.recPlace .write true opD 0 d el.i (d.pos dst 0) = .ok l) ∧
      (x.has src = true → ∃ l, el.a = some l ∧ u.recPlace .read false opA 1 x el.i (x.pos src 0) = .ok l) ∧
      (x.has src = false → el.a = none))

/-- R25, R28, R29, R172, R218: what the issue of a broadcast instruction leaves: its job with everything captured, its
number taken, its slot claimed, its notification noted; registers, masks and, unless it seals the strip, memory stand.

R87, R181, R209, R210, R215: what a finished broadcast instruction leaves unchanged: every scalar register but a
reduction's, every mask but its destination, `VL` but for `VGATH.FF`, every control register.

R104, R175, R306: a finished broadcast instruction changes no byte of memory that it was not planned to write, in a
sealed strip whose buffers are empty, or while the strip stays unsealed. -/
def Obligations.BroadcastFrames : Prop :=
  (∀ (v : State) (p : Plan),
    let b := v.begin_ p
    b.me.pc = v.me.pc + 16 ∧ b.me.seq = v.me.seq + 1 ∧ b.me.pfx = none ∧ (∀ r, b.reg r = v.reg r) ∧
    b.me.masks = v.me.masks ∧ b.me.vl = p.ffVl.getD v.me.vl ∧ b.me.fpsr = v.me.fpsr ∧
    (∃ j, b.me.jobs = v.me.jobs ++ [j] ∧ j.seq = v.me.seq ∧ j.addr = v.me.issueAddr ∧ j.op = p.op ∧ j.t1 = p.t1 ∧
      j.t2 = p.t2 ∧ j.elems = p.elems ∧ j.guardBits = p.guardBits ∧ j.vl = p.vl ∧ j.rm = v.rmNow ∧ j.sat = v.satNow ∧
      j.seed = v.seedNow ∧ j.kd = p.kd ∧ j.sd = p.sd) ∧
    (∀ k, p.set = some k → b.me.slots[k] = some v.me.seq) ∧ (p.set = none → b.me.slots = v.me.slots) ∧
    (p.ntf = true → v.me.ntfa ≠ 0 → b.me.strip.ntf = some (v.me.ntfa, p.ffVl.getD v.me.vl)) ∧
    (p.seals = false → (∀ e ∈ p.elems, ∀ l, e.d = some l → ∀ k ∈ l.keys, isRemote k = false) →
      v.SameBytes b ∧ b.me.strip.sealed = v.me.strip.sealed) ∧
    (p.seals = true → b.me.strip.sealed = true ∧ v.sealStrip.performed.SameBytes b ∧ b.me.wpkts = [])) ∧
  (∀ (v t : State) (p : Plan), v.me.jobs = [] → (v.begin_ p).settled = .ok t →
    (∀ r, p.sd ≠ some r → t.reg r = v.reg r) ∧ (∀ k : Fin 12, p.kd ≠ some k → t.me.masks[k] = v.me.masks[k]) ∧
    (p.isFF = false → p.ffVl = none → t.me.vl = v.me.vl) ∧ t.me.pc = v.me.pc + 16 ∧ t.me.seq = v.me.seq + 1 ∧ t.me.jobs = [] ∧
    t.me.rm = v.me.rm ∧ t.me.sat = v.me.sat ∧ t.me.seed = v.me.seed ∧ t.me.trusted = v.me.trusted ∧ t.me.ntfa = v.me.ntfa ∧
    t.me.tvec = v.me.tvec ∧ t.me.inh = v.me.inh ∧ t.me.epc = v.me.epc ∧ t.me.ecause = v.me.ecause ∧
    t.me.eaddr = v.me.eaddr ∧ t.me.eelem = v.me.eelem ∧ t.me.estat = v.me.estat ∧ t.me.einfo = v.me.einfo ∧
    t.me.trl = v.me.trl ∧ t.me.holds = v.me.holds ∧ t.me.runner = v.me.runner) ∧
  (∀ (v t : State) (p : Plan), v.me.jobs = [] → v.MemOk → v.pairs = [] → (∀ c f, v.myCtx = some c → f ∈ c.frames → f.zeroing = false) →
    (State.isAtomicOp p.op = false ∨ ∀ n, v.graphOwner n = none) →
    (v.begin_ p).settled = .ok t →
    (v.me.strip.sealed = true ∧ v.me.strip.far = [] ∧ v.me.wpkts = []) ∨ t.me.strip.sealed = false →
    ∀ k, ¬State.MayWrite p k → t.byteAt k = v.byteAt k)

/-- R210, R213: the M forms. Below `VL` an enabled bit of `MD` is the form's, a disabled one keeps its value, each at the
home of `MA`'s bit (its default home for `MSET` and `MCLR`); from `VL` on every bit is 0 at its default home. Nothing
else changes.

R211: an M form that would put a 4,097th bit of a mask on a plot is `MASKCAP` at that bit's index, before issue;
`EADDR` is a free value (notes/assumptions/11.md).

R214: `MPOP` counts the enabled bits of `MA` below `VL` that are 1 and, with `.VL`, sets `VL` to the count; `MFIRST`
gives the lowest of them, or all ones. -/
def Obligations.MaskFormsCompute : Prop :=
  (∀ s u : State, s.settled = .ok u →
    let m := fun (k : Mask) (i : Nat) => (u.me.masks[k.val]).bit i
    let writes := fun (ins : Instr) (d : Mask) (g : Option Guard) (f : Nat → Bool) (home : Nat → Nat) =>
      maskCapAt ((List.range u.me.vl).map fun i => (i, home i)) = none → Completes ins s fun t =>
        (∀ i, i < u.me.vl → ((u.Enabled g i → (t.me.masks[d.val]).bit i = f i) ∧
          (¬u.Enabled g i → (t.me.masks[d.val]).bit i = m d i)) ∧ (t.me.masks[d.val]).home u.me.beds i = home i) ∧
        (∀ i, u.me.vl ≤ i → (t.me.masks[d.val]).bit i = false ∧ (t.me.masks[d.val]).home u.me.beds i = defaultHome u.me.beds i) ∧
        t = u.onward { u.me with masks := u.me.masks.set d.val t.me.masks[d.val] }
    let homeOf := fun (k : Mask) (i : Nat) => (u.me.masks[k.val]).home u.me.beds i
    (∀ x, writes (.mand x) x.d x.g (fun i => m x.a i && m x.b i) (homeOf x.a)) ∧
    (∀ x, writes (.mor x) x.d x.g (fun i => m x.a i || m x.b i) (homeOf x.a)) ∧
    (∀ x, writes (.mxor x) x.d x.g (fun i => m x.a i ^^ m x.b i) (homeOf x.a)) ∧
    (∀ x, writes (.mandn x) x.d x.g (fun i => m x.a i && !m x.b i) (homeOf x.a)) ∧
    (∀ x, writes (.mnot x) x.d x.g (fun i => !m x.a i) (homeOf x.a)) ∧
    (∀ x, writes (.mmov x) x.d x.g (fun i => m x.a i) (homeOf x.a)) ∧
    (∀ x, writes (.mset x) x.d x.g (fun _ => true) (defaultHome u.me.beds)) ∧
    (∀ x, writes (.mclr x) x.d x.g (fun _ => false) (defaultHome u.me.beds)) ∧
    (∀ x f, f ≤ u.me.vl → (∀ i < f, ¬(u.Enabled x.g i ∧ m x.a i = true)) →
      (f < u.me.vl → u.Enabled x.g f ∧ m x.a f = true) →
      writes (.mbef x) x.d x.g (fun i => decide (i < f)) (homeOf x.a))) ∧
  (∀ (s u : State) (x : M2) (i : Nat), s.settled = .ok u → u.CanTrap →
    maskCapAt ((List.range u.me.vl).map fun i => (i, (u.me.masks[x.a.val]).home u.me.beds i)) = some i →
    let r : FaultRec := { preFault cMASKCAP 0 i opNone with addr := Config.freeAddr u.nextFree }
    (Completes (.mmov x) s fun t => u.Denied t r) ∧ (Completes (.mnot x) s fun t => u.Denied t r)) ∧
  (∀ (s u : State) (x : MS), s.settled = .ok u →
    let hit := fun i => u.Enabled x.g i ∧ (u.me.masks[x.a.val]).bit i = true
    (∀ (hits : List Nat), hits.Nodup → (∀ i, i ∈ hits ↔ i < u.me.vl ∧ hit i) →
      (Completes (.mpop false x) s fun t => u.Wrote t x.sd (BitVec.ofNat 64 hits.length) 0) ∧
      (Completes (.mpop true x) s fun t => t.me.vl = hits.length ∧ t.me.vl ≤ u.me.vl ∧
        u.Wrote { t with me := { t.me with vl := u.me.vl } } x.sd (BitVec.ofNat 64 hits.length) 0)) ∧
    (∀ i, i < u.me.vl → hit i → (∀ j < i, ¬hit j) → Completes (.mfirst x) s fun t => u.Wrote t x.sd (BitVec.ofNat 64 i) 0) ∧
    ((∀ i < u.me.vl, ¬hit i) → Completes (.mfirst x) s fun t => u.Wrote t x.sd (BitVec.allOnes 64) 0))

/-! ### Visibility -/

/-- R263: what a form on an object checks before issue: a multiple of 64, the permissions of an atomic access, a `SYNC`
page; a failure enters the handler with the address in `EADDR` and operand 5.

R266: `BIND` and `UNBIND` need an exclusive hold (−3); a bad region is −4, one that meets another binding or a `SYNC`
or `GRAPH` page −2, a full table −1; `UNBIND` of a region that is not bound −1. Otherwise the table changes, and s(D)
is 0. The order −3, −4, −2, −1 in which `BIND` judges them is the model's choice (notes/assumptions/28.md). -/
def Obligations.ObjectsAreCheckedAndBound : Prop :=
  ((∀ (u : State) (va : Nat),
    (va % 64 ≠ 0 → u.objPlace va = .error cALIGN) ∧
    (∀ c, va % 64 = 0 → u.translate .atomic true va = .error c → u.objPlace va = .error c) ∧
    (∀ w, va % 64 = 0 → u.translate .atomic true va = .ok w →
      u.objPlace va = if w.sync = true then .ok w else .error cSYNCUSE)) ∧
  ∀ (s u : State) (x : EAD) (y : EABD) (c : Nat), s.settled = .ok u → u.CanTrap →
    let fails := fun (i : Instr) (a : Reg) => u.objPlace (u.reg a).toNat = .error c →
      Completes i s fun t => u.Denied t (preFault c (u.reg a).toNat 0 opObject)
    (∀ sh, fails (.acq sh x) x.a) ∧ fails (.rel x) x.a ∧ (∀ k, fails (.arrive k x) x.a) ∧ (∀ f, fails (.binit f y) y.a) ∧
    fails (.await y) y.a ∧ fails (.awaitGe y) y.a ∧ fails (.unbind y) y.a) ∧
  (∀ (s u v : State) (x : EABCD) (y : EABD) (o : Nat) (c : Ctx), s.settled = .ok u → v.myCtx = some c →
    let base := (u.reg x.b).toNat
    let len := (u.reg x.c).toNat
    let bad := base % 64 ≠ 0 ∨ len % 64 ≠ 0 ∨ len = 0 ∨ 2 ^ 55 < base + len
    let meets := (∃ b ∈ c.bindings, base < b.base + b.len ∧ b.base < base + len) ∨ v.meetsSpecialPage c base len = true
    (u.ObjectAt x.a isBarrier o v →
      (v.holdsX o = false → Completes (.bind x) s fun t => v.Wrote t x.d (-3) 0) ∧
      (v.holdsX o = true → bad → Completes (.bind x) s fun t => v.Wrote t x.d (-4) 0) ∧
      (v.holdsX o = true → ¬bad → meets → Completes (.bind x) s fun t => v.Wrote t x.d (-2) 0) ∧
      (v.holdsX o = true → ¬bad → ¬meets → 1024 ≤ c.bindings.length → Completes (.bind x) s fun t => v.Wrote t x.d (-1) 0) ∧
      (v.holdsX o = true → ¬bad → ¬meets → c.bindings.length < 1024 → Completes (.bind x) s fun t =>
        v.SyncDone t x.d 0 ∧ t.me.holds = v.me.holds ∧ t.oKind o = 1 ∧ v.SameBytesBut t o 1 ∧
        t.myCtx = some { c with bindings := c.bindings ++ [⟨o, base, len⟩] })) ∧
    (u.ObjectAt y.a isBarrier o v →
      let here := fun (b : Binding) => b.key = o ∧ b.base = (u.reg y.b).toNat
      (v.holdsX o = false → Completes (.unbind y) s fun t => v.Wrote t y.d (-3) 0) ∧
      (v.holdsX o = true → (∀ b ∈ c.bindings, ¬here b) → Completes (.unbind y) s fun t => v.Wrote t y.d (-1) 0) ∧
      (v.holdsX o = true → (∃ b ∈ c.bindings, here b) → Completes (.unbind y) s fun t =>
        v.SyncDone t y.d 0 ∧ t.me.holds = v.me.holds ∧ v.SameBytes t ∧
        ∃ c', t.myCtx = some c' ∧ ∀ b, b ∈ c'.bindings ↔ b ∈ c.bindings ∧ ¬here b)))

/-- R268: `ACQ` answers −1 where the stream holds the object, −2 with 16 holds, 1 where it is poisoned; a request that can
be granted takes the hold, which counts in `NSH` or stands in `XHOLD`, and the shared requests directly behind a
shared one are granted with it; any other waits in the object's queue.

R269: `REL` of an object that the stream does not hold answers −1; otherwise, once every command of the stream that
writes a region bound to the object has completed, the hold goes, `RELS` counts it, and s(D) is 0. `w` is the state in
which that happens. -/
def Obligations.HoldsAreTakenAndReleased : Prop :=
  (∀ (s u v : State) (shared : Bool) (x : EAD) (o : Nat), s.settled = .ok u → u.ObjectAt x.a isBarrier o v →
    let i := Instr.acq shared x
    let n := v.acqOrder o
    let free := v.oXhold o = 0 ∧ (shared = true ∨ v.oNsh o = 0) ∧ ∀ sh ∈ v.aheadOf o n, shared = true ∧ sh = true
    ((v.holdsOf o).isSome = true → Completes i s fun t => v.Wrote t x.d (-1) 0) ∧
    (v.holdsOf o = none → 16 ≤ v.me.holds.length → Completes i s fun t => v.Wrote t x.d (-2) 0) ∧
    (v.holdsOf o = none → v.me.holds.length < 16 →
      (v.oPois o = true → Completes i s fun t => v.Wrote t x.d 1 0) ∧
      (v.oPois o = false → free → shared = false ∨ v.sharers o = [] → Completes i s fun t =>
        v.SyncDone t x.d 0 ∧ t.me.holds = v.me.holds ++ [⟨o, shared⟩] ∧ v.SameBytesBut t o 64 ∧ t.oKind o = 1 ∧
        (shared = true → t.oNsh o = (v.oNsh o + 1) % 2 ^ 16 ∧ t.oXhold o = v.oXhold o) ∧
        (shared = false → t.oXhold o = v.me.xhold.toNat ∧ t.oNsh o = v.oNsh o) ∧ t.oRels o = v.oRels o) ∧
      (v.oPois o = false → free → shared = true → Completes i s fun t =>
        t = ((v.grant o true).afresh.finish x.d 0).shareBehind o) ∧
      (v.oPois o = false → ¬free → Completes i s fun t =>
        t = { v with me := { v.me with waiting := some (.acq o shared n x) }, nextOrder := v.nextOrder + 1 }))) ∧
  (∀ (s u v : State) (x : EAD) (o : Nat), s.settled = .ok u → u.ObjectAt x.a isBarrier o v →
    (v.holdsOf o = none → Completes (.rel x) s fun t => v.Wrote t x.d (-1) 0) ∧
    (∀ h, v.holdsOf o = some h →
      let w := v.drainBound o
      w.MemOk → w.PairsOk → Completes (.rel x) s fun t =>
        w.SyncDone t x.d 0 ∧ t.me.holds = w.me.holds.filter (fun y => y.key != o) ∧ w.SameBytesBut t o 64 ∧
        t.oRels o = (w.oRels o + 1) % 2 ^ 64 ∧
        (h.shared = true → t.oNsh o = w.oNsh o - 1 ∧ t.oXhold o = w.oXhold o) ∧
        (h.shared = false → t.oXhold o = 0 ∧ t.oNsh o = w.oNsh o)))

/-- R274: `BINIT` of a need outside 1 to 2^32 − 1 answers −2; one that finds arrivals, pending arrivals or poison without
`.force` answers −1; otherwise the object is a barrier of a new generation, with nothing arrived and not poisoned, and
an `AWAIT` that waits on the old one has its result 1.

R275: a stream arrival counts once it is performed: in `HAVE`, or in `STRAY` where the barrier is poisoned; the last
one needed begins the next generation, and gives every `AWAIT` on the old one its result 0. s(D) receives the
generation that it arrived at.

R275: a `.run` or `.trl` arrival counts in `PEND` at its issue and joins the stream's Runner or Trellis queue, with
the generation captured; it is performed in its turn.

R276, R277, R282: `AWAIT` is over once the generation has changed or the barrier is poisoned: 2 poisoned, 0 for the next
generation (1 if it was forced), 3 for any other; a stream that waited has the result of the generation's end.
`AWAIT.GE` gives the progress word once it has reached s(B), or −1 where the object is poisoned. Until then the stream
waits at the word. A stream that waits in `AWAIT.GE` has its result as the word is written or the object poisoned, whatever
becomes of them before its next turn. -/
def Obligations.BarriersCountArrivals : Prop :=
  (∀ (s u v : State) (force : Bool) (x : EABD) (o : Nat), s.settled = .ok u → u.ObjectAt x.a isLock o v →
    let i := Instr.binit force x
    let need := (u.reg x.b).toNat
    let busy := v.oHave o ≠ 0 ∨ v.oPend o ≠ 0 ∨ v.oPois o = true
    (need = 0 ∨ 2 ^ 32 ≤ need → Completes i s fun t => v.Wrote t x.d (-2) 0) ∧
    (need ≠ 0 → need < 2 ^ 32 → force = false → busy → Completes i s fun t => v.Wrote t x.d (-1) 0) ∧
    (need ≠ 0 → need < 2 ^ 32 → force = true ∨ ¬busy → Completes i s fun t =>
      let g := (v.oGen o + 1) % 2 ^ 32
      v.SyncDone t x.d (BitVec.ofNat 64 g) ∧ t.me.holds = v.me.holds ∧ v.SameBytesBut t o 64 ∧ t.oKind o = 2 ∧ t.oGen o = g ∧
      t.oNeed o = need ∧ t.oHave o = 0 ∧ t.oPois o = false ∧ t.oForced o = true ∧ t.oPend o = v.oPend o ∧
      ∀ b ∈ v.bands, ∀ y, b.waiting = some (.await o (v.oGen o) y none) →
        { b with waiting := some (.await o (v.oGen o) y (some 1)) } ∈ t.bands)) ∧
  (∀ (s u v : State) (x : EAD) (o : Nat), s.settled = .ok u → u.ObjectAt x.a isLock o v →
    let arrived := (v.oHave o + 1) % 2 ^ 32
    Completes (.arrive .stream x) s fun t =>
      v.SyncDone t x.d (BitVec.ofNat 64 (v.oGen o)) ∧ t.me.holds = v.me.holds ∧ v.SameBytesBut t o 64 ∧ t.oPend o = v.oPend o ∧
      (v.oPois o = true → t.oStray o = (v.oStray o + 1) % 2 ^ 32 ∧ t.oGen o = v.oGen o ∧ t.oHave o = v.oHave o) ∧
      (v.oPois o = false → t.oStray o = v.oStray o ∧
        (arrived = v.oNeed o → t.oGen o = (v.oGen o + 1) % 2 ^ 32 ∧ t.oHave o = 0 ∧ t.oForced o = false ∧
          ∀ b ∈ v.bands, ∀ y, b.waiting = some (.await o (v.oGen o) y none) →
            { b with waiting := some (.await o (v.oGen o) y (some 0)) } ∈ t.bands) ∧
        (arrived ≠ v.oNeed o → t.oGen o = v.oGen o ∧ t.oHave o = arrived ∧ t.oForced o = v.oForced o))) ∧
  (∀ (s u v : State) (x : EAD) (o : Nat), s.settled = .ok u → u.ObjectAt x.a isLock o v →
    let p := v.setField o 36 4 ((v.oPend o + 1) % 2 ^ 32)
    (Completes (.arrive .run x) s fun t => t = (p.queueCmd (p.arrivalCmd o (v.oGen o))).finish x.d (BitVec.ofNat 64 (v.oGen o))) ∧
    (Completes (.arrive .trl x) s fun t => t = (p.queueT (p.arrivalT o (v.oGen o))).finish x.d (BitVec.ofNat 64 (v.oGen o))) ∧
    p.oPend o = (v.oPend o + 1) % 2 ^ 32 ∧ v.SameBytesBut p o 64 ∧
    (v.holdBack = true → v.me.trl.queue.length < 16 → Completes (.arrive .trl x) s fun t =>
      ∃ c, t.me.trl.queue = v.me.trl.queue ++ [c] ∧ c.arrival = some (o, v.oGen o))) ∧
  (∀ (s u v : State) (x : EABD) (o : Nat), s.settled = .ok u →
    let g := (u.reg x.b).toNat % 2 ^ 32
    (u.ObjectAt x.a isLock o v → ∀ r, v.awaited o g = some r → Completes (.await x) s fun t => v.afresh.Wrote t x.d r 0) ∧
    (u.ObjectAt x.a isLock o v → v.awaited o g = none →
      (v.oPois o = true → Completes (.await x) s fun t => v.afresh.Wrote t x.d 2 0) ∧
      (v.oPois o = false → v.oGen o ≠ g → v.oGen o = (g + 1) % 2 ^ 32 →
        Completes (.await x) s fun t => v.afresh.Wrote t x.d (if v.oForced o = true then 1 else 0) 0) ∧
      (v.oPois o = false → v.oGen o ≠ g → v.oGen o ≠ (g + 1) % 2 ^ 32 →
        Completes (.await x) s fun t => v.afresh.Wrote t x.d 3 0) ∧
      (v.oPois o = false → v.oGen o = g → Completes (.await x) s fun t => v.Waits t (.await o g x none))) ∧
    (u.ObjectAt x.a (fun _ => false) o v →
      let n := (u.reg x.b).toNat
      (∀ r, v.awaitedGe o n = some r → Completes (.awaitGe x) s fun t => v.afresh.Wrote t x.d r 0) ∧
      (v.awaitedGe o n = none →
        (v.oPois o = true → Completes (.awaitGe x) s fun t => v.afresh.Wrote t x.d (-1) 0) ∧
        (v.oPois o = false → n ≤ v.oProg o →
          Completes (.awaitGe x) s fun t => v.afresh.Wrote t x.d (BitVec.ofNat 64 (v.oProg o)) 0) ∧
        (v.oPois o = false → v.oProg o < n → Completes (.awaitGe x) s fun t => v.Waits t (.awaitGe o n x none))))) ∧
  (∀ (s : State) (o : Nat),
    let after := fun (t : State) (r : Nat → Option Word) => ∀ b ∈ s.bands, ∀ n y,
      b.waiting = some (.awaitGe o n y none) → ∃ c ∈ t.bands, c.id = b.id ∧ c.waiting = some (.awaitGe o n y (r n))
    after (s.latchGe o) (fun n => if n ≤ s.oProg o then some (BitVec.ofNat 64 (s.oProg o)) else none) ∧
    after (s.poisonObject o) (fun _ => some (-1)))

/-- R270, R271, R265: `FENCE` and `BAR` seal the strip and go on once every earlier store of the stream is performed at
its home, but for `FENCE.plot`, which waits for near accesses alone; after a `FENCE` the stream's loads fetch afresh;
`BAR` goes on after every command of the stream has completed. Each byte that a store of the stream has buffered or
sent then reads so.

R104, R218, R303, R307: sealing a strip and performing what has left puts every buffered byte at its home, and changes
nothing else. A commit does the same; one that notifies then adds its length to the count of `NTFA` and stores the
count in the object's progress word.

R279, R280: `SHADOW` of two frames, or of the 64 KiB pages of two writable leaves of tiers 0 and 1, opens a shadow and
answers 0. An address with no frame or leaf is −3; a frame with a page, or two whose shape, type or geometry differs
or that are kept, parked or withdrawn, −1; one that a shadow uses already −2; a 65th shadow −4 (the order is the
model's, notes/assumptions/47.md): nothing changes. `PUB` of an address in no shadow answers −1.

R280: `PUB` of a near shadow exchanges the storage and the expiry of its two frames, once every command of the context
has finished (`w`), closes the shadow, and answers 0.

R280, R120: `PUB` of a far shadow exchanges bits [51:20] of the two level-3 leaf entries that map its pages, in the
state `w` where every command of the context has finished, and drops what is cached of them; no other byte changes,
the shadow closes, and s(D) is 0. While a stopped stream has still a drain into the shadow to make, `PUB` waits
(R144). -/
def Obligations.FencesAndShadowsComplete : Prop :=
  (∀ (s u : State) (l : Bool), s.settled = .ok u →
    let v := u.sealStrip.performed
    v.me.strip.sealed = true ∧ v.me.wpkts = [] ∧ v.drained.me.runner = [] ∧
    (∀ sc, sc ≠ .plot → Completes (.fence l sc) s fun t => v.afresh.Wrote t State.noReg 0 0) ∧
    (Completes (.fence l .plot) s fun t => u.sealStrip.afresh.Wrote t State.noReg 0 0) ∧
    (Completes (.bar l) s fun t => v.drained.Wrote t State.noReg 0 0) ∧
    (u.MemOk → u.PairsOk → u.PacketsOk → u.me.strip.sealed = false ∨ u.me.strip.far = [] →
      (∀ sc, sc ≠ .plot → Completes (.fence l sc) s fun t =>
        (∀ k, u.Accepts k → t.byteAt k = u.seen k) ∧ ∀ k, ¬u.Accepts k → t.byteAt k = u.byteAt k) ∧
      (u.me.runner = [] → u.me.trl.queue = [] → Completes (.bar l) s fun t =>
        (∀ k, u.Accepts k → t.byteAt k = u.seen k) ∧ ∀ k, ¬u.Accepts k → t.byteAt k = u.byteAt k))) ∧
  (∀ u : State, u.MemOk → u.PairsOk → u.PacketsOk →
    (u.me.strip.sealed = false ∨ u.me.strip.far = [] →
      u.Performed u.sealStrip.performed ∧ u.sealStrip.performed.me.strip.sealed = true ∧
      (u.me.wpkts = [] → u.holdBack = false → u.Performed u.sealStrip)) ∧
    (let v := ({ u with me := { u.me with strip := { u.me.strip with ntf := none } } }).commitStrip.performed;
      u.Performed v ∧ (u.me.strip.ntf = none → u.commitStrip.performed = v) ∧
      ∀ obj n w, u.me.strip.ntf = some (obj, n) → v.translate .atomic true obj.toNat = .ok w → w.sync = true → v.Accepts w.key →
        let t := u.commitStrip
        let count := u.me.ntfCount + n
        t.me.ntfCount = count ∧ (∀ o < 8, t.byteAt (w.key + 16 + o) = BitVec.ofNat 8 (count / 2 ^ (8 * o))) ∧
        ∀ k, k < w.key + 16 ∨ w.key + 24 ≤ k → t.byteAt k = v.byteAt k)) ∧
  (∀ (s u : State) (x : EABD) (y : EAD) (c : Ctx), s.settled = .ok u →
    let v := u.sealStrip.performed
    v.myCtx = some c →
    let a := (u.reg x.a).toNat
    let b := (u.reg x.b).toNat
    let tells := fun r => Completes (.shadow x) s fun t => v.Wrote t x.d r 0
    let opens := fun h => Completes (.shadow x) s fun t =>
      v.SyncDone t x.d 0 ∧ t.me.holds = v.me.holds ∧ v.SameBytes t ∧ t.myCtx = some { c with shadows := c.shadows ++ [h] }
    let leaf := fun va => if 2 ^ 55 ≤ va ∨ isNearVa va = true then none else v.leafOf c va
    let absent := fun va => (isNearVa va = true → c.frame (slotOf va) = none) ∧ (isNearVa va = false → leaf va = none)
    let shadows := fun (near : Bool) (alike : Prop) (p q : Nat) =>
      let used := ∃ h ∈ c.shadows, h.near = near ∧ (h.v = p ∨ h.w = p ∨ h.v = q ∨ h.w = q)
      (¬alike → tells (-1)) ∧ (alike → used → tells (-2)) ∧ (alike → ¬used → 64 ≤ c.shadows.length → tells (-4)) ∧
      (alike → ¬used → c.shadows.length < 64 → opens ⟨near, p, q⟩)
    (absent a ∨ absent b → tells (-3)) ∧
    (¬absent a → ¬absent b → isNearVa a ≠ isNearVa b → tells (-1)) ∧
    (∀ f g, isNearVa a = true → isNearVa b = true → c.frame (slotOf a) = some f → c.frame (slotOf b) = some g →
      shadows true (f.size = g.size ∧ v.framePlots f = v.framePlots g ∧ f.ty = g.ty ∧ f.geom = g.geom ∧ f.keep = false ∧
        g.keep = false ∧ f.park = false ∧ g.park = false ∧ f.wd = false ∧ g.wd = false) f.slot g.slot) ∧
    (∀ l m, isNearVa a = false → isNearVa b = false → leaf a = some l → leaf b = some m →
      shadows false (l.level = 3 ∧ m.level = 3 ∧ pteW l.entry = true ∧ pteW m.entry = true ∧ pteTier l.entry < 2 ∧
        pteTier m.entry < 2 ∧ pteType l.entry = pteType m.entry ∧ pteGeom l.entry = pteGeom m.entry) (a / 65536) (b / 65536)) ∧
    (State.shadowAt c (u.reg y.a).toNat = none → Completes (.pub y) s fun t => v.Wrote t y.d (-1) 0)) ∧
  (∀ (s u : State) (y : EAD) (c c' : Ctx) (h : Shadow) (f g : Frame), s.settled = .ok u →
    let v := u.sealStrip.performed
    let w := v.drained.quiesce v.me.ctx
    v.myCtx = some c → State.shadowAt c (u.reg y.a).toNat = some h → h.near = true → h.v ≠ h.w → w.myCtx = some c' →
    c'.frame h.v = some f → c'.frame h.w = some g → (c'.frames.map Frame.slot).Nodup → w.drainStopped c'.id h = false →
    Completes (.pub y) s fun t => t.dcache = [] ∧
      (∀ r, t.reg r = w.regAfter y.d 0 r) ∧ t.me.pc = w.me.pc + 16 ∧ w.SameBytes t ∧
      ∃ d, t.myCtx = some d ∧ h ∉ d.shadows ∧ d.frame h.v = some { f with lb := g.lb, expiry := g.expiry } ∧
        d.frame h.w = some { g with lb := f.lb, expiry := f.expiry } ∧
        ∀ n, n ≠ h.v → n ≠ h.w → d.frame n = c'.frame n) ∧
  (∀ (s u : State) (y : EAD) (c c' : Ctx) (h : Shadow) (l m : Leaf), s.settled = .ok u →
    let v := u.sealStrip.performed
    let w := v.drained.quiesce v.me.ctx
    let x := ({ w with dcache := [] } : State).setCtx { c' with shadows := c'.shadows.filter fun z => !(z == h) }
    v.myCtx = some c → State.shadowAt c (u.reg y.a).toNat = some h → w.myCtx = some c' →
    (w.drainStopped c'.id h = true → Completes (.pub y) s fun t => w.Waits t .ending) ∧
    (w.drainStopped c'.id h = false → h.near = false → w.MemOk → w.PairsOk →
      x.walkFrom (h.v * 65536) 3 1 c'.ptRoot = some l → x.walkFrom (h.w * 65536) 3 1 c'.ptRoot = some m →
      l.level = 3 → m.level = 3 → l.at_ + 8 ≤ m.at_ ∨ m.at_ + 8 ≤ l.at_ →
      Completes (.pub y) s fun t =>
        let p := w.readNat l.at_ 8
        let q := w.readNat m.at_ 8
        let takes := fun e f : Nat => e % 2 ^ 20 + f / 2 ^ 20 % 2 ^ 32 * 2 ^ 20 + e / 2 ^ 52 * 2 ^ 52
        (∀ r, t.reg r = w.regAfter y.d 0 r) ∧ t.me.pc = w.me.pc + 16 ∧ t.me.seq = w.me.seq + 1 ∧
        t.readNat l.at_ 8 = takes p q ∧ t.readNat m.at_ 8 = takes q p ∧
        (∀ k, k < l.at_ ∨ l.at_ + 8 ≤ k → k < m.at_ ∨ m.at_ + 8 ≤ k → t.byteAt k = w.byteAt k) ∧
        (∀ e ∈ t.tlb, e ∈ w.tlb ∧ ¬(e.size = 65536 ∧ pteTier e.entry ≠ 2 ∧
          (ptePpn e.entry = p / 2 ^ 20 % 2 ^ 32 ∨ ptePpn e.entry = q / 2 ^ 20 % 2 ^ 32))) ∧
        t.dcache = [] ∧ ∃ d, t.myCtx = some d ∧ h ∉ d.shadows))

/-! ### Frames -/

/-- R155, R156, R148: `CALLOC` takes the lowest free slot and the lowest free local base, rounds the size up to whole rows
of stripe units, sets the expiry from the requested life or the cap, and writes the frame's address; the new frame
reads as zeros once its zeroing is done, and every other byte and frame is as it was.

R148, R155: the frame that `CALLOC` makes: whole rows of stripe units, at least what was asked for, and less than a
row more; a life of s(C) cycles, or of the cap where s(C) is 0 or beyond it.

R155: the statuses of `CALLOC`, in this order: −4 for a plot set or a size that it may not take, −1 with no free slot,
−2 with no free range, −3 where the `KEEP` budget of a layer is spent. Nothing is allocated. -/
def Obligations.AllocationGivesFrames : Prop :=
  (∀ (s u : State) (x : CallocF) (c : Ctx) (isRun : Bool) (st k slot lb : Nat), s.settled = .ok u → u.PairsOk →
    let v := u.sealStrip.pruneLeaving
    let f := v.callocFrame x isRun st k slot lb
    let want := (u.reg x.a).toNat
    v.myCtx = some c → (∀ g ∈ c.frames, g.zeroing = false) → v.callocSet (x.run.map u.reg) = some (isRun, st, k) →
    0 < want → want ≤ 2 ^ 32 → u.holdBack = false →
    slot < 256 → (∀ g ∈ c.frames ++ c.leaving, g.slot ≠ slot) → (∀ n < slot, ∃ g ∈ c.frames ++ c.leaving, g.slot = n) →
    lb < 2 ^ 18 → lb % frameUnit x.geom = 0 → (∀ p ∈ v.framePlots f, v.rangeFree p lb (v.frameShare f) = true) →
    (∀ b < lb, b % frameUnit x.geom = 0 → ∃ p ∈ v.framePlots f, v.rangeFree p b (v.frameShare f) = false) →
    (x.keep = true → v.keepFits (v.framePlots f) lb (v.frameShare f) = true) →
    Completes (.calloc x) s fun t =>
      (∀ r, t.reg r = u.regAfter x.d (BitVec.ofNat 64 (0x007FFF0000000000 + slot * 2 ^ 32)) r) ∧
      t.me.pc = u.me.pc + 16 ∧ t.me.seq = u.me.seq + 1 ∧ t.me.strip.sealed = true ∧
      t.myCtx = some { c with frames := c.frames ++ [f] } ∧
      (∀ key, v.frameHas f key = true → t.byteAt key = 0) ∧ (∀ key, v.frameHas f key = false → t.byteAt key = v.byteAt key)) ∧
  (∀ (v : State) (x : CallocF) (isRun : Bool) (st k slot lb : Nat),
    let f := v.callocFrame x isRun st k slot lb
    let row := (if x.geom.isSome = true then 256 else 128) * v.frameCount f
    let cap := (v.retn.toNat * 1000 + 768) / 769
    let ask := (v.reg x.c).toNat
    (0 < v.frameCount f → f.size % row = 0 ∧ (v.reg x.a).toNat ≤ f.size ∧ f.size < (v.reg x.a).toNat + row) ∧
    (0 < ask → ask ≤ cap → f.expiry = v.now + ask) ∧ (ask = 0 ∨ cap < ask → f.expiry = v.now + cap) ∧
    f.keep = x.keep ∧ f.park = false ∧ f.wd = false ∧ f.tv = false ∧ f.geom = x.geom ∧ f.ty = x.ty ∧ f.lb = lb) ∧
  (∀ (s u : State) (x : CallocF) (c : Ctx), s.settled = .ok u → u.holdBack = false →
    let v := u.sealStrip.pruneLeaving
    let want := (u.reg x.a).toNat
    let taken := fun n => ∃ g ∈ c.frames ++ c.leaving, g.slot = n
    let tells := fun k => Completes (.calloc x) s fun t => v.Wrote t x.d k 0
    v.myCtx = some c → (∀ g ∈ c.frames, g.zeroing = false) →
    (v.callocSet (x.run.map u.reg) = none ∨ want = 0 ∨ 2 ^ 32 < want → tells (-4)) ∧
    (∀ isRun st k, v.callocSet (x.run.map u.reg) = some (isRun, st, k) → 0 < want → want ≤ 2 ^ 32 →
      ((∀ n < 256, taken n) → tells (-1)) ∧
      (∀ slot lb, slot < 256 → ¬taken slot →
        let f := v.callocFrame x isRun st k slot lb
        ((∀ b, b < 2 ^ 18 → b % frameUnit x.geom = 0 → ∃ p ∈ v.framePlots f, v.rangeFree p b (v.frameShare f) = false) →
          tells (-2)) ∧
        (v.freeBase (v.framePlots f) (frameUnit x.geom) (v.frameShare f) = some lb → x.keep = true →
          v.keepFits (v.framePlots f) lb (v.frameShare f) = false → tells (-3)))))

/-- R157: `CFREE` of an unallocated slot answers −1; otherwise every later probe finds the slot empty, and s(D) is 0.

R159, R158: `CRENEW`. No frame is `NEARRANGE` before issue; a withdrawn, unpowered, parked or (without `.lost`) late
frame is a data fault, in this order; otherwise the frame lives on from now, a late one zeroed and answered 1, any
other answered 0. A `KEEP` frame's life never shortens.

R163, R162: `CKEEP` answers −3 for no frame, −2 for a withdrawn, parked or late one, −1 where the budget is spent, and
0 where `KEEP` now stands as s(B)[0] asks. That −2 comes before −1 where both hold is the model's choice
(notes/assumptions/95.md). -/
def Obligations.FramesAreFreedAndRenewed : Prop :=
  (∀ (s u : State) (x : EAD) (c : Ctx), s.settled = .ok u →
    let v := u.sealStrip
    v.myCtx = some c →
    (v.namedFrame (u.reg x.a) = none → Completes (.cfree x) s fun t => v.Wrote t x.d (-1) 0) ∧
    (∀ f, v.namedFrame (u.reg x.a) = some f →
      let g := v.setCtx { c with frames := c.frames.filter fun g => g.slot != f.slot, leaving := c.leaving ++ [f] }
      (g.myCtx.bind fun d => d.frame f.slot) = none ∧
      (∀ n, n ≠ f.slot → (g.myCtx.bind fun d => d.frame n) = c.frame n) ∧
      Completes (.cfree x) s fun t => t = (g.drained.quiesce g.me.ctx).pruneLeaving.finish x.d 0)) ∧
  (∀ (s u : State) (lost : Bool) (x : EABD), s.settled = .ok u →
    let i := Instr.crenew lost x
    let v := u.sealStrip
    (u.CanTrap → u.namedFrame (u.reg x.a) = none →
      Completes i s fun t => u.Denied t (preFault cNEARRANGE (u.reg x.a).toNat 0 opNone)) ∧
    (∀ f, u.namedFrame (u.reg x.a) = some f →
      let late := v.lifeLeft f < 4096
      let fault := fun c => u.CanTrap → Completes i s fun t => v.StoppedAt t (dataFaultRec c (slotBase f.slot) 0 opNone 0x1FFF)
      (f.wd = true → fault cWITHDRAWN) ∧ (f.wd = false → v.frameOff f = true → fault cLAYEROFF) ∧
      (f.wd = false → v.frameOff f = false → f.park = true ∨ (late ∧ lost = false) → fault cSTALE) ∧
      (f.wd = false → v.frameOff f = false → f.park = false → (late → lost = true) →
        let life := v.now + v.lifeOf (u.reg x.b)
        Completes i s fun t =>
          (∀ r, t.reg r = u.regAfter x.d (if late then 1 else 0) r) ∧ t.me.pc = u.me.pc + 16 ∧ t.me.seq = u.me.seq + 1 ∧
          (t.myCtx.bind fun c => c.frame f.slot) = some { f with expiry := if f.keep = true then max f.expiry life else life } ∧
          (∀ n, n ≠ f.slot → (t.myCtx.bind fun c => c.frame n) = v.myCtx.bind fun c => c.frame n) ∧
          (u.PairsOk → (¬late → v.SameBytes t) ∧ (late → (∀ k, v.frameHas f k = true → t.byteAt k = 0) ∧
            ∀ k, v.frameHas f k = false → t.byteAt k = v.byteAt k))))) ∧
  (∀ (s u : State) (x : EABD), s.settled = .ok u →
    let i := Instr.ckeep x
    let v := u.sealStrip
    (v.namedFrame (u.reg x.a) = none → Completes i s fun t => v.Wrote t x.d (-3) 0) ∧
    (∀ f, v.namedFrame (u.reg x.a) = some f →
      let bad := f.wd = true ∨ f.park = true ∨ f.expiry - v.now < 4096
      let sets := fun k => Completes i s fun t =>
        (∀ r, t.reg r = u.regAfter x.d 0 r) ∧ t.me.pc = u.me.pc + 16 ∧ v.SameBytes t ∧
        (t.myCtx.bind fun c => c.frame f.slot) = some { f with keep := k } ∧
        ∀ n, n ≠ f.slot → (t.myCtx.bind fun c => c.frame n) = v.myCtx.bind fun c => c.frame n
      (bad → Completes i s fun t => v.Wrote t x.d (-2) 0) ∧
      (¬bad → (u.reg x.b).getLsbD 0 = false → sets false) ∧
      (¬bad → (u.reg x.b).getLsbD 0 = true →
        (f.keep = true ∨ v.keepFits (v.framePlots f) f.lb (v.frameShare f) = true → sets true) ∧
        (f.keep = false → v.keepFits (v.framePlots f) f.lb (v.frameShare f) = false →
          Completes i s fun t => v.Wrote t x.d (-1) 0))))

/-- R160: `CAGE` gives the remaining life of the frame, 0 once it has expired, or −1, −2, −3 for no frame, a withdrawn and
a parked one. -/
def Obligations.CageGivesLife : Prop :=
  ∀ (s u : State) (x : EAD), s.settled = .ok u →
    (u.namedFrame (u.reg x.a) = none → Completes (.cage x) s fun t => u.Wrote t x.d (-1) 0) ∧
    ∀ f, u.namedFrame (u.reg x.a) = some f →
      (f.wd = true → Completes (.cage x) s fun t => u.Wrote t x.d (-2) 0) ∧
      (f.wd = false → f.park = true → Completes (.cage x) s fun t => u.Wrote t x.d (-3) 0) ∧
      (f.wd = false → f.park = false → u.now < f.expiry →
        Completes (.cage x) s fun t => u.Wrote t x.d (BitVec.ofNat 64 (f.expiry - u.now)) 0) ∧
      (f.wd = false → f.park = false → f.expiry ≤ u.now → Completes (.cage x) s fun t => u.Wrote t x.d 0 0)

/-- R190, R6, R152: `OWN` gives the device plot that owns an address, its local offset, whether it is near and the plot's
position in the span (0xFFFF outside it), or −1 for an address that no frame or page can hold.

R164: `CLOOK` gives the lowest slot with the tag, or −1; `CTAG` sets or clears a tag, or is `NEARRANGE`. -/
def Obligations.OwnersAndTagsAnswer : Prop :=
  (∀ (s u : State) (x : S2), s.settled = .ok u →
    let va := (u.reg x.a).toNat
    let word := fun (p loc : Nat) (near : Bool) => BitVec.ofNat 64
      (p % 2 ^ 13 + 2 ^ 13 * (loc % 2 ^ 18) + 2 ^ 31 * bitOf near + 2 ^ 32 * ((bedsPos u.me.beds p).getD 0xFFFF % 2 ^ 16))
    (2 ^ 55 ≤ va → Completes (.own x) s fun t => u.Wrote t x.d (-1) 0) ∧
    (va < 2 ^ 55 → va / 2 ^ 40 ≠ 0x7FFF → Completes (.own x) s fun t => u.Wrote t x.d (word (farOwner u.me.beds va) 0 false) 0) ∧
    (va / 2 ^ 40 = 0x7FFF → u.myFrame (va / 2 ^ 32 % 256) = none → Completes (.own x) s fun t => u.Wrote t x.d (-1) 0) ∧
    (∀ f, va / 2 ^ 40 = 0x7FFF → u.myFrame (va / 2 ^ 32 % 256) = some f →
      (f.size ≤ va % 2 ^ 32 → Completes (.own x) s fun t => u.Wrote t x.d (-1) 0) ∧
      (va % 2 ^ 32 < f.size → Completes (.own x) s fun t => u.Wrote t x.d
        (word (u.frameAt f (va % 2 ^ 32)).1 (u.frameAt f (va % 2 ^ 32)).2 true) 0))) ∧
  (∀ (s u : State) (x : EAD) (y : CtagF) (c : Ctx), s.settled = .ok u → u.myCtx = some c →
    let hit := fun (n : Nat) => ∃ f, c.frame n = some f ∧ f.tv = true ∧ f.fartag = u.reg x.a ∧ f.wd = false ∧
      f.park = false ∧ u.now < f.expiry
    ((∀ n, n < 256 → hit n → (∀ m < n, ¬hit m) → Completes (.clook x) s fun t => u.Wrote t x.d (BitVec.ofNat 64 n) 0) ∧
      ((∀ n < 256, ¬hit n) → Completes (.clook x) s fun t => u.Wrote t x.d (-1) 0)) ∧
    (u.CanTrap → u.namedFrame (u.reg y.a) = none →
      Completes (.ctag y) s fun t => u.Denied t (preFault cNEARRANGE (u.reg y.a).toNat 0 opNone)) ∧
    (∀ f, u.namedFrame (u.reg y.a) = some f → Completes (.ctag y) s fun t =>
      (∀ r, t.reg r = u.reg r) ∧ t.me.pc = u.me.pc + 16 ∧ t.me.seq = u.me.seq + 1 ∧ t.me.strip.sealed = true ∧
      (t.myCtx.bind fun c => c.frame f.slot) = some (match y.tag with
        | some b => { f with fartag := u.reg b, tv := true }
        | none => { f with tv := false }) ∧
      u.sealStrip.SameBytes t))

/-- R167, R170: `LGATE` and `VBRET` in supervisor mode. `LGATE` answers −3 for reserved bits, −2 where the rail is already
as asked, −1 where an unparked frame lies on the layer, and else 0 with the rail switched; `VBRET` −3, −2 for a
section that is a hole, −1 where a frame lies on it, and else 0 where its retirement was pending or 1 where it was
not, with the section a hole (the order of the results is the model's, notes/assumptions/25.md). -/
def Obligations.LayerFormsGateAndRetire : Prop :=
  ∀ (s u : State) (x : EAD), s.settled = .ok u → s.me.supv = true →
    let v := u.sealStrip
    let n := (u.reg x.a).toNat
    let g := n / 4 % 4
    let l := n % 4
    let gate := n / 256 % 2 = 1
    let stray := n ≠ 4 * g + l + 256 * (n / 256 % 2)
    let on := v.rails.getLsbD (g * 4 + l) = true
    let used := v.sharesIn (fun p => p / 2048 == g) (l * 65536) ((l + 1) * 65536) = true
    let p := n % 2 ^ 13
    let lay := n / 2 ^ 16 % 4
    let sec := n / 2 ^ 18 % 4
    let bus := p * 16 + lay * 4 + sec
    let usedBus := v.sharesIn (fun r => r == p) (lay * 65536 + sec * 16384) (lay * 65536 + (sec + 1) * 16384) = true
    (stray → Completes (.lgate x) s fun t => v.Wrote t x.d (-3) 0) ∧
    (¬stray → ¬(on ↔ gate) → Completes (.lgate x) s fun t => v.Wrote t x.d (-2) 0) ∧
    (¬stray → on → gate → used → Completes (.lgate x) s fun t => v.Wrote t x.d (-1) 0) ∧
    (¬stray → on → gate → ¬used → Completes (.lgate x) s fun t =>
      (∀ r, t.reg r = u.regAfter x.d 0 r) ∧ t.rails = v.rails &&& ~~~(1#24 <<< (g * 4 + l)) ∧ v.SameBytes t ∧ t.ctxs = v.ctxs) ∧
    (¬stray → ¬on → ¬gate → Completes (.lgate x) s fun t =>
      (∀ r, t.reg r = u.regAfter x.d 0 r) ∧ t.rails = v.rails ||| (1#24 <<< (g * 4 + l))) ∧
    (n ≠ p + lay * 2 ^ 16 + sec * 2 ^ 18 → Completes (.vbret x) s fun t => v.Wrote t x.d (-3) 0) ∧
    (n = p + lay * 2 ^ 16 + sec * 2 ^ 18 →
      (bus ∈ v.holes → Completes (.vbret x) s fun t => v.Wrote t x.d (-2) 0) ∧
      (bus ∉ v.holes → usedBus → Completes (.vbret x) s fun t => v.Wrote t x.d (-1) 0) ∧
      (bus ∉ v.holes → ¬usedBus → Completes (.vbret x) s fun t =>
        (∀ r, t.reg r = u.regAfter x.d (if bus ∈ v.retiring then 0 else 1) r) ∧ (∀ b, b ∈ t.holes ↔ b ∈ v.holes ∨ b = bus) ∧
        (∀ b, b ∈ t.retiring ↔ b ∈ v.retiring ∧ b ≠ bus) ∧ v.SameBytes t ∧ t.ctxs = v.ctxs))

/-! ### Trellis, Runner, graph and pages -/

/-- R233 to R235, R243: `TATT` attaches with the largest multiple of 32 rows that is asked for and free (−1 when already
attached, 0 when none is free), as after `TZERO.d 0`; `TDET` leaves after every command; `TCLAIM` takes the lowest
slot that no stream claims; `TSTAT` gives the failure that awaits it, once, after every command.

R242, R128: a queued Trellis form that its probe accepts seals the strip and joins the queue with its registers and
settings captured; no scalar register, mask or flag changes while the command waits. Performed at once, it takes its
turn after the commands before it. -/
def Obligations.TrellisFormsQueue : Prop :=
  (∀ (s u : State) (l : Bool) (x : EAD) (y : ED), s.settled = .ok u →
    let want := min (u.reg x.a).toNat 128
    let w := u.drainToTrel
    let z := u.drainTrellis
    (u.me.trl.att = true → Completes (.tatt x) s fun t => u.Wrote t x.d (-1) 0) ∧
    (u.me.trl.att = false → (∀ g ∈ [32, 64, 96, 128], g ≤ want → u.rowBase g = none) →
      Completes (.tatt x) s fun t => u.Wrote t x.d 0 0) ∧
    (∀ g b, u.me.trl.att = false → g ∈ [32, 64, 96, 128] → g ≤ want → u.rowBase g = some b →
      (∀ h ∈ [32, 64, 96, 128], g < h → h ≤ want → u.rowBase h = none) → Completes (.tatt x) s fun t =>
        (∀ r, t.reg r = u.regAfter x.d (BitVec.ofNat 64 g) r) ∧ t.me.trl.att = true ∧ t.me.trl.rows = g ∧ t.me.trl.start = b ∧
        t.me.trl.modeB = false ∧ t.me.trl.pass = 0 ∧ t.me.trl.knext = 0 ∧ t.me.trl.slots = u.me.trl.slots ∧
        t.me.trl.beds = u.me.beds.map (fun _ => TBed.zeroed g 0 true) ∧ t.me.pc = u.me.pc + 16 ∧ u.SameOutside t ∧ u.SameBytes t) ∧
    (u.me.trl.att = true → Completes (.tdet l) s fun t =>
      t = u.drainTrellis.onward { u.drainTrellis.me with trl := Trl.empty }) ∧
    (u.me.trl.att = false → Completes (.tdet l) s fun t => u.Wrote t State.noReg 0 0) ∧
    (w.freeSlot = none → Completes (.tclaim y) s fun t => w.Wrote t y.d (-1) 0) ∧
    (∀ n, w.freeSlot = some n → Completes (.tclaim y) s fun t =>
      (∀ r, t.reg r = w.regAfter y.d (BitVec.ofNat 64 n) r) ∧ t.me.pc = w.me.pc + 16 ∧ w.SameOutside t ∧ w.SameBytes t ∧
      t.me.trl.slots = w.me.trl.slots.set n { TSlot.empty with claimed := true } ∧ t.me.trl.queue = w.me.trl.queue) ∧
    (Completes (.tstat y) s fun t =>
      (∀ r, t.reg r = z.regAfter y.d (z.me.trl.failed.getD 0) r) ∧ t.me.trl.failed = none ∧ t.me.trl.beds = z.me.trl.beds ∧
      t.me.pc = z.me.pc + 16 ∧ t.me.seq = z.me.seq + 1 ∧ z.SameOutside t ∧ z.SameBytes t)) ∧
  (∀ s u : State, s.settled = .ok u →
    let queues := fun (i : Instr) (r : State × Except FaultRec TCmd) (vals : List Word) => ∀ c, r.2 = .ok c →
      Completes i s fun t =>
        t = (r.1.sealStrip.performed.queueT c).retire ∧ c.instr = some i ∧ c.seq = u.me.seq ∧ c.rm = u.rmNow ∧
        c.sat = u.satNow ∧ c.seed = u.seedNow ∧ c.vals.toList = vals ∧
        (u.holdBack = true → u.me.trl.queue.length < 16 →
          t.me.trl.queue = u.me.trl.queue ++ [c] ∧ (∀ q, t.reg q = u.reg q) ∧ t.me.masks = u.me.masks ∧ t.me.fpsr = u.me.fpsr ∧
          t.me.pc = u.me.pc + 16 ∧ t.me.seq = u.me.seq + 1 ∧ t.me.strip.sealed = true ∧ t.me.trl.beds = u.me.trl.beds)
    (∀ x, queues (.trel x) (u, .ok (u.tcmd (.trel x) (u.reg x.a) 0 0 0)) [u.reg x.a, 0, 0, 0]) ∧
    (∀ x, queues (.tlda x) (u.planLoad (.tlda x) false (u.reg x.a) (u.reg x.b) (u.reg x.c))
      [u.reg x.a, u.reg x.b, u.reg x.c, 0]) ∧
    (∀ x, queues (.tldb x) (u.planLoad (.tldb x) true (u.reg x.a) (u.reg x.b) (u.reg x.c))
      [u.reg x.a, u.reg x.b, u.reg x.c, 0]) ∧
    (∀ x, queues (.tzero x) (u.setTrl { u.me.trl with nextB := (x.set.map Prod.fst).getD true }, .ok (u.tcmd (.tzero x) 0 0 0 0))
      [0, 0, 0, 0]) ∧
    (∀ x, queues (.tstep x) (u.planStep (.tstep x) (u.reg x.a) (u.reg x.b) (u.reg x.c)) [u.reg x.a, u.reg x.b, u.reg x.c, 0]) ∧
    (∀ x, queues (.tdrain x) (u.planDrain (.tdrain x) (u.reg x.a) (u.reg x.b) (u.reg x.c) (u.reg x.d))
      [u.reg x.a, u.reg x.b, u.reg x.c, u.reg x.d]) ∧
    (∀ x, queues (.tsave x) (u.planImage (.tsave x) (u.reg x.a) true) [u.reg x.a, 0, 0, 0]) ∧
    (∀ x, queues (.trest x) (u.planImage (.trest x) (u.reg x.a) false) [u.reg x.a, 0, 0, 0]))

/-- R134, R135, R143, R165, R166: a Runner form that its probe accepts seals the strip and joins the stream's queue; while
it waits there, no register but the pc has changed and no byte of memory that the seal did not perform. `RQWAIT`
completes once every command has, and gives the word of the latest one. -/
def Obligations.RunnerFormsQueue : Prop :=
  ∀ s u : State, s.settled = .ok u →
    let v := u.sealStrip.performed
    let queues := fun (i : Instr) (c : RCmd) => Completes i s fun t =>
      t = (v.queueCmd c).retire ∧
      (u.holdBack = true → u.me.runner.length < 32 →
        t.me.runner = u.me.runner ++ [if c.chn = true then State.chained c u.me.rpred else c] ∧ t.me.rlast.1 = (if c.arrival.isSome = true then u.me.rlast.1 else c.id) ∧
        (∀ q, t.reg q = u.reg q) ∧ t.me.pc = u.me.pc + 16 ∧ t.me.seq = u.me.seq + 1 ∧ t.me.fpsr = u.me.fpsr ∧ v.SameBytes t)
    (∀ x c, u.probeRunner (State.runReq .copy x 1 u) = .ok c → queues (.rcopy x) c) ∧
    (∀ x c, u.probeRunner (State.runReq .fill x 1 u) = .ok c → queues (.rfill x) c) ∧
    (∀ x c, u.probeRunner (State.runReq .gather x.run (2 ^ x.w.val) u) = .ok c → queues (.rgath x) c) ∧
    (∀ x c, u.probeRunner (State.runReq .scatter x.run (2 ^ x.w.val) u) = .ok c → queues (.rscat x) c) ∧
    (∀ x r c, State.parkReq .park x u = .ok r → u.probeRunner r = .ok c → queues (.rpark x) c) ∧
    (∀ x r c, State.parkReq .unpark x u = .ok r → u.probeRunner r = .ok c → queues (.runpark x) c) ∧
    (∀ x : ED, Completes (.rqwait x) s fun t => u.drainRunner.Wrote t x.d u.drainRunner.me.rlast.2 0) ∧
    (∀ c : RCmd,
      let w := (State.completionWord c).toNat
      w % 2 ^ 24 = min c.faultAt (2 ^ 24 - 1) ∧ w / 2 ^ 24 % 16 = c.stat % 16 ∧ w / 2 ^ 28 % 2 = bitOf c.pois ∧
      w / 2 ^ 29 % 2 = bitOf (c.cmp && c.stat == 0 && State.valueOfCmd c == c.expect) ∧
      w / 2 ^ 30 % 2 = bitOf (c.cmp && c.stat == 0) ∧ w / 2 ^ 31 % 2 = 1 ∧ w / 2 ^ 32 = (State.valueOfCmd c).toNat)

/-- R328, R325: `GARM` answers −2 for a count of 2^31 or more, −1 for a node that is ready or running, −3 for one that
breaks R322, and else arms it with the count; `GREL` takes one from the count and gives what is left, sign-extended. A
count that reaches 0 in an armed node makes it ready. -/
def Obligations.GraphFormsArmAndRelease : Prop :=
  ∀ (s u v : State) (x : EABD) (y : EAD) (o : Nat), s.settled = .ok u →
    (u.NodeAt x.a o v →
      let n := (v.reg x.b).toNat
      let st := v.readNat (o + 48) 1
      (2 ^ 31 ≤ n → Completes (.garm x) s fun t => v.Wrote t x.d (-2) 0) ∧
      (n < 2 ^ 31 → st = 2 ∨ st = 3 → Completes (.garm x) s fun t => v.Wrote t x.d (-1) 0) ∧
      (n < 2 ^ 31 → st ≠ 2 → st ≠ 3 → v.nodeOk o = false → Completes (.garm x) s fun t => v.Wrote t x.d (-3) 0) ∧
      (n < 2 ^ 31 → st ≠ 2 → st ≠ 3 → v.nodeOk o = true → Completes (.garm x) s fun t =>
        t = (((v.writeNat o 4 n).writeNat (o + 48) 1 1).predAtomic o (v.reg x.a).toNat).finish x.d 0 ∧
        (n ≠ 0 → (∀ r, t.reg r = v.regAfter x.d 0 r) ∧ t.readNat o 4 = n ∧ t.readNat (o + 48) 1 = 1 ∧
          v.SameBytesBut t o 64 ∧ t.ready = v.ready))) ∧
    (u.NodeAt y.a o v →
      let new := (v.readNat o 4 + (2 ^ 32 - 1)) % 2 ^ 32
      Completes (.grel y) s fun t =>
        t = ((v.writeNat o 4 new).predAtomic o (v.reg y.a).toNat).finish y.d ((BitVec.ofNat 32 new).signExtend 64) ∧
        (new ≠ 0 → (∀ r, t.reg r = v.regAfter y.d ((BitVec.ofNat 32 new).signExtend 64) r) ∧ t.readNat o 4 = new ∧
          v.SameBytesBut t o 4 ∧ t.ready = v.ready))

/-- R118 to R122, R127: `PSWAP` opens a pair of two pages that are in none, in the lowest free slot, and answers −2, −3, −4
or −1 in the order of R120 where it opens none; `PSWQ.pair` and `PSWQ` report a pair, MOVING or in FLIP; `TLBI` drops
the translations that each of its forms names, and nothing where it names no context or no address; `RECF` drops the
context's snapshots of one record or of all. An entry that cannot be read is no leaf, which is the model's choice
(notes/assumptions/62.md), as is what a part caches and when it answers from it (notes/assumptions/90.md). -/
def Obligations.PageFormsComplete : Prop :=
  ∀ (s u : State) (x : EABD) (y : EAD) (l : Bool), s.settled = .ok u →
    let report := fun p : Pair =>
      BitVec.ofNat 64 (p.moved + 2 ^ 16 * p.q + (if p.moved = 256 then 2 ^ 62 else 0) + 2 ^ 63)
    (s.featSwap = true → s.me.supv = true →
      (let pc := (u.reg x.a).toNat
        let ph := (u.reg x.b).toNat
        let v := (u.entryReads pc).entryReads ph
        let bad := fun pa => pa % 8 ≠ 0 ∨ hbmEnd ≤ pa
        let leaf := fun tier pa => ∃ e, v.entryAt pa = some e ∧ v.leafOfTier tier pa e = true
        (bad pc → Completes (.pswap x) s fun t => v.Wrote t x.d (-2) 0) ∧
        (¬bad pc → bad ph → Completes (.pswap x) s fun t => v.Wrote t x.d (-3) 0) ∧
        (¬bad ph → ¬leaf 1 pc → Completes (.pswap x) s fun t => v.Wrote t x.d (-2) 0) ∧
        (leaf 1 pc → ¬leaf 0 ph → Completes (.pswap x) s fun t => v.Wrote t x.d (-3) 0)) ∧
      (∀ ec eh q, let pc := (u.reg x.a).toNat
        let ph := (u.reg x.b).toNat
        let v := (u.entryReads pc).entryReads ph
        v.entryAt pc = some ec → v.leafOfTier 1 pc ec = true → v.entryAt ph = some eh → v.leafOfTier 0 ph eh = true →
        let c := ptePpn ec
        let h := ptePpn eh
        ((∃ p ∈ u.pairs, p.c = c ∨ p.h = c ∨ p.c = h ∨ p.h = h) → Completes (.pswap x) s fun t => v.Wrote t x.d (-4) 0) ∧
        ((∀ p ∈ u.pairs, p.c ≠ c ∧ p.h ≠ c ∧ p.c ≠ h ∧ p.h ≠ h) → (∀ r < 64, ∃ p ∈ u.pairs, p.q = r) →
          Completes (.pswap x) s fun t => v.Wrote t x.d (-1) 0) ∧
        ((∀ p ∈ u.pairs, p.c ≠ c ∧ p.h ≠ c ∧ p.c ≠ h ∧ p.h ≠ h) → q < 64 → (∀ p ∈ u.pairs, p.q ≠ q) →
          (∀ r < q, ∃ p ∈ u.pairs, p.q = r) → Completes (.pswap x) s fun t =>
            (∀ r, t.reg r = u.regAfter x.d (BitVec.ofNat 64 q) r) ∧ t.me.pc = u.me.pc + 16 ∧ t.mem = v.mem ∧
            t.pairs = u.pairs ++ [⟨q, c, h, pc, ph, 0⟩])) ∧
      ((u.pairs.find? fun p => p.q == (u.reg y.a).toNat) = none → Completes (.pswq true y) s fun t => u.Wrote t y.d 0 0) ∧
      (∀ p, (u.pairs.find? fun p => p.q == (u.reg y.a).toNat) = some p → p.moved ≤ 256 → p.q < 64 →
        Completes (.pswq true y) s fun t => u.Wrote t y.d (report p) 0)) ∧
    (∀ w, s.featSwap = true → u.translate .read false (u.reg y.a).toNat = .ok w →
      let page := u.pairs.find? fun p => p.c == w.key / 65536 || p.h == w.key / 65536
      (w.near = true ∨ w.remote = true ∨ page = none →
        Completes (.pswq false y) s fun t => (u.fillTlb (u.reg y.a).toNat).Wrote t y.d 0 0) ∧
      (∀ p, w.near = false → w.remote = false → page = some p → p.moved ≤ 256 → p.q < 64 →
        Completes (.pswq false y) s fun t => (u.fillTlb (u.reg y.a).toNat).Wrote t y.d (report p) 0)) ∧
    (s.me.supv = true → ∀ k, Completes (.tlbi l k) s fun t => t = (u.tlbi k).retire ∧
      let known := fun a => (u.findCtx (u.reg a).toNat).isSome = true
      (k = .all → t.tlb = []) ∧
      (∀ a, k = .ctx a → (known a → ∀ e ∈ t.tlb, e.ctx ≠ (u.reg a).toNat) ∧ (¬known a → t = u.retire)) ∧
      (∀ a b, k = .page a b → let va := (u.reg b).toNat
        (known a → va < 2 ^ 55 → isNearVa va = false →
          ∀ e ∈ t.tlb, e.ctx = (u.reg a).toNat → va < e.base ∨ e.base + e.size ≤ va) ∧
        (¬known a ∨ 2 ^ 55 ≤ va ∨ isNearVa va = true → t = u.retire)) ∧
      (∀ a b c, k = .range a b c → let va := (u.reg b).toNat
        let n := (u.reg c).toNat
        (known a → va < 2 ^ 55 → n ≠ 0 → ∀ e ∈ t.tlb, e.ctx = (u.reg a).toNat →
          e.base + e.size ≤ va ∨ va + 65536 * n ≤ e.base ∨ 2 ^ 55 ≤ e.base) ∧
        (¬known a ∨ 2 ^ 55 ≤ va ∨ n = 0 → t = u.retire))) ∧
    (∀ a, Completes (.recf l a) s fun t =>
      (∀ r, t.reg r = u.reg r) ∧ t.me.pc = u.me.pc + 16 ∧ t.me.seq = u.me.seq + 1 ∧ u.SameBytes t ∧
      ∀ p, p ∈ t.me.recs ↔ p ∈ u.me.recs ∧ ∃ r, a = some r ∧ p.1 ≠ (u.reg r).toNat)

/-- R358 to R363: the supervisor forms in supervisor mode: their statuses, and what they do. `WDOG` arms or disarms the
timer of a queue and gives its state before; `KILL` ends a context; `CRES` puts a stopped stream in front of its
queue, and answers −2 where the record's magic, `CTXID` or `NB` disagrees with the entry. The order in which `PREEMPT`
judges its results is the model's (notes/assumptions/56.md); so are −1 of `KILL` for a context that was killed before
(notes/assumptions/52.md) and that `CRES` takes a stream which is queued already (notes/assumptions/57.md), both read
from the rules by inference. -/
def Obligations.SupervisorFormsComplete : Prop :=
  ∀ (s u : State) (x : S2) (y : SI2) (l out : Bool) (d : Reg) (b : Fin 64), s.settled = .ok u → s.me.supv = true →
    let n := (u.reg x.a).toNat
    let q := (u.reg y.a).toNat
    (u.streamOn b = none → Completes (.preempt l out d b) s fun t => u.Wrote t d (-1) 0) ∧
    (∀ z, u.streamOn b = some z → u.spsave z.spane = 0 → Completes (.preempt l out d b) s fun t => u.Wrote t d (-3) 0) ∧
    (∀ z, u.streamOn b = some z → u.spsave z.spane ≠ 0 → Completes (.preempt l out d b) s fun t =>
      t = (u.asBand b fun v => v.preemptMe out none).finish d 0) ∧
    (∀ r, u.parkTarget (u.reg x.a) = .error r →
      (Completes (.preemptPark x) s fun t => u.Wrote t x.d r 0) ∧ (Completes (.preemptRenew x) s fun t => u.Wrote t x.d r 0)) ∧
    (∀ c f, u.parkTarget (u.reg x.a) = .ok (c, f) →
      (Completes (.preemptPark x) s fun t => t = (u.parkCopy (u.reg x.a)).1.finish x.d (u.parkCopy (u.reg x.a)).2) ∧
      (Completes (.preemptRenew x) s fun t => (∀ r, t.reg r = u.regAfter x.d 0 r) ∧ t.me.pc = u.me.pc + 16)) ∧
    (255 < n ∨ (∀ z ∈ u.stopped, z.band.spane ≠ n) → Completes (.cres x) s fun t => u.Wrote t x.d (-1) 0) ∧
    (n ≤ 255 → (∃ z ∈ u.stopped, z.band.spane = n) →
      let r := u.arbourReads (u.spsave n) 16
      (r.arbourRead (u.spsave n) 4 ≠ some 0x31455250 ∨ r.arbourRead (u.spsave n + 4) 2 ≠ some (r.spanCtx n) ∨
        r.arbourRead (u.spsave n + 8) 1 ≠ some (r.spanNB n)) →
      Completes (.cres x) s fun t => r.Wrote t x.d (-2) 0) ∧
    (∀ z, n ≤ 255 → (u.stopped.find? fun z => z.band.spane == n) = some z →
      u.arbourRead (u.spsave n) 4 = some 0x31455250 → u.arbourRead (u.spsave n + 4) 2 = some (u.spanCtx n) →
      u.arbourRead (u.spsave n + 8) 1 = some (u.spanNB n) →
      (u.mayReside z.band.ctx = false → Completes (.cres x) s fun t => u.Wrote t x.d (-3) 0) ∧
      (u.mayReside z.band.ctx = true → Completes (.cres x) s fun t =>
        (∀ r, t.reg r = u.regAfter x.d 0 r) ∧ t.me.pc = u.me.pc + 16 ∧ (u.MemOk → u.SameBytes t) ∧
        { z with queued := some ⟨u.now, true, u.nextOrder⟩ } ∈ t.stopped)) ∧
    (2 ^ 16 ≤ n ∨ u.findCtx n = none ∨ (∃ c, u.findCtx n = some c ∧ c.killed = true) →
      Completes (.kill x) s fun t => u.Wrote t x.d (-1) 0) ∧
    (∀ c, n < 2 ^ 16 → u.findCtx n = some c → c.killed = false →
      (n = u.me.ctx → Completes (.kill x) s fun t => u.Wrote t x.d (-2) 0) ∧
      (n ≠ u.me.ctx → Completes (.kill x) s fun t => t = (u.killContext n none).finish x.d 0)) ∧
    (255 < q → Completes (.wdog y) s fun t => u.Wrote t y.d (-1) 0) ∧
    (q ≤ 255 → (∀ m ∈ u.nodes, m.copy.queue ≠ q) → y.imm ≠ 0 → Completes (.wdog y) s fun t => u.Wrote t y.d (-2) 0) ∧
    (q ≤ 255 → (∃ m ∈ u.nodes, m.copy.queue = q) ∨ y.imm = 0 → Completes (.wdog y) s fun t =>
      (∀ r, t.reg r = u.regAfter y.d (BitVec.ofNat 64 ((u.qstat q).toNat % 2 ^ 31)) r) ∧ t.me.pc = u.me.pc + 16 ∧
      assoc t.timers q = (if y.imm = 0 then none else some (u.now + State.usToCycles y.imm.toNat)) ∧
      (∀ p, p ≠ q → assoc t.timers p = assoc u.timers p) ∧ u.SameBytes t)

/-! ### Steps of plots, networks and engines -/

/-- R175, R176, R192, R351: the next destination group of a begun instruction at a plot, once the plot's turn is the
stream's (R340) and the order and the operands let it be performed (`groupReady`). Without a fault its elements leave
the job, the plot's progress index counts it, every other plot's elements stand, and memory and the job's flags and
mask bits are what `performElems` makes of the group. With a fault nothing of it is performed, and the fault of the
oldest instruction, at its lowest element, is the one that is noted. Scalar registers, masks and the pc stand.
`DATA_FAULT` is the step that only notes.

R340: a slot whose turn runs goes on while it has deficit left and can begin a group; else the next slot in the order
0 to 3 that can begin one takes its turn, with 256 beats for each unit of its weight added to its deficit. A performed
group charges its passes, and the turn ends with no deficit left, with no group that can begin, or with `CEDE` (R12).

R192, R196, R104, R306: when a broadcast word that gives memory elements has finished, each destination reads, to its
stream, as the result of its element over what stood in the sources when it began, and the flags of all results stand
in `FPSR`. The reductions, scans, compares, block and atomic forms have statements of their own.

R87, R174, R181, R185, R215: the horizon never falls; an instruction that is not finished stays, and with none in
flight every number before the next one is below the horizon. The oldest reduction combines the parts that its plots
have formed with its enabled sources in ascending index, and its result goes to s(D) alone; the oldest scan or vector
atomic finishes in this step too, and a data fault of any of them is noted. Where another slot can begin a group at
one of its plots it waits (R340). That it is performed whole, in the turns of its slot that no other slot contends for,
is the model's (notes/assumptions/88.md). -/
def Obligations.PlotsPerformGroups : Prop :=
  (∀ (s v : State) (b : Fin 64) (seq plot : Nat) (j : Job) (g : List Elem) (a : Arb), s.swapIn b = some v → v.me.status = .run →
    v.jobAt seq = some j → State.nextGroup j plot = some g → v.groupReady j g = true →
    (v.bandSlot v.me plot).bind (v.takeSlot plot) = some a →
    let stands := fun u : State => (∀ r, u.reg r = v.reg r) ∧ u.me.masks = v.me.masks ∧ u.me.pc = v.me.pc ∧
      u.me.seq = v.me.seq ∧ ∀ x, x.plot ≠ plot → (x ∈ u.arb ↔ x ∈ v.arb)
    let w := v.readGroup j g
    let src : State := { v with poison := w.poison }
    let made := src.performElems w j g
    let met := fun (i : Instr) => ∀ f, (v.performGroup v j g).2.2 = some f → Completes i s fun t => ∃ u, s.Back u t ∧ stands u ∧
      (v.MemOk → v.SameBytes u) ∧ (v.me.pending = none → u.me.pending = some (f, seq)) ∧
      ∀ p, v.me.pending = some p → u.me.pending =
        if seq < p.2 ∨ (seq = p.2 ∧ f.elem < p.1.elem) then some (f, seq) else some p
    ((v.performGroup v j g).2.2 = none → Completes (.elementGroupPerform b seq plot) s fun t => ∃ u, s.Back u t ∧ stands u ∧
      u.me.pending = v.me.pending ∧ ∃ k ∈ u.me.jobs, k.seq = seq ∧ (∀ e ∈ k.elems, e ∈ j.elems ∧ e ∉ g) ∧
        (∀ e ∈ j.elems, e.plot ≠ plot → e ∈ k.elems) ∧ assoc k.prog plot = some ((assoc j.prog plot).getD 0 + 1) ∧
        (State.groupMet src w j g = none → made.1.SameBytes u ∧ u.me.strip = made.1.me.strip ∧ u.me.wpkts = made.1.me.wpkts ∧
          k.flags = made.2.flags ∧ k.maskBits = made.2.maskBits ∧ k.saved = made.2.saved)) ∧
    met (.elementGroupPerform b seq plot) ∧ met (.dataFault b seq plot) ∧
    ((v.performGroup v j g).2.2 = none → Completes (.dataFault b seq plot) s fun t => s.Back v t)) ∧
  (∀ (v : State) (plot slot : Nat), slot < 4 →
    let a := v.arbAt plot
    (a.on = true → 0 < State.arbLeft a a.slot → v.slotReady plot a.slot = true →
      v.takeSlot plot slot = if a.slot = slot then some a else none) ∧
    (¬(a.on = true ∧ 0 < State.arbLeft a a.slot ∧ v.slotReady plot a.slot = true) →
      ∀ n < 4, (a.slot + 1 + n) % 4 = slot → v.slotReady plot slot = true →
        (∀ m < n, v.slotReady plot ((a.slot + 1 + m) % 4) = false) →
        ∃ x, v.takeSlot plot slot = some x ∧ x.plot = a.plot ∧ x.slot = slot ∧ x.on = true ∧
          State.arbLeft x slot = (if a.on = true ∧ a.slot = slot ∧ v.slotWorks a.plot slot = false then 0
            else State.arbLeft a slot) + 256 * (State.weightOf v.me : Int)) ∧
    (∀ (x : Arb) (j : Job) (n : Nat), x.plot = plot →
      let left := State.arbLeft x x.slot - n
      let y := (v.charge x j n).arbAt plot
      let ends := left ≤ 0 ∨ (j.cede = true ∧ ∀ e ∈ j.elems, e.plot ≠ plot) ∨ v.slotReady plot x.slot = false
      (¬ends → y.on = x.on ∧ State.arbLeft y x.slot = left) ∧
      (ends → y.on = false ∧ State.arbLeft y x.slot = if x.on = true ∧ v.slotWorks plot x.slot = false then 0 else left))) ∧
  (∀ (v t : State) (j : Job), v.MemOk → v.pairs = [] → v.PacketsOk → v.me.jobs = [j] → v.me.pending = none →
    (∀ c f, v.myCtx = some c → f ∈ c.frames → f.zeroing = false) →
    (∀ c, j.op ≠ .cmp c) → j.op ≠ .loc → (∀ n, j.op ≠ .bq n) → (∀ o, j.op ≠ .red o) → (∀ m, j.op ≠ .scan m) →
    State.isAtomicOp j.op = false → j.ff = none → j.landed = [] → j.saved = [] →
    (∀ e ∈ j.elems, ∃ l, e.d = some l ∧ l.bit = 0 ∧ l.keys ≠ [] ∧ 8 * l.keys.length = j.t1.width ∧
      ∀ k ∈ l.keys, isRemote k = false ∧ k / 64 = e.grp ∧ (isNear k = true → v.buffered k = none)) →
    (j.elems.flatMap fun e => (e.d.map Loc.keys).getD []).Nodup →
    (∀ p ∈ v.me.strip.far, p.seq < j.seq) →
    v.settled = .ok t →
    (∀ e ∈ j.elems, ∀ l, e.d = some l → ofBytesLE (l.keys.map t.seen) = (v.memResult j e).1 % 2 ^ j.t1.width) ∧
    t.me.fpsr = v.me.fpsr ||| j.elems.foldl (fun f e => f ||| (v.memResult j e).2) j.flags ∧ t.me.jobs = []) ∧
  (∀ (s v : State) (b : Fin 64), s.swapIn b = some v →
    (Completes (.horizonUpdate b) s fun t => ∃ u, s.Back u t ∧ v.me.horiz ≤ u.me.horiz ∧
      (∀ j ∈ u.me.jobs, j ∈ v.me.jobs) ∧
      (∀ j ∈ v.me.jobs, State.jobDone j = false → (∀ k ∈ v.me.jobs, k.seq = j.seq → k = j) → j ∈ u.me.jobs) ∧
      (u.me.jobs = [] → v.me.seq - 1 ≤ u.me.horiz) ∧ (∀ r, u.reg r = v.reg r) ∧ u.me.pc = v.me.pc) ∧
    (∀ j rest, v.me.jobs = j :: rest → State.wholeOp j.op = true → v.me.status = .run → v.me.pending = none →
      (v.contendedAt j.elems = true → Completes (.spanWideReduction b j.seq) s fun t => s.Back v t) ∧
      (v.contendedAt j.elems = false → (v.runJob j).2.2 = none → Completes (.spanWideReduction b j.seq) s fun t => ∃ u, s.Back u t ∧
        ((v.runJob j).1.flushFar j.seq).SameBytes u ∧ (∀ k ∈ u.me.jobs, k.seq ≠ j.seq) ∧ j.seq ≤ u.me.horiz ∧
        u.me.fpsr = (v.runJob j).1.me.fpsr ||| (v.runJob j).2.1.flags ∧
        (∀ op, j.op = .red op →
          (∀ d, j.sd = some d → u.reg d = if d = 0 then 0 else toReg j.t1
            (State.reduceWith op j.t1 j.ga (State.jobCtl j) (64 * v.me.beds.length) 0 j.carry
              (State.readSources j (State.remaining j) v []).2.1).1) ∧
          ∀ r, j.sd ≠ some r → u.reg r = v.reg r)) ∧
      ∀ f, v.contendedAt j.elems = false → (v.runJob j).2.2 = some f → Completes (.spanWideReduction b j.seq) s fun t => ∃ u, s.Back u t ∧
        u.me.pending = some (f, j.seq) ∧ (v.runJob j).1.SameBytes u ∧ ∀ r, u.reg r = (v.runJob j).1.reg r))

/-- R176, R178 to R182, R187: a pull that has not been sent takes a slot at the requester and an entry at the owner, where
there is room, once the plots may begin its instruction; it is kept there while an earlier instruction still has to
write the group, and is else served with the group's bytes as the instruction sees them, with what is bad of them, or
with the owner's cause. A request that was turned away keeps its slot and is sent again in the same way; a response
ends the pull, and what it brought stays landed. A group of guard bits (R177) brings no bytes of memory. Which places
are the last four (notes/assumptions/89.md) and what counts as begun (notes/assumptions/110.md) are the model's.

R102: the 256 bits of a read packet.

R102, R341: the packets of one operand without geometry, of a type of whole bytes. Every element stands in one of them
at `FIRST` plus `STRIDE` for each index from `FIRSTIDX`, in the 64 KiB block that the packet names, and the elements
of an indexed operand travel alone.

R102 to R104, R109, R117, R176, R341: the packet of a far group leaves, once the plots may begin its instruction, with the
route number of its operand, whose descriptor is installed before the first and names the plot of each element, as
soon as its landing slots can be reserved; the channel brings the group with its tags. The oldest packet of a granule
updates it, with every other byte as before; the answer for an element's remote write is noted. Which free route
number an operand takes is the model's (notes/assumptions/83.md). -/
def Obligations.PullsAndPacketsMove : Prop :=
  (∀ (s v : State) (b : Fin 64) (seq plot g : Nat) (j : Job), s.swapIn b = some v → v.jobAt seq = some j →
    let at_ := fun (u : State) (P : Job → Prop) => ∃ k ∈ u.me.jobs, k.seq = seq ∧ k.elems = j.elems ∧ P k
    let asks := fun (i : Instr) (P : Job → Prop) => Completes i s fun t => ∃ u, s.Back u t ∧ at_ u P
    let leg := (j.fetches.find? fun f => f.plot == plot && f.grp == g).map Fetch.leg
    let at_leg := fun (x : Leg) => ∃ f ∈ j.fetches, f.plot = plot ∧ f.grp = g ∧ f.leg = x
    (∀ e x, State.wanted j plot g true = some (e, x) → v.me.status = .run →
      let room := if seq = v.me.horiz + 1 then 64 else 60
      let keys := if 2 ^ 60 ≤ g then [] else (List.range 64).map fun o => g * 64 + o
      let w := v.readThrough .read keys
      let cause := if 2 ^ 60 ≤ g then none
        else (State.sourceLocs j e).findSome? fun l =>
          if (State.locGroups l).contains g = true then w.placeCause l (g * 64) else none
      let now := fun (k : Job) (l : Leg) => (⟨plot, g, l, []⟩ : Fetch) ∈ k.fetches
      let serves := fun i : Instr =>
        (v.readWaits j x = true → asks i fun k => now k .sent ∧ k.landed = j.landed) ∧
        (v.readWaits j x = false → asks i fun k => now k .served ∧
          ∃ y ∈ k.landed, y.plot = plot ∧ y.grp = g ∧ y.refused = cause ∧
            (y.refused = none → y.bad = w.badOf keys ∧
              y.cells = keys.map fun a => (a, (assoc j.saved a).getD (w.seen a))))
      let reaches := fun i : Instr =>
        (room ≤ v.entriesAt x.owner → asks i fun k => now k .retry ∧ k.landed = j.landed) ∧
        (v.entriesAt x.owner < room → serves i)
      (State.landedAt j plot g = false → v.begun j = true →
        (leg = none → v.slotsAt plot < (if seq = v.me.horiz + 1 then 32 else 28) → reaches (.pullRequest b seq plot g)) ∧
        (leg = some .sent → serves (.pullRequest b seq plot g))) ∧
      (at_leg .retry → reaches (.pullRetry b seq plot g))) ∧
    (at_leg .served →
      let done := fun k : Job => k.landed = j.landed ∧ ∀ f, f ∈ k.fetches ↔ f ∈ j.fetches ∧ ¬(f.plot = plot ∧ f.grp = g)
      asks (.pullResponse b seq plot g) done ∧ asks (.farReturn b seq plot g) done)) ∧
  (∀ (p : RPkt) (b : Fin 64) (seq : Nat),
    let w := packetWord p b seq
    w.extractLsb' 0 60 = 0 ∧ w.extractLsb' 60 10 = BitVec.ofNat 10 p.route ∧ w.extractLsb' 70 2 = BitVec.ofNat 2 p.opnd ∧
    w.extractLsb' 72 32 = BitVec.ofNat 32 seq ∧ w.extractLsb' 104 6 = BitVec.ofNat 6 b.val ∧
    w.extractLsb' 110 20 = BitVec.ofInt 20 p.firstIdx ∧ w.extractLsb' 130 2 = BitVec.ofNat 2 p.geom ∧
    w.extractLsb' 132 6 = BitVec.ofNat 6 p.type ∧ w.extractLsb' 138 3 = BitVec.ofNat 3 p.esize ∧
    w.extractLsb' 141 21 = BitVec.ofNat 21 p.count ∧ w.extractLsb' 162 25 = BitVec.ofInt 25 p.stride ∧
    w.extractLsb' 187 3 = BitVec.ofNat 3 p.fbit ∧ w.extractLsb' 190 16 = BitVec.ofNat 16 p.first ∧
    w.extractLsb' 206 32 = BitVec.ofNat 32 p.ppn ∧ w.extractLsb' 238 12 = BitVec.ofNat 12 p.devid ∧
    w.extractLsb' 250 2 = BitVec.ofNat 2 p.tier ∧ w.extractLsb' 252 4 = BitVec.ofNat 4 p.kind) ∧
  (∀ (page : FarItem → Nat × Nat × Nat) (xs : List FarItem) (o : Nat),
    (∀ x ∈ xs, x.geom = none ∧ x.ty.subByte = false ∧ x.opnd = o) →
    let ps := cutPkts page xs
    (∀ p ∈ ps, p.opnd = o ∧ p.sent = false ∧ 1 ≤ p.count ∧ p.first < 65536 ∧ (p.count = 1 → p.stride = 0)) ∧
    (∀ x ∈ xs, ∃ p ∈ ps, (p.devid, p.ppn) = blockOf x.key ∧ (p.tier, p.type, p.geom) = page x ∧ p.kind = x.kind ∧ p.firstIdx ≤ (x.idx : Int) ∧
      (x.idx : Int) < p.firstIdx + (p.count : Int) ∧
      (p.first : Int) + ((x.idx : Int) - p.firstIdx) * p.stride = ((x.key % 65536 : Nat) : Int)) ∧
    ((∀ x ∈ xs, x.single = true) → ∀ p ∈ ps, p.count = 1)) ∧
  (∀ (s v : State) (b : Fin 64), s.swapIn b = some v →
    (∀ seq plot g j e x n p, v.jobAt seq = some j → State.wanted j plot g false = some (e, x) → v.me.status = .run →
      (∀ y ∈ j.landed, ¬(y.plot = plot ∧ y.grp = g)) → v.readWaits j x = false → State.packetOf j e g = some (n, p) →
      v.begun j = true → g < 2 ^ 60 → p.sent = true ∨ v.pktReady j n p = true →
      let keys := (List.range 64).map fun o => g * 64 + o
      let w := v.readThrough .read keys
      let cause := (State.sourceLocs j e).findSome? fun l =>
        if (State.locGroups l).contains g = true then w.placeCause l (g * 64) else none
      Completes (.requestPacket b seq plot g) s fun t => ∃ u, s.Back u t ∧ ∃ k ∈ u.me.jobs, k.seq = seq ∧ k.elems = j.elems ∧
        (⟨plot, g, .served, tagsOf j plot g⟩ : Fetch) ∈ k.fetches ∧
        (p.sent = true → k.pkts = j.pkts ∧ k.routes = j.routes) ∧
        (p.sent = false → ∃ r ∈ k.routes, r.opnd = p.opnd ∧ k.pkts = j.pkts.set n { p with sent := true, route := r.route } ∧
          (∀ d ∈ j.routes, d.opnd ≠ p.opnd → d ∈ k.routes) ∧
          ((∀ d ∈ j.routes, d.opnd ≠ p.opnd) → v.freeRoute = some r.route ∧ r.plots = consumers j p.opnd)) ∧
        ∃ y ∈ k.landed, y.plot = plot ∧ y.grp = g ∧ y.refused = cause ∧
          (y.refused = none → y.bad = w.badOf keys ∧
            y.cells = keys.map fun a => (a, (assoc j.saved a).getD (w.seen a)))) ∧
    (∀ seq plot g j e x n p, v.jobAt seq = some j → State.wanted j plot g false = some (e, x) →
      State.packetOf j e g = some (n, p) → p.sent = false → v.pktReady j n p = false →
      Completes (.requestPacket b seq plot g) s fun t => s.Back v t) ∧
    (∀ key p, (v.me.wpkts.find? fun p => p.granule == key / 256) = some p → v.MemOk → v.PairsOk →
      (p.cells.map Prod.fst).Nodup → Completes (.writePacket b key) s fun t => ∃ u, s.Back u t ∧
        u.me.wpkts = v.me.wpkts.erase p ∧ (∀ c ∈ p.cells, u.byteAt c.1 = if v.Accepts c.1 then c.2 else v.byteAt c.1) ∧
        (∀ k, k ∉ p.cells.map Prod.fst → u.byteAt k = v.byteAt k) ∧ (∀ r, u.reg r = v.reg r) ∧ u.me.jobs = v.me.jobs) ∧
    (∀ seq i j, v.jobAt seq = some j → Completes (.remoteAnswer b seq i) s fun t => ∃ u, s.Back u t ∧
      ∃ k ∈ u.me.jobs, k.seq = seq ∧ k.sent = j.sent.erase i ∧ k.elems = j.elems))

/-- R134, R136, R138 to R141, R145: a Runner moves one line of a command that has begun: each destination byte becomes its
source byte, and every other byte of memory stands; where the line can be reached no longer the command stops with
`STAT` 2 and moves nothing; where an earlier command is still to read or write those bytes the line waits. A chained
command whose predecessor failed begins with `STAT` 3 and moves nothing. Any command completes once its lines are
moved and its predecessor has completed, in any order, unless an earlier one is still to touch what its completion
touches: it leaves the queue and writes its completion word. -/
def Obligations.RunnersMoveLines : Prop :=
  ∀ (s v : State) (b : Fin 64) (id line : Nat) (c : RCmd), s.swapIn b = some v →
    let has := fun (u : State) (P : RCmd → Prop) => ∃ k ∈ u.me.runner, k.id = id ∧ P k
    let built := ∀ x, v.myCtx = some x → ∀ f ∈ x.frames, f.zeroing = false
    (∀ l, (v.me.runner.find? fun c => c.id == id) = some c → c.arrival = none → c.pred = none → c.begun = true → built →
      (c.lines.find? fun l => l.line == line) = some l → v.lineWaits c l = true → Completes (.runnerLine b id line) s fun t =>
        ∃ u, s.Back u t ∧ v.SameBytes u ∧ has u fun k => k = c) ∧
    (∀ l, (v.me.runner.find? fun c => c.id == id) = some c → c.arrival = none → c.pred = none → c.begun = true → built →
      (c.lines.find? fun l => l.line == line) = some l → v.lineWaits c l = false →
      (v.lineStops l = true → Completes (.runnerLine b id line) s fun t => ∃ u, s.Back u t ∧ u.mem = v.mem ∧ has u fun k =>
        k.stat = 2 ∧ k.faultAt = (if c.stat = 2 then min c.faultAt l.low else l.low) ∧
        ∀ x ∈ k.lines, x.low < k.faultAt ∧ x ∈ c.lines) ∧
      (v.lineStops l = false → Completes (.runnerLine b id line) s fun t => ∃ u, s.Back u t ∧ (∀ r, u.reg r = v.reg r) ∧
        has u (fun k => k.stat = c.stat ∧ ∀ x, x ∈ k.lines ↔ x ∈ c.lines ∧ x.line ≠ line) ∧
        (v.MemOk → v.PairsOk → v.flips = [] → c.saved = [] → (l.moves.map fun m => m.2.2).Nodup →
          (∀ m ∈ l.moves, ∀ k, m.2.1 = .inl k → v.granted 49 .read (v.route k) = true →
            u.byteAt m.2.2 = v.byteAt k) ∧
          (∀ m ∈ l.moves, ∀ x, m.2.1 = .inr x → u.byteAt m.2.2 = x) ∧
          ∀ k, (∀ m ∈ l.moves, m.2.2 ≠ k) → u.byteAt k = v.byteAt k))) ∧
    ((v.me.runner.find? fun c => c.id == id) = some c → c.arrival = none → c.pred = none → c.begun = false → c.chn = true →
      c.predStat ≠ 0 → built → (v.me.runner.takeWhile fun x => x.id != id).all (fun x => x.arrival.isSome) = true →
      Completes (.runnerLine b id line) s fun t => ∃ u, s.Back u t ∧ u.mem = v.mem ∧ has u fun k =>
        k.begun = true ∧ k.lines = [] ∧ k.stat = 3) ∧
    ((v.me.runner.find? fun c => c.id == id) = some c → c.arrival = none → c.begun = true → c.lines = [] → c.pred = none →
      v.completionWaits c = false → c.kind ≠ .park → c.kind ≠ .unpark →
      Completes (.runnerComplete b id) s fun t => ∃ u, s.Back u t ∧ (∀ x ∈ u.me.runner, x.id ≠ id) ∧
        (∀ r, u.reg r = v.reg r) ∧ (v.me.rlast.1 = id → u.me.rlast = (id, State.completionWord c)) ∧
        (c.word = none → v.SameBytes u) ∧
        (∀ k, c.word = some k → v.granted 49 .write (v.route k) = true → (isNear k = true → v.runnerNear k = none) → v.MemOk →
          v.PairsOk → u.readNat k 8 = (State.completionWord c).toNat ∧ v.SameBytesBut u k 8)) ∧
    ((∀ x ∈ s.me :: s.bands, x.id = b → ∀ k ∈ x.runner, k.id ≠ id) → ∀ x,
      (s.stopped.find? fun x => x.band.id == b && x.band.runner.any fun k => k.id == id) = some x →
      (Completes (.runnerLine b id line) s fun t => t = s.asStopped x fun u => u.runnerLine id line) ∧
      Completes (.runnerComplete b id) s fun t => t = s.asStopped x fun u => u.runnerComplete id)

/-- R242, R244, R248, R275, R268, R313: the oldest Trellis command is performed whole, or by so many steps or rows, and
leaves its queue once it has done all; a queued arrival is performed and leaves its queue. A queued request of `ACQ`
that can be granted is granted, and a `WAIT` whose wake time has come ends; either completes as its form does. -/
def Obligations.QueuedWorkCompletes : Prop :=
  ∀ (s v : State) (b : Fin 64), s.swapIn b = some v → v.me.status = .run →
    (∀ c rest part, v.me.trl.queue = c :: rest → c.arrival = none → Completes (.trellisComplete ⟨b, part⟩) s fun t => ∃ u,
      s.Back u t ∧ u = State.turnT (part.getD (2 ^ 16)) v c ∧ (∀ r, u.reg r = v.reg r) ∧ u.me.pc = v.me.pc ∧
      ((∀ x ∈ u.me.trl.queue, x.id ≠ c.id) ∨
        ((∃ x ∈ u.me.trl.queue, x.id = c.id) ∧ u.me.fpsr = v.me.fpsr ∧ ∀ x ∈ u.me.trl.queue, x.id = c.id → x.begun = true)) ∧
      ((∀ x, c.instr ≠ some (.tstep x)) → (∀ x, c.instr ≠ some (.tdrain x)) → ∀ x ∈ u.me.trl.queue, x.id ≠ c.id) ∧
      (part = none → v.me.trl.rows ≤ 2 ^ 16 → (∀ x, c.instr ≠ some (.tstep x)) → ∀ x ∈ u.me.trl.queue, x.id ≠ c.id) ∧
      (part = none → c.begun = false → (c.vals[2]).toNat ≤ 2 ^ 12 → (c.vals[2]).toNat % 32 = 0 →
        ∀ z, c.instr = some (.tstep z) → ∀ x ∈ u.me.trl.queue, x.id ≠ c.id) ∧
      (v.me.trl.failed.isSome = true → (∀ x ∈ u.me.trl.queue, x.id ≠ c.id) ∧ u.me.trl.failed = v.me.trl.failed ∧
        u.me.fpsr = v.me.fpsr ||| c.flags ∧ v.SameBytes u)) ∧
    (∀ c rest, v.me.trl.queue = c :: rest → c.arrival.isSome = true → Completes (.queuedArrival b true) s fun t => ∃ u,
      s.Back u t ∧ u = v.runT c ∧ (∀ x ∈ u.me.trl.queue, x.id ≠ c.id) ∧ ∀ r, u.reg r = v.reg r) ∧
    (∀ c rest o g, v.me.runner = c :: rest → c.arrival = some (o, g) → Completes (.queuedArrival b false) s fun t => ∃ u,
      s.Back u t ∧ (∀ x ∈ u.me.runner, x.id ≠ c.id) ∧ (∀ r, u.reg r = v.reg r) ∧ u.me.pc = v.me.pc ∧
      (v.MemOk → v.PairsOk → isNear o = false → o % 64 = 0 → v.SameBytesBut u o 64 ∧
        u.oPend o = (v.oPend o + (2 ^ 32 - 1)) % 2 ^ 32 ∧
        (v.oPois o = true ∨ v.oGen o ≠ g → u.oStray o = (v.oStray o + 1) % 2 ^ 32 ∧ u.oHave o = v.oHave o ∧ u.oGen o = v.oGen o) ∧
        (v.oPois o = false → v.oGen o = g →
          let arrived := (v.oHave o + 1) % 2 ^ 32
          (arrived = v.oNeed o → u.oGen o = (g + 1) % 2 ^ 32 ∧ u.oHave o = 0 ∧ u.oForced o = false) ∧
          (arrived ≠ v.oNeed o → u.oGen o = g ∧ u.oHave o = arrived)))) ∧
    (∀ shared x u r o, v.waitingWord = some (.acq shared x) → v.settled = .ok u → u.ObjectAt x.a isBarrier o r →
      r.holdsOf o = none → r.me.holds.length < 16 → r.oPois o = false → r.oXhold o = 0 → (shared = true ∨ r.oNsh o = 0) →
      (∀ sh ∈ r.aheadOf o (r.acqOrder o), shared = true ∧ sh = true) → (shared = false ∨ r.sharers o = []) →
      Completes (.acqGrant b) s fun t => ∃ z, s.Back z t ∧ r.SyncDone z x.d 0 ∧ z.me.waiting = none ∧
        z.me.holds = r.me.holds ++ [⟨o, shared⟩] ∧ r.SameBytesBut z o 64 ∧
        (shared = true → z.oNsh o = (r.oNsh o + 1) % 2 ^ 16 ∧ z.oXhold o = r.oXhold o) ∧
        (shared = false → z.oXhold o = r.me.xhold.toNat ∧ z.oNsh o = r.oNsh o)) ∧
    (∀ x u, v.waitingWord = some (.wait x) → v.settled = .ok u → (u.reg x.a).toInt ≤ (u.now : Int) →
      Completes (.waitWake b) s fun t => ∃ z, s.Back z t ∧ u.Wrote z State.noReg 0 0 ∧ z.me.waiting = none) ∧
    (∀ shared x u, v.waitingWord = some (.acq shared x) → exec (.acq shared x) v = .next u →
      Completes (.acqGrant b) s fun t => s.Back u t) ∧
    (∀ x u, v.waitingWord = some (.wait x) → exec (.wait x) v = .next u → Completes (.waitWake b) s fun t => s.Back u t)

/-! ### Steps of the Arbour, of faults and of events -/

/-- R329, R336, R338, R342, R288: a free Bandstand that stages none stages, of the armed nodes that an atomic or `GARM`
has left one release short, one of the highest level, the longest so first; it changes only timing. Dispatch launches
the best head, a program node as a fresh stream on its span, in state 3, with its watchdog armed. -/
def Obligations.NodeLaunches : Prop :=
  ∀ s : State,
    (∀ (b : Fin 64) (pa : Nat) (before after : List Nat), b.val ≠ 63 →
      (∃ x ∈ s.me :: s.bands, x.id = b ∧ x.status = .free) → (∀ x ∈ s.staged, x.1 ≠ b.val ∧ x.2 ≠ pa) →
      s.armed = before ++ pa :: after →
      let level := fun q => (s.nodeCopy 0 q 0).level
      let apart := fun (q : Nat) => ∃ x ∈ s.staged, x.2 = q
      (∀ q ∈ before, apart q ∨ level q < level pa) → (∀ q ∈ after, apart q ∨ level q ≤ level pa) →
      Completes (.nodeStage b pa) s fun t => t = { s with staged := s.staged ++ [(b.val, pa)] }) ∧
    (∀ (b : Fin 64) (pa : Nat), pa ∉ s.armed → Completes (.nodeStage b pa) s fun t => t = s) ∧
    (∀ ctx va pa, s.readNat (pa + 48) 1 = 1 → s.readNat pa 4 = 1 →
      s.predNow ctx va pa = { s with armed := (s.armed.filter fun x => x != pa) ++ [pa] }) ∧
    (s.bestHead = none → Completes .nodeLaunch s fun t => t = s) ∧
    (∀ h c b e, s.bestHead = some h → s.headWork h = some (.inr c) → s.launchStand c.pa = some b →
      s.groupSpan c.ctx c.gidx = some e → c.kind = 0 → Completes .nodeLaunch s fun t =>
        (∃ x ∈ t.me :: t.bands, x.id = b ∧ x.status = .run ∧ x.sid = s.nextSid ∧ x.ctx = c.ctx ∧ x.supv = false ∧ x.spane = e ∧
          x.gidx = c.gidx ∧ x.beds = t.spanBeds e ∧ x.pc = c.code ∧ x.seq = 1 ∧ x.vl = 0 ∧ x.tvec = 0 ∧ x.inh = false ∧
          (∀ r, x.reg r = if r = 1 then c.arg else if r = 2 then BitVec.ofNat 64 c.va else 0) ∧
          (∀ k : Fin 12, x.masks[k] = MaskV.zero) ∧ x.rm = .rne ∧ x.sat = 0 ∧ x.fpsr = 0 ∧ x.jobs = [] ∧
          x.strip.sealed = false ∧ x.strip.resume = c.code) ∧
        (∀ x ∈ t.ready, x.pa ≠ c.pa) ∧ (∃ n ∈ t.nodes, n.copy = c ∧ n.at_ = s.now ∧ n.sid = s.nextSid) ∧
        (c.wdog ≠ 0 → assoc t.timers c.queue = some (s.now + State.usToCycles c.wdog)) ∧
        (c.wdog = 0 → t.timers = s.timers) ∧
        (s.MemOk → s.PairsOk → s.granted 52 .write (s.route (c.pa + 48)) = true →
          t.readNat (c.pa + 48) 1 = 3 ∧ s.SameBytesBut t (c.pa + 48) 1))

/-- R330, R331, R332, R369: a node that has ended completes: it is no longer running, its Bandstand is free, its state and
the completion word are written, a failed or halted one is reported, and an end without successors readies nothing. -/
def Obligations.NodeCompletes : Prop :=
  ∀ (s : State) (pa final detail : Nat) (c : NodeCopy), (s.due.find? fun x => x.1.pa == pa) = some (c, final, detail) →
    Completes (.nodeComplete pa) s fun t =>
      (∀ n ∈ t.nodes, n.copy.pa ≠ pa) ∧
      (∀ n, (s.nodes.find? fun n => n.copy.pa == pa) = some n → ∀ b ∈ t.me :: t.bands, b.sid = n.sid →
        b.supv = true ∨ b.status = .free) ∧
      (final = 5 ∨ final = 6 →
        t.sysPend = s.sysPend ++ [⟨cNODE, BitVec.ofNat 64 c.va, BitVec.ofNat 64 (c.ctx + final * 2 ^ 16)⟩]) ∧
      (final = 4 → t.sysPend = s.sysPend) ∧
      (final = 4 → c.kind = 2 →
        let fn := ((s.findCtx c.ctx).map Ctx.fn).getD 0
        let vec := c.code.toNat % 2048
        ((fn, vec) ∈ s.msixOn → Answer.msix fn vec ∈ t.answers) ∧ ((fn, vec) ∉ s.msixOn → (fn, vec) ∈ t.msixPend)) ∧
      (c.nsucc = 0 ∨ final ≠ 4 → s.MemOk → s.PairsOk → s.granted 52 .write (s.route (pa + 48)) = true →
        t.ready = s.ready ∧ t.completing = s.completing.filter (fun x => x.1.pa != pa) ∧
        let w := (s.setNodeState pa final).walkedIn c.ctx c.donew
        (c.donew = 0 → t.readNat (pa + 48) 1 = final % 256 ∧ s.SameBytesBut t (pa + 48) 1) ∧
        (∀ k, c.donew ≠ 0 → w.arbourPlace c.ctx .write c.donew = some k → s.granted 52 .write (s.route k) = true →
          t.readNat k 8 = State.doneWord s.now false final detail % 2 ^ 64 ∧ w.SameBytesBut t k 8))

/-- R335, R337, R342: the level of a head rises by one for every `AGE` microseconds since it became one, up to 7; a head
at level 7 that lacks only a Bandstand takes that of a stream of the lowest level below 7, the latest launched; an
expired watchdog is disarmed and reported with the earliest node of its queue. -/
def Obligations.QueuesAgeAndWatch : Prop :=
  ∀ (s : State) (q : Fin 256),
    (Completes (.headAgeing q) s fun t => t = { s with heads := t.heads } ∧ t.heads.length = s.heads.length ∧
      ∀ (i : Nat) (h : Head), s.heads[i]? = some h → ∃ k : Head, t.heads[i]? = some k ∧ k.q = h.q ∧ k.sid = h.sid ∧ k.pa = h.pa ∧ k.since = h.since ∧
        (h.q ≠ q.val → k = h) ∧
        (∀ c, h.q = q.val → s.headWork h = some (.inr c) → k.level = if s.qAge q = 0 then c.level else
          min 7 (c.level + (s.now - h.since) / State.usToCycles (s.qAge q)))) ∧
    (∀ h z, s.freeStand = none → h ∈ s.heads → s.headFit h = true → s.headLevel h = 7 → s.victim = some z →
      Completes .arbourPreempt s (fun t => t = ({ s with nextOrder := s.nextOrder + 1 }).asBand z.id fun u =>
        u.preemptMe false (some ⟨s.now, true, s.nextOrder⟩)) ∧
      let may := fun (y : Band) (n : NodeRef) => State.runsStream y = true ∧ s.spsave y.spane ≠ 0 ∧ y.node = some n ∧
        n.level < 7 ∧ s.qNoPre n.queue = false
      z ∈ s.me :: s.bands ∧ ∃ n, may z n ∧ ∀ y ∈ s.me :: s.bands, ∀ m, may y m →
        n.level < m.level ∨ (n.level = m.level ∧ y.order ≤ z.order)) ∧
    ((∀ h ∈ s.heads, s.headFit h = true → s.headLevel h ≠ 7) ∨ s.freeStand ≠ none →
      Completes .arbourPreempt s fun t => t = s) ∧
    (∀ d, assoc s.timers q.val = some d → s.now < d → Completes (.watchdogExpiry q) s fun t => t = s) ∧
    (∀ d n, assoc s.timers q.val = some d → d ≤ s.now → n ∈ s.nodes → n.copy.queue = q.val →
      (∀ m ∈ s.nodes, m.copy.queue = q.val → m ≠ n → n.order < m.order) → Completes (.watchdogExpiry q) s fun t =>
        t = { s with timers := t.timers, sysPend := t.sysPend } ∧ assoc t.timers q.val = none ∧
        (∀ p, p ≠ q.val → assoc t.timers p = assoc s.timers p) ∧
        t.sysPend = s.sysPend ++ [⟨cWDOG, BitVec.ofNat 64 n.copy.va, BitVec.ofNat 64 (q.val + n.copy.ctx * 2 ^ 16)⟩])

/-- R308, R317, R340, R351, R353, R354: a rewind gives back the checkpoint and every journalled group, and goes on from
where the strip opened, sequence numbers continuing. A met data fault becomes a rewind, or enters the handler with its
record, once every older instruction has finished, which waits while another slot's groups come between: it and every
younger begun one stop and are kept for `ERET` with their progress, with what had reached their plots, and with the
old content of what they have read or written; words that no plot has begun are discarded; the flags of the stopped
ones are in `FPSR`, and the bits that they have written stand in their masks. A lane mismatch, of an instruction in
flight or of a mask form, in a strip that can still be rewound rewinds it. What counts as begun is the model's
(notes/assumptions/110.md).

R316, R354, R366: the oldest system event enters the handler of the supervisor stream, once the stream's instructions
have finished, when it is not in it and no end of a stream or `PUB` waits there; a wait whose end has been told is
finished first. A lane mismatch that no rewind can undo pre-empts the stream and is such an event. -/
def Obligations.FaultAndEventSteps : Prop :=
  ((∀ (s : State) (c : Checkpoint), s.me.strip.check = some c →
    let t := s.rewind
    t.me.regs = c.regs ∧ t.me.masks = c.masks ∧ t.me.vl = c.vl ∧ t.me.rm = c.rm ∧ t.me.sat = c.sat ∧ t.me.fpsr = c.fpsr ∧
    t.me.trusted = c.trusted ∧ t.me.ntfa = c.ntfa ∧ t.me.ntfCount = c.ntfCount ∧ t.me.trl.tsr = c.tsr ∧ t.me.seed = c.seed ∧ t.me.tvec = c.tvec ∧ t.me.inh = c.inh ∧
    t.me.epc = c.epc ∧ t.me.ecause = c.ecause ∧ t.me.eaddr = c.eaddr ∧ t.me.eelem = c.eelem ∧ t.me.estat = c.estat ∧
    t.me.einfo = c.einfo ∧ t.me.hintmiss = c.hintmiss ∧ t.me.slots = c.slots ∧ t.me.pc = s.me.strip.resume ∧
    t.me.seq = s.me.seq ∧ t.me.jobs = [] ∧ t.me.pending = none ∧ t.me.strip.far = [] ∧ t.me.strip.rewound = true ∧
    (s.MemOk → s.PairsOk → (s.me.strip.journal.map Prod.fst).Nodup →
      (∀ e ∈ s.me.strip.journal, e.2.length = 64 ∧ isNear (e.1 * 64) = true) →
      (∀ e ∈ s.me.strip.journal, ∀ o < 64, t.byteAt (e.1 * 64 + o) = e.2.getD o 0) ∧
      ∀ k, k / 64 ∉ s.me.strip.journal.map Prod.fst → t.byteAt k = s.byteAt k)) ∧
  (∀ v u : State, (v.contended = true → v.settled = .error v) ∧ (v.contended = false → v.settled = .error u →
    ∃ (x : State) (j : Job) (f : FaultRec), j ∈ v.me.jobs ∧ (x.runCharged j).2.2 = some f ∧
    let w := (x.runCharged j).1.putJob (x.runCharged j).2.1
    let z := w.discard (w.unbegun j.seq)
    (w.rewindsFor f = true → u = w.rewind) ∧
    (w.rewindsFor f = false → w.CanTrap →
      (z.stopJobs j.seq).1.InHandler u f j.addr j.seq (z.stopJobs j.seq).2 ∧ u.me.seq = w.me.seq))) ∧
  (∀ (w : State) (n : Nat),
    let js := w.me.jobs.filter fun j => decide (n ≤ j.seq)
    let r := w.stopJobs n
    r.2.map (fun x => (x.addr, x.seq, x.guard, x.prog, x.carry, x.saved)) =
      js.map (fun j => (j.addr, j.seq, j.guardBits, j.prog, j.carry, j.saved ++ j.idx)) ∧
    r.2.map (fun x => (x.landed, x.ff)) = js.map (fun j => (j.landed, j.ff)) ∧
    r.1.me.jobs = w.me.jobs.filter (fun j => decide (j.seq < n)) ∧
    r.1.me.fpsr = js.foldl (fun f j => f ||| j.flags) w.me.fpsr ∧ (∀ q, r.1.reg q = w.reg q) ∧ r.1.me.pc = w.me.pc ∧
    (∀ k : Mask, (∀ j ∈ js, j.kd ≠ some k) → r.1.me.masks[k.val] = w.me.masks[k.val]) ∧
    ∀ j k, js = [j] → j.kd = some k → ∀ i, (r.1.me.masks[k.val]).bit i =
      match j.maskBits.find? fun b => b.1 == i && decide (i < j.vl) with
      | some b => b.2.1
      | none => (w.me.masks[k.val]).bit i) ∧
  ∀ (s v : State) (b : Fin 64), s.swapIn b = some v →
    (∀ p, v.me.pending = some p → v.contended = true →
      (Completes (.trapEntry b) s fun t => s.Back v t) ∧ Completes (.stripRewind b) s fun t => s.Back v t) ∧
    (∀ p u, v.me.pending = some p → v.contended = false → (v.settled = .ok u ∨ v.settled = .error u) →
      (v.rewindsFor p.1 = false → Completes (.trapEntry b) s fun t => s.Back { u with me := { u.me with pending := none } } t) ∧
      (v.rewindsFor p.1 = true → Completes (.stripRewind b) s fun t => s.Back { u with me := { u.me with pending := none } } t)) ∧
    (v.me.pending = none → (Completes (.trapEntry b) s fun t => s.Back v t) ∧ Completes (.stripRewind b) s fun t => s.Back v t) ∧
    (∀ seq plot j, (v.me.jobs.find? fun j => j.seq == seq) = some j →
      (∃ e ∈ j.elems, e.plot = plot) ∨ (assoc j.prog plot).isSome = true → v.checkedAt seq plot = some j.addr) ∧
    (∀ seq plot a, v.checkedAt seq plot = some a → v.me.status = .run → plot % 64 = seq % 64 →
      v.me.strip.sealed = false → v.me.strip.rewound = false →
      Completes (.checkingLaneMismatch b seq plot) s fun t => s.Back v.rewind t)) ∧
  (∀ s v : State,
    (s.sysPend = [] → Completes .systemEventEntry s fun t => t = s) ∧
    (∀ e rest u, s.sysPend = e :: rest → s.swapIn 63 = some v → v.me.status = .run → v.me.inh = false →
      v.me.waiting ≠ some .ending → v.settled = .ok u →
      let z := u.endedWait
      z.CanTrap → Completes .systemEventEntry s fun t => ∃ w, s.Back w t ∧ w.sysPend = rest ∧ w.me.seq = z.me.seq ∧
        State.InHandler { z with sysPend := rest } w
          ⟨causeClass e.code, e.code, e.addr, 0, opNone, 0, false, 0x1FFF, e.info, false⟩ z.me.issueAddr 0 []) ∧
    (∀ e rest u, s.sysPend = e :: rest → s.swapIn 63 = some v → v.me.status = .run → v.me.inh = false →
      v.me.waiting ≠ some .ending → v.settled = .error u → Completes .systemEventEntry s fun t => s.Back u t) ∧
    (∀ e rest, s.sysPend = e :: rest → s.swapIn 63 = some v → v.me.inh = true ∨ v.me.waiting = some .ending →
      Completes .systemEventEntry s fun t => s.Back v t) ∧
    (∀ b seq plot a, s.swapIn b = some v → v.checkedAt seq plot = some a → v.me.status = .run →
      plot % 64 = seq % 64 → v.me.strip.sealed = true ∨ v.me.strip.rewound = true →
      v.me.supv = false → v.spsave v.me.spane ≠ 0 → Completes (.checkingLaneMismatch b seq plot) s fun t =>
        s.Back (State.preemptMe { v with sysPend := v.sysPend ++
          [⟨cCHECK, a, BitVec.ofNat 64 (plot / 64 + 2 ^ 8 + v.me.ctx * 2 ^ 16 + v.me.spane * 2 ^ 32)⟩] } false none) t))

/-- R355 to R357, R361: a pre-empted stream leaves its Bandstand at the word that was to issue, with its registers, masks
and strip sealed, and stays stopped; on resuming it goes on there with its registers read back from its record. That
registers, pc and `SEQ` are what the record in memory holds at the resume is the model's, read from the rules by
inference (notes/assumptions/53.md), and that an abandoned wait has used no number its choice
(notes/assumptions/96.md). -/
def Obligations.StreamsStopAndResume : Prop :=
  ∀ (s v : State) (b : Fin 64) (out : Bool),
    (s.streamOn b = none → Completes (.streamPreemption b out) s fun t => t = s) ∧
    (∀ z, s.streamOn b = some z → s.swapIn b = some v → v.me = z → s.spsave z.spane ≠ 0 → z.pending = none → z.jobs = [] →
      (∀ k g x r, z.waiting ≠ some (.await k g x (some r)) ∧ z.waiting ≠ some (.awaitGe k g x (some r))) →
      Completes (.streamPreemption b out) s fun t => ∃ w, s.Back w t ∧ w.me = Band.reset b ∧
        ∃ x, w.stopped = s.stopped ++ [x] ∧ x.out = out ∧ x.queued = none ∧ x.band.sid = z.sid ∧ x.band.regs = z.regs ∧
          x.band.masks = z.masks ∧ x.band.vl = z.vl ∧ x.band.pc = z.issueAddr ∧ x.band.seq = z.seq ∧ x.band.waiting = none ∧
          x.band.strip.sealed = true) ∧
    (∀ x e, s.bestHead.bind s.headWork = some (.inl x) → x.band.spane = e → s.freeStand = some b → x.reissue = [] →
      x.band.trl.att = false → x.band.trl.queue = [] → Completes (.streamResume e) s fun t =>
        (∀ y ∈ t.stopped, y.band.sid ≠ x.band.sid) ∧ ∃ y ∈ t.me :: t.bands, y.id = b ∧ y.status = .run ∧ y.sid = x.band.sid ∧
          y.ctx = x.band.ctx ∧ y.spane = e ∧ (x.out = false → y.masks = x.band.masks) ∧ y.strip = x.band.strip ∧ y.reg 0 = 0 ∧
          (∀ r : Reg, r ≠ 0 → y.reg r = BitVec.ofNat 64 (s.readNat (s.spsave e + 32 + 8 * (r.val - 1)) 8)) ∧
          y.pc = BitVec.ofNat 64 (s.readNat (s.spsave e + 24) 8) ∧ y.seq = s.readNat (s.spsave e + 16) 8)

/-- R317, R354, R363, R282, R145: a context that is killed has no stream, no frame, no binding and no node any more, and
the kill that the hardware asked for is reported with its cause and `EPC`. -/
def Obligations.ContextKills : Prop :=
  ∀ (s : State) (ctx : Nat),
    ((s.pendKill.find? fun k => k.ctx == ctx) = none → Completes (.contextKill ctx) s fun t => t = s) ∧
    ∀ k, (s.pendKill.find? fun k => k.ctx == ctx) = some k → Completes (.contextKill ctx) s fun t =>
      (∀ b ∈ t.me :: t.bands, b.ctx = ctx → b.supv = true ∨ b.status = .free) ∧ (∀ x ∈ t.stopped, x.band.ctx ≠ ctx) ∧
      (∀ c ∈ t.ctxs, c.id = ctx → c.killed = true ∧ c.frames = [] ∧ c.bindings = [] ∧ c.shadows = []) ∧
      (∀ n ∈ t.nodes, n.copy.ctx ≠ ctx) ∧ (∀ c ∈ t.ready, c.ctx ≠ ctx) ∧ (∀ x ∈ t.pendKill, x.ctx ≠ ctx) ∧
      t.sysPend = s.sysPend ++ [⟨cKILL, k.epc, BitVec.ofNat 64 (ctx + k.code * 2 ^ 16)⟩]

/-! ### Steps of swap pairs, frames, rails, ports and masters -/

/-- R118 to R120: exchanging a line of a moving pair changes no byte and no poison that an access finds; a pair whose
lines are all exchanged flips: it is gone, and its two entries have exchanged bits [51:20], their page numbers. `w` is
the state once every user of the pages has finished. -/
def Obligations.SwapPairsMove : Prop :=
  ∀ (s : State) (q : Fin 64),
    ((s.pairs.find? fun p => p.q == q.val) = none →
      (Completes (.swapLineExchange q) s fun t => t = s) ∧ Completes (.swapFlip q) s fun t => t = s) ∧
    ∀ p, (s.pairs.find? fun p => p.q == q.val) = some p →
      (p.moved < 256 → s.MemOk → s.PairsOk → (∀ x ∈ s.pairs, x.q = p.q → x = p) →
        Completes (.swapLineExchange q) s fun t =>
          s.SameBytes t ∧ (s.hbmErr = [] → ∀ k, t.isPoisoned k = s.isPoisoned k) ∧
          (∀ x, x ∈ t.pairs ↔ (x ∈ s.pairs ∧ x ≠ p) ∨ x = { p with moved := p.moved + 1 }) ∧ (∀ r, t.reg r = s.reg r)) ∧
      (p.moved < 256 → Completes (.swapFlip q) s fun t => t = s) ∧
      (256 ≤ p.moved → Completes (.swapFlip q) s fun t =>
        let w := s.quiesceAll
        (∀ x ∈ t.pairs, x.q ≠ q.val) ∧
        (w.MemOk → w.PairsOk → p.pc % 8 = 0 → p.ph % 8 = 0 → p.pc ≠ p.ph → p.pc < hbmEnd → p.ph < hbmEnd →
          (∀ x ∈ w.pairs, ∀ g, (g = p.pc / 65536 ∨ g = p.ph / 65536) → x.c ≠ g ∧ x.h ≠ g) →
          let mid := fun e => e / 2 ^ 20 % 2 ^ 32 * 2 ^ 20
          let rest := fun e => e % 2 ^ 20 + e / 2 ^ 52 * 2 ^ 52
          t.readNat p.pc 8 = rest (w.readNat p.pc 8) + mid (w.readNat p.ph 8) ∧
          t.readNat p.ph 8 = rest (w.readNat p.ph 8) + mid (w.readNat p.pc 8)))

/-- R147, R149, R155, R161, R373: a new frame reads 0 everywhere once it is zeroed; the Keepers set `EXPIRY` of a kept
frame to the whole cap from now, never earlier than it was, and correct the single-bit errors of its cells, unless a
layer's controller refuses them, which is counted; as time passes the frame is renewed before less than half the cap
is left; overtemperature of a Garden ends the life of every frame there.

R167 to R171, R371, R378: a rail that goes down leaves what is stored, and the Lodge's stays on; one that comes back
finds its layer zeroed, and the rails of Terraces, HBM and the Lodge change nothing else (notes/assumptions/92.md, the
model's choice). A pending retirement is reported and changes no frame; a failed bus is a hole at once, withdraws
every unparked frame on its section and no other, and is reported. A port's bit follows its link, and stays down until
`ZYNFY` is accepted. -/
def Obligations.FramesRenewAndRailsSwitch : Prop :=
  (∀ (s : State) (ctx slot : Nat) (c : Ctx) (f : Frame), s.findCtx ctx = some c → c.frame slot = some f →
    (f.zeroing = true → Completes (.frameZeroed ctx slot) s fun t =>
      ((t.findCtx ctx).bind fun c => c.frame slot) = some { f with zeroing := false } ∧
      (∀ k, s.frameHas f k = true → Memory.get t.mem k = 0 ∧ (s.frameHas f (8 * (k / 8)) = true → t.isUE k = false)) ∧
      ∀ k, s.frameHas f k = false → Memory.get t.mem k = Memory.get s.mem k) ∧
    (f.zeroing = false → Completes (.frameZeroed ctx slot) s fun t => t = s) ∧
    (s.keeps f = true → s.keeperBarred f = none → Completes (.keeperRenewal ctx slot) s fun t =>
      ((t.findCtx ctx).bind fun c => c.frame slot) = some { f with expiry := max f.expiry (s.now + s.lifeCap) } ∧
      (∀ x, x ∈ t.nearFlip ↔ x ∈ s.nearFlip ∧ s.frameHas f (8 * x.1) = false) ∧
      t = { s with ctxs := t.ctxs, nearFlip := t.nearFlip }) ∧
    (s.keeps f = true → s.keeperBarred f ≠ none → Completes (.keeperRenewal ctx slot) s fun t =>
      t.errlog.length = s.errlog.length + 1 ∧ t = { s with errlog := t.errlog, dregs := t.dregs }) ∧
    (∀ cycles, let t := s.pass cycles
      t.now = s.now + cycles ∧ s.SameBytes t ∧
      ((s.ctxs.map Ctx.id).Nodup → (c.frames.map Frame.slot).Nodup → s.keeps f = true → s.keeperBarred f = none →
        ((t.findCtx ctx).bind fun c => c.frame slot) = some (if f.expiry < s.now + cycles + s.lifeCap / 2 then
          { f with expiry := max f.expiry (s.now + cycles + s.lifeCap) } else f))) ∧
    (f.keep = false ∨ f.wd = true ∨ f.park = true ∨ f.expiry ≤ s.now → Completes (.keeperRenewal ctx slot) s fun t => t = s) ∧
    (∀ g : Fin 4, Completes (.overtemp g) s fun t =>
      ((t.findCtx ctx).bind fun c => c.frame slot) =
        some (if ∃ p ∈ s.framePlots f, p / 2048 = g.val then { f with expiry := min f.expiry s.now } else f) ∧
      t.mem = s.mem ∧ t.errlog.length = s.errlog.length + 1)) ∧
  (∀ s : State,
    (∀ r : Fin 24, Completes (.railDown r) s fun t => t = { s with rails := t.rails } ∧
      ∀ i : Nat, t.rails.getLsbD i = (s.rails.getLsbD i && (i != r.val || i == 23))) ∧
    (∀ r : Fin 24, Completes (.railUp r) s fun t => (∀ i : Nat, t.rails.getLsbD i = (s.rails.getLsbD i || i == r.val)) ∧
      (20 ≤ r.val → t = { s with rails := t.rails }) ∧
      (∀ p l, p < 8192 → l < 4 → s.railOn p l = false → t.railOn p l = true → ∀ o < 65536,
        Memory.get t.mem (nearKey p (l * 65536 + o)) = 0) ∧
      (∀ p l, p < 8192 → l < 4 → s.railOn p l = true → ∀ o < 65536,
        Memory.get t.mem (nearKey p (l * 65536 + o)) = Memory.get s.mem (nearKey p (l * 65536 + o)))) ∧
    (∀ bus, bus < 131072 → bus ∉ s.holes → Completes (.retpend bus) s fun t =>
      t = { s with retiring := t.retiring, sysPend := t.sysPend } ∧ (∀ x, x ∈ t.retiring ↔ x ∈ s.retiring ∨ x = bus) ∧
      t.sysPend = s.sysPend ++ [⟨cRETPEND, 0, BitVec.ofNat 64 (bus / 16 + bus % 16 / 4 * 2 ^ 16 + bus % 4 * 2 ^ 18)⟩]) ∧
    (∀ bus, bus < 131072 → bus ∉ s.holes → Completes (.busFail bus) s fun t =>
      (∀ x, x ∈ t.holes ↔ x ∈ s.holes ∨ x = bus) ∧ bus ∉ t.retiring ∧ t.mem = s.mem ∧
      t.sysPend = s.sysPend ++
        [⟨cRETPEND, 0, BitVec.ofNat 64 (bus / 16 + bus % 16 / 4 * 2 ^ 16 + bus % 4 * 2 ^ 18 + 2 ^ 20)⟩] ∧
      ∀ ctx slot c f, s.findCtx ctx = some c → c.frame slot = some f →
        let on := f.park = false ∧ f.lb < bus % 16 * 16384 + 16384 ∧ bus % 16 * 16384 < f.lb + s.frameShare f ∧
          s.onPlot f (bus / 16) = true
        (on → ((t.findCtx ctx).bind fun c => c.frame slot) = some { f with wd := true }) ∧
        (¬on → ((t.findCtx ctx).bind fun c => c.frame slot) = some f)) ∧
    (∀ bus, bus ∈ s.holes → (Completes (.retpend bus) s fun t => t = s) ∧ Completes (.busFail bus) s fun t => t = s) ∧
    (∀ p : Fin 48, (s.featZynfy = true → Completes (.zynfyPortChange p true) s fun t => t = { s with ports := t.ports } ∧
        ∀ i : Nat, t.ports.getLsbD i = (s.ports.getLsbD i || i == p.val)) ∧
      (s.featZynfy = false → Completes (.zynfyPortChange p true) s fun t => t = s) ∧
      Completes (.zynfyPortChange p false) s fun t => t = { s with ports := t.ports } ∧
        ∀ i : Nat, t.ports.getLsbD i = (s.ports.getLsbD i && i != p.val)))

/-- R368, R373, R326, R109: an access of a host function through its window. A width, place or alignment that an access
may not have is an unsupported request, and a write of it is dropped; a slot that maps no page, a write to a read-only
page, or a byte whose target gives the class no right is refused and counted, and of a write the bytes that are
accepted are still stored. Otherwise a read answers the bytes, and tells whether they are poisoned, a write stores
them, poisoned where its data arrive so, and an atomic stores the new value and answers the old one. `w` is the state
once the window's entry has been read.

R369, R370, R373: the feature registers in BAR0 of function 0, and a pending MSI-X message, which is sent as its
vector is unmasked; a vector can be masked again. `FEATA` takes one write, of what is offered; a later one is noted in
`FEATERR` and changes nothing.

That the right of a window access is judged byte by byte, that a store may be performed in part, and which requests are
unsupported are the model's, read from the rules by inference (notes/assumptions/64.md). -/
def Obligations.HostAccessesAnswer : Prop :=
  (∀ (s : State) (fn : Fin 32) (off : Nat) (bad : Bool),
    let page := s.windowPage fn.val (off / 65536)
    let w := s.eccRead [s.windowEntry fn.val (off / 65536)]
    let refused := fun (t : State) => t.mem = w.mem ∧ t.errlog.length = w.errlog.length + 1 ∧
      (w.dreg (controlBase + 0x28) ≠ BitVec.allOnes 64 →
        t.dreg (controlBase + 0x28) = w.dreg (controlBase + 0x28) + 1)
    let fits := fun (n : Nat) => off < 2 ^ 36 ∧ off % 65536 + n ≤ 65536 ∧ n ≠ 0
    let may := fun (acc : Access) (k : Nat) => w.granted fn.val acc (w.route k) = true
    (∀ d n, ¬fits n → Completes (.hostBarAccess fn false .read off ⟨d, bad⟩ n) s fun t =>
      t = { s with answers := s.answers ++ [.hostUnsupported fn.val] }) ∧
    (∀ d n, ¬fits d.length → Completes (.hostBarAccess fn false .write off ⟨d, bad⟩ n) s fun t => t = s) ∧
    (∀ d n, fits n → page = none ∨ (∃ p wr, page = some (p, wr) ∧ ∃ o < n, ¬may .read (p + off % 65536 + o)) →
      Completes (.hostBarAccess fn false .read off ⟨d, bad⟩ n) s fun t => refused t ∧ t.answers = w.answers ++ [.hostAbort fn.val]) ∧
    (∀ d n, fits d.length → page = none ∨ (∃ p, page = some (p, false)) ∨
        (∃ p, page = some (p, true) ∧ ∀ o < d.length, ¬may .write (p + off % 65536 + o)) →
      Completes (.hostBarAccess fn false .write off ⟨d, bad⟩ n) s fun t => refused t ∧ t.answers = w.answers) ∧
    (∀ p wr d n, fits n → page = some (p, wr) → (∀ o < n, may .read (p + off % 65536 + o)) → s.MemOk →
      let r := w.eccRead ((List.range n).map fun o => p + off % 65536 + o)
      Completes (.hostBarAccess fn false .read off ⟨d, bad⟩ n) s fun t => s.SameBytes t ∧ t.answers = r.answers ++
        [.hostRead fn.val (s.readBytes (p + off % 65536) n) ((List.range n).any fun o => r.isPoisoned (p + off % 65536 + o))]) ∧
    (∀ p d n, fits d.length → page = some (p, true) → s.MemOk → s.PairsOk → (∃ o < d.length, may .write (p + off % 65536 + o)) →
      Completes (.hostBarAccess fn false .write off ⟨d, bad⟩ n) s fun t => t.answers = w.answers ∧
        (∀ o < d.length, (may .write (p + off % 65536 + o) → t.byteAt (p + off % 65536 + o) = d.getD o 0 ∧
            (bad = true → t.isPoisoned (p + off % 65536 + o) = true)) ∧
          (¬may .write (p + off % 65536 + o) → t.byteAt (p + off % 65536 + o) = s.byteAt (p + off % 65536 + o))) ∧
        s.SameBytesBut t (p + off % 65536) d.length ∧
        ((∃ o < d.length, ¬may .write (p + off % 65536 + o)) →
          t.dreg (controlBase + 0x28) = if w.dreg (controlBase + 0x28) = BitVec.allOnes 64 then BitVec.allOnes 64
            else w.dreg (controlBase + 0x28) + 1)) ∧
    (∀ p k addend, off < 2 ^ 36 → off % 4 = 0 → page = some (p, true) → s.MemOk → s.PairsOk → s.hbmErr = [] →
      k = p + off % 65536 → (∀ o < 4, may .atomic (k + o)) → k % 64 ≠ 0 ∨ s.graphOwner (k / 65536) = none →
      Completes (.hostFetchadd fn off addend) s fun t =>
        t.answers = s.answers ++ [.hostRead fn.val (s.readBytes k 4) ((List.range 4).any fun o => s.isPoisoned (k + o))] ∧
        t.readNat k 4 = (s.readNat k 4 + addend.toNat) % 2 ^ 32 ∧ s.SameBytesBut t k 4) ∧
    (∀ p d n l, l = 4 ∨ l = 8 → off < 2 ^ 36 → off % l = 0 → page = some (p, true) → s.MemOk → s.PairsOk →
      s.hbmErr = [] → (∀ o < l, may .atomic (p + off % 65536 + o)) →
      (p + off % 65536) % 64 ≠ 0 ∨ s.graphOwner ((p + off % 65536) / 65536) = none →
      let answers := fun (t : State) => s.SameBytesBut t (p + off % 65536) l ∧ t.answers = s.answers ++
        [.hostRead fn.val (s.readBytes (p + off % 65536) l) ((List.range l).any fun o => s.isPoisoned (p + off % 65536 + o))]
      (d.length = l → Completes (.hostBarAccess fn false .swap off ⟨d, bad⟩ n) s fun t =>
        t.readBytes (p + off % 65536) l = d ∧ answers t) ∧
      (d.length = 2 * l → Completes (.hostBarAccess fn false .cas off ⟨d, bad⟩ n) s fun t => answers t ∧
        t.readBytes (p + off % 65536) l = if s.readBytes (p + off % 65536) l = d.take l then d.drop l
          else s.readBytes (p + off % 65536) l))) ∧
  (∀ (s : State) (bad : Bool),
    let once := fun (t : State) (v : Word) =>
      t.featWritten = true ∧ (s.featWritten = false → t.feata = v &&& featOffer ∧ t = { s with dregs := t.dregs, featWritten := true }) ∧
      (s.featWritten = true → t.feata = s.feata ∧ t.dreg (controlBase + 0x20) = 1 ∧ t = { s with dregs := t.dregs })
    (∀ d n, d.length = 8 → (s.tableEntry 58 0).getLsbD 3 = true →
      Completes (.hostBarAccess 0 true .write 0x10 ⟨d, bad⟩ n) s fun t => once t (BitVec.ofNat 64 (ofBytesLE d))) ∧
    (∀ d, (s.tableEntry 58 0).getLsbD 0 = true →
      (Completes (.hostBarAccess 0 true .read 0 ⟨d, bad⟩ 8) s fun t =>
        t = { s with answers := s.answers ++ [.hostRead 0 (bytesLE 8 featOffer.toNat) false] }) ∧
      Completes (.hostBarAccess 0 true .read 0x10 ⟨d, bad⟩ 8) s fun t =>
        t = { s with answers := s.answers ++ [.hostRead 0 (bytesLE 8 s.feata.toNat) false] }) ∧
    (∀ d, (s.tableEntry 58 0).getLsbD 0 = false → Completes (.hostBarAccess 0 true .read 0 ⟨d, bad⟩ 8) s fun t =>
      t.answers = s.answers ++ [.hostAbort 0] ∧ t.errlog.length = s.errlog.length + 1 ∧ t.feata = s.feata) ∧
    (∀ v, (s.tableEntry 58 32).getLsbD 3 = true → Completes (.feataWrite v) s fun t => once t v) ∧
    (∀ v, (s.tableEntry 58 32).getLsbD 3 = false → Completes (.feataWrite v) s fun t =>
      t.feata = s.feata ∧ t.featWritten = s.featWritten ∧ t.errlog.length = s.errlog.length + 1) ∧
    (∀ (fn : Fin 32) (vec : Nat), vec < 2048 →
      (Completes (.msixUnmask ⟨fn, false⟩ vec) s fun t =>
        (fn.val, vec) ∈ t.msixOn ∧ (fn.val, vec) ∉ t.msixPend ∧
        t = { s with msixOn := t.msixOn, msixPend := t.msixPend, answers := t.answers } ∧
        t.answers = s.answers ++ if (fn.val, vec) ∈ s.msixPend then [.msix fn.val vec] else []) ∧
      Completes (.msixUnmask ⟨fn, true⟩ vec) s fun t => t = { s with msixOn := t.msixOn } ∧
        ∀ x, x ∈ t.msixOn ↔ x ∈ s.msixOn ∧ x ≠ (fn.val, vec)))

/-- R113, R284, R334, R356, R367, R371, R373: accesses to the part's registers, of 8 aligned bytes. A plain register takes
the bits that it has; a queue's weight of 0 is stored as 1; a span-table entry that a stream runs on or a frame names
stands. A palette entry changes only while no granule of its channel holds its code and no other entry its pattern;
otherwise the write is rejected and noted. An access table changes only under the administration right, and reads need
the right to read.

R94, R151, R286, R369: Pavilion OS creates a context, gives it its function, and reads and writes the 32-byte entries
of its frame table while no stream of the context is on a Bandstand. Where those registers lie is the model's choice
(notes/assumptions/94.md), as it is that an address which no table lists keeps nothing (notes/assumptions/4.md). -/
def Obligations.RegisterWritesStore : Prop :=
  (∀ s : State,
    let plain := fun (pa : Nat) => pa % 8 = 0 ∧ ¬(tableBase ≤ pa ∧ pa < tableBase + 512 * 62) ∧ pa ≠ controlBase + 0x10 ∧
      ¬(channelBase ≤ pa ∧ pa < controlBase ∧ 0x010 ≤ pa % 4096 ∧ pa % 4096 < 0x080) ∧ pa < State.recordBase
    let kept := fun (pa : Nat) => arbourBase + 0x10000 ≤ pa ∧ pa < arbourBase + 0x20000 ∧
      s.spanKept ((pa - arbourBase - 0x10000) / 256) = true
    (∀ cls pa v, plain pa → s.mayConfigure cls pa = true →
      (State.regMask pa = 0 ∨ kept pa → Completes (.registerWrite ⟨cls, pa, 8⟩ (some v)) s fun t => t = s) ∧
      (State.regMask pa ≠ 0 → ¬kept pa → Completes (.registerWrite ⟨cls, pa, 8⟩ (some v)) s fun t => t = { s with dregs := t.dregs } ∧
        (∀ p, p ≠ pa → t.dreg p = s.dreg p) ∧
        ((pa < arbourBase + 0x1000 ∨ arbourBase + 0x1800 ≤ pa) → (pa % 4096 ≠ 0 ∨ pa < channelBase ∨ controlBase ≤ pa) →
          t.dreg pa = (s.dreg pa &&& ~~~State.regMask pa) ||| (v &&& State.regMask pa)))) ∧
    (∀ cls q v, q < 256 → (s.tableEntry 56 cls).getLsbD 3 = true →
      Completes (.registerWrite ⟨cls, arbourBase + 0x1000 + 8 * q, 8⟩ (some v)) s fun t =>
        t.qLevel q = v.toNat % 8 ∧ t.qAge q = v.toNat / 2 ^ 16 % 2 ^ 16 ∧ t.qNoPre q = v.getLsbD 40 ∧
        t.qWeight q = if v.toNat / 2 ^ 32 % 2 ^ 8 = 0 then 1 else v.toNat / 2 ^ 32 % 2 ^ 8) ∧
    (∀ cls pa len v, (pa % 8 ≠ 0 ∨ len ≠ 8) ∨ plain pa ∧ s.mayConfigure cls pa = false →
      Completes (.registerWrite ⟨cls, pa, len⟩ (some v)) s fun t =>
        t.mem = s.mem ∧ t.errlog.length = s.errlog.length + 1 ∧ ∀ p, p ≠ controlBase + 0x28 → t.dreg p = s.dreg p) ∧
    (∀ cls pa len, let may := pa % 8 = 0 ∧ len = 8 ∧ (s.tableEntry (State.targetOf pa) cls).getLsbD 0 = true
      (may → Completes (.registerWrite ⟨cls, pa, len⟩ none) s fun t =>
        t = { s with answers := s.answers ++ [.regRead cls (s.readReg pa) false] }) ∧
      (¬may → Completes (.registerWrite ⟨cls, pa, len⟩ none) s fun t => t.mem = s.mem ∧ t.errlog.length = s.errlog.length + 1 ∧
        ∃ v, t.answers = s.answers ++ [.regRead cls v true])) ∧
    ((∀ q < 256, s.readReg (arbourBase + 0x1800 + 8 * q) = s.qstat q) ∧
      (∀ ch < 256, ∀ k < 15, s.readReg (chReg ch (0x080 + 8 * k)) = BitVec.ofNat 64 (s.chpop ch (k + 1))) ∧
      ∀ pa, plain pa → State.regMask pa ≠ 0 → s.readReg pa = s.dreg pa) ∧
    (∀ (ch : Fin 256) (k : Fin 14) v, (s.tableEntry 57 32).getLsbD 3 = true →
      let pat := v &&& 0xFFFFFFFF
      let free := s.chpop ch.val (k.val + 2) = 0 ∧
        (pat = 0 ∨ ∀ j : Fin 14, j ≠ k → s.dreg (chReg ch.val (0x010 + 8 * j.val)) ≠ pat)
      (free → Completes (.chpalWrite ch k v) s fun t => t = { s with dregs := t.dregs } ∧
        t.dreg (chReg ch.val (0x010 + 8 * k.val)) = pat ∧
        ∀ p, p ≠ chReg ch.val (0x010 + 8 * k.val) → t.dreg p = s.dreg p) ∧
      (¬free → Completes (.chpalWrite ch k v) s fun t => t = { s with dregs := t.dregs } ∧
        (t.dreg (chReg ch.val 0)).getLsbD 1 = true ∧ ∀ p, p ≠ chReg ch.val 0 → t.dreg p = s.dreg p)) ∧
    (∀ cls k m v, cls < 53 → k < 62 → m < 64 →
      let pa := tableBase + 512 * k + 8 * m
      ((s.tableEntry k cls).getLsbD 4 = true ∨ (s.tableEntry 59 cls).getLsbD 4 = true →
        Completes (.accessTableWrite cls pa v) s fun t => t = { s with dregs := t.dregs } ∧
          s.SameBytes t ∧ t.tableEntry k m = v &&& 0x1F ∧ ∀ p, p ≠ pa → t.dreg p = s.dreg p) ∧
      ((s.tableEntry k cls).getLsbD 4 = false → (s.tableEntry 59 cls).getLsbD 4 = false →
        Completes (.accessTableWrite cls pa v) s fun t => t.tableEntry k m = s.tableEntry k m ∧
          t.errlog.length = s.errlog.length + 1))) ∧
  (∀ (s : State) (ctx cls : Nat), ctx < 65536 →
    let entry := fun (slot w : Nat) => State.recordBase + 8192 * ctx + 32 * slot + 8 * w
    let word := fun (w : Nat) => State.recordBase + 65536 * 8192 + 256 * ctx + 8 * w
    let idle := ∀ b ∈ s.me :: s.bands, ¬(b.status = .run ∧ b.ctx = ctx)
    ((s.tableEntry 60 cls).getLsbD 3 = true → s.findCtx ctx = none → ∀ v : Word, v.getLsbD 63 = true →
      Completes (.registerWrite ⟨cls, word 0, 8⟩ (some v)) s fun t => t = { s with ctxs := t.ctxs } ∧ ∃ c : Ctx,
        t.ctxs = s.ctxs ++ [c] ∧ c.id = ctx ∧ c.ptRoot = v.toNat % 2 ^ 48 ∧ c.fn = (s.dreg (word 1)).toNat % 32 ∧
        c.frames = [] ∧ c.bindings = [] ∧ c.shadows = [] ∧ c.killed = false ∧ c.groups.length = 16 ∧
        ∀ g < 16, (c.groups[g]?).join = if (s.dreg (word (g + 2))).getLsbD 63 = true
          then some ((s.dreg (word (g + 2))).toNat % 256) else none) ∧
    ∀ c, s.findCtx ctx = some c → ∀ slot w, slot < 256 → w < 4 →
      ((s.tableEntry 60 cls).getLsbD 0 = true → ∀ f, c.frame slot = some f →
        Completes (.registerWrite ⟨cls, entry slot w, 8⟩ none) s fun t => t.answers = s.answers ++
          [.regRead cls (match w with
            | 0 => BitVec.ofNat 64 (packFields [(7, 0), (1, bitOf f.tv), (18, f.lb), (4, f.log2n), (13, f.start), (8, f.spane),
                (6, tyFCode f.ty), (2, match f.geom with
                  | none => 0
                  | some .mx32 => 1
                  | some .mx16 => 2), (1, bitOf f.run), (1, bitOf f.park), (1, bitOf f.wd), (1, bitOf f.keep), (1, 1)])
            | 1 => BitVec.ofNat 64 f.size
            | 2 => BitVec.ofNat 64 f.expiry
            | _ => f.fartag) false]) ∧
      ((s.tableEntry 60 cls).getLsbD 3 = true → idle → ∀ f (v : Word), c.frame slot = some f →
        (w = 1 → Completes (.registerWrite ⟨cls, entry slot w, 8⟩ (some v)) s fun t =>
          ((t.findCtx ctx).bind fun c => c.frame slot) = some { f with size := v.toNat }) ∧
        (w = 2 → Completes (.registerWrite ⟨cls, entry slot w, 8⟩ (some v)) s fun t =>
          ((t.findCtx ctx).bind fun c => c.frame slot) = some { f with expiry := v.toNat }) ∧
        (w = 3 → Completes (.registerWrite ⟨cls, entry slot w, 8⟩ (some v)) s fun t =>
          ((t.findCtx ctx).bind fun c => c.frame slot) = some { f with fartag := v })) ∧
      ((s.tableEntry 60 cls).getLsbD 3 = true → ¬idle → ∀ v,
        Completes (.registerWrite ⟨cls, entry slot w, 8⟩ (some v)) s fun t => t = s))

/-- R117, R371, R373: an access of a peer that its class may make is performed at this device as the peer asks; without
the right, or where the memory target refuses it, it is refused and counted, and a read answers poisoned. While the ports
are down nothing arrives. What the poisoned data are is left open by the spec: a free value (notes/assumptions/105.md). -/
def Obligations.PeerAccessesAnswer : Prop :=
  ∀ (s : State) (dev pa op len : Nat) (d : List Byte) (bad : Bool),
    (s.featZynfy = false ∨ s.ports = 0 ∨ 4096 ≤ dev → ∀ k, Completes (.remoteAccess dev k pa op ⟨d, bad⟩ len) s fun t => t = s) ∧
    ∀ c, s.featZynfy = true → s.ports ≠ 0 → dev < 4096 → s.peerClass dev = some c →
      let e := s.dreg (tableBase + 512 * 61 + 8 * c)
      let here := isHbm pa = true ∨ (isCxl pa = true ∧ s.featCxl = true)
      let all := fun (k : Access) => ∀ o < max len d.length, s.granted c k (s.route (pa + o)) = true
      (e.getLsbD 0 = true → here → all .read → s.hbmErr = [] → Completes (.remoteAccess dev .read pa op ⟨d, bad⟩ len) s fun t =>
        t.mem = s.mem ∧ t.answers = s.answers ++ [.peerRead dev (s.readBytes pa len)
          ((List.range (max len d.length)).any fun o => s.isPoisoned (pa + o))]) ∧
      (e.getLsbD 1 = true → here → all .write → s.MemOk → s.PairsOk →
        Completes (.remoteAccess dev .write pa op ⟨d, bad⟩ len) s fun t => t.readBytes pa d.length = d ∧
          s.SameBytesBut t pa d.length ∧ t.answers = s.answers ++ [.peerDone dev] ∧
          (bad = true → ∀ o < d.length, t.isPoisoned (pa + o) = true)) ∧
      (e.getLsbD 0 = false ∨ ¬here → Completes (.remoteAccess dev .read pa op ⟨d, bad⟩ len) s fun t =>
        t.mem = s.mem ∧ t.answers = s.answers ++ [.peerRead dev ((List.range len).map fun o => Config.refusedByte (pa + o)) true] ∧
        t.errlog.length = s.errlog.length + 1) ∧
      (e.getLsbD 1 = false ∨ ¬here → Completes (.remoteAccess dev .write pa op ⟨d, bad⟩ len) s fun t =>
        t.mem = s.mem ∧ t.answers = s.answers ++ [.peerRefused dev] ∧ t.errlog.length = s.errlog.length + 1) ∧
      (∀ ty : Ty, tyFOf (op / 8) = some (some ty) → op % 8 = 6 → ty.width / 8 ≤ d.length → pa % 64 ≠ 0 →
        e.getLsbD 2 = true → here → all .atomic → s.MemOk → s.PairsOk → s.hbmErr = [] →
        Completes (.remoteAccess dev .atomic pa op ⟨d, bad⟩ len) s fun t =>
          t.readBytes pa (ty.width / 8) = d.take (ty.width / 8) ∧ s.SameBytesBut t pa (ty.width / 8) ∧
          t.answers = s.answers ++ [.peerRead dev (s.readBytes pa (ty.width / 8))
            ((List.range (max len d.length)).any fun o => s.isPoisoned (pa + o))])

/-- R374, R376, R377, R378: the Lodge's commands. A command that is malformed answers 1, one that needs the main domain 2
while that is down (the part halted, or no rail on but the Lodge's), one that lacks its right 3 with the refusal
counted, injection without its feature 4; every other answers 0 with its payload. The error log answers up to 32
records from an index; staging never leaves a slot bootable, and a commit makes it so only when all three images
verify. A reset keeps the flash slots.

R108, R147, R344, R370, R373, R374: injection needs its feature, and what it strikes must grant the Lodge's write. A
Runner flip is armed for its bed; a pattern spoils a byte of an HBM sector in storage, or one of a check granule, which
changes no data, and no code or poison bit where no other byte of those words is struck; a flipped bit of a near word
stays to be corrected, and a second one makes the word uncorrectable.

When the main domain is down (notes/assumptions/92.md), what is malformed, how an injection names its target and how
the error log's records lie, and that a reset keeps the flash slots (notes/assumptions/14.md), and which right an
injection and `ATTEST` need (notes/assumptions/111.md), are the model's choices. -/
def Obligations.LodgeCommandsAnswer : Prop :=
  (∀ s : State,
    let tells := fun (t u : State) (status : Nat) (p : List Byte) => t = { u with answers := u.answers ++ [.lodge status p] }
    let down := s.phase = .halted ∨ ∀ i < 23, s.rails.getLsbD i = false
    let up := ¬down
    (Completes (.readErrorLog none) s fun t => tells t s 1 []) ∧
    (down → (Completes .readSensors s fun t => tells t s 2 []) ∧
      (∀ n, n.length = 32 → Completes (.attest n) s fun t => tells t s 2 []) ∧
      ∀ w, 1000 ≤ w → w ≤ 2400 → Completes (.setPowerCap w) s fun t => tells t s 2 []) ∧
    (up → (s.tableEntry 58 33).getLsbD 0 = true → Completes .readSensors s fun t => ∃ p,
      tells t { s with nextFree := s.nextFree + 1 } 0 p ∧ p.length = 12 ∧ p.drop 10 = bytesLE 2 (s.dreg (controlBase + 0x300)).toNat) ∧
    (up → (s.tableEntry 58 33).getLsbD 0 = false → Completes .readSensors s fun t =>
      t.answers = s.answers ++ [.lodge 3 []] ∧ t.errlog.length = s.errlog.length + 1) ∧
    (∀ n, n ≠ 0xFFFF → Completes (.readErrorLog (some n)) s fun t =>
      tells t s 0 (((s.errlog.drop n).take 32).flatMap fun r =>
        bytesLE 8 r.time ++ bytesLE 4 r.source ++ bytesLE 4 r.cause ++ bytesLE 8 r.addr)) ∧
    (Completes (.readErrorLog (some 0xFFFF)) s fun t => tells t s 0 Config.certificate) ∧
    (∀ w, w < 1000 ∨ 2400 < w → Completes (.setPowerCap w) s fun t => tells t s 1 []) ∧
    (∀ w, 1000 ≤ w → w ≤ 2400 → up → (s.tableEntry 58 33).getLsbD 3 = true → Completes (.setPowerCap w) s fun t =>
      t = { s with dregs := t.dregs, answers := t.answers } ∧ t.answers = s.answers ++ [.lodge 0 []] ∧
      (t.dreg (controlBase + 0x300)).toNat = w ∧ ∀ p, p ≠ controlBase + 0x300 → t.dreg p = s.dreg p) ∧
    (∀ n o d, 1024 < d.length ∨ 2 ≤ n → Completes (.firmwareStage n o d) s fun t => tells t s 1 []) ∧
    (∀ n o d, n < 2 → let b := decide (n = 1); d.length ≤ 1024 → Completes (.firmwareStage n o d) s fun t => t.answers = s.answers ++ [.lodge 0 []] ∧
      (t.flashSlot b).bootable = false ∧ t.flashSlot (!b) = s.flashSlot (!b) ∧ t.mem = s.mem ∧
      (∀ i, i < d.length → assoc (t.flashSlot b).staged (o + i) = d[i]?) ∧
      ∀ k, k < o ∨ o + d.length ≤ k → assoc (t.flashSlot b).staged k = assoc (s.flashSlot b).staged k) ∧
    (∀ n, 2 ≤ n → Completes (.firmwareCommit n) s fun t => tells t s 1 []) ∧
    (∀ n < 2, let b := decide (n = 1)
      let x := Config.slotImages (s.flashSlot b).staged
      let good := imageOk x.1 x.2.1 = true ∧ imageOk x.1 x.2.2.1 = true ∧ imageOk x.1 x.2.2.2 = true
      (good → Completes (.firmwareCommit n) s fun t => t.answers = s.answers ++ [.lodge 0 [1]] ∧
        (t.flashSlot b).bootable = true ∧ (t.flashSlot b).stage1 = x.2.1 ∧ (t.flashSlot b).fw = x.2.2.1 ∧
        (t.flashSlot b).os = x.2.2.2 ∧ t.flashSlot (!b) = s.flashSlot (!b)) ∧
      (¬good → Completes (.firmwareCommit n) s fun t => tells t s 3 [0])) ∧
    (∀ n, n.length ≠ 32 → Completes (.attest n) s fun t => tells t s 1 []) ∧
    (∀ n, n.length = 32 → up → (s.tableEntry 58 33).getLsbD 0 = false → Completes (.attest n) s fun t =>
      t.answers = s.answers ++ [.lodge 3 []] ∧ t.errlog.length = s.errlog.length + 1) ∧
    (∀ n, n.length = 32 → up → (s.tableEntry 58 33).getLsbD 0 = true → Completes (.attest n) s fun t => ∃ p, tells t s 0 (p ++ (Config.attestSignature p).toList) ∧
      p.take 32 = n ∧ (p.drop 32).take s.measure.flatten.length = s.measure.flatten ∧
      (p.length = 304 → (p ++ (Config.attestSignature p).toList).length = 688)) ∧
    (∀ d, 2 ≤ d → Completes (.reset d) s fun t => tells t s 1 []) ∧
    (∀ d, d < 2 → Completes (.reset d) s fun t => t.phase = .rom ∧ t.me = State.reset.me ∧ t.bands = State.reset.bands ∧
      t.dregs = [] ∧ t.ctxs = [] ∧ t.feata = 0 ∧ (∀ b, (t.flashSlot b).bootable = (s.flashSlot b).bootable ∧
        (t.flashSlot b).stage1 = (s.flashSlot b).stage1) ∧ t.errlog = (if d = 1 then s.errlog else []) ∧
      ∀ k, isHbm k = true ∨ isNear k = true → t.byteAt k = 0)) ∧
  (∀ (s : State) (x : InjectF), s.mainDown = false →
    (s.featInject = false ∨ featOffer.getLsbD 6 = false → Completes (.inject x) s fun t =>
      t = { s with answers := s.answers ++ [.lodge 4 []] }) ∧
    (s.featInject = true → featOffer.getLsbD 6 = true →
      let near := nearKey x.target x.off
      let barred := Completes (.inject x) s fun t => t.mem = s.mem ∧ t.hbmErr = s.hbmErr ∧ t.nearFlip = s.nearFlip ∧
        t.nearUE = s.nearUE ∧ t.answers = s.answers ++ [.lodge 3 []] ∧ t.errlog.length = s.errlog.length + 1
      (x.kind = 0 → x.target < 128 → x.arg < 8 → Completes (.inject x) s fun t =>
        t = { s with flips := s.flips ++ [(x.target, x.off, x.arg)], answers := s.answers ++ [.lodge 0 []] }) ∧
      (x.kind = 1 → x.target = 0 → isHbm x.off = true → x.arg < 256 → s.granted 33 .write x.off = false → barred) ∧
      (∀ c < 256, x.kind = 1 → x.target = c + 1 → 3840 ≤ x.off % 4096 → x.off < 2 ^ 31 → x.arg < 256 →
        (s.tableEntry (c / 8) 33).getLsbD 1 = false → barred) ∧
      (x.kind = 2 → x.target < 8192 → x.off < 2 ^ 18 → x.arg < 72 → s.granted 33 .write near = false → barred) ∧
      (x.kind = 1 → x.target = 0 → isHbm x.off = true → x.arg < 256 → s.granted 33 .write x.off = true → s.MemOk →
        Completes (.inject x) s fun t =>
        (∀ k, isHbm k = true → t.rawByte k = if k = x.off then s.rawByte k ^^^ BitVec.ofNat 8 x.arg else s.rawByte k) ∧
        t.answers = s.answers ++ [.lodge 0 []]) ∧
      (∀ c < 256, x.kind = 1 → x.target = c + 1 → 3840 ≤ x.off % 4096 → x.off < 2 ^ 31 → x.arg < 256 →
        (s.tableEntry (c / 8) 33).getLsbD 1 = true →
        (x.off % 4096 < 4080 ∨ ∀ e ∈ s.hbmErr, sectorOf e.1 = chunkSector c (x.off / 4096) → e.1 = checkKey c x.off) →
        Completes (.inject x) s fun t => t = { s with hbmErr := t.hbmErr, answers := s.answers ++ [.lodge 0 []] } ∧
          t.checkByte c (x.off / 4096) (x.off % 4096 - 3840) =
            s.checkByte c (x.off / 4096) (x.off % 4096 - 3840) ^^^ BitVec.ofNat 8 x.arg ∧ ∀ k, t.rawByte k = s.rawByte k) ∧
      (x.kind = 2 → x.target < 8192 → x.off < 2 ^ 18 → x.arg < 72 → s.granted 33 .write near = true →
        Completes (.inject x) s fun t =>
        let w := near / 8
        t.mem = s.mem ∧ t.answers = s.answers ++ [.lodge 0 []] ∧
        (assoc s.nearFlip w = none → assoc t.nearFlip w = some x.arg ∧ t.nearUE = s.nearUE) ∧
        (∀ c, assoc s.nearFlip w = some c → assoc t.nearFlip w = none ∧
          (c ≠ x.arg → w ∈ t.nearUE) ∧ (c = x.arg → t.nearUE = s.nearUE))) ∧
      (3 ≤ x.kind → Completes (.inject x) s fun t => t = { s with answers := s.answers ++ [.lodge 1 []] })))

/-- R375, R376, R114: the boot. The ROM takes the first slot whose stage 1 it may start, and halts the part where there is
none; a measurement register is extended by what is started; device firmware clears memory and the Span table;
Pavilion OS starts the supervisor stream on Bandstand 63 in supervisor mode. A step out of its turn does nothing. That
only a bootable slot is taken (notes/assumptions/14.md), and the supervisor's context and start values
(notes/assumptions/15.md), are the model's choices. -/
def Obligations.BootVerifiesAndStarts : Prop :=
  ∀ s : State,
    let good := fun (f : Flash) => f.bootable = true ∧ imageOk f.key f.stage1 = true
    let extended := fun (t : State) (k : Nat) (x : Image) =>
      t.measure[k]? = (s.measure[k]?).map fun m => sha256 (m ++ sha256 (imageMessage x))
    (s.phase = .rom →
      (¬good s.flashA → ¬good s.flashB → Completes .romBoot s fun t => t = { s with phase := .halted, answers := t.answers }) ∧
      (good s.flashA → Completes .romBoot s fun t => t.phase = .stage1 ∧ t.bootB = false ∧ extended t 0 s.flashA.stage1 ∧
        t = { s with phase := .stage1, bootB := false, measure := t.measure, versions := t.versions }) ∧
      (¬good s.flashA → good s.flashB → Completes .romBoot s fun t => t.phase = .stage1 ∧ t.bootB = true ∧
        extended t 0 s.flashB.stage1)) ∧
    (s.phase = .stage1 →
      let f := s.flashSlot s.bootB
      let ok := imageOk f.key f.fw = true ∧ imageOk f.key f.os = true
      (ok → Completes .stage1Verify s fun t => t.phase = .firmware ∧ extended t 1 f.fw ∧ extended t 2 f.os) ∧
      (¬ok → Completes .stage1Verify s fun t => t = { s with phase := .halted, answers := t.answers })) ∧
    (s.phase = .firmware → s.pairs = [] → Completes .deviceFirmwareInit s fun t => t.phase = .pavilion ∧
      (∀ k, isHbm k = true → t.byteAt k = 0 ∧ t.isPoisoned k = false) ∧ (∀ e < 256, t.spanNB e = 0) ∧ 50000 ≤ t.retn.toNat ∧
      t.retiring = [] ∧ ∀ b ∈ t.holes, b < 131072) ∧
    (s.phase = .pavilion → (s.me.id = 63 ∨ ∃ x ∈ s.bands, x.id = 63) → Completes .pavilionStart s fun t => t.phase = .up ∧
      ∃ x ∈ t.me :: t.bands, x.id = 63 ∧ x.supv = true ∧ x.status = .run ∧ x.ctx = 0 ∧ x.pc = Config.supervisorEntry ∧
        x.reg 1 = Config.supervisorArg ∧ (∀ r, 1 < r.val → x.reg r = 0) ∧ x.seq = 1 ∧ x.sid = s.nextSid) ∧
    (s.phase ≠ .rom → Completes .romBoot s fun t => t = s) ∧ (s.phase ≠ .stage1 → Completes .stage1Verify s fun t => t = s) ∧
    (s.phase ≠ .firmware → Completes .deviceFirmwareInit s fun t => t = s) ∧
    (s.phase ≠ .pavilion → Completes .pavilionStart s fun t => t = s)

/-! ### The machine -/

/-- R8, R10, R31, R118, spec/95: a turn of a running stream runs exec of the instruction that the word at its pc decodes
to, as that stream, once the word has been read and every pair in FLIP that holds it is flipped, unless what the flip
waits for has sent the stream elsewhere; a turn of the part runs exec of its step. Time passes with either, by the
turn's cycles and those by which the governor delays it, and nothing else is added but the Keepers' renewals. A halted
part answers only the Lodge. -/
def Obligations.StepRunsTheInstruction : Prop :=
  ∀ (s : State) (n d : Nat),
    let rest : State := { s with agenda := s.agenda.tail }
    (∀ b hold fills t w i, s.nextTurn = ⟨n, d, .issue b hold fills⟩ → s.phase ≠ .halted → rest.swapIn b = some t →
      t.me.status = .run → t.me.list = none →
      let u := State.fetchReads { t with holdBack := hold, fills } t.me.pc.toNat
      u.fetchWord u.me.pc.toNat = some w → decode w = .ok i →
      (opcOf w = 0x10C → u.me.pfx = none → u.fetchWord (u.me.pc + 16).toNat ≠ none) →
      let f := u.flipFirst i
      let stays := f.me.status = .run ∧ f.me.pc = u.me.pc ∧ f.me.pfx = u.me.pfx
      (stays → step s = State.afterTurn s.nextTurn (exec i f)) ∧
      (¬stays → step s = State.afterTurn s.nextTurn (.next f)) ∧ ((∀ p ∈ u.pairs, p.moved < 256) → f = u) ∧
      u.me = t.me ∧ (t.hbmErr = [] → u = { t with holdBack := hold, fills })) ∧
    (∀ e, s.nextTurn = ⟨n, d, .event e⟩ → s.phase ≠ .halted ∨ State.lodgeCommand e = true → e.isWord = false →
      let u : State := { rest with holdBack := false, fills := false }
      (∀ p ∈ s.pairs, p.moved < 256) → step s = State.afterTurn s.nextTurn (exec e u)) ∧
    (∀ who t u, State.afterTurn ⟨n, d, who⟩ (.next t) = .next u → u.now = t.now + n + d ∧ u.me = t.me ∧ u.bands = t.bands ∧
      u.mem = t.mem ∧ u.pairs = t.pairs ∧
      u.dreg (controlBase + 0x308) = t.dreg (controlBase + 0x308) + BitVec.ofNat 64 d ∧
      (∀ p, p ≠ controlBase + 0x308 → p ≠ controlBase + 0x28 → u.dreg p = t.dreg p) ∧
      ((∀ c ∈ t.ctxs, ∀ f ∈ c.frames, f.keep = false) → u = { t with now := u.now, dregs := u.dregs })) ∧
    (s.phase = .halted → (∀ b hold fills, s.nextTurn = ⟨n, d, .issue b hold fills⟩ → step s = .fault .halted) ∧
      ∀ e, s.nextTurn = ⟨n, d, .event e⟩ → State.lodgeCommand e = false → step s = .fault .halted)

/-- R10, R31, R34, R317: what stops a word before it issues, once every earlier instruction has finished (`v`): a word
with no form is `ILLEGAL`, a word that cannot be fetched `IFETCH` with `EPC` and `EADDR` the page's first address, the
target word of a prefix `IFETCH` at the prefix. Where the page can be translated and the word cannot be fetched they
name the word, which is read from R34 by inference (notes/assumptions/37.md); where no leaf maps the address, which
page's start they name is the model's choice (notes/assumptions/93.md). -/
def Obligations.WordsThatDoNotIssue : Prop :=
  ∀ (s t v : State) (n d : Nat) (b : Fin 64) (hold fills : Bool), s.nextTurn = ⟨n, d, .issue b hold fills⟩ → s.phase ≠ .halted →
    State.swapIn { s with agenda := s.agenda.tail } b = some t → t.me.status = .run → t.me.list = none →
    let u := State.fetchReads { t with holdBack := hold, fills } t.me.pc.toNat
    u.settled = .ok v → v.CanTrap →
    (∀ w e, u.fetchWord u.me.pc.toNat = some w → decode w = .error e →
      (opcOf w = 0x10C → u.me.pfx = none → u.fetchWord (u.me.pc + 16).toNat ≠ none) →
      ∃ x, step s = .next (x.elapse n d) ∧ v.Denied x (v.noAddr cILLEGAL)) ∧
    (∀ w, u.fetchWord u.me.pc.toNat = some w → u.me.pfx = none → opcOf w = 0x10C →
      u.fetchWord (u.me.pc + 16).toNat = none →
      ∃ x, step s = .next (x.elapse n d) ∧
        (v.fetchReads (v.me.pc + 16).toNat).Denied x (preFault cIFETCH (v.me.pc + 16).toNat 0 opNone)) ∧
    (u.fetchWord u.me.pc.toNat = none → u.me.pfx.isSome = true →
      ∃ x, step s = .next (x.elapse n d) ∧ v.Denied x (preFault cIFETCH v.me.pc.toNat 0 opNone)) ∧
    (u.fetchWord u.me.pc.toNat = none → u.me.pfx = none →
      let at_ := match v.translate .exec false v.me.pc.toNat with
        | .ok _ => v.me.pc.toNat
        | .error _ => v.pageStart v.me.pc.toNat
      ∃ x, step s = .next (x.elapse n d) ∧
        v.InHandler x (preFault cIFETCH at_ 0 opNone) (BitVec.ofNat 64 at_) 0 [] ∧ x.me.seq = v.me.seq)

/-- R3, R9, R18 to R20, R41: words as the spec writes them out, and what they decode to. -/
def Obligations.DecodesTheSpecsWords : Prop :=
  let w := fun (a b c d : Nat) => BitVec.ofNat 128 (a * 2 ^ 96 + b * 2 ^ 64 + c * 2 ^ 32 + d)
  decode (w 0x3800004 0x14000000 0 0x60) = .ok (.addi ⟨false, 5, 0, 0x60⟩) ∧
  decode (w 0x380020C 0x24414644 0 0) = .ok (.ffma ⟨false, 9, 4, 5, 6, .f32⟩) ∧
  decode (w 0x7800428 0x18000000 0 0xFFFFFFFF) = .ok (.loop ⟨true, 6, 0xffffffff⟩) ∧
  decode (w 0x3800450 0x300100 0 0) = .ok (.csrw false 0x100 3) ∧
  decode (w 0x2484B600 0x10000819 0x2200 0x440380) = .ok (.vadd ⟨⟨0x2, false, true, some 1, 0x9, 0x3⟩, ⟨4, .unit, 0x8⟩,
    ⟨6, .stride, 0x0⟩, ⟨8, .once, 0x0⟩, some .f32, none, some ⟨3, true⟩, false⟩) ∧
  decode (w 0x3800800 0x10000018 0 0x391F00) = .ok (.vcvt ⟨⟨0x0, false, false, none, 0x0, 0x0⟩, ⟨4, .unit, 0x0⟩, ⟨6,
    .unit, 0x0⟩, some .e4m3, some .f32, none, false⟩) ∧
  decode (w 0x3800A00 0x210 0x1800 0x440F10) = .ok (.vcmp .lt ⟨⟨0x0, false, false, none, 0x0, 0x0⟩, 2, ⟨4, .unit, 0x0⟩,
    ⟨6, .unit, 0x0⟩, some .f32, none, none⟩) ∧
  decode (w 0x3800A04 0x312F0000 0 0) = .ok (.mand ⟨⟨0x0, false, false⟩, 3, 1, 2, none⟩) ∧
  decode (w 0x3800C00 0x10518702 0 0x11) = .ok (.calloc ⟨false, 4, some 5, 6, 7, false, none, some .f32⟩) ∧
  decode (w 0x3800C34 0x10600501 0 0) = .ok (.binit true ⟨false, 4, 6, 5⟩) ∧
  decode (w 0x3800E20 0x30000D00 0 0) = .ok (.tdrain ⟨false, 12, 0, 0, 13⟩) ∧
  decode (w 0x3800E30 0x10518709 0 0x7FF800) = .ok (.rcopy ⟨false, 4, 5, 6, 7, .sum, false, true, 0x0, 0x7ff800⟩) ∧
  decode (w 0x3800E60 0x24A00002 0 0) = .ok (.tlbi false (.page 9 10))

/-- R9, R17 to R20, R41, R42: no bit of an encoding is dropped: every well-formed instruction decodes from its word, and
every word that decodes is the word of its instruction. -/
def Obligations.EncodingsRoundTrip : Prop :=
  (∀ i : Instr, i.isWord = true → i.wf = true → decode (encode i) = .ok i) ∧
  ∀ (w : IWord) (i : Instr), decode w = .ok i → encode i = w ∧ i.isWord = true ∧ i.wf = true

/-- R100, R114, R288, R292, R334, R370, R372, R375: what reset leaves. HBM and near memory read 0, every granule holds
code 1, nothing is poisoned, no context, node, timer, pair or cached translation stands, a queue's weight is 1, no
feature is accepted, and the ROM boots. That a register of a stream is 0, that every rail is on and that near memory
reads 0 is the model's choice (notes/assumptions/1.md, 3.md, 6.md), as is that the Span table does
(notes/assumptions/4.md). -/
def Obligations.ResetLeavesTheSpecsValues : Prop :=
  let s := State.reset
  (∀ k, s.byteAt k = 0) ∧ (∀ g, s.codeOf g = 1) ∧ s.poison = [] ∧ s.ctxs = [] ∧ s.ready = [] ∧ s.nodes = [] ∧ s.timers = [] ∧
  s.stopped = [] ∧ s.pairs = [] ∧ s.tlb = [] ∧ s.dcache = [] ∧ s.phase = .rom ∧ s.feata = 0 ∧ s.featWritten = false ∧ s.now = 0 ∧
  s.rails = BitVec.allOnes 24 ∧ s.ports = 0 ∧
  (∀ q, q < 256 → s.qWeight q = 1 ∧ s.qLevel q = 0 ∧ s.qAge q = 0 ∧ s.qNoPre q = false ∧ s.spsave q = 0 ∧ s.spanNB q = 0) ∧
  (∀ k, k < 62 → s.tableEntry k 32 = 0x1F ∧ s.tableEntry k 33 = 0x1F ∧ s.tableEntry k 0 = 0) ∧
  (∀ b : Fin 64, ∃ x ∈ s.me :: s.bands, x = Band.reset b) ∧
  (∀ (b : Fin 64) (r : Reg), (Band.reset b).reg r = 0 ∧ (Band.reset b).supv = (b == 63) ∧ (Band.reset b).status = .free) ∧
  s.MemOk ∧ s.PairsOk ∧ s.ModesOk

/-- R118, R120: every step keeps memory in its canonical form, and no page in two pairs. -/
def Obligations.StepKeepsMemory : Prop :=
  ∀ s t : State, step s = .next t → s.MemOk → s.PairsOk → t.MemOk ∧ t.PairsOk

/-- R283, R293, R315: no step changes a mode: Bandstand 63 runs in supervisor mode, every other one, and every stopped
stream, in user mode. -/
def Obligations.StepKeepsModes : Prop :=
  ∀ s t : State, step s = .next t → s.ModesOk → t.ModesOk
end

