-- ==== Sys2Proof/Laws/State.lean ====
section
/-! SUPPORT. What each small update of a state leaves in each field that later proofs read. -/

namespace Sys2Proof.Machine

namespace State

/-! ### Scalar registers -/

@[simp] theorem reg_zero (s : State) : s.reg 0 = 0 := rfl

@[simp] theorem reg_setReg (s : State) (d : Reg) (v : Word) (r : Reg) : (s.setReg d v).reg r = s.regAfter d v r := by
  unfold State.reg State.setReg State.regAfter Band.reg Band.setReg
  by_cases hd : d.val = 0
  · simp [hd, State.reg, Band.reg]
  · by_cases hr : r.val = 0
    · have : r ≠ d := fun h => hd (h ▸ hr)
      simp [hd, hr, this, State.reg, Band.reg]
    · by_cases h : r = d
      · subst h; simp [hd]
      · have : d.val ≠ r.val := fun e => h (Fin.ext e.symm)
        simp [hd, hr, h, State.reg, Band.reg, this]

/-! ### `setReg` -/

@[simp] theorem setReg_mem (s : State) (d : Reg) (v : Word) : (s.setReg d v).mem = s.mem := rfl
@[simp] theorem setReg_gcode (s : State) (d : Reg) (v : Word) : (s.setReg d v).gcode = s.gcode := rfl
@[simp] theorem setReg_poison (s : State) (d : Reg) (v : Word) : (s.setReg d v).poison = s.poison := rfl
@[simp] theorem setReg_hbmErr (s : State) (d : Reg) (v : Word) : (s.setReg d v).hbmErr = s.hbmErr := rfl
@[simp] theorem setReg_nearUE (s : State) (d : Reg) (v : Word) : (s.setReg d v).nearUE = s.nearUE := rfl
@[simp] theorem setReg_nearFlip (s : State) (d : Reg) (v : Word) : (s.setReg d v).nearFlip = s.nearFlip := rfl
@[simp] theorem setReg_dregs (s : State) (d : Reg) (v : Word) : (s.setReg d v).dregs = s.dregs := rfl
@[simp] theorem setReg_featWritten (s : State) (d : Reg) (v : Word) : (s.setReg d v).featWritten = s.featWritten := rfl
@[simp] theorem setReg_now (s : State) (d : Reg) (v : Word) : (s.setReg d v).now = s.now := rfl
@[simp] theorem setReg_bands (s : State) (d : Reg) (v : Word) : (s.setReg d v).bands = s.bands := rfl
@[simp] theorem setReg_arb (s : State) (d : Reg) (v : Word) : (s.setReg d v).arb = s.arb := rfl
@[simp] theorem setReg_ctxs (s : State) (d : Reg) (v : Word) : (s.setReg d v).ctxs = s.ctxs := rfl
@[simp] theorem setReg_ready (s : State) (d : Reg) (v : Word) : (s.setReg d v).ready = s.ready := rfl
@[simp] theorem setReg_heads (s : State) (d : Reg) (v : Word) : (s.setReg d v).heads = s.heads := rfl
@[simp] theorem setReg_nodes (s : State) (d : Reg) (v : Word) : (s.setReg d v).nodes = s.nodes := rfl
@[simp] theorem setReg_completing (s : State) (d : Reg) (v : Word) : (s.setReg d v).completing = s.completing := rfl
@[simp] theorem setReg_timers (s : State) (d : Reg) (v : Word) : (s.setReg d v).timers = s.timers := rfl
@[simp] theorem setReg_staged (s : State) (d : Reg) (v : Word) : (s.setReg d v).staged = s.staged := rfl
@[simp] theorem setReg_armed (s : State) (d : Reg) (v : Word) : (s.setReg d v).armed = s.armed := rfl
@[simp] theorem setReg_stopped (s : State) (d : Reg) (v : Word) : (s.setReg d v).stopped = s.stopped := rfl
@[simp] theorem setReg_sysPend (s : State) (d : Reg) (v : Word) : (s.setReg d v).sysPend = s.sysPend := rfl
@[simp] theorem setReg_pendKill (s : State) (d : Reg) (v : Word) : (s.setReg d v).pendKill = s.pendKill := rfl
@[simp] theorem setReg_retn (s : State) (d : Reg) (v : Word) : (s.setReg d v).retn = s.retn := rfl
@[simp] theorem setReg_rails (s : State) (d : Reg) (v : Word) : (s.setReg d v).rails = s.rails := rfl
@[simp] theorem setReg_holes (s : State) (d : Reg) (v : Word) : (s.setReg d v).holes = s.holes := rfl
@[simp] theorem setReg_retiring (s : State) (d : Reg) (v : Word) : (s.setReg d v).retiring = s.retiring := rfl
@[simp] theorem setReg_tlb (s : State) (d : Reg) (v : Word) : (s.setReg d v).tlb = s.tlb := rfl
@[simp] theorem setReg_dcache (s : State) (d : Reg) (v : Word) : (s.setReg d v).dcache = s.dcache := rfl
@[simp] theorem setReg_pairs (s : State) (d : Reg) (v : Word) : (s.setReg d v).pairs = s.pairs := rfl
@[simp] theorem setReg_crossed (s : State) (d : Reg) (v : Word) : (s.setReg d v).crossed = s.crossed := rfl
@[simp] theorem setReg_msixOn (s : State) (d : Reg) (v : Word) : (s.setReg d v).msixOn = s.msixOn := rfl
@[simp] theorem setReg_msixPend (s : State) (d : Reg) (v : Word) : (s.setReg d v).msixPend = s.msixPend := rfl
@[simp] theorem setReg_answers (s : State) (d : Reg) (v : Word) : (s.setReg d v).answers = s.answers := rfl
@[simp] theorem setReg_errlog (s : State) (d : Reg) (v : Word) : (s.setReg d v).errlog = s.errlog := rfl
@[simp] theorem setReg_flips (s : State) (d : Reg) (v : Word) : (s.setReg d v).flips = s.flips := rfl
@[simp] theorem setReg_ports (s : State) (d : Reg) (v : Word) : (s.setReg d v).ports = s.ports := rfl
@[simp] theorem setReg_phase (s : State) (d : Reg) (v : Word) : (s.setReg d v).phase = s.phase := rfl
@[simp] theorem setReg_agenda (s : State) (d : Reg) (v : Word) : (s.setReg d v).agenda = s.agenda := rfl
@[simp] theorem setReg_holdBack (s : State) (d : Reg) (v : Word) : (s.setReg d v).holdBack = s.holdBack := rfl
@[simp] theorem setReg_fills (s : State) (d : Reg) (v : Word) : (s.setReg d v).fills = s.fills := rfl
@[simp] theorem setReg_nextSid (s : State) (d : Reg) (v : Word) : (s.setReg d v).nextSid = s.nextSid := rfl
@[simp] theorem setReg_nextOrder (s : State) (d : Reg) (v : Word) : (s.setReg d v).nextOrder = s.nextOrder := rfl
@[simp] theorem setReg_nextFree (s : State) (d : Reg) (v : Word) : (s.setReg d v).nextFree = s.nextFree := rfl
@[simp] theorem setReg_me_pc (s : State) (d : Reg) (v : Word) : (s.setReg d v).me.pc = s.me.pc := by
  unfold State.setReg Band.setReg; split <;> rfl
@[simp] theorem setReg_me_seq (s : State) (d : Reg) (v : Word) : (s.setReg d v).me.seq = s.me.seq := by
  unfold State.setReg Band.setReg; split <;> rfl
@[simp] theorem setReg_me_pfx (s : State) (d : Reg) (v : Word) : (s.setReg d v).me.pfx = s.me.pfx := by
  unfold State.setReg Band.setReg; split <;> rfl
@[simp] theorem setReg_me_waiting (s : State) (d : Reg) (v : Word) : (s.setReg d v).me.waiting = s.me.waiting := by
  unfold State.setReg Band.setReg; split <;> rfl
@[simp] theorem setReg_me_fpsr (s : State) (d : Reg) (v : Word) : (s.setReg d v).me.fpsr = s.me.fpsr := by
  unfold State.setReg Band.setReg; split <;> rfl
@[simp] theorem setReg_me_masks (s : State) (d : Reg) (v : Word) : (s.setReg d v).me.masks = s.me.masks := by
  unfold State.setReg Band.setReg; split <;> rfl
@[simp] theorem setReg_me_vl (s : State) (d : Reg) (v : Word) : (s.setReg d v).me.vl = s.me.vl := by
  unfold State.setReg Band.setReg; split <;> rfl
@[simp] theorem setReg_me_strip (s : State) (d : Reg) (v : Word) : (s.setReg d v).me.strip = s.me.strip := by
  unfold State.setReg Band.setReg; split <;> rfl
@[simp] theorem setReg_me_inh (s : State) (d : Reg) (v : Word) : (s.setReg d v).me.inh = s.me.inh := by
  unfold State.setReg Band.setReg; split <;> rfl
@[simp] theorem setReg_me_tvec (s : State) (d : Reg) (v : Word) : (s.setReg d v).me.tvec = s.me.tvec := by
  unfold State.setReg Band.setReg; split <;> rfl
@[simp] theorem setReg_me_epc (s : State) (d : Reg) (v : Word) : (s.setReg d v).me.epc = s.me.epc := by
  unfold State.setReg Band.setReg; split <;> rfl
@[simp] theorem setReg_me_stops (s : State) (d : Reg) (v : Word) : (s.setReg d v).me.stops = s.me.stops := by
  unfold State.setReg Band.setReg; split <;> rfl
@[simp] theorem setReg_me_stopEpc (s : State) (d : Reg) (v : Word) : (s.setReg d v).me.stopEpc = s.me.stopEpc := by
  unfold State.setReg Band.setReg; split <;> rfl
@[simp] theorem setReg_me_beds (s : State) (d : Reg) (v : Word) : (s.setReg d v).me.beds = s.me.beds := by
  unfold State.setReg Band.setReg; split <;> rfl
@[simp] theorem setReg_me_ctx (s : State) (d : Reg) (v : Word) : (s.setReg d v).me.ctx = s.me.ctx := by
  unfold State.setReg Band.setReg; split <;> rfl
@[simp] theorem setReg_me_supv (s : State) (d : Reg) (v : Word) : (s.setReg d v).me.supv = s.me.supv := by
  unfold State.setReg Band.setReg; split <;> rfl
@[simp] theorem setReg_me_trl (s : State) (d : Reg) (v : Word) : (s.setReg d v).me.trl = s.me.trl := by
  unfold State.setReg Band.setReg; split <;> rfl
@[simp] theorem setReg_me_holds (s : State) (d : Reg) (v : Word) : (s.setReg d v).me.holds = s.me.holds := by
  unfold State.setReg Band.setReg; split <;> rfl
@[simp] theorem setReg_me_jobs (s : State) (d : Reg) (v : Word) : (s.setReg d v).me.jobs = s.me.jobs := by
  unfold State.setReg Band.setReg; split <;> rfl
@[simp] theorem setReg_me_wpkts (s : State) (d : Reg) (v : Word) : (s.setReg d v).me.wpkts = s.me.wpkts := by
  unfold State.setReg Band.setReg; split <;> rfl
@[simp] theorem setReg_me_rm (s : State) (d : Reg) (v : Word) : (s.setReg d v).me.rm = s.me.rm := by
  unfold State.setReg Band.setReg; split <;> rfl
@[simp] theorem setReg_me_sat (s : State) (d : Reg) (v : Word) : (s.setReg d v).me.sat = s.me.sat := by
  unfold State.setReg Band.setReg; split <;> rfl
@[simp] theorem setReg_me_runner (s : State) (d : Reg) (v : Word) : (s.setReg d v).me.runner = s.me.runner := by
  unfold State.setReg Band.setReg; split <;> rfl
@[simp] theorem setReg_me_status (s : State) (d : Reg) (v : Word) : (s.setReg d v).me.status = s.me.status := by
  unfold State.setReg Band.setReg; split <;> rfl
@[simp] theorem setReg_me_id (s : State) (d : Reg) (v : Word) : (s.setReg d v).me.id = s.me.id := by
  unfold State.setReg Band.setReg; split <;> rfl

/-! ### `setPc` -/

@[simp] theorem setPc_mem (s : State) (a : Word) : (s.setPc a).mem = s.mem := rfl
@[simp] theorem setPc_gcode (s : State) (a : Word) : (s.setPc a).gcode = s.gcode := rfl
@[simp] theorem setPc_poison (s : State) (a : Word) : (s.setPc a).poison = s.poison := rfl
@[simp] theorem setPc_hbmErr (s : State) (a : Word) : (s.setPc a).hbmErr = s.hbmErr := rfl
@[simp] theorem setPc_nearUE (s : State) (a : Word) : (s.setPc a).nearUE = s.nearUE := rfl
@[simp] theorem setPc_nearFlip (s : State) (a : Word) : (s.setPc a).nearFlip = s.nearFlip := rfl
@[simp] theorem setPc_dregs (s : State) (a : Word) : (s.setPc a).dregs = s.dregs := rfl
@[simp] theorem setPc_featWritten (s : State) (a : Word) : (s.setPc a).featWritten = s.featWritten := rfl
@[simp] theorem setPc_now (s : State) (a : Word) : (s.setPc a).now = s.now := rfl
@[simp] theorem setPc_bands (s : State) (a : Word) : (s.setPc a).bands = s.bands := rfl
@[simp] theorem setPc_arb (s : State) (a : Word) : (s.setPc a).arb = s.arb := rfl
@[simp] theorem setPc_ctxs (s : State) (a : Word) : (s.setPc a).ctxs = s.ctxs := rfl
@[simp] theorem setPc_ready (s : State) (a : Word) : (s.setPc a).ready = s.ready := rfl
@[simp] theorem setPc_heads (s : State) (a : Word) : (s.setPc a).heads = s.heads := rfl
@[simp] theorem setPc_nodes (s : State) (a : Word) : (s.setPc a).nodes = s.nodes := rfl
@[simp] theorem setPc_completing (s : State) (a : Word) : (s.setPc a).completing = s.completing := rfl
@[simp] theorem setPc_timers (s : State) (a : Word) : (s.setPc a).timers = s.timers := rfl
@[simp] theorem setPc_staged (s : State) (a : Word) : (s.setPc a).staged = s.staged := rfl
@[simp] theorem setPc_armed (s : State) (a : Word) : (s.setPc a).armed = s.armed := rfl
@[simp] theorem setPc_stopped (s : State) (a : Word) : (s.setPc a).stopped = s.stopped := rfl
@[simp] theorem setPc_sysPend (s : State) (a : Word) : (s.setPc a).sysPend = s.sysPend := rfl
@[simp] theorem setPc_pendKill (s : State) (a : Word) : (s.setPc a).pendKill = s.pendKill := rfl
@[simp] theorem setPc_retn (s : State) (a : Word) : (s.setPc a).retn = s.retn := rfl
@[simp] theorem setPc_rails (s : State) (a : Word) : (s.setPc a).rails = s.rails := rfl
@[simp] theorem setPc_holes (s : State) (a : Word) : (s.setPc a).holes = s.holes := rfl
@[simp] theorem setPc_retiring (s : State) (a : Word) : (s.setPc a).retiring = s.retiring := rfl
@[simp] theorem setPc_tlb (s : State) (a : Word) : (s.setPc a).tlb = s.tlb := rfl
@[simp] theorem setPc_dcache (s : State) (a : Word) : (s.setPc a).dcache = s.dcache := rfl
@[simp] theorem setPc_pairs (s : State) (a : Word) : (s.setPc a).pairs = s.pairs := rfl
@[simp] theorem setPc_crossed (s : State) (a : Word) : (s.setPc a).crossed = s.crossed := rfl
@[simp] theorem setPc_msixOn (s : State) (a : Word) : (s.setPc a).msixOn = s.msixOn := rfl
@[simp] theorem setPc_msixPend (s : State) (a : Word) : (s.setPc a).msixPend = s.msixPend := rfl
@[simp] theorem setPc_answers (s : State) (a : Word) : (s.setPc a).answers = s.answers := rfl
@[simp] theorem setPc_errlog (s : State) (a : Word) : (s.setPc a).errlog = s.errlog := rfl
@[simp] theorem setPc_flips (s : State) (a : Word) : (s.setPc a).flips = s.flips := rfl
@[simp] theorem setPc_ports (s : State) (a : Word) : (s.setPc a).ports = s.ports := rfl
@[simp] theorem setPc_phase (s : State) (a : Word) : (s.setPc a).phase = s.phase := rfl
@[simp] theorem setPc_agenda (s : State) (a : Word) : (s.setPc a).agenda = s.agenda := rfl
@[simp] theorem setPc_holdBack (s : State) (a : Word) : (s.setPc a).holdBack = s.holdBack := rfl
@[simp] theorem setPc_fills (s : State) (a : Word) : (s.setPc a).fills = s.fills := rfl
@[simp] theorem setPc_nextSid (s : State) (a : Word) : (s.setPc a).nextSid = s.nextSid := rfl
@[simp] theorem setPc_nextOrder (s : State) (a : Word) : (s.setPc a).nextOrder = s.nextOrder := rfl
@[simp] theorem setPc_nextFree (s : State) (a : Word) : (s.setPc a).nextFree = s.nextFree := rfl
@[simp] theorem setPc_me_pc (s : State) (a : Word) : (s.setPc a).me.pc = a := rfl
@[simp] theorem setPc_me_seq (s : State) (a : Word) : (s.setPc a).me.seq = s.me.seq := rfl
@[simp] theorem setPc_me_pfx (s : State) (a : Word) : (s.setPc a).me.pfx = s.me.pfx := rfl
@[simp] theorem setPc_me_waiting (s : State) (a : Word) : (s.setPc a).me.waiting = s.me.waiting := rfl
@[simp] theorem setPc_me_fpsr (s : State) (a : Word) : (s.setPc a).me.fpsr = s.me.fpsr := rfl
@[simp] theorem setPc_me_masks (s : State) (a : Word) : (s.setPc a).me.masks = s.me.masks := rfl
@[simp] theorem setPc_me_vl (s : State) (a : Word) : (s.setPc a).me.vl = s.me.vl := rfl
@[simp] theorem setPc_me_strip (s : State) (a : Word) : (s.setPc a).me.strip = s.me.strip := rfl
@[simp] theorem setPc_me_inh (s : State) (a : Word) : (s.setPc a).me.inh = s.me.inh := rfl
@[simp] theorem setPc_me_tvec (s : State) (a : Word) : (s.setPc a).me.tvec = s.me.tvec := rfl
@[simp] theorem setPc_me_epc (s : State) (a : Word) : (s.setPc a).me.epc = s.me.epc := rfl
@[simp] theorem setPc_me_stops (s : State) (a : Word) : (s.setPc a).me.stops = s.me.stops := rfl
@[simp] theorem setPc_me_stopEpc (s : State) (a : Word) : (s.setPc a).me.stopEpc = s.me.stopEpc := rfl
@[simp] theorem setPc_me_beds (s : State) (a : Word) : (s.setPc a).me.beds = s.me.beds := rfl
@[simp] theorem setPc_me_ctx (s : State) (a : Word) : (s.setPc a).me.ctx = s.me.ctx := rfl
@[simp] theorem setPc_me_supv (s : State) (a : Word) : (s.setPc a).me.supv = s.me.supv := rfl
@[simp] theorem setPc_me_trl (s : State) (a : Word) : (s.setPc a).me.trl = s.me.trl := rfl
@[simp] theorem setPc_me_holds (s : State) (a : Word) : (s.setPc a).me.holds = s.me.holds := rfl
@[simp] theorem setPc_me_jobs (s : State) (a : Word) : (s.setPc a).me.jobs = s.me.jobs := rfl
@[simp] theorem setPc_me_wpkts (s : State) (a : Word) : (s.setPc a).me.wpkts = s.me.wpkts := rfl
@[simp] theorem setPc_me_rm (s : State) (a : Word) : (s.setPc a).me.rm = s.me.rm := rfl
@[simp] theorem setPc_me_sat (s : State) (a : Word) : (s.setPc a).me.sat = s.me.sat := rfl
@[simp] theorem setPc_me_runner (s : State) (a : Word) : (s.setPc a).me.runner = s.me.runner := rfl
@[simp] theorem setPc_me_status (s : State) (a : Word) : (s.setPc a).me.status = s.me.status := rfl
@[simp] theorem setPc_me_id (s : State) (a : Word) : (s.setPc a).me.id = s.me.id := rfl
@[simp] theorem setPc_reg (s : State) (a : Word) (r : Reg) : (s.setPc a).reg r = s.reg r := rfl

/-! ### `counted` -/

@[simp] theorem counted_mem (s : State)  : (s.counted).mem = s.mem := rfl
@[simp] theorem counted_gcode (s : State)  : (s.counted).gcode = s.gcode := rfl
@[simp] theorem counted_poison (s : State)  : (s.counted).poison = s.poison := rfl
@[simp] theorem counted_hbmErr (s : State)  : (s.counted).hbmErr = s.hbmErr := rfl
@[simp] theorem counted_nearUE (s : State)  : (s.counted).nearUE = s.nearUE := rfl
@[simp] theorem counted_nearFlip (s : State)  : (s.counted).nearFlip = s.nearFlip := rfl
@[simp] theorem counted_dregs (s : State)  : (s.counted).dregs = s.dregs := rfl
@[simp] theorem counted_featWritten (s : State)  : (s.counted).featWritten = s.featWritten := rfl
@[simp] theorem counted_now (s : State)  : (s.counted).now = s.now := rfl
@[simp] theorem counted_bands (s : State)  : (s.counted).bands = s.bands := rfl
@[simp] theorem counted_arb (s : State)  : (s.counted).arb = s.arb := rfl
@[simp] theorem counted_ctxs (s : State)  : (s.counted).ctxs = s.ctxs := rfl
@[simp] theorem counted_ready (s : State)  : (s.counted).ready = s.ready := rfl
@[simp] theorem counted_heads (s : State)  : (s.counted).heads = s.heads := rfl
@[simp] theorem counted_nodes (s : State)  : (s.counted).nodes = s.nodes := rfl
@[simp] theorem counted_completing (s : State)  : (s.counted).completing = s.completing := rfl
@[simp] theorem counted_timers (s : State)  : (s.counted).timers = s.timers := rfl
@[simp] theorem counted_staged (s : State)  : (s.counted).staged = s.staged := rfl
@[simp] theorem counted_armed (s : State)  : (s.counted).armed = s.armed := rfl
@[simp] theorem counted_stopped (s : State)  : (s.counted).stopped = s.stopped := rfl
@[simp] theorem counted_sysPend (s : State)  : (s.counted).sysPend = s.sysPend := rfl
@[simp] theorem counted_pendKill (s : State)  : (s.counted).pendKill = s.pendKill := rfl
@[simp] theorem counted_retn (s : State)  : (s.counted).retn = s.retn := rfl
@[simp] theorem counted_rails (s : State)  : (s.counted).rails = s.rails := rfl
@[simp] theorem counted_holes (s : State)  : (s.counted).holes = s.holes := rfl
@[simp] theorem counted_retiring (s : State)  : (s.counted).retiring = s.retiring := rfl
@[simp] theorem counted_tlb (s : State)  : (s.counted).tlb = s.tlb := rfl
@[simp] theorem counted_dcache (s : State)  : (s.counted).dcache = s.dcache := rfl
@[simp] theorem counted_pairs (s : State)  : (s.counted).pairs = s.pairs := rfl
@[simp] theorem counted_crossed (s : State)  : (s.counted).crossed = s.crossed := rfl
@[simp] theorem counted_msixOn (s : State)  : (s.counted).msixOn = s.msixOn := rfl
@[simp] theorem counted_msixPend (s : State)  : (s.counted).msixPend = s.msixPend := rfl
@[simp] theorem counted_answers (s : State)  : (s.counted).answers = s.answers := rfl
@[simp] theorem counted_errlog (s : State)  : (s.counted).errlog = s.errlog := rfl
@[simp] theorem counted_flips (s : State)  : (s.counted).flips = s.flips := rfl
@[simp] theorem counted_ports (s : State)  : (s.counted).ports = s.ports := rfl
@[simp] theorem counted_phase (s : State)  : (s.counted).phase = s.phase := rfl
@[simp] theorem counted_agenda (s : State)  : (s.counted).agenda = s.agenda := rfl
@[simp] theorem counted_holdBack (s : State)  : (s.counted).holdBack = s.holdBack := rfl
@[simp] theorem counted_fills (s : State)  : (s.counted).fills = s.fills := rfl
@[simp] theorem counted_nextSid (s : State)  : (s.counted).nextSid = s.nextSid := rfl
@[simp] theorem counted_nextOrder (s : State)  : (s.counted).nextOrder = s.nextOrder := rfl
@[simp] theorem counted_nextFree (s : State)  : (s.counted).nextFree = s.nextFree := rfl
@[simp] theorem counted_me_pc (s : State)  : (s.counted).me.pc = s.me.pc := rfl
@[simp] theorem counted_me_seq (s : State)  : (s.counted).me.seq = s.me.seq + 1 := rfl
@[simp] theorem counted_me_pfx (s : State)  : (s.counted).me.pfx = none := rfl
@[simp] theorem counted_me_waiting (s : State)  : (s.counted).me.waiting = s.me.waiting := rfl
@[simp] theorem counted_me_fpsr (s : State)  : (s.counted).me.fpsr = s.me.fpsr := rfl
@[simp] theorem counted_me_masks (s : State)  : (s.counted).me.masks = s.me.masks := rfl
@[simp] theorem counted_me_vl (s : State)  : (s.counted).me.vl = s.me.vl := rfl
@[simp] theorem counted_me_strip (s : State)  : (s.counted).me.strip = s.me.strip := rfl
@[simp] theorem counted_me_inh (s : State)  : (s.counted).me.inh = s.me.inh := rfl
@[simp] theorem counted_me_tvec (s : State)  : (s.counted).me.tvec = s.me.tvec := rfl
@[simp] theorem counted_me_epc (s : State)  : (s.counted).me.epc = s.me.epc := rfl
@[simp] theorem counted_me_stops (s : State)  : (s.counted).me.stops = s.me.stops := rfl
@[simp] theorem counted_me_stopEpc (s : State)  : (s.counted).me.stopEpc = s.me.stopEpc := rfl
@[simp] theorem counted_me_beds (s : State)  : (s.counted).me.beds = s.me.beds := rfl
@[simp] theorem counted_me_ctx (s : State)  : (s.counted).me.ctx = s.me.ctx := rfl
@[simp] theorem counted_me_supv (s : State)  : (s.counted).me.supv = s.me.supv := rfl
@[simp] theorem counted_me_trl (s : State)  : (s.counted).me.trl = s.me.trl := rfl
@[simp] theorem counted_me_holds (s : State)  : (s.counted).me.holds = s.me.holds := rfl
@[simp] theorem counted_me_jobs (s : State)  : (s.counted).me.jobs = s.me.jobs := rfl
@[simp] theorem counted_me_wpkts (s : State)  : (s.counted).me.wpkts = s.me.wpkts := rfl
@[simp] theorem counted_me_rm (s : State)  : (s.counted).me.rm = s.me.rm := rfl
@[simp] theorem counted_me_sat (s : State)  : (s.counted).me.sat = s.me.sat := rfl
@[simp] theorem counted_me_runner (s : State)  : (s.counted).me.runner = s.me.runner := rfl
@[simp] theorem counted_me_status (s : State)  : (s.counted).me.status = s.me.status := rfl
@[simp] theorem counted_me_id (s : State)  : (s.counted).me.id = s.me.id := rfl
@[simp] theorem counted_reg (s : State)  (r : Reg) : (s.counted).reg r = s.reg r := rfl

/-! ### `retire` -/

@[simp] theorem retire_mem (s : State)  : (s.retire).mem = s.mem := rfl
@[simp] theorem retire_gcode (s : State)  : (s.retire).gcode = s.gcode := rfl
@[simp] theorem retire_poison (s : State)  : (s.retire).poison = s.poison := rfl
@[simp] theorem retire_hbmErr (s : State)  : (s.retire).hbmErr = s.hbmErr := rfl
@[simp] theorem retire_nearUE (s : State)  : (s.retire).nearUE = s.nearUE := rfl
@[simp] theorem retire_nearFlip (s : State)  : (s.retire).nearFlip = s.nearFlip := rfl
@[simp] theorem retire_dregs (s : State)  : (s.retire).dregs = s.dregs := rfl
@[simp] theorem retire_featWritten (s : State)  : (s.retire).featWritten = s.featWritten := rfl
@[simp] theorem retire_now (s : State)  : (s.retire).now = s.now := rfl
@[simp] theorem retire_bands (s : State)  : (s.retire).bands = s.bands := rfl
@[simp] theorem retire_arb (s : State)  : (s.retire).arb = s.arb := rfl
@[simp] theorem retire_ctxs (s : State)  : (s.retire).ctxs = s.ctxs := rfl
@[simp] theorem retire_ready (s : State)  : (s.retire).ready = s.ready := rfl
@[simp] theorem retire_heads (s : State)  : (s.retire).heads = s.heads := rfl
@[simp] theorem retire_nodes (s : State)  : (s.retire).nodes = s.nodes := rfl
@[simp] theorem retire_completing (s : State)  : (s.retire).completing = s.completing := rfl
@[simp] theorem retire_timers (s : State)  : (s.retire).timers = s.timers := rfl
@[simp] theorem retire_staged (s : State)  : (s.retire).staged = s.staged := rfl
@[simp] theorem retire_armed (s : State)  : (s.retire).armed = s.armed := rfl
@[simp] theorem retire_stopped (s : State)  : (s.retire).stopped = s.stopped := rfl
@[simp] theorem retire_sysPend (s : State)  : (s.retire).sysPend = s.sysPend := rfl
@[simp] theorem retire_pendKill (s : State)  : (s.retire).pendKill = s.pendKill := rfl
@[simp] theorem retire_retn (s : State)  : (s.retire).retn = s.retn := rfl
@[simp] theorem retire_rails (s : State)  : (s.retire).rails = s.rails := rfl
@[simp] theorem retire_holes (s : State)  : (s.retire).holes = s.holes := rfl
@[simp] theorem retire_retiring (s : State)  : (s.retire).retiring = s.retiring := rfl
@[simp] theorem retire_tlb (s : State)  : (s.retire).tlb = s.tlb := rfl
@[simp] theorem retire_dcache (s : State)  : (s.retire).dcache = s.dcache := rfl
@[simp] theorem retire_pairs (s : State)  : (s.retire).pairs = s.pairs := rfl
@[simp] theorem retire_crossed (s : State)  : (s.retire).crossed = s.crossed := rfl
@[simp] theorem retire_msixOn (s : State)  : (s.retire).msixOn = s.msixOn := rfl
@[simp] theorem retire_msixPend (s : State)  : (s.retire).msixPend = s.msixPend := rfl
@[simp] theorem retire_answers (s : State)  : (s.retire).answers = s.answers := rfl
@[simp] theorem retire_errlog (s : State)  : (s.retire).errlog = s.errlog := rfl
@[simp] theorem retire_flips (s : State)  : (s.retire).flips = s.flips := rfl
@[simp] theorem retire_ports (s : State)  : (s.retire).ports = s.ports := rfl
@[simp] theorem retire_phase (s : State)  : (s.retire).phase = s.phase := rfl
@[simp] theorem retire_agenda (s : State)  : (s.retire).agenda = s.agenda := rfl
@[simp] theorem retire_holdBack (s : State)  : (s.retire).holdBack = s.holdBack := rfl
@[simp] theorem retire_fills (s : State)  : (s.retire).fills = s.fills := rfl
@[simp] theorem retire_nextSid (s : State)  : (s.retire).nextSid = s.nextSid := rfl
@[simp] theorem retire_nextOrder (s : State)  : (s.retire).nextOrder = s.nextOrder := rfl
@[simp] theorem retire_nextFree (s : State)  : (s.retire).nextFree = s.nextFree := rfl
@[simp] theorem retire_me_pc (s : State)  : (s.retire).me.pc = s.me.pc + 16 := rfl
@[simp] theorem retire_me_seq (s : State)  : (s.retire).me.seq = s.me.seq + 1 := rfl
@[simp] theorem retire_me_pfx (s : State)  : (s.retire).me.pfx = none := rfl
@[simp] theorem retire_me_waiting (s : State)  : (s.retire).me.waiting = none := rfl
@[simp] theorem retire_me_fpsr (s : State)  : (s.retire).me.fpsr = s.me.fpsr := rfl
@[simp] theorem retire_me_masks (s : State)  : (s.retire).me.masks = s.me.masks := rfl
@[simp] theorem retire_me_vl (s : State)  : (s.retire).me.vl = s.me.vl := rfl
@[simp] theorem retire_me_strip (s : State)  : (s.retire).me.strip = s.me.strip := rfl
@[simp] theorem retire_me_inh (s : State)  : (s.retire).me.inh = s.me.inh := rfl
@[simp] theorem retire_me_tvec (s : State)  : (s.retire).me.tvec = s.me.tvec := rfl
@[simp] theorem retire_me_epc (s : State)  : (s.retire).me.epc = s.me.epc := rfl
@[simp] theorem retire_me_stops (s : State)  : (s.retire).me.stops = s.me.stops := rfl
@[simp] theorem retire_me_stopEpc (s : State)  : (s.retire).me.stopEpc = s.me.stopEpc := rfl
@[simp] theorem retire_me_beds (s : State)  : (s.retire).me.beds = s.me.beds := rfl
@[simp] theorem retire_me_ctx (s : State)  : (s.retire).me.ctx = s.me.ctx := rfl
@[simp] theorem retire_me_supv (s : State)  : (s.retire).me.supv = s.me.supv := rfl
@[simp] theorem retire_me_trl (s : State)  : (s.retire).me.trl = s.me.trl := rfl
@[simp] theorem retire_me_holds (s : State)  : (s.retire).me.holds = s.me.holds := rfl
@[simp] theorem retire_me_jobs (s : State)  : (s.retire).me.jobs = s.me.jobs := rfl
@[simp] theorem retire_me_wpkts (s : State)  : (s.retire).me.wpkts = s.me.wpkts := rfl
@[simp] theorem retire_me_rm (s : State)  : (s.retire).me.rm = s.me.rm := rfl
@[simp] theorem retire_me_sat (s : State)  : (s.retire).me.sat = s.me.sat := rfl
@[simp] theorem retire_me_runner (s : State)  : (s.retire).me.runner = s.me.runner := rfl
@[simp] theorem retire_me_status (s : State)  : (s.retire).me.status = s.me.status := rfl
@[simp] theorem retire_me_id (s : State)  : (s.retire).me.id = s.me.id := rfl
@[simp] theorem retire_reg (s : State)  (r : Reg) : (s.retire).reg r = s.reg r := rfl

/-! ### `finish` -/

@[simp] theorem finish_mem (s : State) (d : Reg) (v : Word) : (s.finish d v).mem = s.mem := rfl
@[simp] theorem finish_gcode (s : State) (d : Reg) (v : Word) : (s.finish d v).gcode = s.gcode := rfl
@[simp] theorem finish_poison (s : State) (d : Reg) (v : Word) : (s.finish d v).poison = s.poison := rfl
@[simp] theorem finish_hbmErr (s : State) (d : Reg) (v : Word) : (s.finish d v).hbmErr = s.hbmErr := rfl
@[simp] theorem finish_nearUE (s : State) (d : Reg) (v : Word) : (s.finish d v).nearUE = s.nearUE := rfl
@[simp] theorem finish_nearFlip (s : State) (d : Reg) (v : Word) : (s.finish d v).nearFlip = s.nearFlip := rfl
@[simp] theorem finish_dregs (s : State) (d : Reg) (v : Word) : (s.finish d v).dregs = s.dregs := rfl
@[simp] theorem finish_featWritten (s : State) (d : Reg) (v : Word) : (s.finish d v).featWritten = s.featWritten := rfl
@[simp] theorem finish_now (s : State) (d : Reg) (v : Word) : (s.finish d v).now = s.now := rfl
@[simp] theorem finish_bands (s : State) (d : Reg) (v : Word) : (s.finish d v).bands = s.bands := rfl
@[simp] theorem finish_arb (s : State) (d : Reg) (v : Word) : (s.finish d v).arb = s.arb := rfl
@[simp] theorem finish_ctxs (s : State) (d : Reg) (v : Word) : (s.finish d v).ctxs = s.ctxs := rfl
@[simp] theorem finish_ready (s : State) (d : Reg) (v : Word) : (s.finish d v).ready = s.ready := rfl
@[simp] theorem finish_heads (s : State) (d : Reg) (v : Word) : (s.finish d v).heads = s.heads := rfl
@[simp] theorem finish_nodes (s : State) (d : Reg) (v : Word) : (s.finish d v).nodes = s.nodes := rfl
@[simp] theorem finish_completing (s : State) (d : Reg) (v : Word) : (s.finish d v).completing = s.completing := rfl
@[simp] theorem finish_timers (s : State) (d : Reg) (v : Word) : (s.finish d v).timers = s.timers := rfl
@[simp] theorem finish_staged (s : State) (d : Reg) (v : Word) : (s.finish d v).staged = s.staged := rfl
@[simp] theorem finish_armed (s : State) (d : Reg) (v : Word) : (s.finish d v).armed = s.armed := rfl
@[simp] theorem finish_stopped (s : State) (d : Reg) (v : Word) : (s.finish d v).stopped = s.stopped := rfl
@[simp] theorem finish_sysPend (s : State) (d : Reg) (v : Word) : (s.finish d v).sysPend = s.sysPend := rfl
@[simp] theorem finish_pendKill (s : State) (d : Reg) (v : Word) : (s.finish d v).pendKill = s.pendKill := rfl
@[simp] theorem finish_retn (s : State) (d : Reg) (v : Word) : (s.finish d v).retn = s.retn := rfl
@[simp] theorem finish_rails (s : State) (d : Reg) (v : Word) : (s.finish d v).rails = s.rails := rfl
@[simp] theorem finish_holes (s : State) (d : Reg) (v : Word) : (s.finish d v).holes = s.holes := rfl
@[simp] theorem finish_retiring (s : State) (d : Reg) (v : Word) : (s.finish d v).retiring = s.retiring := rfl
@[simp] theorem finish_tlb (s : State) (d : Reg) (v : Word) : (s.finish d v).tlb = s.tlb := rfl
@[simp] theorem finish_dcache (s : State) (d : Reg) (v : Word) : (s.finish d v).dcache = s.dcache := rfl
@[simp] theorem finish_pairs (s : State) (d : Reg) (v : Word) : (s.finish d v).pairs = s.pairs := rfl
@[simp] theorem finish_crossed (s : State) (d : Reg) (v : Word) : (s.finish d v).crossed = s.crossed := rfl
@[simp] theorem finish_msixOn (s : State) (d : Reg) (v : Word) : (s.finish d v).msixOn = s.msixOn := rfl
@[simp] theorem finish_msixPend (s : State) (d : Reg) (v : Word) : (s.finish d v).msixPend = s.msixPend := rfl
@[simp] theorem finish_answers (s : State) (d : Reg) (v : Word) : (s.finish d v).answers = s.answers := rfl
@[simp] theorem finish_errlog (s : State) (d : Reg) (v : Word) : (s.finish d v).errlog = s.errlog := rfl
@[simp] theorem finish_flips (s : State) (d : Reg) (v : Word) : (s.finish d v).flips = s.flips := rfl
@[simp] theorem finish_ports (s : State) (d : Reg) (v : Word) : (s.finish d v).ports = s.ports := rfl
@[simp] theorem finish_phase (s : State) (d : Reg) (v : Word) : (s.finish d v).phase = s.phase := rfl
@[simp] theorem finish_agenda (s : State) (d : Reg) (v : Word) : (s.finish d v).agenda = s.agenda := rfl
@[simp] theorem finish_holdBack (s : State) (d : Reg) (v : Word) : (s.finish d v).holdBack = s.holdBack := rfl
@[simp] theorem finish_fills (s : State) (d : Reg) (v : Word) : (s.finish d v).fills = s.fills := rfl
@[simp] theorem finish_nextSid (s : State) (d : Reg) (v : Word) : (s.finish d v).nextSid = s.nextSid := rfl
@[simp] theorem finish_nextOrder (s : State) (d : Reg) (v : Word) : (s.finish d v).nextOrder = s.nextOrder := rfl
@[simp] theorem finish_nextFree (s : State) (d : Reg) (v : Word) : (s.finish d v).nextFree = s.nextFree := rfl
@[simp] theorem finish_me_pc (s : State) (d : Reg) (v : Word) : (s.finish d v).me.pc = s.me.pc + 16 := by
  simp [State.finish]
@[simp] theorem finish_me_seq (s : State) (d : Reg) (v : Word) : (s.finish d v).me.seq = s.me.seq + 1 := by
  simp [State.finish]
@[simp] theorem finish_me_pfx (s : State) (d : Reg) (v : Word) : (s.finish d v).me.pfx = none := rfl
@[simp] theorem finish_me_waiting (s : State) (d : Reg) (v : Word) : (s.finish d v).me.waiting = none := rfl
@[simp] theorem finish_me_fpsr (s : State) (d : Reg) (v : Word) : (s.finish d v).me.fpsr = s.me.fpsr := by
  simp [State.finish]
@[simp] theorem finish_me_masks (s : State) (d : Reg) (v : Word) : (s.finish d v).me.masks = s.me.masks := by
  simp [State.finish]
@[simp] theorem finish_me_vl (s : State) (d : Reg) (v : Word) : (s.finish d v).me.vl = s.me.vl := by
  simp [State.finish]
@[simp] theorem finish_me_strip (s : State) (d : Reg) (v : Word) : (s.finish d v).me.strip = s.me.strip := by
  simp [State.finish]
@[simp] theorem finish_me_inh (s : State) (d : Reg) (v : Word) : (s.finish d v).me.inh = s.me.inh := by
  simp [State.finish]
@[simp] theorem finish_me_tvec (s : State) (d : Reg) (v : Word) : (s.finish d v).me.tvec = s.me.tvec := by
  simp [State.finish]
@[simp] theorem finish_me_epc (s : State) (d : Reg) (v : Word) : (s.finish d v).me.epc = s.me.epc := by
  simp [State.finish]
@[simp] theorem finish_me_stops (s : State) (d : Reg) (v : Word) : (s.finish d v).me.stops = s.me.stops := by
  simp [State.finish]
@[simp] theorem finish_me_stopEpc (s : State) (d : Reg) (v : Word) : (s.finish d v).me.stopEpc = s.me.stopEpc := by
  simp [State.finish]
@[simp] theorem finish_me_beds (s : State) (d : Reg) (v : Word) : (s.finish d v).me.beds = s.me.beds := by
  simp [State.finish]
@[simp] theorem finish_me_ctx (s : State) (d : Reg) (v : Word) : (s.finish d v).me.ctx = s.me.ctx := by
  simp [State.finish]
@[simp] theorem finish_me_supv (s : State) (d : Reg) (v : Word) : (s.finish d v).me.supv = s.me.supv := by
  simp [State.finish]
@[simp] theorem finish_me_trl (s : State) (d : Reg) (v : Word) : (s.finish d v).me.trl = s.me.trl := by
  simp [State.finish]
@[simp] theorem finish_me_holds (s : State) (d : Reg) (v : Word) : (s.finish d v).me.holds = s.me.holds := by
  simp [State.finish]
@[simp] theorem finish_me_jobs (s : State) (d : Reg) (v : Word) : (s.finish d v).me.jobs = s.me.jobs := by
  simp [State.finish]
@[simp] theorem finish_me_wpkts (s : State) (d : Reg) (v : Word) : (s.finish d v).me.wpkts = s.me.wpkts := by
  simp [State.finish]
@[simp] theorem finish_me_rm (s : State) (d : Reg) (v : Word) : (s.finish d v).me.rm = s.me.rm := by
  simp [State.finish]
@[simp] theorem finish_me_sat (s : State) (d : Reg) (v : Word) : (s.finish d v).me.sat = s.me.sat := by
  simp [State.finish]
@[simp] theorem finish_me_runner (s : State) (d : Reg) (v : Word) : (s.finish d v).me.runner = s.me.runner := by
  simp [State.finish]
@[simp] theorem finish_me_status (s : State) (d : Reg) (v : Word) : (s.finish d v).me.status = s.me.status := by
  simp [State.finish]
@[simp] theorem finish_me_id (s : State) (d : Reg) (v : Word) : (s.finish d v).me.id = s.me.id := by
  simp [State.finish]

/-! ### `jump` -/

@[simp] theorem jump_mem (s : State) (a : Word) : (s.jump a).mem = s.mem := rfl
@[simp] theorem jump_gcode (s : State) (a : Word) : (s.jump a).gcode = s.gcode := rfl
@[simp] theorem jump_poison (s : State) (a : Word) : (s.jump a).poison = s.poison := rfl
@[simp] theorem jump_hbmErr (s : State) (a : Word) : (s.jump a).hbmErr = s.hbmErr := rfl
@[simp] theorem jump_nearUE (s : State) (a : Word) : (s.jump a).nearUE = s.nearUE := rfl
@[simp] theorem jump_nearFlip (s : State) (a : Word) : (s.jump a).nearFlip = s.nearFlip := rfl
@[simp] theorem jump_dregs (s : State) (a : Word) : (s.jump a).dregs = s.dregs := rfl
@[simp] theorem jump_featWritten (s : State) (a : Word) : (s.jump a).featWritten = s.featWritten := rfl
@[simp] theorem jump_now (s : State) (a : Word) : (s.jump a).now = s.now := rfl
@[simp] theorem jump_bands (s : State) (a : Word) : (s.jump a).bands = s.bands := rfl
@[simp] theorem jump_arb (s : State) (a : Word) : (s.jump a).arb = s.arb := rfl
@[simp] theorem jump_ctxs (s : State) (a : Word) : (s.jump a).ctxs = s.ctxs := rfl
@[simp] theorem jump_ready (s : State) (a : Word) : (s.jump a).ready = s.ready := rfl
@[simp] theorem jump_heads (s : State) (a : Word) : (s.jump a).heads = s.heads := rfl
@[simp] theorem jump_nodes (s : State) (a : Word) : (s.jump a).nodes = s.nodes := rfl
@[simp] theorem jump_completing (s : State) (a : Word) : (s.jump a).completing = s.completing := rfl
@[simp] theorem jump_timers (s : State) (a : Word) : (s.jump a).timers = s.timers := rfl
@[simp] theorem jump_staged (s : State) (a : Word) : (s.jump a).staged = s.staged := rfl
@[simp] theorem jump_armed (s : State) (a : Word) : (s.jump a).armed = s.armed := rfl
@[simp] theorem jump_stopped (s : State) (a : Word) : (s.jump a).stopped = s.stopped := rfl
@[simp] theorem jump_sysPend (s : State) (a : Word) : (s.jump a).sysPend = s.sysPend := rfl
@[simp] theorem jump_pendKill (s : State) (a : Word) : (s.jump a).pendKill = s.pendKill := rfl
@[simp] theorem jump_retn (s : State) (a : Word) : (s.jump a).retn = s.retn := rfl
@[simp] theorem jump_rails (s : State) (a : Word) : (s.jump a).rails = s.rails := rfl
@[simp] theorem jump_holes (s : State) (a : Word) : (s.jump a).holes = s.holes := rfl
@[simp] theorem jump_retiring (s : State) (a : Word) : (s.jump a).retiring = s.retiring := rfl
@[simp] theorem jump_tlb (s : State) (a : Word) : (s.jump a).tlb = s.tlb := rfl
@[simp] theorem jump_dcache (s : State) (a : Word) : (s.jump a).dcache = s.dcache := rfl
@[simp] theorem jump_pairs (s : State) (a : Word) : (s.jump a).pairs = s.pairs := rfl
@[simp] theorem jump_crossed (s : State) (a : Word) : (s.jump a).crossed = s.crossed := rfl
@[simp] theorem jump_msixOn (s : State) (a : Word) : (s.jump a).msixOn = s.msixOn := rfl
@[simp] theorem jump_msixPend (s : State) (a : Word) : (s.jump a).msixPend = s.msixPend := rfl
@[simp] theorem jump_answers (s : State) (a : Word) : (s.jump a).answers = s.answers := rfl
@[simp] theorem jump_errlog (s : State) (a : Word) : (s.jump a).errlog = s.errlog := rfl
@[simp] theorem jump_flips (s : State) (a : Word) : (s.jump a).flips = s.flips := rfl
@[simp] theorem jump_ports (s : State) (a : Word) : (s.jump a).ports = s.ports := rfl
@[simp] theorem jump_phase (s : State) (a : Word) : (s.jump a).phase = s.phase := rfl
@[simp] theorem jump_agenda (s : State) (a : Word) : (s.jump a).agenda = s.agenda := rfl
@[simp] theorem jump_holdBack (s : State) (a : Word) : (s.jump a).holdBack = s.holdBack := rfl
@[simp] theorem jump_fills (s : State) (a : Word) : (s.jump a).fills = s.fills := rfl
@[simp] theorem jump_nextSid (s : State) (a : Word) : (s.jump a).nextSid = s.nextSid := rfl
@[simp] theorem jump_nextOrder (s : State) (a : Word) : (s.jump a).nextOrder = s.nextOrder := rfl
@[simp] theorem jump_nextFree (s : State) (a : Word) : (s.jump a).nextFree = s.nextFree := rfl
@[simp] theorem jump_me_pc (s : State) (a : Word) : (s.jump a).me.pc = a := rfl
@[simp] theorem jump_me_seq (s : State) (a : Word) : (s.jump a).me.seq = s.me.seq + 1 := rfl
@[simp] theorem jump_me_pfx (s : State) (a : Word) : (s.jump a).me.pfx = none := rfl
@[simp] theorem jump_me_waiting (s : State) (a : Word) : (s.jump a).me.waiting = s.me.waiting := rfl
@[simp] theorem jump_me_fpsr (s : State) (a : Word) : (s.jump a).me.fpsr = s.me.fpsr := rfl
@[simp] theorem jump_me_masks (s : State) (a : Word) : (s.jump a).me.masks = s.me.masks := rfl
@[simp] theorem jump_me_vl (s : State) (a : Word) : (s.jump a).me.vl = s.me.vl := rfl
@[simp] theorem jump_me_strip (s : State) (a : Word) : (s.jump a).me.strip = s.me.strip := rfl
@[simp] theorem jump_me_inh (s : State) (a : Word) : (s.jump a).me.inh = s.me.inh := rfl
@[simp] theorem jump_me_tvec (s : State) (a : Word) : (s.jump a).me.tvec = s.me.tvec := rfl
@[simp] theorem jump_me_epc (s : State) (a : Word) : (s.jump a).me.epc = s.me.epc := rfl
@[simp] theorem jump_me_stops (s : State) (a : Word) : (s.jump a).me.stops = s.me.stops := rfl
@[simp] theorem jump_me_stopEpc (s : State) (a : Word) : (s.jump a).me.stopEpc = s.me.stopEpc := rfl
@[simp] theorem jump_me_beds (s : State) (a : Word) : (s.jump a).me.beds = s.me.beds := rfl
@[simp] theorem jump_me_ctx (s : State) (a : Word) : (s.jump a).me.ctx = s.me.ctx := rfl
@[simp] theorem jump_me_supv (s : State) (a : Word) : (s.jump a).me.supv = s.me.supv := rfl
@[simp] theorem jump_me_trl (s : State) (a : Word) : (s.jump a).me.trl = s.me.trl := rfl
@[simp] theorem jump_me_holds (s : State) (a : Word) : (s.jump a).me.holds = s.me.holds := rfl
@[simp] theorem jump_me_jobs (s : State) (a : Word) : (s.jump a).me.jobs = s.me.jobs := rfl
@[simp] theorem jump_me_wpkts (s : State) (a : Word) : (s.jump a).me.wpkts = s.me.wpkts := rfl
@[simp] theorem jump_me_rm (s : State) (a : Word) : (s.jump a).me.rm = s.me.rm := rfl
@[simp] theorem jump_me_sat (s : State) (a : Word) : (s.jump a).me.sat = s.me.sat := rfl
@[simp] theorem jump_me_runner (s : State) (a : Word) : (s.jump a).me.runner = s.me.runner := rfl
@[simp] theorem jump_me_status (s : State) (a : Word) : (s.jump a).me.status = s.me.status := rfl
@[simp] theorem jump_me_id (s : State) (a : Word) : (s.jump a).me.id = s.me.id := rfl
@[simp] theorem jump_reg (s : State) (a : Word) (r : Reg) : (s.jump a).reg r = s.reg r := rfl

/-! ### `orFlags` -/

@[simp] theorem orFlags_mem (s : State) (f : Flags) : (s.orFlags f).mem = s.mem := rfl
@[simp] theorem orFlags_gcode (s : State) (f : Flags) : (s.orFlags f).gcode = s.gcode := rfl
@[simp] theorem orFlags_poison (s : State) (f : Flags) : (s.orFlags f).poison = s.poison := rfl
@[simp] theorem orFlags_hbmErr (s : State) (f : Flags) : (s.orFlags f).hbmErr = s.hbmErr := rfl
@[simp] theorem orFlags_nearUE (s : State) (f : Flags) : (s.orFlags f).nearUE = s.nearUE := rfl
@[simp] theorem orFlags_nearFlip (s : State) (f : Flags) : (s.orFlags f).nearFlip = s.nearFlip := rfl
@[simp] theorem orFlags_dregs (s : State) (f : Flags) : (s.orFlags f).dregs = s.dregs := rfl
@[simp] theorem orFlags_featWritten (s : State) (f : Flags) : (s.orFlags f).featWritten = s.featWritten := rfl
@[simp] theorem orFlags_now (s : State) (f : Flags) : (s.orFlags f).now = s.now := rfl
@[simp] theorem orFlags_bands (s : State) (f : Flags) : (s.orFlags f).bands = s.bands := rfl
@[simp] theorem orFlags_arb (s : State) (f : Flags) : (s.orFlags f).arb = s.arb := rfl
@[simp] theorem orFlags_ctxs (s : State) (f : Flags) : (s.orFlags f).ctxs = s.ctxs := rfl
@[simp] theorem orFlags_ready (s : State) (f : Flags) : (s.orFlags f).ready = s.ready := rfl
@[simp] theorem orFlags_heads (s : State) (f : Flags) : (s.orFlags f).heads = s.heads := rfl
@[simp] theorem orFlags_nodes (s : State) (f : Flags) : (s.orFlags f).nodes = s.nodes := rfl
@[simp] theorem orFlags_completing (s : State) (f : Flags) : (s.orFlags f).completing = s.completing := rfl
@[simp] theorem orFlags_timers (s : State) (f : Flags) : (s.orFlags f).timers = s.timers := rfl
@[simp] theorem orFlags_staged (s : State) (f : Flags) : (s.orFlags f).staged = s.staged := rfl
@[simp] theorem orFlags_armed (s : State) (f : Flags) : (s.orFlags f).armed = s.armed := rfl
@[simp] theorem orFlags_stopped (s : State) (f : Flags) : (s.orFlags f).stopped = s.stopped := rfl
@[simp] theorem orFlags_sysPend (s : State) (f : Flags) : (s.orFlags f).sysPend = s.sysPend := rfl
@[simp] theorem orFlags_pendKill (s : State) (f : Flags) : (s.orFlags f).pendKill = s.pendKill := rfl
@[simp] theorem orFlags_retn (s : State) (f : Flags) : (s.orFlags f).retn = s.retn := rfl
@[simp] theorem orFlags_rails (s : State) (f : Flags) : (s.orFlags f).rails = s.rails := rfl
@[simp] theorem orFlags_holes (s : State) (f : Flags) : (s.orFlags f).holes = s.holes := rfl
@[simp] theorem orFlags_retiring (s : State) (f : Flags) : (s.orFlags f).retiring = s.retiring := rfl
@[simp] theorem orFlags_tlb (s : State) (f : Flags) : (s.orFlags f).tlb = s.tlb := rfl
@[simp] theorem orFlags_dcache (s : State) (f : Flags) : (s.orFlags f).dcache = s.dcache := rfl
@[simp] theorem orFlags_pairs (s : State) (f : Flags) : (s.orFlags f).pairs = s.pairs := rfl
@[simp] theorem orFlags_crossed (s : State) (f : Flags) : (s.orFlags f).crossed = s.crossed := rfl
@[simp] theorem orFlags_msixOn (s : State) (f : Flags) : (s.orFlags f).msixOn = s.msixOn := rfl
@[simp] theorem orFlags_msixPend (s : State) (f : Flags) : (s.orFlags f).msixPend = s.msixPend := rfl
@[simp] theorem orFlags_answers (s : State) (f : Flags) : (s.orFlags f).answers = s.answers := rfl
@[simp] theorem orFlags_errlog (s : State) (f : Flags) : (s.orFlags f).errlog = s.errlog := rfl
@[simp] theorem orFlags_flips (s : State) (f : Flags) : (s.orFlags f).flips = s.flips := rfl
@[simp] theorem orFlags_ports (s : State) (f : Flags) : (s.orFlags f).ports = s.ports := rfl
@[simp] theorem orFlags_phase (s : State) (f : Flags) : (s.orFlags f).phase = s.phase := rfl
@[simp] theorem orFlags_agenda (s : State) (f : Flags) : (s.orFlags f).agenda = s.agenda := rfl
@[simp] theorem orFlags_holdBack (s : State) (f : Flags) : (s.orFlags f).holdBack = s.holdBack := rfl
@[simp] theorem orFlags_fills (s : State) (f : Flags) : (s.orFlags f).fills = s.fills := rfl
@[simp] theorem orFlags_nextSid (s : State) (f : Flags) : (s.orFlags f).nextSid = s.nextSid := rfl
@[simp] theorem orFlags_nextOrder (s : State) (f : Flags) : (s.orFlags f).nextOrder = s.nextOrder := rfl
@[simp] theorem orFlags_nextFree (s : State) (f : Flags) : (s.orFlags f).nextFree = s.nextFree := rfl
@[simp] theorem orFlags_me_pc (s : State) (f : Flags) : (s.orFlags f).me.pc = s.me.pc := rfl
@[simp] theorem orFlags_me_seq (s : State) (f : Flags) : (s.orFlags f).me.seq = s.me.seq := rfl
@[simp] theorem orFlags_me_pfx (s : State) (f : Flags) : (s.orFlags f).me.pfx = s.me.pfx := rfl
@[simp] theorem orFlags_me_waiting (s : State) (f : Flags) : (s.orFlags f).me.waiting = s.me.waiting := rfl
@[simp] theorem orFlags_me_fpsr (s : State) (f : Flags) : (s.orFlags f).me.fpsr = s.me.fpsr ||| f := rfl
@[simp] theorem orFlags_me_masks (s : State) (f : Flags) : (s.orFlags f).me.masks = s.me.masks := rfl
@[simp] theorem orFlags_me_vl (s : State) (f : Flags) : (s.orFlags f).me.vl = s.me.vl := rfl
@[simp] theorem orFlags_me_strip (s : State) (f : Flags) : (s.orFlags f).me.strip = s.me.strip := rfl
@[simp] theorem orFlags_me_inh (s : State) (f : Flags) : (s.orFlags f).me.inh = s.me.inh := rfl
@[simp] theorem orFlags_me_tvec (s : State) (f : Flags) : (s.orFlags f).me.tvec = s.me.tvec := rfl
@[simp] theorem orFlags_me_epc (s : State) (f : Flags) : (s.orFlags f).me.epc = s.me.epc := rfl
@[simp] theorem orFlags_me_stops (s : State) (f : Flags) : (s.orFlags f).me.stops = s.me.stops := rfl
@[simp] theorem orFlags_me_stopEpc (s : State) (f : Flags) : (s.orFlags f).me.stopEpc = s.me.stopEpc := rfl
@[simp] theorem orFlags_me_beds (s : State) (f : Flags) : (s.orFlags f).me.beds = s.me.beds := rfl
@[simp] theorem orFlags_me_ctx (s : State) (f : Flags) : (s.orFlags f).me.ctx = s.me.ctx := rfl
@[simp] theorem orFlags_me_supv (s : State) (f : Flags) : (s.orFlags f).me.supv = s.me.supv := rfl
@[simp] theorem orFlags_me_trl (s : State) (f : Flags) : (s.orFlags f).me.trl = s.me.trl := rfl
@[simp] theorem orFlags_me_holds (s : State) (f : Flags) : (s.orFlags f).me.holds = s.me.holds := rfl
@[simp] theorem orFlags_me_jobs (s : State) (f : Flags) : (s.orFlags f).me.jobs = s.me.jobs := rfl
@[simp] theorem orFlags_me_wpkts (s : State) (f : Flags) : (s.orFlags f).me.wpkts = s.me.wpkts := rfl
@[simp] theorem orFlags_me_rm (s : State) (f : Flags) : (s.orFlags f).me.rm = s.me.rm := rfl
@[simp] theorem orFlags_me_sat (s : State) (f : Flags) : (s.orFlags f).me.sat = s.me.sat := rfl
@[simp] theorem orFlags_me_runner (s : State) (f : Flags) : (s.orFlags f).me.runner = s.me.runner := rfl
@[simp] theorem orFlags_me_status (s : State) (f : Flags) : (s.orFlags f).me.status = s.me.status := rfl
@[simp] theorem orFlags_me_id (s : State) (f : Flags) : (s.orFlags f).me.id = s.me.id := rfl
@[simp] theorem orFlags_reg (s : State) (f : Flags) (r : Reg) : (s.orFlags f).reg r = s.reg r := rfl

/-! ### `leaveTrap` -/

@[simp] theorem leaveTrap_mem (s : State) (a : Word) : (s.leaveTrap a).mem = s.mem := rfl
@[simp] theorem leaveTrap_gcode (s : State) (a : Word) : (s.leaveTrap a).gcode = s.gcode := rfl
@[simp] theorem leaveTrap_poison (s : State) (a : Word) : (s.leaveTrap a).poison = s.poison := rfl
@[simp] theorem leaveTrap_hbmErr (s : State) (a : Word) : (s.leaveTrap a).hbmErr = s.hbmErr := rfl
@[simp] theorem leaveTrap_nearUE (s : State) (a : Word) : (s.leaveTrap a).nearUE = s.nearUE := rfl
@[simp] theorem leaveTrap_nearFlip (s : State) (a : Word) : (s.leaveTrap a).nearFlip = s.nearFlip := rfl
@[simp] theorem leaveTrap_dregs (s : State) (a : Word) : (s.leaveTrap a).dregs = s.dregs := rfl
@[simp] theorem leaveTrap_featWritten (s : State) (a : Word) : (s.leaveTrap a).featWritten = s.featWritten := rfl
@[simp] theorem leaveTrap_now (s : State) (a : Word) : (s.leaveTrap a).now = s.now := rfl
@[simp] theorem leaveTrap_bands (s : State) (a : Word) : (s.leaveTrap a).bands = s.bands := rfl
@[simp] theorem leaveTrap_arb (s : State) (a : Word) : (s.leaveTrap a).arb = s.arb := rfl
@[simp] theorem leaveTrap_ctxs (s : State) (a : Word) : (s.leaveTrap a).ctxs = s.ctxs := rfl
@[simp] theorem leaveTrap_ready (s : State) (a : Word) : (s.leaveTrap a).ready = s.ready := rfl
@[simp] theorem leaveTrap_heads (s : State) (a : Word) : (s.leaveTrap a).heads = s.heads := rfl
@[simp] theorem leaveTrap_nodes (s : State) (a : Word) : (s.leaveTrap a).nodes = s.nodes := rfl
@[simp] theorem leaveTrap_completing (s : State) (a : Word) : (s.leaveTrap a).completing = s.completing := rfl
@[simp] theorem leaveTrap_timers (s : State) (a : Word) : (s.leaveTrap a).timers = s.timers := rfl
@[simp] theorem leaveTrap_staged (s : State) (a : Word) : (s.leaveTrap a).staged = s.staged := rfl
@[simp] theorem leaveTrap_armed (s : State) (a : Word) : (s.leaveTrap a).armed = s.armed := rfl
@[simp] theorem leaveTrap_stopped (s : State) (a : Word) : (s.leaveTrap a).stopped = s.stopped := rfl
@[simp] theorem leaveTrap_sysPend (s : State) (a : Word) : (s.leaveTrap a).sysPend = s.sysPend := rfl
@[simp] theorem leaveTrap_pendKill (s : State) (a : Word) : (s.leaveTrap a).pendKill = s.pendKill := rfl
@[simp] theorem leaveTrap_retn (s : State) (a : Word) : (s.leaveTrap a).retn = s.retn := rfl
@[simp] theorem leaveTrap_rails (s : State) (a : Word) : (s.leaveTrap a).rails = s.rails := rfl
@[simp] theorem leaveTrap_holes (s : State) (a : Word) : (s.leaveTrap a).holes = s.holes := rfl
@[simp] theorem leaveTrap_retiring (s : State) (a : Word) : (s.leaveTrap a).retiring = s.retiring := rfl
@[simp] theorem leaveTrap_tlb (s : State) (a : Word) : (s.leaveTrap a).tlb = s.tlb := rfl
@[simp] theorem leaveTrap_dcache (s : State) (a : Word) : (s.leaveTrap a).dcache = s.dcache := rfl
@[simp] theorem leaveTrap_pairs (s : State) (a : Word) : (s.leaveTrap a).pairs = s.pairs := rfl
@[simp] theorem leaveTrap_crossed (s : State) (a : Word) : (s.leaveTrap a).crossed = s.crossed := rfl
@[simp] theorem leaveTrap_msixOn (s : State) (a : Word) : (s.leaveTrap a).msixOn = s.msixOn := rfl
@[simp] theorem leaveTrap_msixPend (s : State) (a : Word) : (s.leaveTrap a).msixPend = s.msixPend := rfl
@[simp] theorem leaveTrap_answers (s : State) (a : Word) : (s.leaveTrap a).answers = s.answers := rfl
@[simp] theorem leaveTrap_errlog (s : State) (a : Word) : (s.leaveTrap a).errlog = s.errlog := rfl
@[simp] theorem leaveTrap_flips (s : State) (a : Word) : (s.leaveTrap a).flips = s.flips := rfl
@[simp] theorem leaveTrap_ports (s : State) (a : Word) : (s.leaveTrap a).ports = s.ports := rfl
@[simp] theorem leaveTrap_phase (s : State) (a : Word) : (s.leaveTrap a).phase = s.phase := rfl
@[simp] theorem leaveTrap_agenda (s : State) (a : Word) : (s.leaveTrap a).agenda = s.agenda := rfl
@[simp] theorem leaveTrap_holdBack (s : State) (a : Word) : (s.leaveTrap a).holdBack = s.holdBack := rfl
@[simp] theorem leaveTrap_fills (s : State) (a : Word) : (s.leaveTrap a).fills = s.fills := rfl
@[simp] theorem leaveTrap_nextSid (s : State) (a : Word) : (s.leaveTrap a).nextSid = s.nextSid := rfl
@[simp] theorem leaveTrap_nextOrder (s : State) (a : Word) : (s.leaveTrap a).nextOrder = s.nextOrder := rfl
@[simp] theorem leaveTrap_nextFree (s : State) (a : Word) : (s.leaveTrap a).nextFree = s.nextFree := rfl
@[simp] theorem leaveTrap_me_pc (s : State) (a : Word) : (s.leaveTrap a).me.pc = a := rfl
@[simp] theorem leaveTrap_me_seq (s : State) (a : Word) : (s.leaveTrap a).me.seq = s.me.seq := rfl
@[simp] theorem leaveTrap_me_pfx (s : State) (a : Word) : (s.leaveTrap a).me.pfx = none := rfl
@[simp] theorem leaveTrap_me_waiting (s : State) (a : Word) : (s.leaveTrap a).me.waiting = s.me.waiting := rfl
@[simp] theorem leaveTrap_me_fpsr (s : State) (a : Word) : (s.leaveTrap a).me.fpsr = s.me.fpsr := rfl
@[simp] theorem leaveTrap_me_masks (s : State) (a : Word) : (s.leaveTrap a).me.masks = s.me.masks := rfl
@[simp] theorem leaveTrap_me_vl (s : State) (a : Word) : (s.leaveTrap a).me.vl = s.me.vl := rfl
@[simp] theorem leaveTrap_me_strip (s : State) (a : Word) : (s.leaveTrap a).me.strip = s.me.strip := rfl
@[simp] theorem leaveTrap_me_inh (s : State) (a : Word) : (s.leaveTrap a).me.inh = false := rfl
@[simp] theorem leaveTrap_me_tvec (s : State) (a : Word) : (s.leaveTrap a).me.tvec = s.me.tvec := rfl
@[simp] theorem leaveTrap_me_epc (s : State) (a : Word) : (s.leaveTrap a).me.epc = s.me.epc := rfl
@[simp] theorem leaveTrap_me_stops (s : State) (a : Word) : (s.leaveTrap a).me.stops = [] := rfl
@[simp] theorem leaveTrap_me_stopEpc (s : State) (a : Word) : (s.leaveTrap a).me.stopEpc = s.me.stopEpc := rfl
@[simp] theorem leaveTrap_me_beds (s : State) (a : Word) : (s.leaveTrap a).me.beds = s.me.beds := rfl
@[simp] theorem leaveTrap_me_ctx (s : State) (a : Word) : (s.leaveTrap a).me.ctx = s.me.ctx := rfl
@[simp] theorem leaveTrap_me_supv (s : State) (a : Word) : (s.leaveTrap a).me.supv = s.me.supv := rfl
@[simp] theorem leaveTrap_me_trl (s : State) (a : Word) : (s.leaveTrap a).me.trl = s.me.trl := rfl
@[simp] theorem leaveTrap_me_holds (s : State) (a : Word) : (s.leaveTrap a).me.holds = s.me.holds := rfl
@[simp] theorem leaveTrap_me_jobs (s : State) (a : Word) : (s.leaveTrap a).me.jobs = s.me.jobs := rfl
@[simp] theorem leaveTrap_me_wpkts (s : State) (a : Word) : (s.leaveTrap a).me.wpkts = s.me.wpkts := rfl
@[simp] theorem leaveTrap_me_rm (s : State) (a : Word) : (s.leaveTrap a).me.rm = s.me.rm := rfl
@[simp] theorem leaveTrap_me_sat (s : State) (a : Word) : (s.leaveTrap a).me.sat = s.me.sat := rfl
@[simp] theorem leaveTrap_me_runner (s : State) (a : Word) : (s.leaveTrap a).me.runner = s.me.runner := rfl
@[simp] theorem leaveTrap_me_status (s : State) (a : Word) : (s.leaveTrap a).me.status = s.me.status := rfl
@[simp] theorem leaveTrap_me_id (s : State) (a : Word) : (s.leaveTrap a).me.id = s.me.id := rfl
@[simp] theorem leaveTrap_reg (s : State) (a : Word) (r : Reg) : (s.leaveTrap a).reg r = s.reg r := rfl

/-! ### `setTrl` -/

@[simp] theorem setTrl_mem (s : State) (x : Trl) : (s.setTrl x).mem = s.mem := rfl
@[simp] theorem setTrl_gcode (s : State) (x : Trl) : (s.setTrl x).gcode = s.gcode := rfl
@[simp] theorem setTrl_poison (s : State) (x : Trl) : (s.setTrl x).poison = s.poison := rfl
@[simp] theorem setTrl_hbmErr (s : State) (x : Trl) : (s.setTrl x).hbmErr = s.hbmErr := rfl
@[simp] theorem setTrl_nearUE (s : State) (x : Trl) : (s.setTrl x).nearUE = s.nearUE := rfl
@[simp] theorem setTrl_nearFlip (s : State) (x : Trl) : (s.setTrl x).nearFlip = s.nearFlip := rfl
@[simp] theorem setTrl_dregs (s : State) (x : Trl) : (s.setTrl x).dregs = s.dregs := rfl
@[simp] theorem setTrl_featWritten (s : State) (x : Trl) : (s.setTrl x).featWritten = s.featWritten := rfl
@[simp] theorem setTrl_now (s : State) (x : Trl) : (s.setTrl x).now = s.now := rfl
@[simp] theorem setTrl_bands (s : State) (x : Trl) : (s.setTrl x).bands = s.bands := rfl
@[simp] theorem setTrl_arb (s : State) (x : Trl) : (s.setTrl x).arb = s.arb := rfl
@[simp] theorem setTrl_ctxs (s : State) (x : Trl) : (s.setTrl x).ctxs = s.ctxs := rfl
@[simp] theorem setTrl_ready (s : State) (x : Trl) : (s.setTrl x).ready = s.ready := rfl
@[simp] theorem setTrl_heads (s : State) (x : Trl) : (s.setTrl x).heads = s.heads := rfl
@[simp] theorem setTrl_nodes (s : State) (x : Trl) : (s.setTrl x).nodes = s.nodes := rfl
@[simp] theorem setTrl_completing (s : State) (x : Trl) : (s.setTrl x).completing = s.completing := rfl
@[simp] theorem setTrl_timers (s : State) (x : Trl) : (s.setTrl x).timers = s.timers := rfl
@[simp] theorem setTrl_staged (s : State) (x : Trl) : (s.setTrl x).staged = s.staged := rfl
@[simp] theorem setTrl_armed (s : State) (x : Trl) : (s.setTrl x).armed = s.armed := rfl
@[simp] theorem setTrl_stopped (s : State) (x : Trl) : (s.setTrl x).stopped = s.stopped := rfl
@[simp] theorem setTrl_sysPend (s : State) (x : Trl) : (s.setTrl x).sysPend = s.sysPend := rfl
@[simp] theorem setTrl_pendKill (s : State) (x : Trl) : (s.setTrl x).pendKill = s.pendKill := rfl
@[simp] theorem setTrl_retn (s : State) (x : Trl) : (s.setTrl x).retn = s.retn := rfl
@[simp] theorem setTrl_rails (s : State) (x : Trl) : (s.setTrl x).rails = s.rails := rfl
@[simp] theorem setTrl_holes (s : State) (x : Trl) : (s.setTrl x).holes = s.holes := rfl
@[simp] theorem setTrl_retiring (s : State) (x : Trl) : (s.setTrl x).retiring = s.retiring := rfl
@[simp] theorem setTrl_tlb (s : State) (x : Trl) : (s.setTrl x).tlb = s.tlb := rfl
@[simp] theorem setTrl_dcache (s : State) (x : Trl) : (s.setTrl x).dcache = s.dcache := rfl
@[simp] theorem setTrl_pairs (s : State) (x : Trl) : (s.setTrl x).pairs = s.pairs := rfl
@[simp] theorem setTrl_crossed (s : State) (x : Trl) : (s.setTrl x).crossed = s.crossed := rfl
@[simp] theorem setTrl_msixOn (s : State) (x : Trl) : (s.setTrl x).msixOn = s.msixOn := rfl
@[simp] theorem setTrl_msixPend (s : State) (x : Trl) : (s.setTrl x).msixPend = s.msixPend := rfl
@[simp] theorem setTrl_answers (s : State) (x : Trl) : (s.setTrl x).answers = s.answers := rfl
@[simp] theorem setTrl_errlog (s : State) (x : Trl) : (s.setTrl x).errlog = s.errlog := rfl
@[simp] theorem setTrl_flips (s : State) (x : Trl) : (s.setTrl x).flips = s.flips := rfl
@[simp] theorem setTrl_ports (s : State) (x : Trl) : (s.setTrl x).ports = s.ports := rfl
@[simp] theorem setTrl_phase (s : State) (x : Trl) : (s.setTrl x).phase = s.phase := rfl
@[simp] theorem setTrl_agenda (s : State) (x : Trl) : (s.setTrl x).agenda = s.agenda := rfl
@[simp] theorem setTrl_holdBack (s : State) (x : Trl) : (s.setTrl x).holdBack = s.holdBack := rfl
@[simp] theorem setTrl_fills (s : State) (x : Trl) : (s.setTrl x).fills = s.fills := rfl
@[simp] theorem setTrl_nextSid (s : State) (x : Trl) : (s.setTrl x).nextSid = s.nextSid := rfl
@[simp] theorem setTrl_nextOrder (s : State) (x : Trl) : (s.setTrl x).nextOrder = s.nextOrder := rfl
@[simp] theorem setTrl_nextFree (s : State) (x : Trl) : (s.setTrl x).nextFree = s.nextFree := rfl
@[simp] theorem setTrl_me_pc (s : State) (x : Trl) : (s.setTrl x).me.pc = s.me.pc := rfl
@[simp] theorem setTrl_me_seq (s : State) (x : Trl) : (s.setTrl x).me.seq = s.me.seq := rfl
@[simp] theorem setTrl_me_pfx (s : State) (x : Trl) : (s.setTrl x).me.pfx = s.me.pfx := rfl
@[simp] theorem setTrl_me_waiting (s : State) (x : Trl) : (s.setTrl x).me.waiting = s.me.waiting := rfl
@[simp] theorem setTrl_me_fpsr (s : State) (x : Trl) : (s.setTrl x).me.fpsr = s.me.fpsr := rfl
@[simp] theorem setTrl_me_masks (s : State) (x : Trl) : (s.setTrl x).me.masks = s.me.masks := rfl
@[simp] theorem setTrl_me_vl (s : State) (x : Trl) : (s.setTrl x).me.vl = s.me.vl := rfl
@[simp] theorem setTrl_me_strip (s : State) (x : Trl) : (s.setTrl x).me.strip = s.me.strip := rfl
@[simp] theorem setTrl_me_inh (s : State) (x : Trl) : (s.setTrl x).me.inh = s.me.inh := rfl
@[simp] theorem setTrl_me_tvec (s : State) (x : Trl) : (s.setTrl x).me.tvec = s.me.tvec := rfl
@[simp] theorem setTrl_me_epc (s : State) (x : Trl) : (s.setTrl x).me.epc = s.me.epc := rfl
@[simp] theorem setTrl_me_stops (s : State) (x : Trl) : (s.setTrl x).me.stops = s.me.stops := rfl
@[simp] theorem setTrl_me_stopEpc (s : State) (x : Trl) : (s.setTrl x).me.stopEpc = s.me.stopEpc := rfl
@[simp] theorem setTrl_me_beds (s : State) (x : Trl) : (s.setTrl x).me.beds = s.me.beds := rfl
@[simp] theorem setTrl_me_ctx (s : State) (x : Trl) : (s.setTrl x).me.ctx = s.me.ctx := rfl
@[simp] theorem setTrl_me_supv (s : State) (x : Trl) : (s.setTrl x).me.supv = s.me.supv := rfl
@[simp] theorem setTrl_me_trl (s : State) (x : Trl) : (s.setTrl x).me.trl = x := rfl
@[simp] theorem setTrl_me_holds (s : State) (x : Trl) : (s.setTrl x).me.holds = s.me.holds := rfl
@[simp] theorem setTrl_me_jobs (s : State) (x : Trl) : (s.setTrl x).me.jobs = s.me.jobs := rfl
@[simp] theorem setTrl_me_wpkts (s : State) (x : Trl) : (s.setTrl x).me.wpkts = s.me.wpkts := rfl
@[simp] theorem setTrl_me_rm (s : State) (x : Trl) : (s.setTrl x).me.rm = s.me.rm := rfl
@[simp] theorem setTrl_me_sat (s : State) (x : Trl) : (s.setTrl x).me.sat = s.me.sat := rfl
@[simp] theorem setTrl_me_runner (s : State) (x : Trl) : (s.setTrl x).me.runner = s.me.runner := rfl
@[simp] theorem setTrl_me_status (s : State) (x : Trl) : (s.setTrl x).me.status = s.me.status := rfl
@[simp] theorem setTrl_me_id (s : State) (x : Trl) : (s.setTrl x).me.id = s.me.id := rfl
@[simp] theorem setTrl_reg (s : State) (x : Trl) (r : Reg) : (s.setTrl x).reg r = s.reg r := rfl

/-! ### `hold` -/

@[simp] theorem hold_mem (s : State) (w : Wait) : (s.hold w).mem = s.mem := rfl
@[simp] theorem hold_gcode (s : State) (w : Wait) : (s.hold w).gcode = s.gcode := rfl
@[simp] theorem hold_poison (s : State) (w : Wait) : (s.hold w).poison = s.poison := rfl
@[simp] theorem hold_hbmErr (s : State) (w : Wait) : (s.hold w).hbmErr = s.hbmErr := rfl
@[simp] theorem hold_nearUE (s : State) (w : Wait) : (s.hold w).nearUE = s.nearUE := rfl
@[simp] theorem hold_nearFlip (s : State) (w : Wait) : (s.hold w).nearFlip = s.nearFlip := rfl
@[simp] theorem hold_dregs (s : State) (w : Wait) : (s.hold w).dregs = s.dregs := rfl
@[simp] theorem hold_featWritten (s : State) (w : Wait) : (s.hold w).featWritten = s.featWritten := rfl
@[simp] theorem hold_now (s : State) (w : Wait) : (s.hold w).now = s.now := rfl
@[simp] theorem hold_bands (s : State) (w : Wait) : (s.hold w).bands = s.bands := rfl
@[simp] theorem hold_arb (s : State) (w : Wait) : (s.hold w).arb = s.arb := rfl
@[simp] theorem hold_ctxs (s : State) (w : Wait) : (s.hold w).ctxs = s.ctxs := rfl
@[simp] theorem hold_ready (s : State) (w : Wait) : (s.hold w).ready = s.ready := rfl
@[simp] theorem hold_heads (s : State) (w : Wait) : (s.hold w).heads = s.heads := rfl
@[simp] theorem hold_nodes (s : State) (w : Wait) : (s.hold w).nodes = s.nodes := rfl
@[simp] theorem hold_completing (s : State) (w : Wait) : (s.hold w).completing = s.completing := rfl
@[simp] theorem hold_timers (s : State) (w : Wait) : (s.hold w).timers = s.timers := rfl
@[simp] theorem hold_staged (s : State) (w : Wait) : (s.hold w).staged = s.staged := rfl
@[simp] theorem hold_armed (s : State) (w : Wait) : (s.hold w).armed = s.armed := rfl
@[simp] theorem hold_stopped (s : State) (w : Wait) : (s.hold w).stopped = s.stopped := rfl
@[simp] theorem hold_sysPend (s : State) (w : Wait) : (s.hold w).sysPend = s.sysPend := rfl
@[simp] theorem hold_pendKill (s : State) (w : Wait) : (s.hold w).pendKill = s.pendKill := rfl
@[simp] theorem hold_retn (s : State) (w : Wait) : (s.hold w).retn = s.retn := rfl
@[simp] theorem hold_rails (s : State) (w : Wait) : (s.hold w).rails = s.rails := rfl
@[simp] theorem hold_holes (s : State) (w : Wait) : (s.hold w).holes = s.holes := rfl
@[simp] theorem hold_retiring (s : State) (w : Wait) : (s.hold w).retiring = s.retiring := rfl
@[simp] theorem hold_tlb (s : State) (w : Wait) : (s.hold w).tlb = s.tlb := rfl
@[simp] theorem hold_dcache (s : State) (w : Wait) : (s.hold w).dcache = s.dcache := rfl
@[simp] theorem hold_pairs (s : State) (w : Wait) : (s.hold w).pairs = s.pairs := rfl
@[simp] theorem hold_crossed (s : State) (w : Wait) : (s.hold w).crossed = s.crossed := rfl
@[simp] theorem hold_msixOn (s : State) (w : Wait) : (s.hold w).msixOn = s.msixOn := rfl
@[simp] theorem hold_msixPend (s : State) (w : Wait) : (s.hold w).msixPend = s.msixPend := rfl
@[simp] theorem hold_answers (s : State) (w : Wait) : (s.hold w).answers = s.answers := rfl
@[simp] theorem hold_errlog (s : State) (w : Wait) : (s.hold w).errlog = s.errlog := rfl
@[simp] theorem hold_flips (s : State) (w : Wait) : (s.hold w).flips = s.flips := rfl
@[simp] theorem hold_ports (s : State) (w : Wait) : (s.hold w).ports = s.ports := rfl
@[simp] theorem hold_phase (s : State) (w : Wait) : (s.hold w).phase = s.phase := rfl
@[simp] theorem hold_agenda (s : State) (w : Wait) : (s.hold w).agenda = s.agenda := rfl
@[simp] theorem hold_holdBack (s : State) (w : Wait) : (s.hold w).holdBack = s.holdBack := rfl
@[simp] theorem hold_fills (s : State) (w : Wait) : (s.hold w).fills = s.fills := rfl
@[simp] theorem hold_nextSid (s : State) (w : Wait) : (s.hold w).nextSid = s.nextSid := rfl
@[simp] theorem hold_nextOrder (s : State) (w : Wait) : (s.hold w).nextOrder = s.nextOrder := rfl
@[simp] theorem hold_nextFree (s : State) (w : Wait) : (s.hold w).nextFree = s.nextFree := rfl
@[simp] theorem hold_me_pc (s : State) (w : Wait) : (s.hold w).me.pc = s.me.pc := rfl
@[simp] theorem hold_me_seq (s : State) (w : Wait) : (s.hold w).me.seq = s.me.seq := rfl
@[simp] theorem hold_me_pfx (s : State) (w : Wait) : (s.hold w).me.pfx = s.me.pfx := rfl
@[simp] theorem hold_me_waiting (s : State) (w : Wait) : (s.hold w).me.waiting = some w := rfl
@[simp] theorem hold_me_fpsr (s : State) (w : Wait) : (s.hold w).me.fpsr = s.me.fpsr := rfl
@[simp] theorem hold_me_masks (s : State) (w : Wait) : (s.hold w).me.masks = s.me.masks := rfl
@[simp] theorem hold_me_vl (s : State) (w : Wait) : (s.hold w).me.vl = s.me.vl := rfl
@[simp] theorem hold_me_strip (s : State) (w : Wait) : (s.hold w).me.strip = s.me.strip := rfl
@[simp] theorem hold_me_inh (s : State) (w : Wait) : (s.hold w).me.inh = s.me.inh := rfl
@[simp] theorem hold_me_tvec (s : State) (w : Wait) : (s.hold w).me.tvec = s.me.tvec := rfl
@[simp] theorem hold_me_epc (s : State) (w : Wait) : (s.hold w).me.epc = s.me.epc := rfl
@[simp] theorem hold_me_stops (s : State) (w : Wait) : (s.hold w).me.stops = s.me.stops := rfl
@[simp] theorem hold_me_stopEpc (s : State) (w : Wait) : (s.hold w).me.stopEpc = s.me.stopEpc := rfl
@[simp] theorem hold_me_beds (s : State) (w : Wait) : (s.hold w).me.beds = s.me.beds := rfl
@[simp] theorem hold_me_ctx (s : State) (w : Wait) : (s.hold w).me.ctx = s.me.ctx := rfl
@[simp] theorem hold_me_supv (s : State) (w : Wait) : (s.hold w).me.supv = s.me.supv := rfl
@[simp] theorem hold_me_trl (s : State) (w : Wait) : (s.hold w).me.trl = s.me.trl := rfl
@[simp] theorem hold_me_holds (s : State) (w : Wait) : (s.hold w).me.holds = s.me.holds := rfl
@[simp] theorem hold_me_jobs (s : State) (w : Wait) : (s.hold w).me.jobs = s.me.jobs := rfl
@[simp] theorem hold_me_wpkts (s : State) (w : Wait) : (s.hold w).me.wpkts = s.me.wpkts := rfl
@[simp] theorem hold_me_rm (s : State) (w : Wait) : (s.hold w).me.rm = s.me.rm := rfl
@[simp] theorem hold_me_sat (s : State) (w : Wait) : (s.hold w).me.sat = s.me.sat := rfl
@[simp] theorem hold_me_runner (s : State) (w : Wait) : (s.hold w).me.runner = s.me.runner := rfl
@[simp] theorem hold_me_status (s : State) (w : Wait) : (s.hold w).me.status = s.me.status := rfl
@[simp] theorem hold_me_id (s : State) (w : Wait) : (s.hold w).me.id = s.me.id := rfl
@[simp] theorem hold_reg (s : State) (w : Wait) (r : Reg) : (s.hold w).reg r = s.reg r := rfl

/-! ### `putJob` -/

@[simp] theorem putJob_mem (s : State) (j : Job) : (s.putJob j).mem = s.mem := rfl
@[simp] theorem putJob_gcode (s : State) (j : Job) : (s.putJob j).gcode = s.gcode := rfl
@[simp] theorem putJob_poison (s : State) (j : Job) : (s.putJob j).poison = s.poison := rfl
@[simp] theorem putJob_hbmErr (s : State) (j : Job) : (s.putJob j).hbmErr = s.hbmErr := rfl
@[simp] theorem putJob_nearUE (s : State) (j : Job) : (s.putJob j).nearUE = s.nearUE := rfl
@[simp] theorem putJob_nearFlip (s : State) (j : Job) : (s.putJob j).nearFlip = s.nearFlip := rfl
@[simp] theorem putJob_dregs (s : State) (j : Job) : (s.putJob j).dregs = s.dregs := rfl
@[simp] theorem putJob_featWritten (s : State) (j : Job) : (s.putJob j).featWritten = s.featWritten := rfl
@[simp] theorem putJob_now (s : State) (j : Job) : (s.putJob j).now = s.now := rfl
@[simp] theorem putJob_bands (s : State) (j : Job) : (s.putJob j).bands = s.bands := rfl
@[simp] theorem putJob_arb (s : State) (j : Job) : (s.putJob j).arb = s.arb := rfl
@[simp] theorem putJob_ctxs (s : State) (j : Job) : (s.putJob j).ctxs = s.ctxs := rfl
@[simp] theorem putJob_ready (s : State) (j : Job) : (s.putJob j).ready = s.ready := rfl
@[simp] theorem putJob_heads (s : State) (j : Job) : (s.putJob j).heads = s.heads := rfl
@[simp] theorem putJob_nodes (s : State) (j : Job) : (s.putJob j).nodes = s.nodes := rfl
@[simp] theorem putJob_completing (s : State) (j : Job) : (s.putJob j).completing = s.completing := rfl
@[simp] theorem putJob_timers (s : State) (j : Job) : (s.putJob j).timers = s.timers := rfl
@[simp] theorem putJob_staged (s : State) (j : Job) : (s.putJob j).staged = s.staged := rfl
@[simp] theorem putJob_armed (s : State) (j : Job) : (s.putJob j).armed = s.armed := rfl
@[simp] theorem putJob_stopped (s : State) (j : Job) : (s.putJob j).stopped = s.stopped := rfl
@[simp] theorem putJob_sysPend (s : State) (j : Job) : (s.putJob j).sysPend = s.sysPend := rfl
@[simp] theorem putJob_pendKill (s : State) (j : Job) : (s.putJob j).pendKill = s.pendKill := rfl
@[simp] theorem putJob_retn (s : State) (j : Job) : (s.putJob j).retn = s.retn := rfl
@[simp] theorem putJob_rails (s : State) (j : Job) : (s.putJob j).rails = s.rails := rfl
@[simp] theorem putJob_holes (s : State) (j : Job) : (s.putJob j).holes = s.holes := rfl
@[simp] theorem putJob_retiring (s : State) (j : Job) : (s.putJob j).retiring = s.retiring := rfl
@[simp] theorem putJob_tlb (s : State) (j : Job) : (s.putJob j).tlb = s.tlb := rfl
@[simp] theorem putJob_dcache (s : State) (j : Job) : (s.putJob j).dcache = s.dcache := rfl
@[simp] theorem putJob_pairs (s : State) (j : Job) : (s.putJob j).pairs = s.pairs := rfl
@[simp] theorem putJob_crossed (s : State) (j : Job) : (s.putJob j).crossed = s.crossed := rfl
@[simp] theorem putJob_msixOn (s : State) (j : Job) : (s.putJob j).msixOn = s.msixOn := rfl
@[simp] theorem putJob_msixPend (s : State) (j : Job) : (s.putJob j).msixPend = s.msixPend := rfl
@[simp] theorem putJob_answers (s : State) (j : Job) : (s.putJob j).answers = s.answers := rfl
@[simp] theorem putJob_errlog (s : State) (j : Job) : (s.putJob j).errlog = s.errlog := rfl
@[simp] theorem putJob_flips (s : State) (j : Job) : (s.putJob j).flips = s.flips := rfl
@[simp] theorem putJob_ports (s : State) (j : Job) : (s.putJob j).ports = s.ports := rfl
@[simp] theorem putJob_phase (s : State) (j : Job) : (s.putJob j).phase = s.phase := rfl
@[simp] theorem putJob_agenda (s : State) (j : Job) : (s.putJob j).agenda = s.agenda := rfl
@[simp] theorem putJob_holdBack (s : State) (j : Job) : (s.putJob j).holdBack = s.holdBack := rfl
@[simp] theorem putJob_fills (s : State) (j : Job) : (s.putJob j).fills = s.fills := rfl
@[simp] theorem putJob_nextSid (s : State) (j : Job) : (s.putJob j).nextSid = s.nextSid := rfl
@[simp] theorem putJob_nextOrder (s : State) (j : Job) : (s.putJob j).nextOrder = s.nextOrder := rfl
@[simp] theorem putJob_nextFree (s : State) (j : Job) : (s.putJob j).nextFree = s.nextFree := rfl
@[simp] theorem putJob_me_pc (s : State) (j : Job) : (s.putJob j).me.pc = s.me.pc := rfl
@[simp] theorem putJob_me_seq (s : State) (j : Job) : (s.putJob j).me.seq = s.me.seq := rfl
@[simp] theorem putJob_me_pfx (s : State) (j : Job) : (s.putJob j).me.pfx = s.me.pfx := rfl
@[simp] theorem putJob_me_waiting (s : State) (j : Job) : (s.putJob j).me.waiting = s.me.waiting := rfl
@[simp] theorem putJob_me_fpsr (s : State) (j : Job) : (s.putJob j).me.fpsr = s.me.fpsr := rfl
@[simp] theorem putJob_me_masks (s : State) (j : Job) : (s.putJob j).me.masks = s.me.masks := rfl
@[simp] theorem putJob_me_vl (s : State) (j : Job) : (s.putJob j).me.vl = s.me.vl := rfl
@[simp] theorem putJob_me_strip (s : State) (j : Job) : (s.putJob j).me.strip = s.me.strip := rfl
@[simp] theorem putJob_me_inh (s : State) (j : Job) : (s.putJob j).me.inh = s.me.inh := rfl
@[simp] theorem putJob_me_tvec (s : State) (j : Job) : (s.putJob j).me.tvec = s.me.tvec := rfl
@[simp] theorem putJob_me_epc (s : State) (j : Job) : (s.putJob j).me.epc = s.me.epc := rfl
@[simp] theorem putJob_me_stops (s : State) (j : Job) : (s.putJob j).me.stops = s.me.stops := rfl
@[simp] theorem putJob_me_stopEpc (s : State) (j : Job) : (s.putJob j).me.stopEpc = s.me.stopEpc := rfl
@[simp] theorem putJob_me_beds (s : State) (j : Job) : (s.putJob j).me.beds = s.me.beds := rfl
@[simp] theorem putJob_me_ctx (s : State) (j : Job) : (s.putJob j).me.ctx = s.me.ctx := rfl
@[simp] theorem putJob_me_supv (s : State) (j : Job) : (s.putJob j).me.supv = s.me.supv := rfl
@[simp] theorem putJob_me_trl (s : State) (j : Job) : (s.putJob j).me.trl = s.me.trl := rfl
@[simp] theorem putJob_me_holds (s : State) (j : Job) : (s.putJob j).me.holds = s.me.holds := rfl
@[simp] theorem putJob_me_jobs (s : State) (j : Job) : (s.putJob j).me.jobs = s.me.jobs.map fun k => if k.seq = j.seq then j else k := rfl
@[simp] theorem putJob_me_wpkts (s : State) (j : Job) : (s.putJob j).me.wpkts = s.me.wpkts := rfl
@[simp] theorem putJob_me_rm (s : State) (j : Job) : (s.putJob j).me.rm = s.me.rm := rfl
@[simp] theorem putJob_me_sat (s : State) (j : Job) : (s.putJob j).me.sat = s.me.sat := rfl
@[simp] theorem putJob_me_runner (s : State) (j : Job) : (s.putJob j).me.runner = s.me.runner := rfl
@[simp] theorem putJob_me_status (s : State) (j : Job) : (s.putJob j).me.status = s.me.status := rfl
@[simp] theorem putJob_me_id (s : State) (j : Job) : (s.putJob j).me.id = s.me.id := rfl
@[simp] theorem putJob_reg (s : State) (j : Job) (r : Reg) : (s.putJob j).reg r = s.reg r := rfl

/-! ### `discard` -/

@[simp] theorem discard_mem (s : State) (js : List Job) : (s.discard js).mem = s.mem := rfl
@[simp] theorem discard_gcode (s : State) (js : List Job) : (s.discard js).gcode = s.gcode := rfl
@[simp] theorem discard_poison (s : State) (js : List Job) : (s.discard js).poison = s.poison := rfl
@[simp] theorem discard_hbmErr (s : State) (js : List Job) : (s.discard js).hbmErr = s.hbmErr := rfl
@[simp] theorem discard_nearUE (s : State) (js : List Job) : (s.discard js).nearUE = s.nearUE := rfl
@[simp] theorem discard_nearFlip (s : State) (js : List Job) : (s.discard js).nearFlip = s.nearFlip := rfl
@[simp] theorem discard_dregs (s : State) (js : List Job) : (s.discard js).dregs = s.dregs := rfl
@[simp] theorem discard_featWritten (s : State) (js : List Job) : (s.discard js).featWritten = s.featWritten := rfl
@[simp] theorem discard_now (s : State) (js : List Job) : (s.discard js).now = s.now := rfl
@[simp] theorem discard_bands (s : State) (js : List Job) : (s.discard js).bands = s.bands := rfl
@[simp] theorem discard_arb (s : State) (js : List Job) : (s.discard js).arb = s.arb := rfl
@[simp] theorem discard_ctxs (s : State) (js : List Job) : (s.discard js).ctxs = s.ctxs := rfl
@[simp] theorem discard_ready (s : State) (js : List Job) : (s.discard js).ready = s.ready := rfl
@[simp] theorem discard_heads (s : State) (js : List Job) : (s.discard js).heads = s.heads := rfl
@[simp] theorem discard_nodes (s : State) (js : List Job) : (s.discard js).nodes = s.nodes := rfl
@[simp] theorem discard_completing (s : State) (js : List Job) : (s.discard js).completing = s.completing := rfl
@[simp] theorem discard_timers (s : State) (js : List Job) : (s.discard js).timers = s.timers := rfl
@[simp] theorem discard_staged (s : State) (js : List Job) : (s.discard js).staged = s.staged := rfl
@[simp] theorem discard_armed (s : State) (js : List Job) : (s.discard js).armed = s.armed := rfl
@[simp] theorem discard_stopped (s : State) (js : List Job) : (s.discard js).stopped = s.stopped := rfl
@[simp] theorem discard_sysPend (s : State) (js : List Job) : (s.discard js).sysPend = s.sysPend := rfl
@[simp] theorem discard_pendKill (s : State) (js : List Job) : (s.discard js).pendKill = s.pendKill := rfl
@[simp] theorem discard_retn (s : State) (js : List Job) : (s.discard js).retn = s.retn := rfl
@[simp] theorem discard_rails (s : State) (js : List Job) : (s.discard js).rails = s.rails := rfl
@[simp] theorem discard_holes (s : State) (js : List Job) : (s.discard js).holes = s.holes := rfl
@[simp] theorem discard_retiring (s : State) (js : List Job) : (s.discard js).retiring = s.retiring := rfl
@[simp] theorem discard_tlb (s : State) (js : List Job) : (s.discard js).tlb = s.tlb := rfl
@[simp] theorem discard_dcache (s : State) (js : List Job) : (s.discard js).dcache = s.dcache := rfl
@[simp] theorem discard_pairs (s : State) (js : List Job) : (s.discard js).pairs = s.pairs := rfl
@[simp] theorem discard_crossed (s : State) (js : List Job) : (s.discard js).crossed = s.crossed := rfl
@[simp] theorem discard_msixOn (s : State) (js : List Job) : (s.discard js).msixOn = s.msixOn := rfl
@[simp] theorem discard_msixPend (s : State) (js : List Job) : (s.discard js).msixPend = s.msixPend := rfl
@[simp] theorem discard_answers (s : State) (js : List Job) : (s.discard js).answers = s.answers := rfl
@[simp] theorem discard_errlog (s : State) (js : List Job) : (s.discard js).errlog = s.errlog := rfl
@[simp] theorem discard_flips (s : State) (js : List Job) : (s.discard js).flips = s.flips := rfl
@[simp] theorem discard_ports (s : State) (js : List Job) : (s.discard js).ports = s.ports := rfl
@[simp] theorem discard_phase (s : State) (js : List Job) : (s.discard js).phase = s.phase := rfl
@[simp] theorem discard_agenda (s : State) (js : List Job) : (s.discard js).agenda = s.agenda := rfl
@[simp] theorem discard_holdBack (s : State) (js : List Job) : (s.discard js).holdBack = s.holdBack := rfl
@[simp] theorem discard_fills (s : State) (js : List Job) : (s.discard js).fills = s.fills := rfl
@[simp] theorem discard_nextSid (s : State) (js : List Job) : (s.discard js).nextSid = s.nextSid := rfl
@[simp] theorem discard_nextOrder (s : State) (js : List Job) : (s.discard js).nextOrder = s.nextOrder := rfl
@[simp] theorem discard_nextFree (s : State) (js : List Job) : (s.discard js).nextFree = s.nextFree := rfl
@[simp] theorem discard_me_pc (s : State) (js : List Job) : (s.discard js).me.pc = s.me.pc := rfl
@[simp] theorem discard_me_seq (s : State) (js : List Job) : (s.discard js).me.seq = s.me.seq := rfl
@[simp] theorem discard_me_pfx (s : State) (js : List Job) : (s.discard js).me.pfx = s.me.pfx := rfl
@[simp] theorem discard_me_waiting (s : State) (js : List Job) : (s.discard js).me.waiting = s.me.waiting := rfl
@[simp] theorem discard_me_fpsr (s : State) (js : List Job) : (s.discard js).me.fpsr = s.me.fpsr := rfl
@[simp] theorem discard_me_masks (s : State) (js : List Job) : (s.discard js).me.masks = s.me.masks := rfl
@[simp] theorem discard_me_vl (s : State) (js : List Job) : (s.discard js).me.vl = s.me.vl := rfl
@[simp] theorem discard_me_strip (s : State) (js : List Job) : (s.discard js).me.strip = s.me.strip := rfl
@[simp] theorem discard_me_inh (s : State) (js : List Job) : (s.discard js).me.inh = s.me.inh := rfl
@[simp] theorem discard_me_tvec (s : State) (js : List Job) : (s.discard js).me.tvec = s.me.tvec := rfl
@[simp] theorem discard_me_epc (s : State) (js : List Job) : (s.discard js).me.epc = s.me.epc := rfl
@[simp] theorem discard_me_stops (s : State) (js : List Job) : (s.discard js).me.stops = s.me.stops := rfl
@[simp] theorem discard_me_stopEpc (s : State) (js : List Job) : (s.discard js).me.stopEpc = s.me.stopEpc := rfl
@[simp] theorem discard_me_beds (s : State) (js : List Job) : (s.discard js).me.beds = s.me.beds := rfl
@[simp] theorem discard_me_ctx (s : State) (js : List Job) : (s.discard js).me.ctx = s.me.ctx := rfl
@[simp] theorem discard_me_supv (s : State) (js : List Job) : (s.discard js).me.supv = s.me.supv := rfl
@[simp] theorem discard_me_trl (s : State) (js : List Job) : (s.discard js).me.trl = s.me.trl := rfl
@[simp] theorem discard_me_holds (s : State) (js : List Job) : (s.discard js).me.holds = s.me.holds := rfl
@[simp] theorem discard_me_jobs (s : State) (js : List Job) : (s.discard js).me.jobs = s.me.jobs.filter fun j => !js.any fun k => k.seq == j.seq := rfl
@[simp] theorem discard_me_wpkts (s : State) (js : List Job) : (s.discard js).me.wpkts = s.me.wpkts := rfl
@[simp] theorem discard_me_rm (s : State) (js : List Job) : (s.discard js).me.rm = s.me.rm := rfl
@[simp] theorem discard_me_sat (s : State) (js : List Job) : (s.discard js).me.sat = s.me.sat := rfl
@[simp] theorem discard_me_runner (s : State) (js : List Job) : (s.discard js).me.runner = s.me.runner := rfl
@[simp] theorem discard_me_status (s : State) (js : List Job) : (s.discard js).me.status = s.me.status := rfl
@[simp] theorem discard_me_id (s : State) (js : List Job) : (s.discard js).me.id = s.me.id := rfl
@[simp] theorem discard_reg (s : State) (js : List Job) (r : Reg) : (s.discard js).reg r = s.reg r := rfl

/-! ### `withFar` -/

@[simp] theorem withFar_mem (s : State) (l : List FarPkt) : (s.withFar l).mem = s.mem := rfl
@[simp] theorem withFar_gcode (s : State) (l : List FarPkt) : (s.withFar l).gcode = s.gcode := rfl
@[simp] theorem withFar_poison (s : State) (l : List FarPkt) : (s.withFar l).poison = s.poison := rfl
@[simp] theorem withFar_hbmErr (s : State) (l : List FarPkt) : (s.withFar l).hbmErr = s.hbmErr := rfl
@[simp] theorem withFar_nearUE (s : State) (l : List FarPkt) : (s.withFar l).nearUE = s.nearUE := rfl
@[simp] theorem withFar_nearFlip (s : State) (l : List FarPkt) : (s.withFar l).nearFlip = s.nearFlip := rfl
@[simp] theorem withFar_dregs (s : State) (l : List FarPkt) : (s.withFar l).dregs = s.dregs := rfl
@[simp] theorem withFar_featWritten (s : State) (l : List FarPkt) : (s.withFar l).featWritten = s.featWritten := rfl
@[simp] theorem withFar_now (s : State) (l : List FarPkt) : (s.withFar l).now = s.now := rfl
@[simp] theorem withFar_bands (s : State) (l : List FarPkt) : (s.withFar l).bands = s.bands := rfl
@[simp] theorem withFar_arb (s : State) (l : List FarPkt) : (s.withFar l).arb = s.arb := rfl
@[simp] theorem withFar_ctxs (s : State) (l : List FarPkt) : (s.withFar l).ctxs = s.ctxs := rfl
@[simp] theorem withFar_ready (s : State) (l : List FarPkt) : (s.withFar l).ready = s.ready := rfl
@[simp] theorem withFar_heads (s : State) (l : List FarPkt) : (s.withFar l).heads = s.heads := rfl
@[simp] theorem withFar_nodes (s : State) (l : List FarPkt) : (s.withFar l).nodes = s.nodes := rfl
@[simp] theorem withFar_completing (s : State) (l : List FarPkt) : (s.withFar l).completing = s.completing := rfl
@[simp] theorem withFar_timers (s : State) (l : List FarPkt) : (s.withFar l).timers = s.timers := rfl
@[simp] theorem withFar_staged (s : State) (l : List FarPkt) : (s.withFar l).staged = s.staged := rfl
@[simp] theorem withFar_armed (s : State) (l : List FarPkt) : (s.withFar l).armed = s.armed := rfl
@[simp] theorem withFar_stopped (s : State) (l : List FarPkt) : (s.withFar l).stopped = s.stopped := rfl
@[simp] theorem withFar_sysPend (s : State) (l : List FarPkt) : (s.withFar l).sysPend = s.sysPend := rfl
@[simp] theorem withFar_pendKill (s : State) (l : List FarPkt) : (s.withFar l).pendKill = s.pendKill := rfl
@[simp] theorem withFar_retn (s : State) (l : List FarPkt) : (s.withFar l).retn = s.retn := rfl
@[simp] theorem withFar_rails (s : State) (l : List FarPkt) : (s.withFar l).rails = s.rails := rfl
@[simp] theorem withFar_holes (s : State) (l : List FarPkt) : (s.withFar l).holes = s.holes := rfl
@[simp] theorem withFar_retiring (s : State) (l : List FarPkt) : (s.withFar l).retiring = s.retiring := rfl
@[simp] theorem withFar_tlb (s : State) (l : List FarPkt) : (s.withFar l).tlb = s.tlb := rfl
@[simp] theorem withFar_dcache (s : State) (l : List FarPkt) : (s.withFar l).dcache = s.dcache := rfl
@[simp] theorem withFar_pairs (s : State) (l : List FarPkt) : (s.withFar l).pairs = s.pairs := rfl
@[simp] theorem withFar_crossed (s : State) (l : List FarPkt) : (s.withFar l).crossed = s.crossed := rfl
@[simp] theorem withFar_msixOn (s : State) (l : List FarPkt) : (s.withFar l).msixOn = s.msixOn := rfl
@[simp] theorem withFar_msixPend (s : State) (l : List FarPkt) : (s.withFar l).msixPend = s.msixPend := rfl
@[simp] theorem withFar_answers (s : State) (l : List FarPkt) : (s.withFar l).answers = s.answers := rfl
@[simp] theorem withFar_errlog (s : State) (l : List FarPkt) : (s.withFar l).errlog = s.errlog := rfl
@[simp] theorem withFar_flips (s : State) (l : List FarPkt) : (s.withFar l).flips = s.flips := rfl
@[simp] theorem withFar_ports (s : State) (l : List FarPkt) : (s.withFar l).ports = s.ports := rfl
@[simp] theorem withFar_phase (s : State) (l : List FarPkt) : (s.withFar l).phase = s.phase := rfl
@[simp] theorem withFar_agenda (s : State) (l : List FarPkt) : (s.withFar l).agenda = s.agenda := rfl
@[simp] theorem withFar_holdBack (s : State) (l : List FarPkt) : (s.withFar l).holdBack = s.holdBack := rfl
@[simp] theorem withFar_fills (s : State) (l : List FarPkt) : (s.withFar l).fills = s.fills := rfl
@[simp] theorem withFar_nextSid (s : State) (l : List FarPkt) : (s.withFar l).nextSid = s.nextSid := rfl
@[simp] theorem withFar_nextOrder (s : State) (l : List FarPkt) : (s.withFar l).nextOrder = s.nextOrder := rfl
@[simp] theorem withFar_nextFree (s : State) (l : List FarPkt) : (s.withFar l).nextFree = s.nextFree := rfl
@[simp] theorem withFar_me_pc (s : State) (l : List FarPkt) : (s.withFar l).me.pc = s.me.pc := rfl
@[simp] theorem withFar_me_seq (s : State) (l : List FarPkt) : (s.withFar l).me.seq = s.me.seq := rfl
@[simp] theorem withFar_me_pfx (s : State) (l : List FarPkt) : (s.withFar l).me.pfx = s.me.pfx := rfl
@[simp] theorem withFar_me_waiting (s : State) (l : List FarPkt) : (s.withFar l).me.waiting = s.me.waiting := rfl
@[simp] theorem withFar_me_fpsr (s : State) (l : List FarPkt) : (s.withFar l).me.fpsr = s.me.fpsr := rfl
@[simp] theorem withFar_me_masks (s : State) (l : List FarPkt) : (s.withFar l).me.masks = s.me.masks := rfl
@[simp] theorem withFar_me_vl (s : State) (l : List FarPkt) : (s.withFar l).me.vl = s.me.vl := rfl
@[simp] theorem withFar_me_strip (s : State) (l : List FarPkt) : (s.withFar l).me.strip = { s.me.strip with far := l } := rfl
@[simp] theorem withFar_me_inh (s : State) (l : List FarPkt) : (s.withFar l).me.inh = s.me.inh := rfl
@[simp] theorem withFar_me_tvec (s : State) (l : List FarPkt) : (s.withFar l).me.tvec = s.me.tvec := rfl
@[simp] theorem withFar_me_epc (s : State) (l : List FarPkt) : (s.withFar l).me.epc = s.me.epc := rfl
@[simp] theorem withFar_me_stops (s : State) (l : List FarPkt) : (s.withFar l).me.stops = s.me.stops := rfl
@[simp] theorem withFar_me_stopEpc (s : State) (l : List FarPkt) : (s.withFar l).me.stopEpc = s.me.stopEpc := rfl
@[simp] theorem withFar_me_beds (s : State) (l : List FarPkt) : (s.withFar l).me.beds = s.me.beds := rfl
@[simp] theorem withFar_me_ctx (s : State) (l : List FarPkt) : (s.withFar l).me.ctx = s.me.ctx := rfl
@[simp] theorem withFar_me_supv (s : State) (l : List FarPkt) : (s.withFar l).me.supv = s.me.supv := rfl
@[simp] theorem withFar_me_trl (s : State) (l : List FarPkt) : (s.withFar l).me.trl = s.me.trl := rfl
@[simp] theorem withFar_me_holds (s : State) (l : List FarPkt) : (s.withFar l).me.holds = s.me.holds := rfl
@[simp] theorem withFar_me_jobs (s : State) (l : List FarPkt) : (s.withFar l).me.jobs = s.me.jobs := rfl
@[simp] theorem withFar_me_wpkts (s : State) (l : List FarPkt) : (s.withFar l).me.wpkts = s.me.wpkts := rfl
@[simp] theorem withFar_me_rm (s : State) (l : List FarPkt) : (s.withFar l).me.rm = s.me.rm := rfl
@[simp] theorem withFar_me_sat (s : State) (l : List FarPkt) : (s.withFar l).me.sat = s.me.sat := rfl
@[simp] theorem withFar_me_runner (s : State) (l : List FarPkt) : (s.withFar l).me.runner = s.me.runner := rfl
@[simp] theorem withFar_me_status (s : State) (l : List FarPkt) : (s.withFar l).me.status = s.me.status := rfl
@[simp] theorem withFar_me_id (s : State) (l : List FarPkt) : (s.withFar l).me.id = s.me.id := rfl
@[simp] theorem withFar_reg (s : State) (l : List FarPkt) (r : Reg) : (s.withFar l).reg r = s.reg r := rfl

/-! ### `setMask` -/

@[simp] theorem setMask_mem (s : State) (k : Mask) (m : MaskV) : (s.setMask k m).mem = s.mem := rfl
@[simp] theorem setMask_gcode (s : State) (k : Mask) (m : MaskV) : (s.setMask k m).gcode = s.gcode := rfl
@[simp] theorem setMask_poison (s : State) (k : Mask) (m : MaskV) : (s.setMask k m).poison = s.poison := rfl
@[simp] theorem setMask_hbmErr (s : State) (k : Mask) (m : MaskV) : (s.setMask k m).hbmErr = s.hbmErr := rfl
@[simp] theorem setMask_nearUE (s : State) (k : Mask) (m : MaskV) : (s.setMask k m).nearUE = s.nearUE := rfl
@[simp] theorem setMask_nearFlip (s : State) (k : Mask) (m : MaskV) : (s.setMask k m).nearFlip = s.nearFlip := rfl
@[simp] theorem setMask_dregs (s : State) (k : Mask) (m : MaskV) : (s.setMask k m).dregs = s.dregs := rfl
@[simp] theorem setMask_featWritten (s : State) (k : Mask) (m : MaskV) : (s.setMask k m).featWritten = s.featWritten := rfl
@[simp] theorem setMask_now (s : State) (k : Mask) (m : MaskV) : (s.setMask k m).now = s.now := rfl
@[simp] theorem setMask_bands (s : State) (k : Mask) (m : MaskV) : (s.setMask k m).bands = s.bands := rfl
@[simp] theorem setMask_arb (s : State) (k : Mask) (m : MaskV) : (s.setMask k m).arb = s.arb := rfl
@[simp] theorem setMask_ctxs (s : State) (k : Mask) (m : MaskV) : (s.setMask k m).ctxs = s.ctxs := rfl
@[simp] theorem setMask_ready (s : State) (k : Mask) (m : MaskV) : (s.setMask k m).ready = s.ready := rfl
@[simp] theorem setMask_heads (s : State) (k : Mask) (m : MaskV) : (s.setMask k m).heads = s.heads := rfl
@[simp] theorem setMask_nodes (s : State) (k : Mask) (m : MaskV) : (s.setMask k m).nodes = s.nodes := rfl
@[simp] theorem setMask_completing (s : State) (k : Mask) (m : MaskV) : (s.setMask k m).completing = s.completing := rfl
@[simp] theorem setMask_timers (s : State) (k : Mask) (m : MaskV) : (s.setMask k m).timers = s.timers := rfl
@[simp] theorem setMask_staged (s : State) (k : Mask) (m : MaskV) : (s.setMask k m).staged = s.staged := rfl
@[simp] theorem setMask_armed (s : State) (k : Mask) (m : MaskV) : (s.setMask k m).armed = s.armed := rfl
@[simp] theorem setMask_stopped (s : State) (k : Mask) (m : MaskV) : (s.setMask k m).stopped = s.stopped := rfl
@[simp] theorem setMask_sysPend (s : State) (k : Mask) (m : MaskV) : (s.setMask k m).sysPend = s.sysPend := rfl
@[simp] theorem setMask_pendKill (s : State) (k : Mask) (m : MaskV) : (s.setMask k m).pendKill = s.pendKill := rfl
@[simp] theorem setMask_retn (s : State) (k : Mask) (m : MaskV) : (s.setMask k m).retn = s.retn := rfl
@[simp] theorem setMask_rails (s : State) (k : Mask) (m : MaskV) : (s.setMask k m).rails = s.rails := rfl
@[simp] theorem setMask_holes (s : State) (k : Mask) (m : MaskV) : (s.setMask k m).holes = s.holes := rfl
@[simp] theorem setMask_retiring (s : State) (k : Mask) (m : MaskV) : (s.setMask k m).retiring = s.retiring := rfl
@[simp] theorem setMask_tlb (s : State) (k : Mask) (m : MaskV) : (s.setMask k m).tlb = s.tlb := rfl
@[simp] theorem setMask_dcache (s : State) (k : Mask) (m : MaskV) : (s.setMask k m).dcache = s.dcache := rfl
@[simp] theorem setMask_pairs (s : State) (k : Mask) (m : MaskV) : (s.setMask k m).pairs = s.pairs := rfl
@[simp] theorem setMask_crossed (s : State) (k : Mask) (m : MaskV) : (s.setMask k m).crossed = s.crossed := rfl
@[simp] theorem setMask_msixOn (s : State) (k : Mask) (m : MaskV) : (s.setMask k m).msixOn = s.msixOn := rfl
@[simp] theorem setMask_msixPend (s : State) (k : Mask) (m : MaskV) : (s.setMask k m).msixPend = s.msixPend := rfl
@[simp] theorem setMask_answers (s : State) (k : Mask) (m : MaskV) : (s.setMask k m).answers = s.answers := rfl
@[simp] theorem setMask_errlog (s : State) (k : Mask) (m : MaskV) : (s.setMask k m).errlog = s.errlog := rfl
@[simp] theorem setMask_flips (s : State) (k : Mask) (m : MaskV) : (s.setMask k m).flips = s.flips := rfl
@[simp] theorem setMask_ports (s : State) (k : Mask) (m : MaskV) : (s.setMask k m).ports = s.ports := rfl
@[simp] theorem setMask_phase (s : State) (k : Mask) (m : MaskV) : (s.setMask k m).phase = s.phase := rfl
@[simp] theorem setMask_agenda (s : State) (k : Mask) (m : MaskV) : (s.setMask k m).agenda = s.agenda := rfl
@[simp] theorem setMask_holdBack (s : State) (k : Mask) (m : MaskV) : (s.setMask k m).holdBack = s.holdBack := rfl
@[simp] theorem setMask_fills (s : State) (k : Mask) (m : MaskV) : (s.setMask k m).fills = s.fills := rfl
@[simp] theorem setMask_nextSid (s : State) (k : Mask) (m : MaskV) : (s.setMask k m).nextSid = s.nextSid := rfl
@[simp] theorem setMask_nextOrder (s : State) (k : Mask) (m : MaskV) : (s.setMask k m).nextOrder = s.nextOrder := rfl
@[simp] theorem setMask_nextFree (s : State) (k : Mask) (m : MaskV) : (s.setMask k m).nextFree = s.nextFree := rfl
@[simp] theorem setMask_me_pc (s : State) (k : Mask) (m : MaskV) : (s.setMask k m).me.pc = s.me.pc := rfl
@[simp] theorem setMask_me_seq (s : State) (k : Mask) (m : MaskV) : (s.setMask k m).me.seq = s.me.seq := rfl
@[simp] theorem setMask_me_pfx (s : State) (k : Mask) (m : MaskV) : (s.setMask k m).me.pfx = s.me.pfx := rfl
@[simp] theorem setMask_me_waiting (s : State) (k : Mask) (m : MaskV) : (s.setMask k m).me.waiting = s.me.waiting := rfl
@[simp] theorem setMask_me_fpsr (s : State) (k : Mask) (m : MaskV) : (s.setMask k m).me.fpsr = s.me.fpsr := rfl
@[simp] theorem setMask_me_masks (s : State) (k : Mask) (m : MaskV) : (s.setMask k m).me.masks = s.me.masks.set k.val m := rfl
@[simp] theorem setMask_me_vl (s : State) (k : Mask) (m : MaskV) : (s.setMask k m).me.vl = s.me.vl := rfl
@[simp] theorem setMask_me_strip (s : State) (k : Mask) (m : MaskV) : (s.setMask k m).me.strip = s.me.strip := rfl
@[simp] theorem setMask_me_inh (s : State) (k : Mask) (m : MaskV) : (s.setMask k m).me.inh = s.me.inh := rfl
@[simp] theorem setMask_me_tvec (s : State) (k : Mask) (m : MaskV) : (s.setMask k m).me.tvec = s.me.tvec := rfl
@[simp] theorem setMask_me_epc (s : State) (k : Mask) (m : MaskV) : (s.setMask k m).me.epc = s.me.epc := rfl
@[simp] theorem setMask_me_stops (s : State) (k : Mask) (m : MaskV) : (s.setMask k m).me.stops = s.me.stops := rfl
@[simp] theorem setMask_me_stopEpc (s : State) (k : Mask) (m : MaskV) : (s.setMask k m).me.stopEpc = s.me.stopEpc := rfl
@[simp] theorem setMask_me_beds (s : State) (k : Mask) (m : MaskV) : (s.setMask k m).me.beds = s.me.beds := rfl
@[simp] theorem setMask_me_ctx (s : State) (k : Mask) (m : MaskV) : (s.setMask k m).me.ctx = s.me.ctx := rfl
@[simp] theorem setMask_me_supv (s : State) (k : Mask) (m : MaskV) : (s.setMask k m).me.supv = s.me.supv := rfl
@[simp] theorem setMask_me_trl (s : State) (k : Mask) (m : MaskV) : (s.setMask k m).me.trl = s.me.trl := rfl
@[simp] theorem setMask_me_holds (s : State) (k : Mask) (m : MaskV) : (s.setMask k m).me.holds = s.me.holds := rfl
@[simp] theorem setMask_me_jobs (s : State) (k : Mask) (m : MaskV) : (s.setMask k m).me.jobs = s.me.jobs := rfl
@[simp] theorem setMask_me_wpkts (s : State) (k : Mask) (m : MaskV) : (s.setMask k m).me.wpkts = s.me.wpkts := rfl
@[simp] theorem setMask_me_rm (s : State) (k : Mask) (m : MaskV) : (s.setMask k m).me.rm = s.me.rm := rfl
@[simp] theorem setMask_me_sat (s : State) (k : Mask) (m : MaskV) : (s.setMask k m).me.sat = s.me.sat := rfl
@[simp] theorem setMask_me_runner (s : State) (k : Mask) (m : MaskV) : (s.setMask k m).me.runner = s.me.runner := rfl
@[simp] theorem setMask_me_status (s : State) (k : Mask) (m : MaskV) : (s.setMask k m).me.status = s.me.status := rfl
@[simp] theorem setMask_me_id (s : State) (k : Mask) (m : MaskV) : (s.setMask k m).me.id = s.me.id := rfl
@[simp] theorem setMask_reg (s : State) (k : Mask) (m : MaskV) (r : Reg) : (s.setMask k m).reg r = s.reg r := rfl

@[simp] theorem finish_reg (s : State) (d : Reg) (v : Word) (r : Reg) : (s.finish d v).reg r = s.regAfter d v r := by
  simp [State.finish]

@[simp] theorem regAfter_noReg (s : State) (v : Word) (r : Reg) : s.regAfter State.noReg v r = s.reg r := by
  simp [State.regAfter, State.noReg]

end State

end Sys2Proof.Machine
end

