-- ==== Sys2Proof/Laws/Ops.lean ====
section
/-! SUPPORT. What each shared operation of a stream can do: issuing after earlier work, finishing with a result, transfers,
entering the handler. -/

namespace Sys2Proof.Machine

namespace State

/-- A form that issues after all earlier work issues in the settled state. -/
theorem afterAll_ok {s u : State} {k : State → Out} (h : s.settled = .ok u) : s.afterAll k = k u := by
  unfold State.afterAll; rw [h]

/-- Where earlier work faults, or another slot's groups come between, the form does not issue. -/
theorem afterAll_error {s u : State} {k : State → Out} (h : s.settled = .error u) : s.afterAll k = .next u := by
  unfold State.afterAll; rw [h]

/-- What a wait that has been told its end does: the stream goes on with the result, or nothing happens. -/
theorem endedWait_cases (s : State) :
    s.endedWait = s ∨
      ∃ (x : EABD) (v : Word), s.endedWait = s.afresh.finish x.d v ∧
        ((∃ k g, s.me.waiting = some (.await k g x (some v))) ∨ ∃ k n, s.me.waiting = some (.awaitGe k n x (some v))) := by
  unfold State.endedWait
  split
  · exact Or.inr ⟨_, _, rfl, Or.inl ⟨_, _, ‹_›⟩⟩
  · exact Or.inr ⟨_, _, rfl, Or.inr ⟨_, _, ‹_›⟩⟩
  · exact Or.inl rfl

/-- A written progress word tells the streams that wait for it, and changes nothing but their waits. -/
theorem latchGe_me (s : State) (o : Nat) : ∃ w, (s.latchGe o).me = { s.me with waiting := w } := by
  unfold State.latchGe
  dsimp only
  split
  · split
    · exact ⟨_, rfl⟩
    · exact ⟨s.me.waiting, rfl⟩
  · exact ⟨s.me.waiting, rfl⟩

theorem latchGe_byteAt (s : State) (o k : Nat) : (s.latchGe o).byteAt k = s.byteAt k := rfl

/-- A turn that a group is charged to changes the arbitration of that plot alone. -/
theorem chargeTo_eq (s : State) (a : Arb) (j : Job) (n : Nat) (more : Bool) :
    ∃ l, s.chargeTo a j n more = { s with arb := l } := ⟨_, rfl⟩

/-- Performing a job for its turns is performing it, and charging. -/
theorem runCharged_eq (s : State) (j : Job) :
    ∃ l, s.runCharged j = ({ (s.runJob j).1 with arb := l }, (s.runJob j).2) := ⟨_, rfl⟩

/-- What a byte reads depends on these fields alone. -/
theorem byteAt_congr {s t : State} (hm : t.mem = s.mem) (hg : t.gcode = s.gcode) (he : t.hbmErr = s.hbmErr)
    (hd : t.dregs = s.dregs) (hp : t.pairs = s.pairs) (k : Nat) : t.byteAt k = s.byteAt k := by
  have hr : t.route k = s.route k := by unfold State.route; rw [hp]
  have hq : ∀ q, t.dreg q = s.dreg q := by intro q; unfold State.dreg; rw [hd]
  have hc : ∀ g c o, t.patternByte g c o = s.patternByte g c o := by intro g c o; unfold State.patternByte; rw [hq]
  have ho : ∀ g, t.codeOf g = s.codeOf g := by intro g; unfold State.codeOf; rw [hg]
  have hs : ∀ c, t.sectorRead c = s.sectorRead c := by
    intro c; unfold State.sectorRead State.sectorErrs State.eccDetect; rw [he, ho, hq]
  unfold State.byteAt State.heldByte State.rawByte
  rw [hr, hs]
  simp only [hc, ho, hm]

/-- A state that differs in its moving stream alone. -/
theorem sameBytes_of_me {s t : State} {b : Band} (h : t = { s with me := b }) : s.SameBytes t := by
  intro k; subst h; exact byteAt_congr rfl rfl rfl rfl rfl k

theorem sameOutside_of_me {s t : State} {b : Band} (h : t = { s with me := b }) : s.SameOutside t := by
  subst h; rfl

theorem finish_eq (s : State) (d : Reg) (v : Word) :
    s.finish d v = { s with me := { s.me.setReg d v with
      pc := s.me.pc + 16, seq := s.me.seq + 1, pfx := none, waiting := none } } := by
  unfold State.finish State.setReg Band.setReg State.retire
  split <;> rfl

/-- Finishing with a result and flags. -/
theorem wrote_orFlags_finish (s : State) (d : Reg) (v : Word) (f : Flags) :
    s.Wrote ((s.orFlags f).finish d v) d v f := by
  have h := finish_eq (s.orFlags f) d v
  have h' : (s.orFlags f).finish d v = { s with me := { (s.orFlags f).me.setReg d v with
      pc := s.me.pc + 16, seq := s.me.seq + 1, pfx := none, waiting := none } } := h
  constructor
  · intro r; rw [finish_reg]; rfl
  · rw [h]; rfl
  · rw [h]; rfl
  · simp
  · simp
  · rw [h']; unfold State.orFlags Band.setReg; split <;> rfl
  · exact sameOutside_of_me h'
  · exact sameBytes_of_me h'

/-- Finishing with a result. -/
theorem wrote_finish (s : State) (d : Reg) (v : Word) : s.Wrote (s.finish d v) d v 0 := by
  have h := finish_eq s d v
  constructor
  · intro r; rw [finish_reg]
  · rw [h]
  · rw [h]
  · simp
  · simp
  · rw [h]; unfold Band.setReg; split <;> rfl
  · exact sameOutside_of_me h
  · exact sameBytes_of_me h

/-- Going on at the next word without a result. -/
theorem wrote_retire (s : State) : s.Wrote s.retire State.noReg 0 0 := by
  constructor
  · intro r; rw [regAfter_noReg]; rfl
  · rfl
  · rfl
  · simp
  · exact ⟨rfl, rfl⟩
  · rfl
  · rfl
  · exact sameBytes_of_me rfl

theorem setReg_jump_eq (s : State) (a : Word) (d : Reg) (v : Word) :
    (s.setReg d v).jump a = { s with me := { s.me.setReg d v with
      pc := a, seq := s.me.seq + 1, pfx := none } } := by
  unfold State.setReg Band.setReg State.jump
  split <;> rfl

/-- A taken transfer that writes a register. -/
theorem jumped_setReg (s : State) (a : Word) (d : Reg) (v : Word) : s.Jumped ((s.setReg d v).jump a) a d v := by
  have h := setReg_jump_eq s a d v
  constructor
  · intro r; rw [jump_reg, reg_setReg]
  · rfl
  · rw [h]
  · rw [h]; unfold Band.setReg; split <;> rfl
  · exact sameOutside_of_me h
  · exact sameBytes_of_me h

/-- A taken transfer without a link. -/
theorem jumped_jump (s : State) (a : Word) : s.Jumped (s.jump a) a State.noReg 0 := by
  constructor
  · intro r; rw [regAfter_noReg]; rfl
  · rfl
  · rfl
  · rfl
  · rfl
  · exact sameBytes_of_me rfl

end State

end Sys2Proof.Machine
end

