-- ==== Sys2Proof/Laws/Frames.lean ====
section
/-! SUPPORT. What writes of memory leave alone: everything but the bytes, the codes, the poison, the check errors, and the
channels' counts of errors. -/

namespace Sys2Proof.Machine

namespace State

/-- `t` differs from `s` in memory and what stands beside its bytes. -/
def MemLike (s t : State) : Prop :=
  ∃ m g p h d c, t = { s with mem := m, gcode := g, poison := p, hbmErr := h, dregs := d, dcache := c }

theorem MemLike.refl (s : State) : s.MemLike s := ⟨_, _, _, _, _, _, rfl⟩

theorem MemLike.trans {s t u : State} (h : s.MemLike t) (k : t.MemLike u) : s.MemLike u := by
  obtain ⟨m, g, p, h, d, c, rfl⟩ := h
  obtain ⟨m', g', p', h', d', c', rfl⟩ := k
  exact ⟨m', g', p', h', d', c', rfl⟩

theorem MemLike.foldl {α : Type} (f : State → α → State) (hf : ∀ (s : State) a, s.MemLike (f s a)) :
    ∀ (l : List α) (s : State), s.MemLike (l.foldl f s)
  | [], s => MemLike.refl s
  | a :: l, s => (hf s a).trans (MemLike.foldl f hf l (f s a))

theorem MemLike.me {s t : State} (h : s.MemLike t) : t.me = s.me := by obtain ⟨_, _, _, _, _, _, rfl⟩ := h; rfl

theorem memLike_putMem (s : State) (c : List (Nat × Byte)) : s.MemLike (s.putMem c) := ⟨_, _, _, _, _, _, rfl⟩
theorem memLike_setCode (s : State) (g c : Nat) : s.MemLike (s.setCode g c) := ⟨_, _, _, _, _, _, rfl⟩
theorem memLike_setPoison (s : State) (g : Nat) : s.MemLike (s.setPoison g) := ⟨_, _, _, _, _, _, rfl⟩
theorem memLike_clearPoison (s : State) (g : Nat) : s.MemLike (s.clearPoison g) := ⟨_, _, _, _, _, _, rfl⟩

theorem memLike_errs (s : State) (l : List (Nat × Nat)) : s.MemLike { s with hbmErr := l } := ⟨_, _, _, _, _, _, rfl⟩
theorem memLike_settleSector (s : State) (sec : Nat) : s.MemLike (s.settleSector sec) := ⟨_, _, _, _, _, _, rfl⟩
theorem memLike_bumpField (s : State) (pa lo : Nat) : s.MemLike (s.bumpField pa lo) := ⟨_, _, _, _, _, _, rfl⟩

theorem memLike_materialise (s : State) (g : Nat) : s.MemLike (s.materialise g) := by
  unfold State.materialise
  simp only
  split
  · exact MemLike.refl s
  · exact ((memLike_errs s _).trans (memLike_putMem _ _)).trans (memLike_setCode _ _ _)

theorem memLike_eccChunk (s : State) (sec : Nat) : s.MemLike (s.eccChunk sec) := by
  unfold State.eccChunk
  simp only
  split
  · exact MemLike.refl s
  · exact memLike_settleSector _ _
  · exact (memLike_settleSector _ _).trans (MemLike.foldl _ (fun _ _ => memLike_setPoison _ _) _ _)

theorem memLike_eccData (s : State) (sec : Nat) : s.MemLike (s.eccData sec) := by
  unfold State.eccData
  split
  · exact MemLike.refl s
  · simp only
    refine MemLike.trans (MemLike.trans ?_ (memLike_settleSector _ _)) (memLike_bumpField _ _ _)
    split
    · exact memLike_putMem _ _
    · exact MemLike.refl s
  · exact (memLike_setPoison _ _).trans (memLike_bumpField _ _ _)

theorem memLike_renewSector (c : List (Nat × Byte)) (s : State) (sec : Nat) : s.MemLike (s.renewSector c sec) := by
  unfold State.renewSector
  split
  · exact memLike_settleSector _ _
  · exact (memLike_eccData _ _).trans (memLike_settleSector _ _)

theorem memLike_mergeGranule (s : State) (g : Nat) (c : List (Nat × Byte)) (p : Bool) :
    s.MemLike (s.mergeGranule g c p) := by
  have hp : ∀ t : State, s.MemLike t → s.MemLike (if p then t.setPoison g else t) := by
    intro t ht; split
    · exact ht.trans (memLike_setPoison _ _)
    · exact ht
  unfold State.mergeGranule
  simp only
  apply hp
  split
  · have h1 : s.MemLike ({ s with hbmErr := s.hbmErr.filter fun e => sectorOf e.1 / 8 != g } : State) := memLike_errs _ _
    have h2 := h1.trans (memLike_clearPoison _ g)
    split
    · exact (h2.trans (memLike_putMem _ _)).trans (memLike_setCode _ _ _)
    · exact (h2.trans (memLike_putMem _ _)).trans (memLike_setCode _ _ _)
  · exact ((memLike_materialise s g).trans (MemLike.foldl _ (memLike_renewSector c) _ _)).trans (memLike_putMem _ _)

theorem memLike_updateGranule (s : State) (g : Nat) (c : List (Nat × Byte)) (p : Bool) :
    s.MemLike (s.updateGranule g c p) := (memLike_eccChunk s _).trans (memLike_mergeGranule _ g c p)

theorem memLike_updateBeyond (s : State) (g : Nat) (c : List (Nat × Byte)) (p : Bool) :
    s.MemLike (s.updateBeyond g c p) := by
  have hp : ∀ t : State, s.MemLike t → s.MemLike (if p then t.setPoison g else t) := by
    intro t ht; split
    · exact ht.trans (memLike_setPoison _ _)
    · exact ht
  unfold State.updateBeyond
  simp only
  apply hp
  split
  · exact (memLike_clearPoison _ _).trans (memLike_putMem _ _)
  · exact memLike_putMem _ _

theorem memLike_homeCells (s : State) (c : List (Nat × Byte)) (p : Bool) : s.MemLike (s.homeCells c p) := by
  unfold State.homeCells
  refine MemLike.trans (MemLike.foldl _ ?_ _ s) (memLike_putMem _ _)
  intro s g
  split
  · exact memLike_updateGranule _ _ _ _
  · exact memLike_updateBeyond _ _ _ _

theorem memLike_dropLines (s : State) (ks : List Nat) : s.MemLike (s.dropLines ks) := ⟨_, _, _, _, _, _, rfl⟩

/-- A write of cells changes memory, and what the scalar data cache holds of it. -/
theorem memLike_writeCells (s : State) (c : List (Nat × Byte)) (p : Bool) : s.MemLike (s.writeCells c p) :=
  (memLike_dropLines s _).trans (memLike_homeCells _ c p)

@[simp] theorem writeCells_me (s : State) (c : List (Nat × Byte)) (p : Bool) : (s.writeCells c p).me = s.me :=
  (memLike_writeCells s c p).me

/-- `t` differs from `s` in memory, in which packets of the moving stream are on their way, and in the log of errors. -/
def SentLike (s t : State) : Prop :=
  ∃ m g p h d c l w, t = { s with mem := m, gcode := g, poison := p, hbmErr := h, dregs := d, dcache := c, errlog := l,
                                  me := { s.me with wpkts := w } }

theorem SentLike.of_memLike {s t : State} (h : s.MemLike t) : s.SentLike t := by
  obtain ⟨m, g, p, h, d, c, rfl⟩ := h; exact ⟨_, _, _, _, _, _, _, _, rfl⟩

theorem SentLike.trans {s t u : State} (h : s.SentLike t) (k : t.SentLike u) : s.SentLike u := by
  obtain ⟨m, g, p, h, d, c, l, w, rfl⟩ := h
  obtain ⟨m', g', p', h', d', c', l', w', rfl⟩ := k
  exact ⟨m', g', p', h', d', c', l', w', rfl⟩

theorem SentLike.foldl {α : Type} (f : State → α → State) (hf : ∀ (s : State) a, s.SentLike (f s a)) :
    ∀ (l : List α) (s : State), s.SentLike (l.foldl f s)
  | [], s => SentLike.of_memLike (MemLike.refl s)
  | a :: l, s => (hf s a).trans (SentLike.foldl f hf l (f s a))

theorem SentLike.me {s t : State} (h : s.SentLike t) : ∃ w, t.me = { s.me with wpkts := w } := by
  obtain ⟨_, _, _, _, _, _, _, w, rfl⟩ := h; exact ⟨w, rfl⟩

theorem sentLike_refuse (s : State) (cls k : Nat) : s.SentLike (s.refuse cls k) := ⟨_, _, _, _, _, _, _, s.me.wpkts, rfl⟩

/-- Refused accesses change the count and the log alone. -/
theorem sentLike_refuseEach (s : State) (cls unit : Nat) (ks : List Nat) : s.SentLike (s.refuseEach cls unit ks) :=
  SentLike.foldl _ (fun s k => sentLike_refuse s cls k) _ _

/-- Far stores that reach their targets change memory, and the count and log of refusals. -/
theorem sentLike_arriveFar (s : State) (c : List (Nat × Byte)) : s.SentLike (s.arriveFar c) :=
  (sentLike_refuseEach s _ _ _).trans (SentLike.of_memLike (memLike_writeCells _ _ _))

theorem sentLike_performed (s : State) : s.SentLike s.performed := by
  have h : s.SentLike { s with me := { s.me with wpkts := [] } } :=
    ⟨s.mem, s.gcode, s.poison, s.hbmErr, s.dregs, s.dcache, s.errlog, [], rfl⟩
  exact h.trans (SentLike.foldl _ (fun s (p : WPkt) => sentLike_arriveFar s p.cells) _ _)

/-- Performing far stores changes memory, the packets, and the count and log of refusals alone. -/
theorem sentLike_performFar (s : State) (ps : List FarPkt) : s.SentLike (s.performFar ps) := by
  unfold State.performFar
  split
  · exact SentLike.of_memLike (MemLike.refl s)
  · split
    · exact ⟨s.mem, s.gcode, s.poison, s.hbmErr, s.dregs, s.dcache, s.errlog, _, rfl⟩
    · exact (sentLike_performed s).trans (SentLike.foldl _ (fun s (p : FarPkt) => sentLike_arriveFar s p.cells) _ _)

/-- Sealing the strip (R307): memory, packets and the strip's own buffers. -/
theorem sealStrip_eq (s : State) : ∃ m g p h d c l w st,
    s.sealStrip = { s with mem := m, gcode := g, poison := p, hbmErr := h, dregs := d, dcache := c, errlog := l,
                           me := { s.me with wpkts := w, strip := st } } ∧
      st.sealed = true ∧ st.resume = s.me.strip.resume ∧ st.ntf = s.me.strip.ntf ∧ st.rewound = s.me.strip.rewound := by
  unfold State.sealStrip
  split
  · next h =>
    exact ⟨s.mem, s.gcode, s.poison, s.hbmErr, s.dregs, s.dcache, s.errlog, s.me.wpkts, s.me.strip, rfl, h, rfl, rfl, rfl⟩
  · obtain ⟨m, g, p, h, d, c, l, w, e⟩ := sentLike_performFar
      ({ s with me := { s.me with strip :=
        { s.me.strip with sealed := true, check := none, far := [], farAt := [], journal := [] } } }) s.me.strip.far
    exact ⟨m, g, p, h, d, c, l, w, _, e, rfl, rfl, rfl, rfl⟩

/-- Entering the handler (R317, steps 4 to 7). -/
theorem inHandler_enterTrap (s : State) (r : FaultRec) (epc : Word) (seq : Nat) (stops : List StopInstr) (h : s.CanTrap) :
    s.InHandler (s.enterTrap r epc seq stops) r epc seq stops := by
  obtain ⟨h1, h2⟩ := h
  obtain ⟨m, g, p, e, d, c, l, w, st, eq, hs, -⟩ := sealStrip_eq s
  unfold State.enterTrap
  simp only [h1, h2, eq]
  constructor <;> simp_all [State.reg, Band.reg, State.recurs]

/-- Everything that entering the handler leaves as it was outside the moving stream's Bandstand and memory. -/
theorem enterTrap_seq (s : State) (r : FaultRec) (epc : Word) (seq : Nat) (stops : List StopInstr) :
    (s.enterTrap r epc seq stops).me.seq = s.me.seq := by
  obtain ⟨m, g, p, e, d, c, l, w, st, eq, -⟩ := sealStrip_eq s
  unfold State.enterTrap State.unhandled
  simp only [eq]
  split
  · split <;> rfl
  · rfl

end State

end Sys2Proof.Machine
end

