-- ==== Sys2Proof/Laws/Memory.lean ====
section
/-! SUPPORT. Laws of memory: a read after a write, what a write leaves alone, and that every operation keeps the canonical
form of the list of cells. -/

namespace Sys2Proof.Machine

/-! ### The list of cells -/

namespace Memory

theorem wfFrom_mono {m : List Host.Cell} {lo lo' : Option Nat} (h : wfFrom m lo = true)
    (hl : ∀ l, lo' = some l → ∃ k, lo = some k ∧ l ≤ k) : wfFrom m lo' = true := by
  cases m with
  | nil => rfl
  | cons c m =>
    simp only [wfFrom, Bool.and_eq_true] at h ⊢
    refine ⟨⟨?_, h.1.2⟩, h.2⟩
    cases lo' with
    | none => rfl
    | some l =>
      obtain ⟨k, rfl, hk⟩ := hl l rfl
      have h1 := h.1.1
      simp only [Option.all_some, decide_eq_true_eq] at h1 ⊢
      omega

/-- Writing a byte keeps the form. -/
theorem wfFrom_put (m : List Host.Cell) (k : Nat) (v : Byte) (lo : Option Nat) (h : wfFrom m lo = true)
    (hk : ∀ l, lo = some l → l < k) : wfFrom (put m k v) lo = true := by
  have hlo : (lo.all fun l => decide (l < k)) = true := by
    cases lo with
    | none => rfl
    | some l => simpa using hk l rfl
  induction m generalizing lo with
  | nil =>
    unfold put
    split
    · rfl
    · next hv => simp only [wfFrom, hlo, Bool.and_true, Bool.true_and]; simpa using hv
  | cons c m ih =>
    simp only [wfFrom, Bool.and_eq_true] at h
    unfold put
    split
    · next hc =>
      split
      · simp only [wfFrom, Bool.and_eq_true]; exact h
      · next hv =>
        have h1 : (v != 0) = true := by simpa using hv
        simp only [wfFrom, hlo, h1, Option.all_some, hc, decide_true, h.1.2, h.2, Bool.and_self]
    · next hc =>
      split
      · next he =>
        split
        · refine wfFrom_mono h.2 ?_
          intro l hl
          subst hl
          have := h.1.1
          simp only [Option.all_some, decide_eq_true_eq] at this
          exact ⟨c.1, rfl, by omega⟩
        · next hv =>
          simp only [wfFrom, Bool.and_eq_true]
          refine ⟨⟨hlo, by simpa using hv⟩, ?_⟩
          rw [he]; exact h.2
      · next he =>
        simp only [wfFrom, Bool.and_eq_true]
        refine ⟨h.1, ih (some c.1) h.2 ?_ ?_⟩
        · intro l hl; cases hl; omega
        · simp only [Option.all_some, decide_eq_true_eq]; omega

theorem wf_put {m : List Host.Cell} (h : wf m = true) (k : Nat) (v : Byte) : wf (put m k v) = true :=
  wfFrom_put m k v none h (by intro l hl; cases hl)

/-- Dropping cells keeps the form. -/
theorem wfFrom_filter (p : Host.Cell → Bool) (m : List Host.Cell) (lo : Option Nat) (h : wfFrom m lo = true) :
    wfFrom (m.filter p) lo = true := by
  induction m generalizing lo with
  | nil => rfl
  | cons c m ih =>
    have h' := h
    simp only [wfFrom, Bool.and_eq_true] at h
    rw [List.filter_cons]
    split
    · simp only [wfFrom, Bool.and_eq_true]
      exact ⟨h.1, ih _ h.2⟩
    · refine ih lo (wfFrom_mono h.2 ?_)
      intro l hl
      subst hl
      have := h.1.1
      simp only [Option.all_some, decide_eq_true_eq] at this
      exact ⟨c.1, rfl, by omega⟩

theorem wf_filter {m : List Host.Cell} (h : wf m = true) (p : Host.Cell → Bool) : wf (m.filter p) = true :=
  wfFrom_filter p m none h

theorem get_of_wfFrom {m : List Host.Cell} {l k : Nat} (h : wfFrom m (some l) = true) (hk : k ≤ l) : get m k = 0 := by
  induction m generalizing l with
  | nil => rfl
  | cons c m ih =>
    simp only [wfFrom, Bool.and_eq_true, Option.all_some, decide_eq_true_eq] at h
    unfold get
    rw [if_neg (by omega)]
    exact ih h.2 (by omega)

/-- A read after a write. -/
theorem get_putFrom (m : List Host.Cell) (lo : Option Nat) (h : wfFrom m lo = true) (k j : Nat) (v : Byte) :
    get (put m k v) j = if j = k then v else get m j := by
  induction m generalizing lo with
  | nil =>
    unfold put
    split
    · next hv => split <;> simp_all [get]
    · simp only [get, eq_comm]
  | cons c m ih =>
    simp only [wfFrom, Bool.and_eq_true] at h
    have hz : ∀ i, i ≤ c.1 → get m i = 0 := fun i hi => get_of_wfFrom h.2 hi
    unfold put
    split
    · next hc =>
      split
      · next hv =>
        split
        · next hj =>
          subst hj
          simp only [get]
          rw [if_neg (by omega), hz j (by omega)]
          exact hv.symm
        · rfl
      · simp only [get, eq_comm]
    · next hc =>
      split
      · next he =>
        split
        · next hv =>
          split
          · next hj => rw [hz j (by omega)]; exact hv.symm
          · next hj => simp only [get]; rw [if_neg (by omega)]
        · simp only [get]
          split
          · next hj => rw [if_pos hj.symm]
          · next hj => rw [if_neg (Ne.symm hj), if_neg (by omega)]
      · next he =>
        simp only [get, ih _ h.2]
        split
        · next hj => rw [if_neg (by omega)]
        · rfl

theorem get_put {m : List Host.Cell} (h : wf m = true) (k j : Nat) (v : Byte) :
    get (put m k v) j = if j = k then v else get m j :=
  get_putFrom m none h k j v

/-- A list in the form is given by what it reads: equal memories are equal lists. -/
theorem eq_of_get {m n : List Host.Cell} {lo : Option Nat} (hm : wfFrom m lo = true) (hn : wfFrom n lo = true)
    (h : ∀ k, get m k = get n k) : m = n := by
  induction m generalizing n lo with
  | nil =>
    cases n with
    | nil => rfl
    | cons d n =>
      simp only [wfFrom, Bool.and_eq_true] at hn
      have := h d.1
      simp only [get, ite_true] at this
      simp [← this] at hn
  | cons c m ih =>
    have hm0 := hm
    simp only [wfFrom, Bool.and_eq_true] at hm
    cases n with
    | nil =>
      have := h c.1
      simp only [get, ite_true] at this
      simp [this] at hm
    | cons d n =>
      simp only [wfFrom, Bool.and_eq_true] at hn
      have h1 := h c.1
      have h2 := h d.1
      simp only [get, ite_true] at h1 h2
      have hcd : c.1 = d.1 := by
        rcases Nat.lt_trichotomy c.1 d.1 with hlt | heq | hgt
        · rw [if_neg (by omega), get_of_wfFrom hn.2 (by omega)] at h1
          simp [h1] at hm
        · exact heq
        · rw [if_neg (by omega), get_of_wfFrom hm.2 (by omega)] at h2
          simp [← h2] at hn
      rw [if_pos hcd.symm] at h1
      have hc : c = d := Prod.ext hcd h1
      subst hc
      congr 1
      refine ih hm.2 hn.2 ?_
      intro k
      have hk := h k
      simp only [get] at hk
      by_cases e : c.1 = k
      · rw [get_of_wfFrom hm.2 (by omega), get_of_wfFrom hn.2 (by omega)]
      · rwa [if_neg e, if_neg e] at hk

end Memory

namespace State

/-! ### Every operation keeps the form -/

theorem memOk_reset : State.reset.MemOk := by decide

theorem memOk_foldl {α : Type} (f : State → α → State) (hf : ∀ (s : State) a, s.MemOk → (f s a).MemOk) :
    ∀ (l : List α) (s : State), s.MemOk → (l.foldl f s).MemOk
  | [], _, h => h
  | a :: l, s, h => memOk_foldl f hf l (f s a) (hf s a h)

theorem memOk_putMem {s : State} (h : s.MemOk) (c : List (Nat × Byte)) : (s.putMem c).MemOk := by
  unfold State.putMem State.MemOk
  show Memory.wf (c.foldl (fun m c => Memory.put m c.1 c.2) s.mem) = true
  have : ∀ (c : List (Nat × Byte)) (m : List Host.Cell), Memory.wf m = true →
      Memory.wf (c.foldl (fun m c => Memory.put m c.1 c.2) m) = true := by
    intro c
    induction c with
    | nil => intro m hm; exact hm
    | cons a c ih => intro m hm; exact ih _ (Memory.wf_put hm _ _)
  exact this c s.mem h

theorem memOk_setCode {s : State} (h : s.MemOk) (g c : Nat) : (s.setCode g c).MemOk := h
theorem memOk_setPoison {s : State} (h : s.MemOk) (g : Nat) : (s.setPoison g).MemOk := h
theorem memOk_clearPoison {s : State} (h : s.MemOk) (g : Nat) : (s.clearPoison g).MemOk := h
theorem memOk_setDreg {s : State} (h : s.MemOk) (pa : Nat) (v : Word) : (s.setDreg pa v).MemOk := h
theorem memOk_nearRead {s : State} (h : s.MemOk) (keys : List Nat) : (s.nearRead keys).MemOk := h
theorem memOk_nearWritten {s : State} (h : s.MemOk) (keys : List Nat) : (s.nearWritten keys).MemOk := h

theorem memOk_materialise {s : State} (h : s.MemOk) (g : Nat) : (s.materialise g).MemOk := by
  unfold State.materialise
  simp only
  split
  · exact h
  · apply memOk_setCode
    exact memOk_putMem (s := { s with hbmErr := s.hbmErr.filter fun e => sectorOf e.1 / 8 != g }) h _

theorem memOk_settleSector {s : State} (h : s.MemOk) (sec : Nat) : (s.settleSector sec).MemOk := h

theorem memOk_eccData {s : State} (h : s.MemOk) (sec : Nat) : (s.eccData sec).MemOk := by
  have hb : ∀ (t : State) pa lo, t.MemOk → (t.bumpField pa lo).MemOk := fun _ _ _ ht => ht
  unfold State.eccData
  split
  · exact h
  · simp only
    apply hb
    apply memOk_settleSector
    split
    · exact memOk_putMem h _
    · exact h
  · exact hb _ _ _ h

theorem memOk_renewSector {s : State} (h : s.MemOk) (c : List (Nat × Byte)) (sec : Nat) : (s.renewSector c sec).MemOk := by
  unfold State.renewSector
  split
  · exact h
  · exact memOk_settleSector (memOk_eccData h _) _

theorem memOk_mergeGranule {s : State} (h : s.MemOk) (g : Nat) (c : List (Nat × Byte)) (p : Bool) :
    (s.mergeGranule g c p).MemOk := by
  have hp : ∀ t : State, t.MemOk → (if p then t.setPoison g else t).MemOk := by
    intro t ht; split
    · exact ht
    · exact ht
  unfold State.mergeGranule
  simp only
  apply hp
  split
  · split
    · apply memOk_setCode
      apply memOk_putMem
      exact h
    · apply memOk_setCode
      apply memOk_putMem
      exact h
  · exact memOk_putMem (memOk_foldl _ (fun _ sec hs => memOk_renewSector hs c sec) _ _ (memOk_materialise h g)) _

theorem memOk_eccChunk {s : State} (h : s.MemOk) (sec : Nat) : (s.eccChunk sec).MemOk := by
  unfold State.eccChunk
  simp only
  split
  · exact h
  · exact h
  · exact memOk_foldl (fun (t : State) i => t.setPoison (granuleAt _ _ i)) (fun _ _ hs => hs) _ _ h

theorem memOk_updateGranule {s : State} (h : s.MemOk) (g : Nat) (c : List (Nat × Byte)) (p : Bool) :
    (s.updateGranule g c p).MemOk := memOk_mergeGranule (memOk_eccChunk h _) g c p

theorem memOk_updateBeyond {s : State} (h : s.MemOk) (g : Nat) (c : List (Nat × Byte)) (p : Bool) :
    (s.updateBeyond g c p).MemOk := by
  have hp : ∀ t : State, t.MemOk → (if p then t.setPoison g else t).MemOk := by
    intro t ht; split
    · exact ht
    · exact ht
  unfold State.updateBeyond
  simp only
  apply hp
  split
  · exact memOk_putMem (memOk_clearPoison h _) _
  · exact memOk_putMem h _

theorem memOk_homeCells {s : State} (h : s.MemOk) (c : List (Nat × Byte)) (p : Bool) : (s.homeCells c p).MemOk := by
  unfold State.homeCells
  refine memOk_putMem (memOk_foldl _ ?_ _ s h) _
  intro s g hs
  split
  · exact memOk_updateGranule hs _ _ _
  · exact memOk_updateBeyond hs _ _ _

theorem memOk_writeCells {s : State} (h : s.MemOk) (c : List (Nat × Byte)) (p : Bool) : (s.writeCells c p).MemOk :=
  memOk_homeCells (s := s.dropLines _) h c p

theorem memOk_writeNat {s : State} (h : s.MemOk) (k n v : Nat) : (s.writeNat k n v).MemOk := memOk_writeCells h _ _

theorem memOk_eccSector {s : State} (h : s.MemOk) (sec : Nat) : (s.eccSector sec).MemOk :=
  memOk_eccData (memOk_eccChunk h sec) sec

theorem memOk_eccRead {s : State} (h : s.MemOk) (keys : List Nat) : (s.eccRead keys).MemOk := by
  unfold State.eccRead
  simp only
  exact memOk_foldl State.eccSector (fun _ sec hs => memOk_eccSector hs sec) _ s h

theorem memOk_zeroFrame {s : State} (h : s.MemOk) (f : Frame) : (s.zeroFrame f).MemOk := Memory.wf_filter h _

theorem memOk_layerBack {s : State} (h : s.MemOk) (g l : Nat) : (s.layerBack g l).MemOk := Memory.wf_filter h _

/-! ### A read after a write -/

theorem assoc_del {β : Type} (l : List (Nat × β)) (g i : Nat) :
    assoc (assocDel l g) i = if i = g then none else assoc l i := by
  induction l with
  | nil => simp [assoc, assocDel]
  | cons a l ih =>
    unfold assocDel at ih ⊢
    rw [List.filter_cons]
    by_cases h1 : a.1 = g
    · simp only [h1, bne_self_eq_false, Bool.false_eq_true, ite_false, ih]
      split
      · rfl
      · next hi =>
        have : (g == i) = false := by simpa using Ne.symm hi
        simp [assoc, h1, this]
    · have : (a.1 != g) = true := by simpa using h1
      simp only [this, ite_true]
      by_cases h2 : a.1 = i
      · have hi : i ≠ g := by omega
        simp [assoc, h2, hi]
      · have h3 : (a.1 == i) = false := by simpa using h2
        simp only [assoc, List.find?_cons, h3] at ih ⊢
        exact ih

theorem assoc_set {β : Type} (l : List (Nat × β)) (g i : Nat) (c : β) :
    assoc (assocSet l g c) i = if i = g then some c else assoc l i := by
  induction l with
  | nil =>
    by_cases h : i = g
    · subst h; simp [assoc, assocSet]
    · have : (g == i) = false := by simpa using Ne.symm h
      simp [assoc, assocSet, this, h]
  | cons a l ih =>
    unfold assocSet
    split
    · next h1 =>
      by_cases h : i = g
      · subst h; simp [assoc]
      · have h3 : (g == i) = false := by simpa using Ne.symm h
        have h4 : (a.1 == i) = false := by rw [h1]; exact h3
        simp only [assoc, List.find?_cons, h3, h4, h, ite_false]
    · next h1 =>
      by_cases h2 : a.1 = i
      · have hi : i ≠ g := by omega
        simp [assoc, h2, hi]
      · have h3 : (a.1 == i) = false := by simpa using h2
        simp only [assoc, List.find?_cons, h3] at ih ⊢
        exact ih

theorem codeOf_setCode (s : State) (g c i : Nat) : (s.setCode g c).codeOf i = if i = g then c else s.codeOf i := by
  unfold State.codeOf State.setCode
  split
  · next h1 =>
    subst h1
    simp only [assoc_del]
    split <;> rfl
  · simp only [assoc_set]
    split <;> rfl

theorem dreg_setDreg (s : State) (pa q : Nat) (v : Word) : (s.setDreg pa v).dreg q = if q = pa then v else s.dreg q := by
  unfold State.dreg State.setDreg
  simp only [assoc_set]
  split <;> rfl

theorem dreg_bumpField (s : State) (pa lo q : Nat) (h : q ≠ pa) : (s.bumpField pa lo).dreg q = s.dreg q := by
  unfold State.bumpField
  simp only
  rw [dreg_setDreg, if_neg h]

/-- Cells of one list with distinct keys: what the list holds for a key. -/
def cellAt (c : List (Nat × Byte)) (k : Nat) : Option Byte := (c.reverse.find? fun d => d.1 == k).map Prod.snd

theorem get_putAll (c : List (Nat × Byte)) (m : List Host.Cell) (h : Memory.wf m = true) (k : Nat) :
    Memory.get (c.foldl (fun m c => Memory.put m c.1 c.2) m) k = (cellAt c k).getD (Memory.get m k) := by
  induction c generalizing m with
  | nil => rfl
  | cons a c ih =>
    simp only [List.foldl_cons]
    rw [ih _ (Memory.wf_put h _ _), Memory.get_put h]
    unfold cellAt
    simp only [List.reverse_cons, List.find?_append]
    cases List.find? (fun d => d.1 == k) c.reverse with
    | some x => rfl
    | none =>
      by_cases hk : k = a.1
      · subst hk; simp
      · have : (a.1 == k) = false := by simpa using Ne.symm hk
        simp [this, hk]

/-- Storing bytes as they lie. -/
theorem get_putMem {s : State} (h : s.MemOk) (c : List (Nat × Byte)) (k : Nat) :
    Memory.get (s.putMem c).mem k = (cellAt c k).getD (Memory.get s.mem k) := get_putAll c s.mem h k

theorem cellAt_range (f : Nat → Byte) (g k : Nat) :
    cellAt ((List.range 256).map fun o => (g * 256 + o, f o)) k = if k / 256 = g then some (f (k % 256)) else none := by
  unfold cellAt
  split
  · next h =>
    have hx : ∃ x, List.find? (fun d => d.1 == k) ((List.range 256).map fun o => (g * 256 + o, f o)).reverse = some x := by
      rw [← Option.isSome_iff_exists, List.find?_isSome]
      refine ⟨(k, f (k % 256)), ?_, by simp⟩
      simp only [List.mem_reverse, List.mem_map, List.mem_range]
      exact ⟨k % 256, Nat.mod_lt _ (by decide), by congr 1; omega⟩
    obtain ⟨x, hx⟩ := hx
    have h1 := List.find?_some hx
    have h2 := List.mem_of_find?_eq_some hx
    simp only [List.mem_reverse, List.mem_map, List.mem_range, beq_iff_eq] at h1 h2
    obtain ⟨o, ho, rfl⟩ := h2
    simp only at h1
    rw [hx]
    have : o = k % 256 := by omega
    simp [this]
  · next h =>
    rw [Option.map_eq_none_iff, List.find?_eq_none]
    intro x hx
    simp only [List.mem_reverse, List.mem_map, List.mem_range] at hx
    obtain ⟨o, ho, rfl⟩ := hx
    simp only [beq_iff_eq]
    omega

theorem isHbm_granule {k g : Nat} (h : k / 256 = g) : isHbm k = isHbm (g * 256) := by
  unfold isHbm hbmEnd
  have : (k < 0x007800000000) ↔ (g * 256 < 0x007800000000) := by omega
  simp only [this]

/-- A granule stored whole. -/
theorem get_putMem_granule {s : State} (h : s.MemOk) (f : Nat → Byte) (g k : Nat) :
    Memory.get (s.putMem ((List.range 256).map fun o => (g * 256 + o, f o))).mem k =
      if k / 256 = g then f (k % 256) else Memory.get s.mem k := by
  rw [get_putMem h, cellAt_range f]
  split <;> rfl

/-- What a read of a sector finds depends on these alone. -/
theorem sectorRead_congr {s t : State} (sec : Nat) (he : t.sectorErrs sec = s.sectorErrs sec)
    (hc : t.codeOf (sec / 8) = s.codeOf (sec / 8))
    (hd : t.dreg (chReg (channelOf (sec * 32)) 0) = s.dreg (chReg (channelOf (sec * 32)) 0)) :
    t.sectorRead sec = s.sectorRead sec := by
  unfold State.sectorRead State.eccDetect
  rw [he, hc, hd]

theorem heldByte_congr {s t : State} {k : Nat} (hs : t.sectorRead (k / 32) = s.sectorRead (k / 32))
    (hr : t.rawByte k = s.rawByte k) : t.heldByte k = s.heldByte k := by
  unfold State.heldByte
  rw [hs, hr]

theorem heldByte_clean {s : State} {k : Nat} (h : s.sectorErrs (k / 32) = []) : s.heldByte k = s.rawByte k := by
  have : s.sectorRead (k / 32) = .clean := by
    unfold State.sectorRead
    rw [h]; simp
  unfold State.heldByte
  rw [this]

theorem heldByte_outside {s : State} {k : Nat} (h : isHbm k = false) : s.heldByte k = Memory.get s.mem k := by
  have hb : isHbm (k / 32 * 32) = false := by
    unfold isHbm hbmEnd at h ⊢
    simp only [decide_eq_false_iff_not] at h ⊢
    omega
  have : s.sectorRead (k / 32) = .clean := by
    unfold State.sectorRead
    simp only [hb, true_or, or_true, ite_true]
  unfold State.heldByte State.rawByte
  rw [this, h]
  rfl

/-- A granule whose pattern is stored reads as it did. -/
theorem rawByte_of_pattern {s t : State} (g : Nat) (hg : isHbm (g * 256) = true) (hc : ¬ s.codeOf g = 0)
    (cells : List (Nat × Byte)) (ht : ∀ k, Memory.get (t.putMem cells).mem k =
      if k / 256 = g then s.patternByte g (s.codeOf g) (k % 256) else Memory.get s.mem k)
    (hgc : t.gcode = s.gcode) (hd : t.dregs = s.dregs) (k : Nat) :
    (State.setCode (t.putMem cells) g 0).rawByte k = s.rawByte k := by
  have hcode : ((t.putMem cells).setCode g 0).codeOf (k / 256) = if k / 256 = g then 0 else s.codeOf (k / 256) := by
    rw [codeOf_setCode]
    have : (t.putMem cells).codeOf (k / 256) = s.codeOf (k / 256) := by
      unfold State.codeOf
      show (assoc t.gcode _).getD 1 = _
      rw [hgc]
    rw [this]
  have hpat : ∀ c o, ((t.putMem cells).setCode g 0).patternByte (k / 256) c o = s.patternByte (k / 256) c o := by
    intro c o
    unfold State.patternByte State.dreg
    show (if c = 1 then 0 else BitVec.ofNat 8 (((assoc t.dregs _).getD _).toNat / _)) = _
    rw [hd]
  have hmem : ((t.putMem cells).setCode g 0).mem = (t.putMem cells).mem := rfl
  unfold State.rawByte
  rw [hcode, hmem, ht]
  simp only [hpat]
  by_cases hk : k / 256 = g
  · subst hk
    have hb : isHbm k = true := by rw [isHbm_granule rfl]; exact hg
    simp only [hb, if_true, if_neg hc]
  · simp only [if_neg hk]

theorem sectorErrs_filter (l : List (Nat × Nat)) (g sec : Nat) (h : sec / 8 ≠ g) :
    (l.filter fun e => sectorOf e.1 / 8 != g).filter (fun e => sectorOf e.1 == sec) = l.filter fun e => sectorOf e.1 == sec := by
  rw [List.filter_filter]
  apply List.filter_congr
  intro e _
  rw [Bool.eq_iff_iff]
  simp only [Bool.and_eq_true, beq_iff_eq, bne_iff_ne]
  constructor
  · exact fun x => x.1
  · exact fun x => ⟨x, by omega⟩

theorem sectorErrs_cleared (l : List (Nat × Nat)) (g sec : Nat) (h : sec / 8 = g) :
    (l.filter fun e => sectorOf e.1 / 8 != g).filter (fun e => sectorOf e.1 == sec) = [] := by
  rw [List.filter_filter, List.filter_eq_nil_iff]
  intro e _
  simp only [Bool.and_eq_true, beq_iff_eq, bne_iff_ne, not_and]
  omega

/-- Every byte of a granule reads as it did once its pattern is stored (R112). -/
theorem heldByte_materialise {s : State} (h : s.MemOk) (g : Nat) (hg : isHbm (g * 256) = true) (k : Nat) :
    (s.materialise g).heldByte k = s.heldByte k := by
  unfold State.materialise
  simp only
  split
  · rfl
  · next hc =>
    have hraw := rawByte_of_pattern (s := s) (t := { s with hbmErr := s.hbmErr.filter fun e => sectorOf e.1 / 8 != g }) g hg hc _
      (get_putMem_granule (s := { s with hbmErr := s.hbmErr.filter fun e => sectorOf e.1 / 8 != g }) h _ g) rfl rfl k
    generalize (List.range 256).map (fun o => (g * 256 + o, s.patternByte g (s.codeOf g) o)) = cells at hraw ⊢
    by_cases hk : k / 256 = g
    · have h0 := sectorErrs_cleared s.hbmErr g (k / 32) (by omega)
      refine (heldByte_clean (k := k) ?_).trans (hraw.trans ?_)
      · exact h0
      have : s.sectorRead (k / 32) = .clean := by
        unfold State.sectorRead
        have e : k / 32 / 8 = g := by omega
        rw [e]
        simp only [ne_eq, hc, not_false_eq_true, or_true, ite_true]
      unfold State.heldByte
      rw [this]
    · refine heldByte_congr (sectorRead_congr _ ?_ ?_ rfl) hraw
      · exact sectorErrs_filter s.hbmErr g _ (by omega)
      · rw [codeOf_setCode, if_neg (by omega)]; rfl

theorem codeOf_materialise (s : State) (g : Nat) : (s.materialise g).codeOf g = 0 := by
  unfold State.materialise
  simp only
  split
  · next hc => exact hc
  · rw [codeOf_setCode, if_pos rfl]

/-! ### A read of a sector -/

theorem dreg_bump_field0 (s : State) (c c' off lo : Nat) (h : off < 0x100) :
    (s.bumpField (chReg c 0x100) lo).dreg (chReg c' off) = s.dreg (chReg c' off) := by
  apply dreg_bumpField
  unfold chReg
  omega

theorem rawByte_bumpField (s : State) (c lo k : Nat) : (s.bumpField (chReg c 0x100) lo).rawByte k = s.rawByte k := by
  have hp : ∀ g n o, (s.bumpField (chReg c 0x100) lo).patternByte g n o = s.patternByte g n o := by
    intro g n o
    unfold State.patternByte
    rw [dreg_bump_field0 _ _ _ _ _ (by omega)]
  unfold State.rawByte
  simp only [hp]
  rfl

theorem heldByte_bumpField (s : State) (c lo k : Nat) : (s.bumpField (chReg c 0x100) lo).heldByte k = s.heldByte k :=
  heldByte_congr (sectorRead_congr _ rfl rfl (dreg_bump_field0 _ _ _ _ _ (by decide))) (rawByte_bumpField ..)

theorem sectorErrs_settle (s : State) (sec i : Nat) :
    (s.settleSector sec).sectorErrs i = if i = sec then [] else s.sectorErrs i := by
  show (s.hbmErr.filter fun e => sectorOf e.1 != sec).filter (fun e => sectorOf e.1 == i) = _
  rw [List.filter_filter]
  split
  · next hi =>
    rw [List.filter_eq_nil_iff]
    intro e _
    simp only [Bool.and_eq_true, beq_iff_eq, bne_iff_ne, not_and]
    omega
  · next hi =>
    apply List.filter_congr
    intro e _
    rw [Bool.eq_iff_iff]
    simp only [Bool.and_eq_true, beq_iff_eq, bne_iff_ne]
    constructor
    · exact fun x => x.1
    · exact fun x => ⟨x, by omega⟩

theorem heldByte_settleSector (s : State) (sec k : Nat) :
    (s.settleSector sec).heldByte k = if k / 32 = sec then s.rawByte k else s.heldByte k := by
  split
  · next hk => exact heldByte_clean (by rw [sectorErrs_settle, if_pos hk])
  · next hk =>
    refine heldByte_congr (sectorRead_congr _ ?_ rfl rfl) rfl
    rw [sectorErrs_settle, if_neg hk]

theorem cellAt_one (j k : Nat) (v : Byte) : cellAt [(j, v)] k = if k = j then some v else none := by
  unfold cellAt
  by_cases hk : k = j
  · subst hk; simp
  · have : (j == k) = false := by simpa using Ne.symm hk
    simp [this, hk]

/-- Bytes stored as they lie: a constant granule does not show them. -/
theorem rawByte_putMem {s : State} (h : s.MemOk) (c : List (Nat × Byte)) (k : Nat) :
    (s.putMem c).rawByte k =
      if isHbm k = true ∧ s.codeOf (k / 256) ≠ 0 then s.rawByte k else (cellAt c k).getD (s.rawByte k) := by
  have e1 : ∀ g, (s.putMem c).codeOf g = s.codeOf g := fun _ => rfl
  have e2 : ∀ g n o, (s.putMem c).patternByte g n o = s.patternByte g n o := fun _ _ _ => rfl
  unfold State.rawByte
  rw [get_putMem h]
  simp only [e1, e2]
  by_cases hb : isHbm k = true
  · by_cases hc : s.codeOf (k / 256) = 0
    · simp [hb, hc]
    · simp [hb, hc]
  · simp [hb]

/-- After a read of a sector its bytes stand in storage as they were delivered. -/
theorem rawByte_eccData {s : State} (h : s.MemOk) (sec k : Nat) :
    (s.eccData sec).rawByte k = if k / 32 = sec then s.heldByte k else s.rawByte k := by
  unfold State.eccData
  split
  · next hr =>
    split
    · next hk => unfold State.heldByte; rw [hk, hr]
    · rfl
  · next p v hr =>
    have hclean : ¬(s.sectorErrs sec = [] ∨ isHbm (sec * 32) = false ∨ s.codeOf (sec / 8) ≠ 0) := by
      intro hx
      unfold State.sectorRead at hr
      simp only [if_pos hx] at hr
      cases hr
    have hb : isHbm (sec * 32) = true := by
      cases hx : isHbm (sec * 32)
      · exact absurd (.inr (.inl hx)) hclean
      · rfl
    have hc : s.codeOf (sec / 8) = 0 := by
      by_cases hx : s.codeOf (sec / 8) = 0
      · exact hx
      · exact absurd (.inr (.inr hx)) hclean
    simp only
    rw [rawByte_bumpField]
    have hset : ∀ t : State, (t.settleSector sec).rawByte k = t.rawByte k := fun _ => rfl
    rw [hset]
    have hheld : k / 32 = sec → s.heldByte k =
        if k % 32 + p = 33 then s.rawByte k ^^^ BitVec.ofNat 8 v else s.rawByte k := by
      intro hk
      unfold State.heldByte; rw [hk, hr]
    split
    · next hp =>
      rw [rawByte_putMem h, cellAt_one]
      by_cases hk : k / 32 = sec
      · have hbk : isHbm k = true := by rw [isHbm_granule (g := k / 256) rfl]; rw [isHbm_granule (k := sec * 32) (g := k / 256) (by omega)] at hb; exact hb
        have hck : s.codeOf (k / 256) = 0 := by
          have : k / 256 = sec / 8 := by omega
          rw [this]; exact hc
        rw [if_neg (by simp [hck]), if_pos hk, hheld hk]
        by_cases hx : k % 32 + p = 33
        · have hkk : k = sec * 32 + (33 - p) := by omega
          rw [if_pos hkk, if_pos hx, ← hkk]
          simp only [Option.getD_some]
          congr 1
          unfold State.rawByte
          simp [hbk, hck]
        · rw [if_neg (by omega), if_neg hx]; rfl
      · have hkk : ¬k = sec * 32 + (33 - p) := by omega
        rw [if_neg hk, if_neg hkk]
        split <;> rfl
    · next hp =>
      split
      · next hk =>
        rw [hheld hk, if_neg (by omega)]
      · rfl
  · next hr =>
    rw [rawByte_bumpField]
    split
    · next hk => unfold State.heldByte; rw [hk, hr]; rfl
    · rfl

theorem sectorErrs_eccData (s : State) (sec i : Nat) (hi : i ≠ sec) : (s.eccData sec).sectorErrs i = s.sectorErrs i := by
  have hs : ∀ t : State, (t.settleSector sec).sectorErrs i = t.sectorErrs i := by
    intro t; rw [sectorErrs_settle, if_neg hi]
  have hb : ∀ (t : State) pa lo, (t.bumpField pa lo).sectorErrs i = t.sectorErrs i := fun _ _ _ => rfl
  unfold State.eccData
  split
  · rfl
  · simp only
    rw [hb, hs]
    split <;> rfl
  · rw [hb]; rfl

theorem codeOf_eccData (s : State) (sec g : Nat) : (s.eccData sec).codeOf g = s.codeOf g := by
  have hb : ∀ (t : State) pa lo, (t.bumpField pa lo).codeOf g = t.codeOf g := fun _ _ _ => rfl
  have hs : ∀ (t : State), (t.settleSector sec).codeOf g = t.codeOf g := fun _ => rfl
  unfold State.eccData
  split
  · rfl
  · simp only
    rw [hb, hs]
    split <;> rfl
  · rw [hb]; rfl

theorem dreg_eccData (s : State) (sec c : Nat) : (s.eccData sec).dreg (chReg c 0) = s.dreg (chReg c 0) := by
  have hb : ∀ (t : State) ch lo, (t.bumpField (chReg ch 0x100) lo).dreg (chReg c 0) = t.dreg (chReg c 0) :=
    fun t ch lo => dreg_bump_field0 t ch c 0 lo (by decide)
  have hs : ∀ (t : State), (t.settleSector sec).dreg (chReg c 0) = t.dreg (chReg c 0) := fun _ => rfl
  unfold State.eccData
  split
  · rfl
  · simp only
    rw [hb, hs]
    split <;> rfl
  · rw [hb]; rfl

/-- A sector that is read and whose check bytes are made anew reads as it did. -/
theorem heldByte_renew {s : State} (h : s.MemOk) (sec k : Nat) :
    ((s.eccData sec).settleSector sec).heldByte k = s.heldByte k := by
  rw [heldByte_settleSector]
  split
  · next hk => rw [rawByte_eccData h, if_pos hk]
  · next hk =>
    refine heldByte_congr (sectorRead_congr _ (sectorErrs_eccData _ _ _ hk) (codeOf_eccData ..) (dreg_eccData ..)) ?_
    rw [rawByte_eccData h, if_neg hk]

/-- A read of a sector gives what it gave before, and gives it again (R109). -/
theorem heldByte_eccData {s : State} (h : s.MemOk) (sec k : Nat) : (s.eccData sec).heldByte k = s.heldByte k := by
  by_cases hk : k / 32 = sec
  · have hraw := rawByte_eccData h sec k
    rw [if_pos hk] at hraw
    rw [← hraw]
    unfold State.eccData
    split
    · next hr => unfold State.heldByte; rw [hk, hr]
    · simp only
      rw [heldByte_bumpField, heldByte_settleSector, if_pos hk, rawByte_bumpField]; rfl
    · next hr =>
      rw [heldByte_bumpField, rawByte_bumpField]
      have e : (s.setPoison (sec / 8)).heldByte k = s.heldByte k := rfl
      have e' : (s.setPoison (sec / 8)).rawByte k = s.rawByte k := rfl
      rw [e, e']
      unfold State.heldByte; rw [hk, hr]
  · refine heldByte_congr (sectorRead_congr _ (sectorErrs_eccData _ _ _ hk) (codeOf_eccData ..) (dreg_eccData ..)) ?_
    rw [rawByte_eccData h, if_neg hk]

theorem route_eccData (s : State) (sec k : Nat) : (s.eccData sec).route k = s.route k := by
  have hb : ∀ (t : State) pa lo, (t.bumpField pa lo).route k = t.route k := fun _ _ _ => rfl
  have hs : ∀ (t : State), (t.settleSector sec).route k = t.route k := fun _ => rfl
  unfold State.eccData
  split
  · rfl
  · simp only
    rw [hb, hs]
    split <;> rfl
  · rw [hb]; rfl

/-- What reading the codes of a chunk leaves alone: everything but poison, and errors of those bytes (R109, R110). -/
theorem eccChunk_cases (s : State) (sec : Nat) :
    ∃ p h, s.eccChunk sec = { s with poison := p, hbmErr := h } ∧
      ∀ i, i ≠ chunkSector (channelOf (sec * 32)) (chunkOf (sec * 32)) →
        (s.eccChunk sec).sectorErrs i = s.sectorErrs i := by
  have hfold : ∀ (l : List Nat) (c q : Nat) (t : State), ∃ p,
      l.foldl (fun t i => t.setPoison (granuleAt c q i)) t = { t with poison := p } := by
    intro l c q
    induction l with
    | nil => exact fun t => ⟨t.poison, rfl⟩
    | cons a l ih =>
      intro t
      obtain ⟨p, hp⟩ := ih (t.setPoison (granuleAt c q a))
      exact ⟨p, hp⟩
  unfold State.eccChunk
  simp only
  split
  · exact ⟨s.poison, s.hbmErr, rfl, fun _ _ => rfl⟩
  · exact ⟨s.poison, _, rfl, fun i hi => by rw [sectorErrs_settle, if_neg hi]⟩
  · generalize chunkSector (channelOf (sec * 32)) (chunkOf (sec * 32)) = n
    obtain ⟨p, hp⟩ := hfold (List.range 15) (channelOf (sec * 32)) (chunkOf (sec * 32)) (s.settleSector n)
    rw [hp]
    refine ⟨p, (s.settleSector n).hbmErr, rfl, fun i hi => ?_⟩
    have := sectorErrs_settle s n i
    rw [if_neg hi] at this
    exact this

theorem codeOf_eccChunk (s : State) (sec g : Nat) : (s.eccChunk sec).codeOf g = s.codeOf g := by
  obtain ⟨p, h, e, -⟩ := eccChunk_cases s sec
  rw [e]; rfl

theorem mem_eccChunk (s : State) (sec : Nat) : (s.eccChunk sec).mem = s.mem := by
  obtain ⟨p, h, e, -⟩ := eccChunk_cases s sec
  rw [e]

theorem route_eccChunk (s : State) (sec k : Nat) : (s.eccChunk sec).route k = s.route k := by
  obtain ⟨p, h, e, -⟩ := eccChunk_cases s sec
  rw [e]; rfl

theorem rawByte_eccChunk (s : State) (sec k : Nat) : (s.eccChunk sec).rawByte k = s.rawByte k := by
  obtain ⟨p, h, e, -⟩ := eccChunk_cases s sec
  rw [e]; rfl

/-- No sector of the HBM range stands for the codes of a chunk. -/
theorem chunkSector_far {k : Nat} (hk : isHbm k = true) (c q : Nat) : k / 32 ≠ chunkSector c q := by
  unfold isHbm hbmEnd at hk
  unfold chunkSector
  simp only [decide_eq_true_eq] at hk
  omega

theorem heldByte_eccChunk (s : State) (sec k : Nat) : (s.eccChunk sec).heldByte k = s.heldByte k := by
  by_cases hk : isHbm k = true
  · obtain ⟨p, h, e, he⟩ := eccChunk_cases s sec
    refine heldByte_congr (sectorRead_congr _ (he _ (chunkSector_far hk _ _)) (codeOf_eccChunk ..) ?_) (rawByte_eccChunk ..)
    rw [e]; rfl
  · have hk : isHbm k = false := by simpa using hk
    rw [heldByte_outside hk, heldByte_outside hk, mem_eccChunk]

theorem byteAt_eccAll (secs : List Nat) {s : State} (h : s.MemOk) (k : Nat) :
    (secs.foldl eccSector s).byteAt k = s.byteAt k := by
  induction secs generalizing s with
  | nil => rfl
  | cons a l ih =>
    rw [List.foldl_cons, ih (memOk_eccSector h a)]
    unfold State.byteAt State.eccSector
    rw [route_eccData, route_eccChunk, heldByte_eccData (memOk_eccChunk h a), heldByte_eccChunk]

/-- The reads that an access takes change no byte as an access finds it (R109). -/
theorem byteAt_eccRead {s : State} (h : s.MemOk) (keys : List Nat) (k : Nat) : (s.eccRead keys).byteAt k = s.byteAt k := by
  unfold State.eccRead
  exact byteAt_eccAll _ h k

/-! ### Granules -/

theorem mem_range256_map (f : Nat → Byte) (o : Nat) (ho : o < 256) : ((List.range 256).map f).getD o 0 = f o := by
  rw [List.getD_eq_getElem?_getD, List.getElem?_map, List.getElem?_range ho]; rfl

/-- The code that a granule's bytes take stands for those bytes (R112). -/
theorem patternByte_elide (s : State) (g : Nat) (f : Nat → Byte) (h : s.elide g ((List.range 256).map f) ≠ 0) (o : Nat)
    (ho : o < 256) : s.patternByte g (s.elide g ((List.range 256).map f)) o = f o := by
  generalize hd : (List.range 256).map f = data at h ⊢
  have hlen : data.length = 256 := by rw [← hd]; simp
  have hget : ∀ o, o < 256 → data.getD o 0 = f o := fun o ho => by rw [← hd]; exact mem_range256_map f o ho
  rw [← hget o ho]
  unfold State.elide at h ⊢
  split
  · next hz =>
    simp only [State.patternByte, ite_true]
    rw [List.all_eq_true] at hz
    rw [List.getD_eq_getElem?_getD, List.getElem?_eq_getElem (by omega)]
    have := hz _ (List.getElem_mem (l := data) (n := o) (by omega))
    rw [beq_iff_eq] at this
    exact this.symm
  · next hz =>
    rw [if_neg hz] at h
    simp only at h ⊢
    split at h
    · next hc =>
      rw [if_pos hc]
      obtain ⟨-, -, hrep⟩ := hc
      split at h
      · next j hj =>
        have hp := List.find?_some hj
        simp only [beq_iff_eq] at hp hrep
        simp only [State.patternByte]
        rw [if_neg (by omega)]
        have hj14 : j < 14 := by
          have := List.mem_of_find?_eq_some hj
          simpa using this
        have e : (j + 2 - 2) % 14 = j := by omega
        rw [e]
        generalize (s.dreg (chReg (channelOf (g * 256)) (0x010 + 8 * j))).toNat = n at hp ⊢
        -- the data repeats its first four bytes
        have hrow : data.getD o 0 = data.getD (o % 4) 0 := by
          have h4 : (data.take 4).length = 4 := by simp [hlen]
          generalize data.take 4 = w at hrep h4
          subst hrep
          have hfm : ∀ m i, i < 4 * m → ((List.range m).flatMap fun _ => w).getD i 0 = w.getD (i % 4) 0 := by
            intro m
            induction m with
            | zero => intro i hi; omega
            | succ m ih =>
              intro i hi
              rw [List.range_succ, List.flatMap_append, List.getD_eq_getElem?_getD]
              have hl : ((List.range m).flatMap fun _ => w).length = 4 * m := by
                clear ih hi
                induction m with
                | zero => rfl
                | succ m ih => rw [List.range_succ, List.flatMap_append, List.length_append, ih]; simp [h4]; omega
              by_cases hi' : i < 4 * m
              · rw [List.getElem?_append_left (by omega), ← List.getD_eq_getElem?_getD]; exact ih i hi'
              · rw [List.getElem?_append_right (by omega), hl]
                simp only [List.flatMap_cons, List.flatMap_nil, List.append_nil]
                rw [← List.getD_eq_getElem?_getD]
                congr 1; omega
          rw [hfm 64 o (by omega), hfm 64 (o % 4) (by omega)]
          congr 1; omega
        rw [hrow]
        have hb : o % 4 < 4 := Nat.mod_lt _ (by decide)
        generalize o % 4 = b at hb ⊢
        have hw : ∀ b, b < 4 → data.getD b 0 = (data.take 4).getD b 0 := by
          intro b hb
          simp [List.getD_eq_getElem?_getD, hb]
        rw [hw b hb]
        have h4 : (data.take 4).length = 4 := by simp [hlen]
        generalize data.take 4 = w at hp h4 ⊢
        match w, h4 with
        | [w0, w1, w2, w3], _ =>
          have e := hp
          unfold ofBytesLE at e
          simp only [ofBytesLE] at e
          have b0 := w0.isLt; have b1 := w1.isLt; have b2 := w2.isLt; have b3 := w3.isLt
          apply BitVec.eq_of_toNat_eq
          rw [BitVec.toNat_ofNat]
          match b, hb with
          | 0, _ => simp; omega
          | 1, _ => simp; omega
          | 2, _ => simp; omega
          | 3, _ => simp; omega
      · exact absurd rfl h
    · exact absurd rfl h

theorem any_key (c : List (Nat × Byte)) (k : Nat) : (c.any fun d => d.1 == k) = (cellAt c k).isSome := by
  unfold cellAt
  rw [Option.isSome_map, Bool.eq_iff_iff, List.any_eq_true, List.find?_isSome]
  simp

theorem cellAt_none_of {c : List (Nat × Byte)} {k : Nat} (h : ∀ d ∈ c, d.1 ≠ k) : cellAt c k = none := by
  unfold cellAt
  rw [Option.map_eq_none_iff, List.find?_eq_none]
  intro d hd
  have := h d (List.mem_reverse.mp hd)
  simpa using this

theorem cellAt_filter (c : List (Nat × Byte)) (p : Nat × Byte → Bool) (k : Nat) (h : ∀ d ∈ c, d.1 = k → p d = true) :
    cellAt (c.filter p) k = cellAt c k := by
  unfold cellAt
  rw [← List.filter_reverse, List.find?_filter]
  congr 1
  have : ∀ l : List (Nat × Byte), (∀ d ∈ l, d.1 = k → p d = true) →
      List.find? (fun a => p a && a.1 == k) l = List.find? (fun d => d.1 == k) l := by
    intro l
    induction l with
    | nil => intro _; rfl
    | cons a l ih =>
      intro hl
      simp only [List.find?_cons]
      by_cases ha : a.1 = k
      · simp [hl a (by simp) ha, ha]
      · have : (a.1 == k) = false := by simpa using ha
        simp only [this, Bool.and_false]
        exact ih fun d hd => hl d (by simp [hd])
  simp only [Bool.decide_and, Bool.decide_coe]
  exact this _ fun d hd => h d (List.mem_reverse.mp hd)

/-- Sectors whose check bytes are made anew: what the cells do not write reads as it did, and no touched sector holds an
error. -/
theorem renewAll {s : State} (h : s.MemOk) (c : List (Nat × Byte)) (secs : List Nat) :
    let u := secs.foldl (renewSector c) s
    u.MemOk ∧ (∀ g, u.codeOf g = s.codeOf g) ∧ (∀ k, cellAt c k = none → u.heldByte k = s.heldByte k) ∧
      ∀ i, u.sectorErrs i = if i ∈ secs then [] else s.sectorErrs i := by
  induction secs generalizing s with
  | nil => exact ⟨h, fun _ => rfl, fun _ _ => rfl, fun _ => by simp⟩
  | cons a l ih =>
    simp only [List.foldl_cons]
    obtain ⟨h1, h2, h3, h4⟩ := ih (memOk_renewSector h c a)
    refine ⟨h1, ?_, ?_, ?_⟩
    · intro g
      rw [h2]
      unfold State.renewSector
      split
      · rfl
      · exact codeOf_eccData s a g
    · intro k hk
      rw [h3 k hk]
      unfold State.renewSector
      split
      · next hall =>
        rw [heldByte_settleSector, if_neg]
        intro hka
        rw [List.all_eq_true] at hall
        have := hall (k % 32) (by simp; omega)
        have e : a * 32 + k % 32 = k := by omega
        rw [e, any_key, hk] at this
        simp at this
      · exact heldByte_renew h a k
    · intro i
      rw [h4]
      have hstep : (s.renewSector c a).sectorErrs i = if i = a then [] else s.sectorErrs i := by
        unfold State.renewSector
        split
        · exact sectorErrs_settle s a i
        · rw [sectorErrs_settle]
          split
          · rfl
          · next hi => exact sectorErrs_eccData s a i hi
      rw [hstep]
      simp only [List.mem_cons]
      by_cases hi : i ∈ l
      · simp [hi]
      · by_cases ha : i = a <;> simp [hi, ha]

/-- One indivisible update of a granule: its cells read as written, every other byte as it did. -/
theorem heldByte_mergeGranule {s : State} (h : s.MemOk) (g : Nat) (hg : isHbm (g * 256) = true) (c : List (Nat × Byte))
    (hc : ∀ d ∈ c, d.1 / 256 = g) (p : Bool) (k : Nat) :
    (s.mergeGranule g c p).heldByte k = (cellAt c k).getD (s.heldByte k) := by
  have hp : ∀ t : State, (if p then t.setPoison g else t).heldByte k = t.heldByte k := by intro t; split <;> rfl
  unfold State.mergeGranule
  simp only
  rw [hp]
  split
  · next hall =>
    -- every byte of the granule is written
    have hdata : (s.granuleCells g).map (fun c_1 => ((c.reverse.find? fun d => d.1 == c_1.1).map Prod.snd).getD c_1.2) =
        (List.range 256).map fun o => (cellAt c (g * 256 + o)).getD (s.rawByte (g * 256 + o)) := by
      unfold State.granuleCells
      rw [List.map_map]; rfl
    rw [hdata]
    have hin : ∀ k, k / 256 = g → (cellAt c k).isSome = true := by
      intro k hk
      rw [List.all_eq_true] at hall
      have := hall (k, s.rawByte k) (by
        unfold State.granuleCells
        rw [List.mem_map]
        exact ⟨k % 256, by simp; omega, by have : g * 256 + k % 256 = k := by omega
                                           rw [this]⟩)
      rwa [any_key] at this
    generalize hf : (fun o => (cellAt c (g * 256 + o)).getD (s.rawByte (g * 256 + o))) = f
    have hwhole : (cellAt c k).getD (s.heldByte k) = if k / 256 = g then f (k % 256) else s.heldByte k := by
      split
      · next hk =>
        rw [← hf]
        have e : g * 256 + k % 256 = k := by omega
        simp only [e]
        obtain ⟨x, hx⟩ := Option.isSome_iff_exists.mp (hin k hk)
        rw [hx]; rfl
      · next hk => rw [cellAt_none_of fun d hd he => hk (by rw [← he]; exact hc d hd)]; rfl
    rw [hwhole]
    generalize hs1 : (State.clearPoison { s with hbmErr := s.hbmErr.filter fun e => sectorOf e.1 / 8 != g } g) = s1
    have h1 : s1.MemOk := by rw [← hs1]; exact h
    have e2 : ∀ g, s1.codeOf g = s.codeOf g := by intro g; rw [← hs1]; rfl
    have e3 : ∀ g c o, s1.patternByte g c o = s.patternByte g c o := by intro g c o; rw [← hs1]; rfl
    have e4 : ∀ k, Memory.get s1.mem k = Memory.get s.mem k := by intro k; rw [← hs1]; rfl
    have e5 : s1.elide g ((List.range 256).map f) = s.elide g ((List.range 256).map f) := by rw [← hs1]; rfl
    have e6 : ∀ i, s1.sectorErrs i = if i / 8 = g then [] else s.sectorErrs i := by
      intro i; rw [← hs1]
      split
      · next hi => exact sectorErrs_cleared s.hbmErr g i hi
      · next hi => exact sectorErrs_filter s.hbmErr g i hi
    have e7 : ∀ q, s1.dreg q = s.dreg q := by intro q; rw [← hs1]; rfl
    have key : ∀ (cl : List (Nat × Byte)) (f' : Nat → Byte) (n : Nat),
        (∀ k, cellAt cl k = if k / 256 = g then some (f' (k % 256)) else none) →
        ((s1.putMem cl).setCode g n).heldByte k =
          if k / 256 = g then (if n = 0 then f' (k % 256) else s.patternByte g n (k % 256)) else s.heldByte k := by
      intro cl f' n hcl
      have hm : Memory.get ((s1.putMem cl).setCode g n).mem k =
          if k / 256 = g then f' (k % 256) else Memory.get s.mem k := by
        have := get_putMem h1 cl k
        rw [hcl, e4] at this
        refine Eq.trans this ?_
        split <;> rfl
      have hco : ∀ i, ((s1.putMem cl).setCode g n).codeOf i = if i = g then n else s.codeOf i := by
        intro i
        rw [codeOf_setCode]
        split
        · rfl
        · exact e2 _
      have hpa : ∀ c o, ((s1.putMem cl).setCode g n).patternByte (k / 256) c o = s.patternByte (k / 256) c o :=
        fun c o => e3 _ c o
      have hraw : ((s1.putMem cl).setCode g n).rawByte k =
          if k / 256 = g then (if n = 0 then f' (k % 256) else s.patternByte g n (k % 256)) else s.rawByte k := by
        unfold State.rawByte
        rw [hm, hco]
        simp only [hpa]
        by_cases hk : k / 256 = g
        · rw [isHbm_granule hk, hg, hk]
          simp only [ite_true]
        · simp only [if_neg hk]
      by_cases hk : k / 256 = g
      · rw [heldByte_clean, hraw, if_pos hk, if_pos hk]
        have := e6 (k / 32)
        rw [if_pos (by omega)] at this
        exact this
      · rw [if_neg hk] at hraw ⊢
        refine heldByte_congr (sectorRead_congr _ ?_ ?_ (e7 _)) hraw
        · have := e6 (k / 32)
          rw [if_neg (by omega)] at this
          exact this
        · rw [hco, if_neg (by omega)]
    have hget : ∀ o, o < 256 → ((List.range 256).map f).getD o 0 = f o := fun o ho => mem_range256_map f o ho
    rw [e5]
    have hel := patternByte_elide s g f
    generalize hdl : (List.range 256).map f = data at hget hel ⊢
    split
    · next hz =>
      have := key ((List.range 256).map fun o => (g * 256 + o, data.getD o 0)) (fun o => data.getD o 0) 0
        (cellAt_range (fun o => data.getD o 0) g)
      rw [this, if_pos rfl, hget _ (Nat.mod_lt _ (by decide))]
    · next hz =>
      have := key ((List.range 256).map fun o => (g * 256 + o, 0)) (fun _ => 0) (s.elide g data) (cellAt_range (fun _ => 0) g)
      rw [this, if_neg hz]
      split
      · exact hel hz _ (Nat.mod_lt _ (by decide))
      · rfl
  · -- part of it is written
    have hm := memOk_materialise h g
    generalize hsec : (s.materialise g).struckSectors g c = secs
    obtain ⟨h1, h2, h3, h4⟩ := renewAll hm c secs
    generalize secs.foldl (renewSector c) (s.materialise g) = u at h1 h2 h3 h4
    have hcode : ∀ i, (u.putMem c).codeOf i = u.codeOf i := fun _ => rfl
    by_cases hk : cellAt c k = none
    · rw [hk]
      have : (u.putMem c).heldByte k = u.heldByte k := by
        refine heldByte_congr (sectorRead_congr _ rfl rfl rfl) ?_
        rw [rawByte_putMem h1, hk]
        split <;> rfl
      rw [this, h3 k hk, heldByte_materialise h g hg]; rfl
    · obtain ⟨x, hx⟩ := Option.ne_none_iff_exists'.mp hk
      have hany : (c.any fun d => d.1 == k) = true := by rw [any_key, hx]; rfl
      obtain ⟨d, hd, hdk⟩ := List.any_eq_true.mp hany
      have hdk' : d.1 = k := by simpa using hdk
      have hkg : k / 256 = g := by rw [← hdk']; exact hc d hd
      have herr : u.sectorErrs (k / 32) = [] := by
        rw [h4]
        split
        · rfl
        · next hni =>
          rw [show (s.materialise g).sectorErrs (k / 32) = (s.materialise g).hbmErr.filter fun e => sectorOf e.1 == k / 32 from rfl,
            List.filter_eq_nil_iff]
          intro e he hek
          apply hni
          rw [← hsec]
          unfold State.struckSectors
          rw [List.mem_filter, List.mem_map]
          have hek' : sectorOf e.1 = k / 32 := by simpa using hek
          refine ⟨⟨e, he, hek'⟩, ?_⟩
          simp only [Bool.and_eq_true, beq_iff_eq, List.any_eq_true]
          exact ⟨by omega, d, hd, by rw [hdk']⟩
      rw [heldByte_clean (s := u.putMem c) herr, rawByte_putMem h1, hx, if_neg]
      · rfl
      · rw [h2, hkg, codeOf_materialise]; simp

theorem heldByte_updateGranule {s : State} (h : s.MemOk) (g : Nat) (hg : isHbm (g * 256) = true) (c : List (Nat × Byte))
    (hc : ∀ d ∈ c, d.1 / 256 = g) (p : Bool) (k : Nat) :
    (s.updateGranule g c p).heldByte k = (cellAt c k).getD (s.heldByte k) := by
  unfold State.updateGranule
  rw [heldByte_mergeGranule (memOk_eccChunk h _) g hg c hc, heldByte_eccChunk]

theorem heldByte_updateBeyond {s : State} (h : s.MemOk) (g : Nat) (hg : isHbm (g * 256) = false) (c : List (Nat × Byte))
    (hc : ∀ d ∈ c, d.1 / 256 = g) (p : Bool) (k : Nat) :
    (s.updateBeyond g c p).heldByte k = (cellAt c k).getD (s.heldByte k) := by
  have hp : ∀ t : State, (if p then t.setPoison g else t).heldByte k = t.heldByte k := by intro t; split <;> rfl
  have hput : ∀ t : State, t.MemOk → (∀ k, t.heldByte k = s.heldByte k) →
      (t.putMem c).heldByte k = (cellAt c k).getD (s.heldByte k) := by
    intro t ht he
    by_cases hb : isHbm k = true
    · have hn : cellAt c k = none := cellAt_none_of fun d hd e => by
        have h1 := isHbm_granule (hc d hd)
        rw [hg, e, hb] at h1
        cases h1
      rw [hn, Option.getD_none, ← he k]
      refine heldByte_congr (sectorRead_congr _ rfl rfl rfl) ?_
      rw [rawByte_putMem ht, hn]
      split <;> rfl
    · have hb' : isHbm k = false := by simpa using hb
      rw [heldByte_outside hb', get_putMem ht, ← heldByte_outside (s := t) hb', he k]
  unfold State.updateBeyond
  simp only
  rw [hp]
  split
  · exact hput _ (memOk_clearPoison h g) fun _ => rfl
  · exact hput _ h fun _ => rfl

theorem heldByte_putNear {s : State} (h : s.MemOk) (c : List (Nat × Byte)) (hc : ∀ d ∈ c, isNear d.1 = true) (k : Nat) :
    (s.putMem c).heldByte k = (cellAt c k).getD (s.heldByte k) := by
  by_cases hb : isHbm k = true
  · have hn : cellAt c k = none := cellAt_none_of fun d hd e => by
      have := hc d hd
      rw [e] at this
      unfold isNear nearBase at this
      unfold isHbm hbmEnd at hb
      simp only [Bool.and_eq_true, decide_eq_true_eq] at this hb
      omega
    rw [hn, Option.getD_none]
    refine heldByte_congr (sectorRead_congr _ rfl rfl rfl) ?_
    rw [rawByte_putMem h, hn]
    split <;> rfl
  · have hb' : isHbm k = false := by simpa using hb
    rw [heldByte_outside hb', get_putMem h, ← heldByte_outside (s := s) hb']

/-! ### Where an access goes -/

/-- With no page in two pairs, the way of R119 is its own inverse: two keys never share a home. -/
theorem route_route {s : State} (h : s.PairsOk) (k : Nat) : s.route (s.route k) = k := by
  obtain ⟨hp, hn⟩ := h
  have hfind : ∀ (l : List Pair), l.Pairwise (fun p q => p.c ≠ q.c ∧ p.c ≠ q.h ∧ p.h ≠ q.c ∧ p.h ≠ q.h) → ∀ p a b,
      l.find? (fun p => a == p.c || a == p.h) = some p → (b = p.c ∨ b = p.h) →
      l.find? (fun p => b == p.c || b == p.h) = some p := by
    intro l
    induction l with
    | nil => intro _ p a b hf; cases hf
    | cons x l ih =>
      intro hl p a b hf hb
      rw [List.pairwise_cons] at hl
      rw [List.find?_cons] at hf ⊢
      split at hf
      · cases hf
        have : (b == x.c || b == x.h) = true := by simpa using hb
        rw [this]
      · have hmem := List.mem_of_find?_eq_some hf
        have := hl.1 p hmem
        have hx : (b == x.c || b == x.h) = false := by
          rcases hb with rfl | rfl
          · simp only [Bool.or_eq_false_iff, beq_eq_false_iff_ne]; exact ⟨Ne.symm this.1, Ne.symm this.2.2.1⟩
          · simp only [Bool.or_eq_false_iff, beq_eq_false_iff_ne]; exact ⟨Ne.symm this.2.1, Ne.symm this.2.2.2⟩
        rw [hx]
        exact ih hl.2 p a b hf hb
  generalize hr : s.route k = k'
  unfold State.route at hr ⊢
  split at hr
  · next p hf =>
    have hmem := List.mem_of_find?_eq_some hf
    have hpg := List.find?_some hf
    simp only [Bool.or_eq_true, beq_iff_eq] at hpg
    obtain ⟨hc, hh⟩ := hn p hmem
    split at hr
    · next hk =>
      subst hr
      generalize hq : (if k / 65536 = p.c then p.h else p.c) = q
      have hq' : q = p.c ∨ q = p.h := by rw [← hq]; split <;> simp
      have hdiv : (q * 65536 + k % 65536) / 65536 = q := by omega
      have hmod : (q * 65536 + k % 65536) % 65536 = k % 65536 := by omega
      have hlt : q * 65536 + k % 65536 < nearBase := by
        unfold nearBase
        rcases hq' with rfl | rfl <;> omega
      rw [hdiv, hmod]
      rw [hfind _ hp p _ q hf hq']
      simp only [hlt, true_and]
      rw [if_pos hk.2]
      have : (if q = p.c then p.h else p.c) = k / 65536 := by
        rw [← hq]
        by_cases h1 : k / 65536 = p.c
        · rw [if_pos h1]
          split
          · next h2 => rw [h1, h2]
          · exact h1.symm
        · rw [if_neg h1, if_pos rfl]
          rcases hpg with h2 | h2
          · exact absurd h2 h1
          · exact h2.symm
      rw [this]; omega
    · next hk =>
      subst hr
      rw [hf]
      simp only [hk, ite_false]
  · next hf =>
    subst hr
    rw [hf]

theorem route_inj {s : State} (h : s.PairsOk) {a b : Nat} (e : s.route a = s.route b) : a = b := by
  rw [← route_route h a, e, route_route h b]

/-! ### A write of bytes at their homes -/

theorem isNear_granule {a b : Nat} (h : a / 256 = b / 256) : isNear a = isNear b := by
  unfold isNear nearBase
  have e1 : (2 ^ 48 ≤ a) ↔ (2 ^ 48 ≤ b) := by omega
  have e2 : (a < 2 ^ 48 + 2 ^ 31) ↔ (b < 2 ^ 48 + 2 ^ 31) := by omega
  simp only [e1, e2]

theorem mem_insertNat (x y : Nat) (l : List Nat) : y ∈ insertNat x l ↔ y = x ∨ y ∈ l := by
  induction l with
  | nil => simp [insertNat]
  | cons a l ih =>
    unfold insertNat
    split
    · simp
    · split
      · next h => subst h; simp
      · simp only [List.mem_cons, ih]
        constructor
        · rintro (h | h | h) <;> simp [h]
        · rintro (h | h | h) <;> simp [h]

theorem byteAt_homeCells {s : State} (h : s.MemOk) (hr : s.PairsOk) (c : List (Nat × Byte)) (p : Bool) (k : Nat) :
    (s.homeCells c p).byteAt k = (cellAt c k).getD (s.byteAt k) := by
  have hroute : (s.homeCells c p).route k = s.route k := by
    obtain ⟨_, _, _, _, _, _, e⟩ := memLike_homeCells s c p
    rw [e]; rfl
  unfold State.byteAt
  rw [hroute]
  generalize hj : s.route k = j
  -- the cells at their homes
  have hcell : cellAt (c.map fun x => (s.route x.1, x.2)) j = cellAt c k := by
    unfold cellAt
    rw [← List.map_reverse, List.find?_map, Option.map_map]
    have : ((fun d : Nat × Byte => d.1 == j) ∘ fun x : Nat × Byte => (s.route x.1, x.2)) = fun d => d.1 == k := by
      funext d
      simp only [Function.comp, ← hj]
      rw [Bool.eq_iff_iff, beq_iff_eq, beq_iff_eq]
      exact ⟨route_inj hr, fun e => by rw [e]⟩
    rw [this]
    rfl
  unfold State.homeCells
  simp only
  generalize (c.map fun x => (s.route x.1, x.2)) = cs at hcell
  rw [← hcell]
  generalize hfar : (cs.filter fun c => !isNear c.1) = far
  generalize hgs : far.foldl (fun l (c : Nat × Byte) => insertNat (c.1 / 256) l) [] = gs
  have hmem : ∀ g, (∃ d ∈ far, d.1 / 256 = g) ↔ g ∈ gs := by
    have : ∀ (l : List (Nat × Byte)) (a : List Nat) g,
        g ∈ l.foldl (fun l (c : Nat × Byte) => insertNat (c.1 / 256) l) a ↔ (∃ d ∈ l, d.1 / 256 = g) ∨ g ∈ a := by
      intro l
      induction l with
      | nil => simp
      | cons x l ih =>
        intro a g
        rw [List.foldl_cons, ih, mem_insertNat]
        simp only [List.mem_cons, exists_eq_or_imp]
        constructor
        · rintro (h | h | h)
          · exact .inl (.inr h)
          · exact .inl (.inl h.symm)
          · exact .inr h
        · rintro ((h | h) | h)
          · exact .inr (.inl h.symm)
          · exact .inl h
          · exact .inr (.inr h)
    intro g
    rw [← hgs, this]; simp
  have hfold : ∀ (gs : List Nat) (t : State), t.MemOk →
      let u := gs.foldl (fun s g => if isHbm (g * 256) = true then s.updateGranule g (far.filter fun c => c.1 / 256 == g) p
        else s.updateBeyond g (far.filter fun c => c.1 / 256 == g) p) t
      u.MemOk ∧ u.heldByte j = (if j / 256 ∈ gs then cellAt far j else none).getD (t.heldByte j) := by
    intro gs
    induction gs with
    | nil => intro t ht; exact ⟨ht, by simp⟩
    | cons g gs ih =>
      intro t ht
      rw [List.foldl_cons]
      generalize hv : (if isHbm (g * 256) = true then t.updateGranule g (far.filter fun c => c.1 / 256 == g) p
        else t.updateBeyond g (far.filter fun c => c.1 / 256 == g) p) = v
      have hvok : v.MemOk := by
        rw [← hv]; split
        · exact memOk_updateGranule ht _ _ _
        · exact memOk_updateBeyond ht _ _ _
      have hvraw : v.heldByte j = (cellAt (far.filter fun c => c.1 / 256 == g) j).getD (t.heldByte j) := by
        rw [← hv]; split
        · next hg =>
          exact heldByte_updateGranule ht g hg _ (fun d hd => by simpa using (List.mem_filter.mp hd).2) p j
        · next hg =>
          exact heldByte_updateBeyond ht g (by simpa using hg) _ (fun d hd => by simpa using (List.mem_filter.mp hd).2) p j
      obtain ⟨h1, h2⟩ := ih v hvok
      refine ⟨h1, ?_⟩
      rw [h2, hvraw]
      by_cases hjg : j / 256 = g
      · rw [cellAt_filter far _ j (by intro d _ hd; rw [hd]; simpa using hjg)]
        simp only [List.mem_cons, hjg, true_or, ite_true]
        split
        · cases cellAt far j <;> rfl
        · rfl
      · rw [cellAt_none_of (c := far.filter fun c => c.1 / 256 == g) (k := j)
          (by intro d hd he; have := (List.mem_filter.mp hd).2; rw [he] at this; exact hjg (by simpa using this))]
        simp only [List.mem_cons, hjg, false_or, Option.getD_none]
  obtain ⟨h1, h2⟩ := hfold gs s h
  rw [heldByte_putNear h1 _ (fun d hd => (List.mem_filter.mp hd).2), h2]
  by_cases hn : isNear j = true
  · have e1 : cellAt (cs.filter fun c => isNear c.1) j = cellAt cs j := cellAt_filter cs _ j (by intro d _ hd; rw [hd]; exact hn)
    have e2 : cellAt far j = none := cellAt_none_of (by
      intro d hd he
      rw [← hfar] at hd
      have := (List.mem_filter.mp hd).2
      rw [he, hn] at this; simp at this)
    rw [e1, e2]; simp
  · have hn' : isNear j = false := by simpa using hn
    have e1 : cellAt (cs.filter fun c => isNear c.1) j = none := cellAt_none_of (by
      intro d hd he
      have := (List.mem_filter.mp hd).2
      rw [he, hn'] at this; simp at this)
    have e2 : cellAt far j = cellAt cs j := by
      rw [← hfar]; exact cellAt_filter cs _ j (by intro d _ hd; rw [hd, hn']; rfl)
    rw [e1, e2]
    simp only [Option.getD_none]
    split
    · rfl
    · next hg =>
      have : cellAt far j = none := cellAt_none_of (by
        intro d hd he
        exact hg ((hmem _).mp ⟨d, hd, by rw [he]⟩))
      rw [← e2, this]

/-- A write that no access table refuses: every written byte reads as written, every other byte as it did. -/
theorem byteAt_writeCells {s : State} (h : s.MemOk) (hr : s.PairsOk) (c : List (Nat × Byte)) (p : Bool) (k : Nat) :
    (s.writeCells c p).byteAt k = (cellAt c k).getD (s.byteAt k) :=
  byteAt_homeCells (s := s.dropLines _) h hr c p k

end State

end Sys2Proof.Machine
end

