-- ==== Sys2Proof/Tests/Slice0.lean ====
section
/-! SUPPORT. Tests: what the checks of an encoding refuse, words that the spec writes out, single steps, and states that meet
the hypotheses of the statements. -/

open Sys2Proof Sys2Proof.Machine

namespace Sys2Proof.Tests

set_option Elab.async false

/-! ### What the checks refuse (WellFormed) -/

def hdr : VHdr := ⟨0, false, false, none, 0, 0⟩
def op4 : Opnd := ⟨4, .unit, 0⟩
def op6 : Opnd := ⟨6, .unit, 0⟩
def v3 (t1 t2 : TyF) : V3 := ⟨hdr, op4, op6, op6, t1, t2, none, false⟩
def v2x (t1 t2 : TyF) : V2X := ⟨hdr, op4, op6, t1, t2, none, false⟩
def v2 (t : TyF) : V2 := ⟨hdr, op4, op6, t, none, false⟩
def runF (mode : SumMode) (chn cmp : Bool) (seed expect : BitVec 32) : RunF := ⟨false, 1, 2, 3, 4, mode, chn, cmp, seed, expect⟩

/-- One ill-formed term for each check (R21, R23, R73, R92, R137, R194, R200 to R203, R232, R272, R297 to R299). -/
theorem test_ill_formed :
    Instr.wf (.fadd ⟨false, 1, 2, 3, .i32⟩) = false ∧ Instr.wf (.ffma ⟨false, 1, 2, 3, 4, .e4m3⟩) = false ∧
    Instr.wf (.fsqrt ⟨false, 1, 2, .n16⟩) = false ∧ Instr.wf (.fcvt ⟨false, 1, 2, .i16, .f32⟩) = false ∧
    Instr.wf (.fcvt ⟨false, 1, 2, .f32, .i32⟩) = false ∧ Instr.wf (.ld ⟨false, 1, 2, .e4m3, 0⟩) = false ∧
    Instr.wf (.st ⟨false, 1, 2, .i4, 0⟩) = false ∧ Instr.wf (.aadd ⟨false, 1, 2, 3, .f16⟩) = false ∧
    Instr.wf (.aand ⟨false, 1, 2, 3, .f32⟩) = false ∧ Instr.wf (.acas ⟨false, 1, 2, 3, 4, .i8⟩) = false ∧
    Instr.wf (.vadd (v3 (some .i32) (some .f32))) = false ∧ Instr.wf (.vdiv (v3 (some .i32) none)) = false ∧
    Instr.wf (.vsqrt (v2 (some .e4m3))) = false ∧ Instr.wf (.vexp2 (v2 (some .f64))) = false ∧
    Instr.wf (.vmin (v3 (some .i32) (some .f32))) = false ∧ Instr.wf (.vmulw (v3 (some .f32) none)) = false ∧
    Instr.wf (.vmulw (v3 (some .f32) (some .i16))) = false ∧ Instr.wf (.vshl (v3 (some .f32) none)) = false ∧
    Instr.wf (.vand (v3 (some .i32) (some .n32))) = false ∧ Instr.wf (.vbq false (v2x (some .f32) (some .f32))) = false ∧
    Instr.wf (.vbq false { v2x (some .e4m3) (some .f32) with g := some ⟨1, false⟩ }) = false ∧
    Instr.wf (.vbdq false (v2x (some .i32) (some .e4m3))) = false ∧ Instr.wf (.vclass (v2x (some .f32) (some .f32))) = false ∧
    Instr.wf (.vclass (v2x (some .i32) (some .i32))) = false ∧ Instr.wf (.vaadd (v3 (some .i8) none)) = false ∧
    Instr.wf (.vgath (v2 (some .f32))) = false ∧ Instr.wf (.vscat (v2 (some .f32))) = false ∧
    Instr.wf (.vmov { v2 (some .f32) with a := ⟨63, .stride, 0⟩ }) = false ∧
    Instr.wf (.vmov { v2 (some .i4) with d := ⟨4, .indexed, 0⟩ }) = false ∧
    Instr.wf (.vred .and ⟨hdr, 3, op4, some .f32, none⟩) = false ∧
    Instr.wf (.calloc ⟨false, 1, none, 2, 3, false, some .mx32, some .f32⟩) = false ∧
    Instr.wf (.tzero ⟨false, some (true, 2048)⟩) = false ∧ Instr.wf (.rcopy (runF .none true false 0 0)) = false ∧
    Instr.wf (.rcopy (runF .sum true false 1 0)) = false ∧ Instr.wf (.rcopy (runF .sum false false 0 1)) = false ∧
    Instr.wf (.rgath ⟨{ runF .none false false 0 0 with c := 63 }, 0⟩) = false := by decide

/-! ### Words of the spec's examples -/

/-- A word from its four groups, the first most significant, and what it decodes to and encodes from. -/
def decodes (a b c d : Nat) (i : Instr) : Bool :=
  let w := BitVec.ofNat 128 (a * 2 ^ 96 + b * 2 ^ 64 + c * 2 ^ 32 + d)
  encode i == w && match decode w with
    | .ok j => decide (j = i)
    | .error _ => false

theorem test_decode_scalarInteger :
    decodes 0x3800004 0x14000000 0 0x60 (.addi ⟨false, 5, 0, 0x60⟩) ∧
    decodes 0x3800010 0x24414000 0x80000000 0 (.mulh .su ⟨false, 9, 4, 5⟩) ∧
    decodes 0x380005C 0x34000000 0x7FF800 0xE0000000 (.li ⟨false, 13, 0x7ff800e0000000⟩) ∧
    decodes 0x3800060 0xC000000 0 0xB0 (.la ⟨false, 3, 0xb0⟩) := by decide +kernel

theorem test_decode_scalarFloat :
    decodes 0x380020C 0x24414644 0 0 (.ffma ⟨false, 9, 4, 5, 6, .f32⟩) ∧
    decodes 0x3800224 0x24444014 0 0 (.fcvt ⟨false, 9, 4, .i32, .f32⟩) ∧
    decodes 0x3800228 0x18120000 0 0 (.ld ⟨false, 6, 1, .n64, 0x0⟩) ∧
    decodes 0x380022C 0x28120000 0 0x8 (.st ⟨false, 10, 1, .n64, 0x8⟩) := by decide +kernel

theorem test_decode_control :
    decodes 0x3800408 0x14000000 0 0xFFFFFFFD (.bne ⟨false, 5, 0, 0xfffffffd⟩) ∧
    decodes 0x380041C 0xFC000 0 0 (.call ⟨false, 63, 0x0⟩) ∧
    decodes 0x3800420 0xFC000000 0 0 (.ret ⟨false, 63⟩) ∧
    decodes 0x7800428 0x18000000 0 0xFFFFFFFF (.loop ⟨true, 6, 0xffffffff⟩) ∧
    decodes 0x380042C 0x1C600000 0 0 (.setvl ⟨false, 7, 6⟩) ∧
    decodes 0x3800430 0x7A000000 0 0 (.pfx ⟨false, some .rdn, some 2, none⟩) ∧
    decodes 0x3800434 0x28B00C00 0 0x4 (.fork ⟨false, 10, 11, 12, 0x4⟩) ∧
    decodes 0x3800448 0 0 0 (.exit false) ∧
    decodes 0x3800460 0 0 0 (.nop false) ∧
    decodes 0x3800454 0 0 0x5 (.trap false 0x5) ∧
    decodes 0x3800458 0 0 0 (.eret false) ∧
    decodes 0x780045C 0x400000 0 0 (.wait ⟨true, 4⟩) ∧
    decodes 0x380044C 0x24000002 0 0 (.csrr false 9 0x2) ∧
    decodes 0x3800450 0x300100 0 0 (.csrw false 0x100 3) := by decide +kernel

theorem test_decode_supervisor :
    decodes 0x3800464 0x24010000 0 0x5 (.preempt false true 9 5) ∧
    decodes 0x3800464 0x24420000 0 0 (.preemptPark ⟨false, 9, 4⟩) ∧
    decodes 0x3800468 0x24400000 0 0 (.cres ⟨false, 9, 4⟩) ∧
    decodes 0x380046C 0x24400000 0 0 (.kill ⟨false, 9, 4⟩) ∧
    decodes 0x3800470 0x24400000 0 0x7D0 (.wdog ⟨false, 9, 4, 0x7d0⟩) := by decide +kernel

theorem test_decode_vector :
    decodes 0x3800600 0x10000018 0x2000 0x440F00 (.vadd ⟨⟨0x0, false, false, none, 0x0, 0x0⟩, ⟨4, .unit, 0x0⟩, ⟨6,
      .unit, 0x0⟩, ⟨8, .unit, 0x0⟩, some .f32, none, none, false⟩) ∧
    decodes 0x2484B600 0x10000819 0x2200 0x440380 (.vadd ⟨⟨0x2, false, true, some 1, 0x9, 0x3⟩, ⟨4, .unit, 0x8⟩, ⟨6,
      .stride, 0x0⟩, ⟨8, .once, 0x0⟩, some .f32, none, some ⟨3, true⟩, false⟩) ∧
    decodes 0x3800700 0x10000018 0x3FC0 0x47C0 (.vaddImm ⟨⟨0x0, false, false, none, 0x0, 0x0⟩, ⟨4, .unit, 0x0⟩, ⟨6,
      .unit, 0x0⟩, 0x3fc00000, some .f32, none, false⟩) ∧
    decodes 0x3800648 0x10000018 0x2000 0x453F00 (.vmulw ⟨⟨0x0, false, false, none, 0x0, 0x0⟩, ⟨4, .unit, 0x0⟩, ⟨6,
      .unit, 0x0⟩, ⟨8, .unit, 0x0⟩, some .f32, some .bf16, none, false⟩) := by decide +kernel

theorem test_decode_moves :
    decodes 0x3800800 0x10000018 0 0x391F00 (.vcvt ⟨⟨0x0, false, false, none, 0x0, 0x0⟩, ⟨4, .unit, 0x0⟩, ⟨6, .unit,
      0x0⟩, some .e4m3, some .f32, none, false⟩) ∧
    decodes 0x3800804 0x10000018 0 0x2D1F08 (.vbq true ⟨⟨0x0, false, false, none, 0x0, 0x0⟩, ⟨4, .unit, 0x0⟩, ⟨6,
      .unit, 0x0⟩, some .e2m1, some .f32, none, false⟩) ∧
    decodes 0x3800824 0x1000001B 0 0x440F00 (.vgath ⟨⟨0x0, false, false, none, 0x0, 0x0⟩, ⟨4, .unit, 0x0⟩, ⟨6,
      .indexed, 0x0⟩, some .f32, none, false⟩) ∧
    decodes 0x3800830 0x20900000 0 0 (.vxform ⟨⟨0x0, false, false⟩, 8, 9⟩) ∧
    decodes 0x3800834 0x20900000 0 0x1 (.vxpos ⟨⟨0x0, false, false⟩, 8, 9, 0x1⟩) := by decide +kernel

theorem test_decode_masks :
    decodes 0x3800A00 0x210 0x1800 0x440F10 (.vcmp .lt ⟨⟨0x0, false, false, none, 0x0, 0x0⟩, 2, ⟨4, .unit, 0x0⟩, ⟨6,
      .unit, 0x0⟩, some .f32, none, none⟩) ∧
    decodes 0x3800A04 0x312F0000 0 0 (.mand ⟨⟨0x0, false, false⟩, 3, 1, 2, none⟩) ∧
    decodes 0x3800A24 0x10F1240 0 0 (.mpop true ⟨⟨0x0, false, false⟩, 9, 1, none⟩) ∧
    decodes 0x3800A34 0x20000010 0 0x440F00 (.vscan false ⟨⟨0x0, false, false, none, 0x0, 0x0⟩, ⟨8, .unit, 0x0⟩, ⟨4,
      .unit, 0x0⟩, some .f32, none, false⟩) ∧
    decodes 0x3808A30 0x28000020 0 0x440F00 (.vred .add ⟨⟨0x0, false, false, none, 0x1, 0x0⟩, 10, ⟨8, .unit, 0x0⟩,
      some .f32, none⟩) ∧
    decodes 0x3800A38 0x24400000 0 0 (.own ⟨false, 9, 4⟩) ∧
    decodes 0x3800A3C 0x110 0x1800 0x440F00 (.vloc ⟨⟨0x0, false, false, none, 0x0, 0x0⟩, 1, ⟨4, .unit, 0x0⟩, ⟨6,
      .unit, 0x0⟩, some .f32, none, none⟩) := by decide +kernel

theorem test_decode_frames :
    decodes 0x3800C00 0x10518702 0 0x11 (.calloc ⟨false, 4, some 5, 6, 7, false, none, some .f32⟩) ∧
    decodes 0x3800C00 0x10018701 0 0x4B (.calloc ⟨false, 4, none, 6, 7, true, some .mx32, some .e2m1⟩) ∧
    decodes 0x3800C08 0x20900A01 0 0 (.crenew true ⟨false, 8, 9, 10⟩) ∧
    decodes 0x3800C10 0x30000D00 0 0 (.clook ⟨false, 12, 13⟩) ∧
    decodes 0x3800C20 0x10000500 0 0 (.vbret ⟨false, 4, 5⟩) := by decide +kernel

theorem test_decode_sync :
    decodes 0x3800C24 0x1061C500 0 0 (.bind ⟨false, 4, 6, 7, 5⟩) ∧
    decodes 0x3800C2C 0x10000501 0 0 (.acq true ⟨false, 4, 5⟩) ∧
    decodes 0x3800C34 0x10600501 0 0 (.binit true ⟨false, 4, 6, 5⟩) ∧
    decodes 0x3800C38 0x10000501 0 0 (.arrive .run ⟨false, 4, 5⟩) ∧
    decodes 0x3800C3C 0x10600501 0 0 (.awaitGe ⟨false, 4, 6, 5⟩) ∧
    decodes 0x3800C40 0x30000 0 0 (.fence false .dev) ∧
    decodes 0x3800C4C 0 0 0 (.bar false) := by decide +kernel

theorem test_decode_atomics :
    decodes 0x3800C50 0x2441401C 0 0 (.aadd ⟨false, 9, 4, 5, .i64⟩) ∧
    decodes 0x3800C6C 0x2441461C 0 0 (.acas ⟨false, 9, 4, 5, 6, .i64⟩) ∧
    decodes 0x3800C70 0x20000013 0x1800 0x140F00 (.vaadd ⟨⟨0x0, false, false, none, 0x0, 0x0⟩, ⟨8, .unit, 0x0⟩, ⟨4,
      .indexed, 0x0⟩, ⟨6, .unit, 0x0⟩, some .i32, none, none, false⟩) := by decide +kernel

theorem test_decode_trellis :
    decodes 0x3800E00 0x10000500 0 0 (.tatt ⟨false, 4, 5⟩) ∧
    decodes 0x3800E08 0x600 0 0 (.tclaim ⟨false, 6⟩) ∧
    decodes 0x3800E10 0x18824000 0 0 (.tlda ⟨false, 6, 8, 9⟩) ∧
    decodes 0x3800E18 0 0 0xFFFFFFF8 (.tzero ⟨false, some (false, 0xfffffff8)⟩) ∧
    decodes 0x3800E18 0x3 0 0 (.tzero ⟨false, none⟩) ∧
    decodes 0x3800E1C 0x18728000 0 0 (.tstep ⟨false, 6, 7, 10⟩) ∧
    decodes 0x3800E20 0x30000D00 0 0 (.tdrain ⟨false, 12, 0, 0, 13⟩) ∧
    decodes 0x3800E24 0x50000000 0 0 (.tsave ⟨false, 20⟩) ∧
    decodes 0x3800E2C 0xE00 0 0 (.tstat ⟨false, 14⟩) := by decide +kernel

theorem test_decode_runner :
    decodes 0x3800E30 0x10518709 0 0x7FF800 (.rcopy ⟨false, 4, 5, 6, 7, .sum, false, true, 0x0, 0x7ff800⟩) ∧
    decodes 0x3800E38 0x20928B21 0 0 (.rgath ⟨⟨false, 8, 9, 10, 11, .sum, false, false, 0x0, 0x0⟩, 2⟩) ∧
    decodes 0x3800E40 0x10500600 0 0 (.rpark ⟨false, 4, 5, 6⟩) ∧
    decodes 0x3800E48 0xC00 0 0 (.rqwait ⟨false, 12⟩) := by decide +kernel

theorem test_decode_pages :
    decodes 0x3800E4C 0x50000001 0 0 (.recf false (some 20)) ∧
    decodes 0x3800E50 0x10500600 0 0 (.garm ⟨false, 4, 5, 6⟩) ∧
    decodes 0x3800E54 0x10000600 0 0 (.grel ⟨false, 4, 6⟩) ∧
    decodes 0x3800E58 0x10500600 0 0 (.pswap ⟨false, 4, 5, 6⟩) ∧
    decodes 0x3800E5C 0x1C000801 0 0 (.pswq true ⟨false, 7, 8⟩) ∧
    decodes 0x3800E60 0x24A00002 0 0 (.tlbi false (.page 9 10)) := by decide +kernel

/-! ### Small states -/

def ctxA : Ctx :=
  { id := 1, ptRoot := 0, groups := some 0 :: some 1 :: List.replicate 14 none, frames := [], leaving := [], bindings := [],
    shadows := [], fn := 0, killed := false }

/-- A user stream of context 1 on Bandstand 0 with the span of bed 0, at word 0x100: pages of 512 MiB for data and code at 0, of
sync objects at 2^29, and a page of graph nodes at 2^30. Bandstand 1 is free, and the supervisor stream stands on 63. -/
def user : State :=
  { State.reset with
    phase := .up, ctxs := [ctxA], nextSid := 2,
    tlb := [⟨1, 0, 2 ^ 29, 0x7F⟩, ⟨1, 2 ^ 29, 2 ^ 29, 0xFF + 0x2000 * 2 ^ 20⟩, ⟨1, 2 ^ 30, 2 ^ 16, 0x17F + 0x4000 * 2 ^ 20⟩],
    dregs := [(State.spanTable 0, 0x10001), (State.spanTable 1, 0x10001), (State.spanTable 1 + 64, 1)],
    bands := [Band.reset 1, { Band.reset 63 with status := .run }],
    me := { Band.reset 0 with
      status := .run, sid := 1, order := 1, ctx := 1, beds := [0], pc := 0x100, tvec := 0x1000,
      text := [⟨0, 2 ^ 55, (List.range 1024).map fun k => (k, 4)⟩],
      regs := ((Vector.replicate 64 (0 : Word)).set 4 7).set 5 3 } }

/-- The same stream in supervisor mode, with every feature. -/
def super : State := { user with me := { user.me with supv := true }, dregs := (controlBase + 0x10, 0x3F) :: user.dregs }

/-- A register of the moving stream holds a value. -/
def withReg (s : State) (r : Reg) (v : Word) : State := s.setReg r v

/-- The state that the instruction leaves meets p. -/
def after (i : Instr) (s : State) (p : State → Bool) : Bool :=
  match exec i s with
  | .next t => p t
  | _ => false

/-- A computation that answers a value. -/
def gives {α : Type} [DecidableEq α] (x : Except Nat α) (v : α) : Bool :=
  match x with
  | .ok w => decide (w = v)
  | .error _ => false

theorem ok_of_gives {α : Type} [DecidableEq α] {x : Except Nat α} {v : α} (h : gives x v = true) : x = .ok v := by
  unfold gives at h
  split at h
  · rw [of_decide_eq_true h]
  · cases h

theorem user_settled : user.settled = .ok user := rfl
theorem super_settled : super.settled = .ok super := rfl

/-! ### Scalar forms and control -/

/-- ScalarIntegerFormsCompute, ConstantsLoad, ScalarFloatFormsCompute, CsrReads, MaskFormsCompute and CageGivesLife rest on a stream with nothing in flight. -/
theorem wit_settled : ∃ s u : State, s.settled = .ok u := ⟨user, user, user_settled⟩

theorem test_mulh_su : after (.mulh .su ⟨false, 6, 4, 5⟩) (withReg user 4 (-1)) (fun t => t.reg 6 == -1) = true := by decide +kernel
theorem test_div_by_zero : after (.div ⟨false, 6, 4, 0⟩) user (fun t => t.reg 6 == -1) = true := by decide +kernel
theorem test_shift_64 : after (.shl ⟨false, 6, 4, 5⟩) (withReg user 5 64) (fun t => t.reg 6 == 0) = true := by decide +kernel
/-- 1.5 + 2.5 in f32. -/
theorem test_fadd : after (.fadd ⟨false, 6, 4, 5, .f32⟩) (withReg (withReg user 4 0x3FC00000) 5 0x40200000)
    (fun t => t.reg 6 == 0x40800000 && t.me.fpsr == 0) = true := by decide +kernel

/-- TransfersSetThePc: a target that may be entered, one that is misaligned, one that no page maps, and one without LAND. -/
theorem wit_TransfersSetThePc :
    user.targetCause (user.me.pc + (3 : BitVec 32).signExtend 64 * 16) = none ∧ user.targetCause 0x130 = none ∧
    user.targetCause 0x108 = some (preFault cALIGN 0x108 0 opNone) ∧ (2 ^ 32 : Word).toNat % 16 = 0 ∧
    user.fetchWord (2 ^ 32) = none ∧ user.targetCause (2 ^ 32) = some (preFault cIFETCH (2 ^ 32) 0 opNone) ∧
    user.targetCause 0x400 = some (preFault cLANDING 0x400 0 opNone) ∧ user.CanTrap ∧
    user.reg 4 ≠ user.reg 5 ∧ user.reg 6 = user.reg 7 := by decide +kernel

theorem test_branch_not_taken : after (.beq ⟨false, 4, 5, 3⟩) user (fun t => t.me.pc == 0x110) = true := by decide +kernel
theorem test_jr_links_after_read : after (.jr ⟨false, 4, 4⟩) (withReg user 4 0x200)
    (fun t => t.me.pc == 0x200 && t.reg 4 == 0x110) = true := by decide +kernel

/-- LoopCountsDown: a count of 3 goes back, a count of 1 falls through, and a bad target is a cause. -/
theorem wit_LoopCountsDown :
    user.reg 5 - 1 ≠ 0 ∧ user.targetCause (user.me.pc + (-1 : BitVec 32).signExtend 64 * 16) = none ∧
    (withReg user 5 1).reg 5 - 1 = 0 ∧
    user.targetCause (user.me.pc + (0x30 : BitVec 32).signExtend 64 * 16) = some (preFault cLANDING 0x400 0 opNone) ∧
    user.CanTrap := by decide +kernel
theorem test_loop : after (.loop ⟨true, 5, -1⟩) user (fun t => t.reg 5 == 2 && t.me.pc == 0xF0) = true := by decide +kernel

/-- The word of `ADDI s5,s0,96` and that of `VADD.f32` in the text, for a prefix at 0x100. -/
def prefixed : State :=
  { user with me := { user.me with
    text := [⟨0, 2 ^ 55, State.cellsOf 0x110 (bytesLE 16 (0x03800600 * 2 ^ 96 + 0x10000018 * 2 ^ 64 + 0x2000 * 2 ^ 32 + 0x440F00))⟩] } }

/-- StripsOpenAndWaitsStand: a prefix before `VADD`, a time that has come and one that has not, children that live and none. -/
theorem wit_StripsOpenAndWaitsStand :
    (∃ w i, prefixed.fetchWord (prefixed.me.pc + 16).toNat = some w ∧ w.getLsbD 122 = false ∧ acceptsPrefix w = true ∧
      decode w = .ok i) ∧
    (user.reg 6).toInt ≤ (user.now : Int) ∧ (user.now : Int) < (user.reg 4).toInt ∧ user.me.children = [] ∧
    (let s : State := { user with me := { user.me with children := [(0, 1)] } }
     (0, 1) ∈ s.me.children ∧ s.live 1 = true ∧ (s.reg 5).getLsbD 0 = true ∧ (s.reg 6).getLsbD 0 = false) := by
  refine ⟨⟨_, _, rfl, ?_, ?_, rfl⟩, ?_⟩ <;> decide +kernel
theorem test_setvl : after (.setvl ⟨false, 6, 4⟩) (withReg user 4 (2 ^ 21)) (fun t => t.me.vl == 2 ^ 20 && t.reg 6 == 2 ^ 20) = true := by
  decide +kernel

/-- HandlersEnterAndReturn: a stream with a handler; one without, of a context and of the supervisor; one in its handler. -/
theorem wit_HandlersEnterAndReturn :
    user.CanTrap ∧ (let s : State := { user with me := { user.me with tvec := 0 } }; ¬s.CanTrap ∧ s.me.supv = false) ∧
    (let s : State := { super with me := { super.me with tvec := 0 } }; ¬s.CanTrap ∧ s.me.supv = true) ∧
    user.me.inh = false ∧ (let s : State := { user with me := { user.me with inh := true } }; s.me.inh = true ∧ s.me.stops = []) := by
  decide +kernel
theorem test_trap : after (.trap false 5) user
    (fun t => t.me.pc == 0x1000 && t.me.epc == 0x110 && t.me.ecause == 0x2030 && t.me.einfo == 5 && t.me.inh) = true := by
  decide +kernel

/-- CsrReads: a job is in flight, and none. -/
theorem wit_CsrReads : user.me.jobs = [] ∧ user.me.seq = 1 := by decide +kernel

/-- CsrWrites: rounding codes that may and may not be written, an object for `NTFA` and none, a number that no CSR has, one that
only the supervisor writes, in both modes, and `FEATA` before its write and after it. -/
theorem wit_CsrWrites :
    RMode.rdn.code = (withReg user 4 3).reg 4 % 8 ∧ RMode.sr.code = (withReg user 4 5).reg 4 % 8 ∧ user.featSround = false ∧
    super.featSround = true ∧
    (withReg user 4 (2 ^ 29)).ntfaOk ((withReg user 4 (2 ^ 29)).reg 4 &&& ~~~63).toNat = true ∧
    (withReg user 4 64).ntfaOk ((withReg user 4 64).reg 4 &&& ~~~63).toNat = false ∧ user.CanTrap ∧
    (0x007 : BitVec 16) ∉ State.csrNumbers ∧ (0x000 : BitVec 16) ∉ State.csrUser ∧ (0x000 : BitVec 16) ∉ State.csrSuper ∧
    (0x102 : BitVec 16) ∈ State.csrSuper ∧ user.me.supv = false ∧ super.me.supv = true ∧ super.featWritten = false ∧
    ({ super with featWritten := true } : State).featWritten = true := by decide +kernel

/-- PrivilegedFormsTrapInUserMode: user mode, with the swap feature and without it. -/
theorem wit_PrivilegedFormsTrapInUserMode :
    user.CanTrap ∧ user.me.supv = false ∧
    (let s : State := { super with me := user.me }; s.featSwap = true ∧ s.CanTrap ∧ s.me.supv = false) := by decide +kernel

/-! ### Scalar memory -/

/-- A frame of 1 KiB on plot 0 in slot 0. -/
def frameA : Frame :=
  ⟨0, false, false, false, true, none, none, 0, 0, 0, 0, false, 1024, 100000, 0, false⟩

def withCtx (s : State) (f : Ctx → Ctx) : State := { s with ctxs := s.ctxs.map f }

/-- `user` with a frame in its near memory, and with that frame withdrawn. -/
def framed (f : Frame) : State := withCtx user fun c => { c with frames := [f] }
def nearUser : State := framed frameA
def gone : State := framed { frameA with wd := true }

/-- `user` with a region bound to an object that it does not hold. -/
def bound : State := withCtx user fun c => { c with bindings := [⟨2 ^ 29, 0x2000, 64⟩] }

def near0 : Word := 0x007FFF0000000000
def farW (k : Nat) : Where := ⟨k, none, none, false, 0, false, false, false⟩
def nearW : Where := ⟨2 ^ 48, none, none, true, 0, false, false, false⟩
def keys4 (k : Nat) : List Nat := [k, k + 1, k + 2, k + 3]

/-- ScalarAccessesAreChecked: an address that is not aligned, one that no page maps, one that may be read, a bound one that is not held, and a
near one of a withdrawn frame. -/
theorem wit_ScalarAccessesAreChecked :
    0x2002 % 4 ≠ 0 ∧ (user.translate .read false (2 ^ 32) matches .error 7) ∧
    gives (user.translate .read false 0x2000) (farW 0x2000) = true ∧ bound.heldOk 0x2000 4 = false ∧ user.heldOk 0x2000 4 = true ∧
    (user.scalarPlace .read .i32 ((withReg user 4 0x2002).reg 4 + (0 : BitVec 32).signExtend 64).toNat matches .error 6) ∧
    (user.scalarPlace .write .i32 0x2002 matches .error 6) ∧ user.CanTrap ∧
    gives (gone.scalarPlace .read .i32 near0.toNat) (nearW, keys4 (2 ^ 48)) = true ∧
    gives (gone.scalarPlace .write .i32 near0.toNat) (nearW, keys4 (2 ^ 48)) = true ∧
    gone.myFrame 0 = some { frameA with wd := true } ∧
    gone.nearCause { frameA with wd := true } (plotOf (2 ^ 48)) (localOf (2 ^ 48)) = some cWITHDRAWN := by decide +kernel

/-- `user` in a turn that lets the scalar data cache answer, which holds 7 at 0x2000. -/
def cached : State := { withReg user 4 0x2000 with fills := true, dcache := [⟨user.me.id, 0x2000, [7, 0, 0, 0]⟩] }

/-- LoadsAndStores: a far word and a near one, and a word that the scalar data cache holds. -/
theorem wit_LoadsAndStores :
    gives (cached.scalarPlace .read .i32 0x2000) (farW 0x2000, keys4 0x2000) = true ∧
    cached.lineOf (farW 0x2000) (keys4 0x2000) = some 7 ∧ user.lineOf (farW 0x2000) (keys4 0x2000) = none ∧
    gives (user.scalarPlace .read .i32 0x2000) (farW 0x2000, keys4 0x2000) = true ∧
    ((user.fillTlb 0x2000).readThrough .read (keys4 0x2000)).scalarReadBad .read (farW 0x2000) (keys4 0x2000) 0x2000 = none ∧
    gives (nearUser.scalarPlace .write .i32 near0.toNat) (nearW, keys4 (2 ^ 48)) = true ∧
    (nearUser.fillTlb near0.toNat).scalarWriteBad nearW (keys4 (2 ^ 48)) near0.toNat = none ∧ user.hbmErr = [] := by decide +kernel
theorem test_ld_cached : after (.ld ⟨false, 6, 4, .i32, 0⟩) cached (fun t => t.reg 6 == 7 && t.byteAt 0x2000 == 0) = true ∧
    after (.ld ⟨false, 6, 4, .i32, 0⟩) { cached with fills := false } (fun t => t.reg 6 == 0 && t.dcache == []) = true := by
  decide +kernel
theorem test_ld_signed : after (.ld ⟨false, 6, 4, .i8, 0⟩) (withReg (user.putMem [(0x2000, 0x80)] |>.setCode 0x20 0) 4 0x2000)
    (fun t => t.reg 6 == -128) = true := by decide +kernel
theorem test_st : after (.st ⟨false, 5, 4, .n16, 0⟩) (withReg (withReg user 4 0x2000) 5 0xABCD)
    (fun t => t.seen 0x2000 == 0xCD && t.seen 0x2001 == 0xAB && t.byteAt 0x2000 == 0) = true := by decide +kernel

/-- ScalarCacheIsOrdered: far bytes that nothing buffers, and the form of a stored line. The objects of its last clause are
those of HoldsAreTakenAndReleased and of BarriersCountArrivals. -/
theorem wit_ScalarCacheIsOrdered :
    keys4 0x2000 ≠ [] ∧ (∀ k ∈ keys4 0x2000, cached.buffered k = none) ∧ (farW 0x2000).near = false ∧ cached.fills = true ∧
    nearW.near = true ∧ user.fills = false ∧
    (cached.writeCells [(0x2003, 1)] false).dcache = [] ∧ (cached.writeCells [(0x2004, 1)] false).dcache = cached.dcache := by
  decide +kernel

/-- StoresReachMemory: a near store in an open strip, a far store that is buffered, and one in a sealed strip. -/
theorem wit_StoresReachMemory :
    user.MemOk ∧ user.PairsOk ∧ nearW.near = true ∧ (farW 0x2000).near = false ∧
    (let cells : List (Nat × Byte) := [(2 ^ 48, 5), (2 ^ 48 + 1, 6)]
     cells ≠ [] ∧ (cells.map Prod.fst).Nodup ∧ ∀ c ∈ cells, isNear c.1 = true ∧ c.1 / 64 = 2 ^ 42) ∧
    (user.me.strip.journal.filter fun e => plotOf (e.1 * 64) == plotOf (2 ^ 42 * 64)).length < 448 ∧
    user.me.strip.sealed = false ∧
    (let cells : List (Nat × Byte) := [(0x2000, 5)]
     (cells.map Prod.fst).Nodup ∧ (∀ c ∈ cells, isRemote c.1 = false ∧ isNear c.1 = false) ∧
     (user.me.strip.farAt.filter fun x => x.1 == farOwner user.me.beds 0x2000).length + cells.length ≤ 256) ∧
    (let s := user.sealStrip
     s.MemOk ∧ s.PairsOk ∧ s.me.strip.sealed = true ∧ s.me.strip.far = [] ∧ s.me.wpkts = [] ∧ s.holdBack = false) := by
  decide +kernel

/-- ScalarAtomics: a far word of an ordinary page. -/
theorem wit_ScalarAtomics :
    gives (user.scalarPlace .atomic .i64 0x2000) (farW 0x2000, (List.range 8).map fun o => 0x2000 + o) = true ∧
    (let r := (user.fillTlb 0x2000).sealStrip.performed.readThrough .atomic ((List.range 8).map fun o => 0x2000 + o)
     r.scalarReadBad .atomic (farW 0x2000) ((List.range 8).map fun o => 0x2000 + o) 0x2000 = none ∧ r.MemOk ∧ r.PairsOk ∧
     r.me.strip.far = [] ∧ r.graphOwner (0x2000 / 65536) = none) ∧
    ∀ k ∈ (List.range 8).map fun o => 0x2000 + o, isNear k = false := by decide +kernel
theorem test_aadd : after (.aadd ⟨false, 6, 4, 5, .i64⟩) (withReg user 4 0x2000)
    (fun t => t.reg 6 == 0 && t.readNat 0x2000 8 == 3 && t.me.strip.sealed) = true := by decide +kernel

/-! ### Streams of one context -/

/-- ForksStartChildren: group 1 is free, group 0 is held, group 2 is empty; no child number, no Bandstand, a bad entry word. -/
theorem wit_ForksStartChildren :
    user.targetCause (user.me.pc + (4 : BitVec 32).signExtend 64 * 16) = none ∧
    user.targetCause (user.me.pc + (0x30 : BitVec 32).signExtend 64 * 16) ≠ none ∧ user.CanTrap ∧
    (let v := user.sealStrip.performed
     v.groupSpan 1 1 = some 1 ∧ v.spanHeld 1 1 none = false ∧ v.childNumber = some 0 ∧ v.freeStand = some 1 ∧ (1 : Fin 64) ≠ user.me.id ∧
     v.groupSpan 1 2 = none ∧ v.groupSpan 1 0 = some 0 ∧ v.spanHeld 1 0 none = true) ∧
    (let s : State := { user with bands := [{ Band.reset 1 with status := .run, sid := 5 }] }
     s.freeStand = none ∧ s.childNumber = some 0 ∧
     ({ s with me := { s.me with children := (List.range 64).map fun n => (n, 5) } } : State).childNumber = none) := by
  decide +kernel
theorem test_fork : after (.fork ⟨false, 4, 5, 6, 4⟩) (withReg user 4 1)
    (fun t => t.reg 6 == 0 && t.bands.any fun b => b.id == 1 && b.pc == 0x140 && b.reg 1 == 3 && b.status == .run) = true := by
  decide +kernel

/-- A copy of a program node in queue 3, running as the stream of `user`. -/
def nodeA : NodeCopy := ⟨2 ^ 30, 2 ^ 30, 1, 0, 3, 0, 0x100, 0, 0, 0, 0, 0, 2, 1, 1⟩
def onNode : State :=
  { user with nodes := [⟨nodeA, 0, 1, 1⟩], me := { user.me with node := some ⟨true, 2 ^ 30, 2 ^ 30, 3, 2, 1⟩ } }

/-- SpansMoveAndStreamsEnd: a span to move to, one that is held; a ready node to yield to and a save area; a node's stream and a child. -/
theorem wit_SpansMoveAndStreamsEnd :
    user.groupSpan 1 1 = some 1 ∧ user.spanHeld 1 1 (some 1) = false ∧ user.groupSpan 1 2 = none ∧
    (let s : State := { user with bands := [{ Band.reset 1 with status := .run, sid := 5, ctx := 1, spane := 1 }] }
     s.spanHeld 1 1 (some 1) = true ∧
     ({ s with me := { s.me with children := [(0, 5)] } } : State).performed.drained.commitStrip.performed.liveChildren ≠ []) ∧
    user.yieldsTo = false ∧
    (let s : State := { onNode with ready := [{ nodeA with pa := 2 ^ 30 + 64 }], dregs := (arbourBase + 0x3000, 0x100000) :: user.dregs }
     s.yieldsTo = true ∧ s.spsave 0 ≠ 0 ∧ s.me.pending = none ∧ s.me.jobs = []) ∧
    (let w := onNode.performed.drained.commitStrip.performed
     w.liveChildren = [] ∧ w.nodes.find? (fun n => n.sid == w.me.sid) = some ⟨nodeA, 0, 1, 1⟩) ∧
    (let w := user.performed.drained.commitStrip.performed
     w.liveChildren = [] ∧ w.nodes.find? (fun n => n.sid == w.me.sid) = none) := by decide +kernel
theorem test_exit : after (.exit false) onNode (fun t => t.completing == [(nodeA, 4, 0)] && t.me.status == .dead) = true := by
  decide +kernel

/-! ### Broadcast instructions -/

/-- `user` with `VL` = 2 and operands at 0x2000 and 0x3000. -/
def vec : State :=
  let s := withReg (withReg user 4 0x2000) 6 0x3000
  { s with me := { s.me with vl := 2 } }

def isOkAnd {ε α : Type} (x : Except ε α) (p : α → Bool) : Bool :=
  match x with
  | .ok v => p v
  | .error _ => false

/-- A word of a stream with nothing in flight: its plan is found, and in its own step it finishes. -/
def vectorRuns (i : Instr) (s : State) : Bool :=
  match descOf i with
  | none => false
  | some d =>
    let bits := s.guardBitsOf d.g
    let v := s.readIndexes d bits
    s.mustSettle d && s.me.jobs.isEmpty && isOkAnd (v.planV d bits) fun p => isOkAnd ((v.fillPlan p).begin_ p).settled fun _ => true

/-- BroadcastWordsRun: `VADD`, `VMOV`, `VADD` with an immediate, `VCVT`, `VIOTA`, `VCMP` and `VRED` on two elements. -/
theorem wit_BroadcastWordsRun :
    vectorRuns (.vadd (v3 (some .i32) none)) vec = true ∧ vectorRuns (.vmov (v2 (some .i32))) vec = true ∧
    vectorRuns (.vaddImm ⟨hdr, op4, op6, 5, some .i32, none, false⟩) vec = true ∧
    vectorRuns (.vcvt (v2x (some .f32) (some .i32))) vec = true ∧ vectorRuns (.viota ⟨hdr, op4, some .i32, none, false⟩) vec = true ∧
    vectorRuns (.vcmp .lt ⟨hdr, 2, op4, op6, some .i32, none, none⟩) vec = true ∧
    vectorRuns (.vred .add ⟨hdr, 9, op4, some .i32, none⟩) vec = true ∧ vec.holdBack = false ∧
    ({ vec with holdBack := true } : State).holdBack = true := by decide +kernel
theorem test_vadd_imm : after (.vaddImm ⟨hdr, op4, op6, 5, some .i32, none, false⟩) vec
    (fun t => t.seen 0x2000 == 5 && t.seen 0x2004 == 5 && t.seen 0x2008 == 0) = true := by decide +kernel
theorem test_vred : after (.vred .add ⟨hdr, 9, op6, some .i32, none⟩) (vec.putMem [(0x3000, 1), (0x3004, 2)] |>.setCode 0x30 0)
    (fun t => t.reg 9 == 3) = true := by decide +kernel

/-- ReductionsGiveTheirValue: a `min` with `VL` = 0 and no type, and integers of 32 bits. -/
theorem wit_ReductionsGiveTheirValue :
    let d := descVred .min ⟨hdr, 9, op4, none, none⟩
    user.holdBack = false ∧ d.op = .red .min ∧ d.sd.isSome = true ∧ d.ty1 = none ∧ user.me.vl = 0 ∧ user.myCtx = some ctxA ∧
    ctxA.frames = [] ∧ Ty.i32.isInt = true ∧ ∀ e ∈ [(⟨0, 0, 0, (5, 0)⟩ : State.RedElem)], e.pat.1 < 2 ^ 32 := by decide +kernel

/-- ElementResults: an element of an `i32` sum in a near group of plot 0. -/
theorem wit_ElementResults :
    let l : Loc := ⟨keys4 (2 ^ 48), 0, near0.toNat, 0, true, 0, none⟩
    let g : List Elem := [⟨0, 0, 0, 2 ^ 42, some l, none, none, [], none⟩]
    user.MemOk ∧ user.pairs = [] ∧ g ≠ [] ∧ VOp.add ≠ .loc ∧ State.isAtomicOp .add = false ∧
    (∀ e ∈ g, ∃ l ∈ e.d, l.bit = 0 ∧ l.keys ≠ [] ∧ 8 * l.keys.length = Ty.i32.width ∧
      ∀ k ∈ l.keys, isNear k = true ∧ k / 64 = 2 ^ 42) ∧
    (g.flatMap fun e => (e.d.map Loc.keys).getD []).Nodup ∧ user.me.strip.journal = [] := by decide +kernel

/-- BroadcastFrames: a plan that seals nothing, and one performed in an open strip and in a sealed one. -/
theorem wit_BroadcastFrames :
    let d := descOf (.vadd (v3 (some .i32) none))
    (d.map fun d => isOkAnd (vec.planV d (vec.guardBitsOf d.g)) fun p =>
      !p.seals && (p.elems.all fun e => (e.d.map Loc.keys).getD [] |>.all fun k => !isRemote k) && !State.isAtomicOp p.op &&
      isOkAnd (vec.begin_ p).settled fun t => !t.me.strip.sealed) = some true ∧
    vec.me.jobs = [] ∧ vec.MemOk ∧ vec.pairs = [] ∧ vec.hbmErr = [] ∧ vec.gcode = [] ∧ vec.sealStrip.me.strip.sealed = true ∧
    vec.sealStrip.me.strip.far = [] ∧ vec.sealStrip.me.wpkts = [] := by decide +kernel

/-- A mask whose first n bits all have their home on plot 0. -/
def crowded (n : Nat) : MaskV := ⟨0, (List.range n).map fun i => (i, 0)⟩

theorem crowded_home (beds : List Nat) (n i : Nat) (h : i < n) : (crowded n).home beds i = 0 := by
  have : assoc (crowded n).homes i = some 0 := by
    unfold assoc crowded
    rw [List.find?_map]
    have : ∃ x, List.find? ((fun p : Nat × Nat => p.1 == i) ∘ fun i => (i, 0)) (List.range n) = some x := by
      rw [← Option.isSome_iff_exists, List.find?_isSome]
      exact ⟨i, List.mem_range.mpr h, by simp⟩
    obtain ⟨x, hx⟩ := this
    rw [hx]; rfl
  unfold MaskV.home
  rw [this]; rfl

/-- The bit after n ≤ 4,096 of a plot is the one too many once n is 4,096 (R211). -/
theorem crowded_cap (n : Nat) : n ≤ 4096 →
    maskCapAt ((List.range (n + 1)).map fun i => (i, 0)) = if n = 4096 then some n else none := by
  unfold maskCapAt
  generalize hf : (fun (r : Option Nat × List (Nat × Nat)) (h : Nat × Nat) =>
    match r with
    | (some i, c) => (some i, c)
    | (none, c) =>
      let n := (assoc c h.2).getD 0 + 1
      (if n > 4096 then some h.1 else none, assocSet c h.2 n)) = f
  have step : ∀ n c, (n = 0 ∧ c = [] ∨ c = [(0, n)]) → f (none, c) (n, 0) =
      (if n + 1 > 4096 then some n else none, [(0, n + 1)]) := by
    intro n c hc
    rw [← hf]
    rcases hc with ⟨rfl, rfl⟩ | rfl
    · rfl
    · simp [assoc, assocSet]
  have fold : ∀ n, n < 4096 → ((List.range (n + 1)).map fun i => (i, 0)).foldl f (none, []) = (none, [(0, n + 1)]) := by
    intro n
    induction n with
    | zero => intro _; exact step 0 [] (.inl ⟨rfl, rfl⟩)
    | succ n ih =>
      intro h
      rw [List.range_succ, List.map_append, List.foldl_append, ih (by omega)]
      refine (step (n + 1) _ (.inr rfl)).trans ?_
      rw [if_neg (by omega)]
  intro hn
  by_cases h : n = 4096
  · rw [if_pos h]
    have h' : n = (n - 1) + 1 := by omega
    rw [List.range_succ, List.map_append, List.foldl_append]
    have := fold (n - 1) (by omega)
    rw [← h'] at this
    rw [this]
    simp only [List.map_cons, List.map_nil, List.foldl_cons, List.foldl_nil]
    rw [step n _ (.inr rfl), if_pos (by omega)]
  · rw [if_neg h, fold n (by omega)]

/-- MaskFormsCompute: room for the bits of 2 elements (and none for the 4,097th bit of `crowded`), a mask with a set bit and one without. -/
theorem wit_MaskFormsCompute :
    maskCapAt ((List.range vec.me.vl).map fun i => (i, (vec.me.masks[0]).home vec.me.beds i)) = none ∧
    (let s : State := { vec with me := { vec.me with masks := vec.me.masks.set 1 ⟨2, []⟩ } }
     (s.me.masks[1]).bit 1 = true ∧ (s.me.masks[1]).bit 0 = false ∧ 1 < s.me.vl ∧ (s.me.masks[2]).bit 1 = false) := by decide +kernel
theorem test_mand : after (.mand ⟨⟨0, false, false⟩, 3, 1, 2, none⟩)
    ({ vec with me := { vec.me with masks := (vec.me.masks.set 1 ⟨3, []⟩).set 2 ⟨6, []⟩ } } : State)
    (fun t => (t.me.masks[3]).bit 1 && !(t.me.masks[3]).bit 0 && !(t.me.masks[3]).bit 2) = true := by decide +kernel
theorem test_mpop : after (.mpop true ⟨⟨0, false, false⟩, 9, 1, none⟩)
    ({ vec with me := { vec.me with masks := vec.me.masks.set 1 ⟨5, []⟩ } } : State)
    (fun t => t.reg 9 == 1 && t.me.vl == 1) = true := by decide +kernel

/-! ### Visibility -/

/-- The state in which a form on the object at o, which s(a) names, takes effect. -/
def objV (s : State) (a : Reg) (o : Nat) : State :=
  ((s.fillTlb (s.reg a).toNat).readThrough .atomic ((List.range 64).map fun k => o + k)).sealStrip.performed

def objOk (s : State) (a : Reg) (bad : Nat → Bool) (o : Nat) : Bool :=
  let keys := (List.range 64).map fun k => o + k
  let r := (s.fillTlb (s.reg a).toNat).readThrough .atomic keys
  let v := objV s a o
  (match s.objPlace (s.reg a).toNat with
    | .ok w => w.key == o
    | .error _ => false) &&
  !isNear o && (r.badDatum .atomic keys).isNone && !bad (r.oKind o) && decide v.MemOk && decide v.PairsOk

theorem objectAt_of {s : State} {a : Reg} {bad : Nat → Bool} {o : Nat} (h : objOk s a bad o = true) :
    s.ObjectAt a bad o (objV s a o) := by
  simp only [objOk, Bool.and_eq_true, Bool.not_eq_true', Option.isNone_iff_eq_none, decide_eq_true_eq] at h
  obtain ⟨⟨⟨⟨⟨h1, h2⟩, h3⟩, h4⟩, h5⟩, h6⟩ := h
  split at h1
  · next w hw => exact ⟨w, hw, by simpa using h1, h2, h3, h4, rfl, h5, h6⟩
  · cases h1

/-- `user` with s4 naming the object at 2^29, and its bytes set. -/
def objU : State := withReg user 4 (2 ^ 29)
def setObj (s : State) (off n v : Nat) : State := s.writeNat (2 ^ 29 + off) n v
def holding (s : State) (l : List Hold) : State := { s with me := { s.me with holds := l } }
def O : Nat := 2 ^ 29

/-- ObjectsAreCheckedAndBound: the checks, and each answer of `BIND` and `UNBIND`. -/
theorem wit_ObjectsAreCheckedAndBound :
    8 % 64 ≠ 0 ∧ (user.translate .atomic true (2 ^ 32) matches .error 7) ∧ (user.objPlace 8 matches .error 6) ∧
    (user.objPlace 64 matches .error 13) ∧ user.CanTrap ∧
    (∃ w, user.translate .atomic true (2 ^ 29) = .ok w ∧ w.sync = true) ∧
    objOk objU 4 isBarrier O = true ∧ (objV objU 4 O).holdsX O = false ∧ (objV objU 4 O).myCtx = some ctxA ∧
    (let s := holding objU [⟨O, false⟩]
     objOk s 4 isBarrier O = true ∧ (objV s 4 O).holdsX O = true ∧ (objV s 4 O).meetsSpecialPage ctxA 0x2000 64 = false ∧
     (objV s 4 O).meetsSpecialPage ctxA (2 ^ 29) 64 = true) ∧
    (let c : Ctx := { ctxA with bindings := [⟨O, 0x2000, 64⟩] }
     let s := withCtx (holding objU [⟨O, false⟩]) fun _ => c
     objOk s 4 isBarrier O = true ∧ (objV s 4 O).myCtx = some c ∧ ∃ b ∈ c.bindings, b.key = O ∧ b.base = 0x2000) ∧
    1024 ≤ ({ ctxA with bindings := List.replicate 1024 ⟨O, 0x2000, 64⟩ } : Ctx).bindings.length := by
  refine ⟨by decide, ?_, ?_, ?_, ?_, ⟨_, rfl, ?_⟩, ?_⟩ <;> decide +kernel
theorem test_bind : after (.bind ⟨false, 4, 5, 6, 7⟩) (withReg (withReg (holding objU [⟨O, false⟩]) 5 0x2000) 6 64)
    (fun t => t.reg 7 == 0 && t.myCtx.any fun c => c.bindings == [⟨O, 0x2000, 64⟩]) = true := by decide +kernel

/-- HoldsAreTakenAndReleased: held, full, poisoned, free and taken objects. -/
theorem wit_HoldsAreTakenAndReleased :
    objOk objU 4 isBarrier O = true ∧
    (let v := objV objU 4 O
     v.holdsOf O = none ∧ v.me.holds.length < 16 ∧ v.oPois O = false ∧ v.oXhold O = 0 ∧ v.oNsh O = 0 ∧
     v.aheadOf O (v.acqOrder O) = [] ∧ v.grantable O true (v.acqOrder O) = true) ∧
    (let s := holding objU [⟨O, true⟩]
     objOk s 4 isBarrier O = true ∧ (objV s 4 O).holdsOf O = some ⟨O, true⟩ ∧ (objV s 4 O).drained.MemOk ∧
     (objV s 4 O).drained.PairsOk) ∧
    (let s := holding objU ((List.range 16).map fun k => ⟨O + 64 + 64 * k, true⟩)
     objOk s 4 isBarrier O = true ∧ (objV s 4 O).holdsOf O = none ∧ (objV s 4 O).me.holds.length = 16) ∧
    (let s := setObj objU 1 1 1
     objOk s 4 isBarrier O = true ∧ (objV s 4 O).oPois O = true) ∧
    (let s := setObj objU 4 4 9
     objOk s 4 isBarrier O = true ∧ (objV s 4 O).oXhold O = 9) := by decide +kernel
theorem test_acq_shared : after (.acq true ⟨false, 4, 6⟩) objU
    (fun t => t.reg 6 == 0 && t.oNsh O == 1 && t.oKind O == 1 && t.me.holds == [⟨O, true⟩]) = true := by decide +kernel
theorem test_rel : after (.rel ⟨false, 4, 6⟩) (setObj (holding objU [⟨O, true⟩]) 2 2 1)
    (fun t => t.reg 6 == 0 && t.oNsh O == 0 && t.oRels O == 1 && t.me.holds == []) = true := by decide +kernel

/-- BarriersCountArrivals: every answer of `BINIT`, of an arrival, of `AWAIT` and of `AWAIT.GE`. -/
theorem wit_BarriersCountArrivals :
    objOk objU 4 isLock O = true ∧ objOk objU 4 (fun _ => false) O = true ∧
    (let v := objV objU 4 O
     v.oHave O = 0 ∧ v.oPend O = 0 ∧ v.oPois O = false ∧ v.oGen O = 0 ∧ v.oNeed O = 0 ∧ v.oProg O = 0 ∧
     v.me.trl.queue.length < 16) ∧
    ((withReg objU 5 (2 ^ 32)).reg 5).toNat = 2 ^ 32 ∧ ((withReg objU 5 1).reg 5).toNat ≠ 0 ∧
    (let s := setObj objU 32 4 1
     objOk s 4 isLock O = true ∧ (objV s 4 O).oHave O = 1) ∧
    (let s := setObj objU 28 4 1
     objOk s 4 isLock O = true ∧ ((objV s 4 O).oHave O + 1) % 2 ^ 32 = (objV s 4 O).oNeed O) ∧
    (let s := setObj objU 1 1 1
     objOk s 4 isLock O = true ∧ (objV s 4 O).oPois O = true) ∧
    (let s := setObj objU 24 4 1
     objOk s 4 isLock O = true ∧ (objV s 4 O).oGen O = 1) ∧
    (let s := setObj objU 24 4 2
     objOk s 4 isLock O = true ∧ (objV s 4 O).oGen O = 2) ∧
    (let s := setObj objU 16 8 7
     objOk s 4 (fun _ => false) O = true ∧ (objV s 4 O).oProg O = 7) := by decide +kernel
theorem test_binit : after (.binit false ⟨false, 4, 5, 6⟩) objU
    (fun t => t.reg 6 == 1 && t.oKind O == 2 && t.oGen O == 1 && t.oNeed O == 3 && t.oForced O) = true := by decide +kernel
theorem test_arrive_last : after (.arrive .stream ⟨false, 4, 6⟩) (setObj objU 28 4 1)
    (fun t => t.reg 6 == 0 && t.oGen O == 1 && t.oHave O == 0) = true := by decide +kernel

/-- Two frames that may be exchanged. -/
def twins : Ctx := { ctxA with frames := [frameA, { frameA with slot := 1, lb := 1024 }], shadows := [⟨true, 0, 1⟩] }

/-- FencesAndShadowsComplete: a region that does not exist, one that may be exchanged, and a near shadow. -/
theorem wit_FencesAndShadowsComplete :
    (let v := user.sealStrip.performed
     v.myCtx = some ctxA ∧ (v.shadowOf ctxA near0.toNat near0.toNat matches .error _) ∧ State.shadowAt ctxA near0.toNat = none) ∧
    (let c : Ctx := { twins with shadows := [] }
     let v := (withCtx user fun _ => c).sealStrip.performed
     v.myCtx = some c ∧ (v.shadowOf c near0.toNat (near0 + 2 ^ 32).toNat matches .ok _)) ∧
    (let s := withCtx user fun _ => twins
     s.sealStrip.performed.myCtx = some twins ∧ State.shadowAt twins near0.toNat = some ⟨true, 0, 1⟩ ∧
     (s.sealStrip.performed.drained.quiesce 1).myCtx = some twins ∧ twins.frame 0 = some frameA ∧
     twins.frame 1 = some { frameA with slot := 1, lb := 1024 } ∧ (twins.frames.map Frame.slot).Nodup) := by decide +kernel

/-! ### Frames -/

/-- A request of one row on the plots of bed 0: 64 stripe units of 128 bytes. -/
def allocX : CallocF := ⟨false, 4, none, 0, 6, false, none, none⟩
def allocU : State := withReg user 4 8192

/-- A frame that covers all of plot 0. -/
def full : Frame := { frameA with size := 2 ^ 18 }

theorem full_taken (s : State) (c : Ctx) (h : s.ctxs = [c]) (hf : c.frames = [full]) (b n : Nat) (hn : 0 < n) (hb : b < 2 ^ 18) :
    s.rangeFree 0 b n = false := by
  have hs : s.storedFrames.all (fun f => !s.onPlot f 0 || b + n ≤ f.lb || f.lb + s.frameShare f ≤ b) = false := by
    rw [List.all_eq_false]
    refine ⟨full, ?_, ?_⟩
    · simp [State.storedFrames, h, hf, full, frameA]
    · simp [State.onPlot, State.frameShare, State.frameCount, full, frameA]
      omega
  unfold State.rangeFree
  rw [hs]; simp

/-- AllocationGivesFrames: a request that fits at slot 0 and base 0, a bad plot set, no size, no slot, no room, and no budget. -/
theorem wit_AllocationGivesFrames :
    user.PairsOk ∧ allocU.holdBack = false ∧
    (let v := allocU.sealStrip.pruneLeaving
     let f := v.callocFrame allocX false 0 0 0 0
     v.myCtx = some ctxA ∧ v.callocSet (allocX.run.map allocU.reg) = some (false, 0, 0) ∧ (allocU.reg 4).toNat = 8192 ∧
     0 % frameUnit allocX.geom = 0 ∧ (∀ p ∈ v.framePlots f, v.rangeFree p 0 (v.frameShare f) = true) ∧
     v.keepFits (v.framePlots f) 0 (v.frameShare f) = true ∧ 0 < v.frameCount f ∧
     v.callocSet (some 0x2000) = none ∧ v.callocSet (some 0) = some (true, 0, 0)) ∧
    (∀ n < 256, ∃ g ∈ (List.range 256).map fun k => ({ frameA with slot := k } : Frame), g.slot = n) ∧
    (let x : CallocF := { allocX with keep := true, run := some 5 }
     let v := (withReg (withReg user 4 16512) 5 0).sealStrip.pruneLeaving
     let f := v.callocFrame x true 0 0 0 0
     v.freeBase (v.framePlots f) (frameUnit x.geom) (v.frameShare f) = some 0 ∧ v.keepFits (v.framePlots f) 0 (v.frameShare f) = false) ∧
    ∀ b, b < 2 ^ 18 → ∃ p ∈ [0], (framed full).rangeFree p b 128 = false := by
  refine ⟨?_, ?_, ?_, ?_, ?_, fun b hb => ⟨0, by simp, full_taken _ _ rfl rfl b 128 (by omega) hb⟩⟩ <;> decide +kernel
theorem test_calloc : after (.calloc allocX) allocU
    (fun t => t.reg 6 == 0x007FFF0000000000 && t.myCtx.any fun c => c.frames.any fun f => f.size == 8192) = true := by decide +kernel

/-- `user` with s4 naming slot 0 and a frame there. -/
def ofFrame (f : Frame) : State := withReg (framed f) 4 near0

/-- FramesAreFreedAndRenewed, CageGivesLife: no frame, and a live, a withdrawn, a parked, a late, an expired and an unpowered one. -/
theorem wit_FramesAreFreedAndRenewed :
    (withReg user 4 near0).namedFrame near0 = none ∧ user.sealStrip.namedFrame near0 = none ∧ user.CanTrap ∧
    (let s := ofFrame frameA
     s.namedFrame (s.reg 4) = some frameA ∧ s.sealStrip.namedFrame (s.reg 4) = some frameA ∧ ¬s.sealStrip.lifeLeft frameA < 4096 ∧
     s.sealStrip.frameOff frameA = false ∧ s.PairsOk ∧ s.sealStrip.keepFits (s.sealStrip.framePlots frameA) 0 1024 = true ∧
     (s.reg 5).getLsbD 0 = true ∧ (s.reg 6).getLsbD 0 = false) ∧
    (let s := ofFrame { frameA with wd := true }
     s.namedFrame (s.reg 4) = some { frameA with wd := true }) ∧
    (let s := ofFrame { frameA with park := true }
     s.namedFrame (s.reg 4) = some { frameA with park := true } ∧ s.sealStrip.frameOff { frameA with park := true } = false) ∧
    (let s := ofFrame { frameA with expiry := 4095 }
     s.namedFrame (s.reg 4) = some { frameA with expiry := 4095 } ∧ s.sealStrip.lifeLeft { frameA with expiry := 4095 } < 4096) ∧
    (let s : State := { ofFrame frameA with rails := 0 }
     s.namedFrame (s.reg 4) = some frameA ∧ s.sealStrip.frameOff frameA = true) ∧
    (let s := ofFrame { frameA with size := 2 ^ 15 }
     s.sealStrip.keepFits (s.sealStrip.framePlots { frameA with size := 2 ^ 15 }) 0 (2 ^ 15) = false) := by decide +kernel
theorem wit_CageGivesLife :
    user.namedFrame near0 = none ∧
    (let s := ofFrame frameA; s.namedFrame (s.reg 4) = some frameA ∧ s.now < frameA.expiry) ∧
    (let f := { frameA with expiry := 0 }; let s := ofFrame f; s.namedFrame (s.reg 4) = some f ∧ f.expiry ≤ s.now) ∧
    (let f := { frameA with wd := true }; let s := ofFrame f; s.namedFrame (s.reg 4) = some f) ∧
    (let f := { frameA with park := true }; let s := ofFrame f; s.namedFrame (s.reg 4) = some f ∧ f.wd = false) := by
  decide +kernel
theorem test_crenew_late : after (.crenew true ⟨false, 4, 5, 6⟩) (ofFrame { frameA with expiry := 4095 })
    (fun t => t.reg 6 == 1 && t.myCtx.any fun c => c.frames.any fun f => f.expiry == 0) = true := by decide +kernel

/-- OwnersAndTagsAnswer: addresses beyond the space, far, in no frame, in and past a frame; a tag that a frame has and none. -/
theorem wit_OwnersAndTagsAnswer :
    2 ^ 55 ≤ (2 ^ 55 : Word).toNat ∧ (0x2000 : Word).toNat / 2 ^ 40 ≠ 0x7FFF ∧ near0.toNat / 2 ^ 40 = 0x7FFF ∧
    user.myFrame 0 = none ∧ nearUser.myFrame 0 = some frameA ∧ near0.toNat % 2 ^ 32 < frameA.size ∧
    frameA.size ≤ (near0 + 1024).toNat % 2 ^ 32 ∧
    (let f := { frameA with tv := true, fartag := 7 }; let s := ofFrame f
     s.myCtx = some { ctxA with frames := [f] } ∧ ({ ctxA with frames := [f] } : Ctx).frame 0 = some f ∧
     (withReg s 5 7).reg 5 = f.fartag ∧ s.now < f.expiry) ∧ ctxA.frames = [] ∧ user.myCtx = some ctxA ∧ user.CanTrap ∧
    (ofFrame frameA).namedFrame near0 = some frameA := by decide +kernel
theorem test_own_far : after (.own ⟨false, 6, 4⟩) (withReg user 4 0x2100) (fun t => t.reg 6 == 33 + 33 * 2 ^ 32) = true := by decide +kernel

/-- LayerFormsGateAndRetire: reserved bits, a rail that stands as asked, one to switch off and one to switch on, with a frame there and none; a
section that is a hole, one with a frame, one whose retirement is pending, one whose is not. -/
theorem wit_LayerFormsGateAndRetire :
    super.me.supv = true ∧
    (let v := super.sealStrip
     v.rails.getLsbD 0 = true ∧ v.sharesIn (fun p => p / 2048 == 0) 0 65536 = false ∧ v.sharesIn (fun r => r == 0) 0 16384 = false ∧
     v.holes = [] ∧ v.retiring = []) ∧
    (withReg super 4 16).reg 4 = 16 ∧ (withReg super 4 256).reg 4 = 256 ∧
    (let v := (withCtx super fun c => { c with frames := [frameA] }).sealStrip
     v.sharesIn (fun p => p / 2048 == 0) 0 65536 = true ∧ v.sharesIn (fun r => r == 0) 0 16384 = true) ∧
    (({ super with rails := 0xFFFFFE } : State).sealStrip).rails.getLsbD 0 = false ∧
    (0 : Nat) ∈ (({ super with holes := [0] } : State).sealStrip).holes ∧
    (0 : Nat) ∈ (({ super with retiring := [0] } : State).sealStrip).retiring := by decide +kernel
theorem test_lgate_off : after (.lgate ⟨false, 4, 6⟩) (withReg super 4 256)
    (fun t => t.reg 6 == 0 && t.rails == 0xFFFFFE) = true := by decide +kernel

/-! ### Engines -/

/-- The 192 bytes of a record of a matrix of sizes m × n, of the type with code ty, at `base` (R123). -/
def matrix (base ty m n w : Nat) : List Byte :=
  bytesLE 8 base ++ bytesLE 1 2 ++ bytesLE 1 ty ++ List.replicate 22 0 ++ bytesLE 8 m ++ bytesLE 8 w ++ bytesLE 8 n ++
    bytesLE 8 (m * w) ++ List.replicate 128 0

/-- BroadcastWordsRun: a transform of two records of one `f32`, of which there are snapshots. -/
theorem wit_BroadcastWordsRun_transform :
    (let s : State := { user with me := { user.me with
       recs := [(0x5000, matrix 0x6000 17 1 1 4), (0x5100, matrix 0x7000 17 1 1 4)] } }
     let r := s.planRecords ⟨0, false, false⟩ 0x5000 0x5100 none
     isOkAnd r.2 fun p => isOkAnd ((r.1.fillPlan p).begin_ p).settled fun _ => true) = true := by decide +kernel

/-- `user` attached to 32 rows of which only the last is still to drain, with slots 0 and 1 claimed, and snapshots of a record of
an element of `f32`, far and near, for the drains and the loaders. -/
def trlU : State :=
  let s := (framed { frameA with size := 2 ^ 20, lb := 0 }).attached 32 0
  let s := s.setTrl { s.me.trl with tsr := 31 }
  let s := (s.setSlot 0 { TSlot.empty with claimed := true, next := some ⟨false, .i8, none, 0, 0⟩ }).setSlot 1
    { TSlot.empty with claimed := true, next := some ⟨true, .i8, none, 0, 0⟩ }
  { s with me := { s.me with recs := [(0x5000, matrix 0x6000 17 1 1 4), (0x5100, matrix near0.toNat 17 1 1 4)] } }

/-- A Trellis form that its probe accepts. -/
def okT (r : State × Except FaultRec TCmd) (vals : List Word) : Bool := isOkAnd r.2 fun c => decide (c.vals.toList = vals)

/-- TrellisFormsQueue: attached, nothing free, 64 rows at 0; no free slot and one; each queued form accepted; work held back. -/
theorem wit_TrellisFormsQueue :
    (user.attached 32 0).me.trl.att = true ∧ user.me.trl.att = false ∧ user.rowBase 64 = some 0 ∧
    (∀ g ∈ [32, 64, 96, 128], g ≤ min ((withReg user 4 31).reg 4).toNat 128 → user.rowBase g = none) ∧
    (∀ g ∈ [32, 64, 96, 128], 64 < g → g ≤ min ((withReg user 4 95).reg 4).toNat 128 → user.rowBase g = none) ∧
    (64 ≤ min ((withReg user 4 95).reg 4).toNat 128) ∧ user.drainToTrel.freeSlot = some 0 ∧
    (user.setTrl { user.me.trl with slots := List.replicate 16 { TSlot.empty with claimed := true } }).drainToTrel.freeSlot = none ∧
    ({ trlU with holdBack := true } : State).me.trl.queue.length < 16 ∧
    okT (trlU, .ok (trlU.tcmd (.trel ⟨false, 0⟩) 0 0 0 0)) [0, 0, 0, 0] = true ∧
    okT (trlU.planStep (.tstep ⟨false, 1, 2, 3⟩) 0 1 32) [0, 1, 32, 0] = true ∧
    okT (trlU.planDrain (.tdrain ⟨false, 1, 0, 0, 0⟩) 0x5000 0 0 0) [0x5000, 0, 0, 0] = true := by decide +kernel
theorem wit_Trellis_loadA :
    okT (trlU.planLoad (.tlda ⟨false, 1, 2, 3⟩) false 0 0x5100 1) [0, 0x5100, 1, 0] = true := by decide +kernel
theorem wit_Trellis_loadB :
    okT (trlU.planLoad (.tldb ⟨false, 1, 2, 3⟩) true 1 0x5100 1) [1, 0x5100, 1, 0] = true := by decide +kernel
theorem test_tclaim : after (.tclaim ⟨false, 6⟩) trlU (fun t => t.reg 6 == 2 && (t.tslot 2).claimed) = true := by decide +kernel
theorem test_tatt : after (.tatt ⟨false, 5, 6⟩) (withReg user 5 95)
    (fun t => t.reg 6 == 64 && t.me.trl.rows == 64) = true := by decide +kernel
/-- An image in a frame of a keep set. -/
def imgU : State :=
  withCtx trlU fun c => { c with frames := [{ frameA with run := false, size := 2 ^ 20 }] }
theorem wit_Trellis_images :
    okT (imgU.planImage (.tsave ⟨false, 4⟩) near0 true) [near0, 0, 0, 0] = true ∧
    okT (imgU.planImage (.trest ⟨false, 4⟩) near0 false) [near0, 0, 0, 0] = true := by decide +kernel

/-- A stream with room in its Runner's queue, and a frame of 256 bytes for the parking forms. -/
def runU : State := withReg (withReg (framed { frameA with size := 256 }) 4 0x3000) 6 4

def okR (r : Except FaultRec RCmd) : Bool := isOkAnd r fun _ => true
def runX (k : Reg) : RunF := { runF .none false false 0 0 with a := 4, b := 8, c := k, d := 0 }

/-- RunnerFormsQueue: `RCOPY` and `RFILL` of 4 bytes, a gather and a scatter of no element, and the parking forms of a frame of 256
bytes to 0x3000; work held back; fields of a completion word. -/
theorem wit_RunnerFormsQueue :
    okR (runU.probeRunner (State.runReq .copy (runX 6) 1 runU)) = true ∧
    okR (runU.probeRunner (State.runReq .fill (runX 6) 1 runU)) = true ∧
    okR (runU.probeRunner (State.runReq .gather (runX 0) 4 runU)) = true ∧
    okR (runU.probeRunner (State.runReq .scatter (runX 0) 4 runU)) = true ∧
    (let s := withReg (withReg runU 4 near0) 5 0x3000
     isOkAnd (State.parkReq .park ⟨false, 4, 5, 0⟩ s) (fun r => okR (s.probeRunner r)) = true ∧
     isOkAnd (State.parkReq .unpark ⟨false, 4, 5, 0⟩ s) (fun r => okR (s.probeRunner r)) = true) ∧
    ({ runU with holdBack := true } : State).settled = .ok { runU with holdBack := true } ∧ runU.me.runner.length < 32 := by
  refine ⟨?_, ?_, ?_, ?_, ⟨?_, ?_⟩, rfl, ?_⟩ <;> decide +kernel
theorem test_rfill : after (.rfill { runX 6 with b := 5 }) (withReg runU 5 0x01020304)
    (fun t => t.byteAt 0x3000 == 4 && t.byteAt 0x3003 == 1 && t.byteAt 0x3004 == 0) = true := by decide +kernel

/-! ### Graph, pages, supervisor -/

/-- `user` with the page at 2^30 a registered graph page of its context, with an armed node of kind 3 there. -/
def graphU : State :=
  let s := withReg { user with dregs := (arbourBase + 0x4000, 2 ^ 63 + 2 ^ 32 + 0x4000) :: user.dregs } 4 (2 ^ 30)
  (s.writeNat (2 ^ 30) 4 1).writeNat (2 ^ 30 + 4) 1 3

def nodeV (s : State) (a : Reg) (o : Nat) : State :=
  (((s.fillTlb (s.reg a).toNat).readThrough .atomic ((List.range 64).map fun k => o + k)).sealStrip.performed).drained

def nodeOkAt (s : State) (a : Reg) (o : Nat) : Bool :=
  let keys := (List.range 64).map fun k => o + k
  let v := nodeV s a o
  decide ((s.reg a).toNat % 64 = 0) &&
  (match s.translate .atomic false (s.reg a).toNat with
    | .ok w => w.key == o && w.graph
    | .error _ => false) &&
  decide (s.graphOwner (o / 65536) = some s.me.ctx) && !isNear o &&
  (((s.fillTlb (s.reg a).toNat).readThrough .atomic keys).badDatum .atomic keys).isNone && decide v.MemOk && decide v.PairsOk

theorem nodeAt_of {s : State} {a : Reg} {o : Nat} (h : nodeOkAt s a o = true) : s.NodeAt a o (nodeV s a o) := by
  simp only [nodeOkAt, Bool.and_eq_true, Bool.not_eq_true', Option.isNone_iff_eq_none, decide_eq_true_eq] at h
  obtain ⟨⟨⟨⟨⟨⟨h0, h1⟩, h2⟩, h3⟩, h4⟩, h5⟩, h6⟩ := h
  split at h1
  · next w hw =>
    rw [Bool.and_eq_true, beq_iff_eq] at h1
    exact ⟨w, h0, hw, h1.1, h1.2, h2, h3, h4, rfl, h5, h6⟩
  · cases h1

/-- GraphFormsArmAndRelease: an idle node that obeys R322, a ready and a running one, one that breaks it; both bounds of the count. -/
theorem wit_GraphFormsArmAndRelease :
    nodeOkAt graphU 4 (2 ^ 30) = true ∧ (nodeV graphU 4 (2 ^ 30)).readNat (2 ^ 30 + 48) 1 = 0 ∧
    (nodeV graphU 4 (2 ^ 30)).nodeOk (2 ^ 30) = true ∧ (2 ^ 31 - 1 : Word).toNat < 2 ^ 31 ∧ 2 ^ 31 ≤ (2 ^ 31 : Word).toNat ∧
    (nodeV graphU 4 (2 ^ 30)).reg 4 = 2 ^ 30 ∧
    (∀ st ∈ [2, 3], let s := graphU.writeNat (2 ^ 30 + 48) 1 st
      nodeOkAt s 4 (2 ^ 30) = true ∧ (nodeV s 4 (2 ^ 30)).readNat (2 ^ 30 + 48) 1 = st) ∧
    (let s := graphU.writeNat (2 ^ 30 + 4) 1 4
     nodeOkAt s 4 (2 ^ 30) = true ∧ (nodeV s 4 (2 ^ 30)).nodeOk (2 ^ 30) = false) ∧
    (let s := graphU.writeNat (2 ^ 30) 4 2
     nodeOkAt s 4 (2 ^ 30) = true ∧ ((nodeV s 4 (2 ^ 30)).readNat (2 ^ 30) 4 + (2 ^ 32 - 1)) % 2 ^ 32 = 1) := by decide +kernel
theorem test_garm : after (.garm ⟨false, 4, 5, 6⟩) graphU
    (fun t => t.reg 6 == 0 && t.readNat (2 ^ 30) 4 == 3 && t.readNat (2 ^ 30 + 48) 1 == 1) = true := by decide +kernel
theorem test_grel_ready : after (.grel ⟨false, 4, 6⟩) (graphU.writeNat (2 ^ 30 + 48) 1 1)
    (fun t => t.reg 6 == 0 && t.readNat (2 ^ 30 + 48) 1 == 2 && t.completing.length == 1) = true := by decide +kernel

/-- `super` with the entries of a CXL page at 0x8000 and of an HBM page at 0x9000. -/
def pairE : Pair := ⟨0, 2 ^ 28, 0x10, 0x8000, 0x9000, 0⟩
def swapU : State :=
  withReg (withReg ((super.writeNat 0x8000 8 (0x26F + 2 ^ 48)).writeNat 0x9000 8 (0x7F + 0x10 * 2 ^ 20)) 4 0x8000) 5 0x9000

/-- PageFormsComplete: two entries that may be paired, a pair there already, a page of one asked for and none, and the kinds of `TLBI`. -/
theorem wit_PageFormsComplete :
    swapU.featSwap = true ∧ swapU.me.supv = true ∧
    swapU.entryAt 0x8000 = some (0x26F + 2 ^ 48) ∧ swapU.leafOfTier 1 0x8000 (0x26F + 2 ^ 48) = true ∧
    swapU.entryAt 0x9000 = some (0x7F + 0x10 * 2 ^ 20) ∧ swapU.leafOfTier 0 0x9000 (0x7F + 0x10 * 2 ^ 20) = true ∧
    ptePpn (0x26F + 2 ^ 48) = pairE.c ∧ ptePpn (0x7F + 0x10 * 2 ^ 20) = pairE.h ∧ swapU.pairs = [] ∧
    (let s : State := { swapU with pairs := [pairE] }
     ((s.pairs.find? fun p => p.q == ((withReg s 4 0).reg 4).toNat) = some pairE ∧
      (s.pairs.find? fun p => p.q == ((withReg s 4 1).reg 4).toNat) = none)) ∧
    (let s := withReg user 4 0x2000
     s.translate .read false (s.reg 4).toNat matches .ok _) ∧ (super.findCtx 1).isSome = true ∧
    (let s : State := { user with me := { user.me with recs := [(7, []), (8, [])] } }; s.reg 4 = 7 ∧ s.me.recs.length = 2) := by
  decide +kernel
/-- PageFormsComplete: a slot in use for each number, addresses that no entry lies at and entries of the other tier, a page in a
pair asked for by its address, and what `TLBI` names, or does not. -/
theorem wit_PageFormsComplete_further :
    (let s : State := { swapU with pairs := (List.range 64).map fun q => ⟨q, 0, 0, 0, 0, 0⟩ }
     (∀ r < 64, ∃ p ∈ s.pairs, p.q = r) ∧ ∀ p ∈ s.pairs, p.c ≠ pairE.c ∧ p.h ≠ pairE.c ∧ p.c ≠ pairE.h ∧ p.h ≠ pairE.h) ∧
    0x8001 % 8 ≠ 0 ∧ hbmEnd ≤ hbmEnd ∧ swapU.entryAt 0xA000 = some 0 ∧ swapU.leafOfTier 1 0xA000 0 = false ∧
    swapU.leafOfTier 0 0x8000 (0x26F + 2 ^ 48) = false ∧
    (let s := withReg { user with dregs := super.dregs, pairs := [⟨3, 2 ^ 28, 0, 0x8000, 0x9000, 256⟩] } 4 0x2000
     s.featSwap = true ∧ ∃ w, s.translate .read false (s.reg 4).toNat = .ok w ∧ w.near = false ∧ w.remote = false ∧
       (s.pairs.find? fun p => p.c == w.key / 65536 || p.h == w.key / 65536) = some ⟨3, 2 ^ 28, 0, 0x8000, 0x9000, 256⟩) ∧
    super.tlb.length = 3 ∧ (super.findCtx 7).isSome = false ∧ isNearVa 0x2000 = false ∧ isNearVa near0.toNat = true := by
  refine ⟨⟨?_, ?_⟩, ?_, ?_, ?_, ?_, ?_, ⟨?_, _, rfl, ?_⟩, ?_⟩ <;> decide +kernel
theorem test_tlbi_page : after (.tlbi false (.page 4 5)) (withReg (withReg super 4 1) 5 0x2000)
    (fun t => t.tlb.map TlbEntry.base == [2 ^ 29, 2 ^ 30]) = true := by decide +kernel
theorem test_pswap : after (.pswap ⟨false, 4, 5, 6⟩) swapU (fun t => t.reg 6 == 0 && t.pairs == [pairE]) = true := by decide +kernel

/-- Save areas for the span entries 0 and 1. -/
def withSave (s : State) : State :=
  { s with dregs := (arbourBase + 0x3000, 0x100000) :: (arbourBase + 0x3008, 0x200000) :: s.dregs }

/-- A stream of context 1 on Bandstand 1 with the span entry 1. -/
def other : Band := { Band.reset 1 with status := .run, sid := 9, order := 9, ctx := 1, spane := 1, beds := [1], tvec := 0x1000 }

/-- The supervisor stream on Bandstand 63, with that stream beside it. -/
def sup2 : State :=
  withSave { super with
    me := { Band.reset 63 with status := .run, sid := 2, tvec := 0x1000 }, bands := [{ Band.reset 0 with id := 0 }, other] }

def stoppedZ : Stopped := ⟨{ other with node := some ⟨true, 2 ^ 30, 2 ^ 30, 3, 2, 1⟩ }, false, none, []⟩

/-- SupervisorFormsComplete: a stream to stop, none, one with no save area; frames of R360; a stopped stream with its record and residence;
a context to kill, its own and none; a queue with a running node and none. -/
theorem wit_SupervisorFormsComplete :
    sup2.me.supv = true ∧ sup2.settled = .ok sup2 ∧ sup2.streamOn 1 = some other ∧ sup2.streamOn 0 = none ∧ sup2.spsave 1 ≠ 0 ∧
    (let s : State := { sup2 with dregs := super.dregs }; s.streamOn 1 = some other ∧ s.spsave 1 = 0) ∧
    (sup2.parkTarget 1 matches .error _) ∧
    (let s : State := withCtx { sup2 with bands := [] } fun c => { c with frames := [frameA] }
     s.parkTarget 1 matches .ok _) ∧
    (let s : State := { sup2 with bands := [], stopped := [stoppedZ] }
     let s := ((s.writeNat 0x200000 4 0x31455250).writeNat 0x200004 2 (s.spanCtx 1)).writeNat 0x200008 1 (s.spanNB 1)
     (s.stopped.find? fun z => z.band.spane == 1) = some stoppedZ ∧ s.arbourRead (s.spsave 1) 4 = some 0x31455250 ∧
     s.arbourRead (s.spsave 1 + 4) 2 = some (s.spanCtx 1) ∧ s.arbourRead (s.spsave 1 + 8) 1 = some (s.spanNB 1) ∧
     s.mayReside 1 = true ∧ ∀ z ∈ s.stopped, z.band.spane ≠ 0) ∧
    sup2.findCtx 1 = some ctxA ∧ ctxA.killed = false ∧ (1 : Nat) ≠ sup2.me.ctx ∧ sup2.findCtx 5 = none ∧ super.me.ctx = 1 ∧
    (let s : State := { sup2 with nodes := [⟨nodeA, 0, 1, 1⟩] }
     (∃ m ∈ s.nodes, m.copy.queue = 3) ∧ ∀ m ∈ s.nodes, m.copy.queue ≠ 4) := by
  refine ⟨?_, rfl, ?_, ?_, ?_, ?_, ?_, ?_, ?_, ?_, ?_, ?_, ?_, ?_, ?_⟩ <;> decide +kernel
/-- SupervisorFormsComplete: a stopped stream whose record holds no magic. -/
theorem wit_SupervisorFormsComplete_record :
    (let s : State := { sup2 with bands := [], stopped := [stoppedZ] }
     (∃ z ∈ s.stopped, z.band.spane = 1) ∧ (s.arbourReads (s.spsave 1) 16).arbourRead (s.spsave 1) 4 ≠ some 0x31455250) := by
  decide +kernel
theorem test_wdog : after (.wdog ⟨false, 6, 4, 2⟩) (withReg { sup2 with nodes := [⟨nodeA, 0, 1, 1⟩] } 4 3)
    (fun t => t.reg 6 == 0 && assoc t.timers 3 == some 2601) = true := by decide +kernel
theorem test_kill : after (.kill ⟨false, 6, 4⟩) (withReg sup2 4 1)
    (fun t => t.reg 6 == 0 && t.bands.all fun b => b.status == .free) = true := by decide +kernel

/-! ### Steps of plots, networks and engines -/

/-- A broadcast instruction with number 2 of one kind of work, on the elements given. -/
def jobOf (op : VOp) (elems : List Elem) : Job :=
  { seq := 2, addr := 0xF0, op, t1 := .i32, t2 := .i32, ga := none, gb := none, gd := none, imm := some 5, pad := 0, kd := none,
    sd := none, guardBits := 0, vl := 1, rm := .rne, sat := 0, seed := 0, trusted := false, skew := 0, cede := false, chains := [],
    dexts := [], wins := [], holds := [], elems, prog := [], saved := [], carry := [], maskBits := [], landed := [], fetches := [],
    pkts := [], routes := [], segTo := [], flags := 0, ff := none, apart := false, row := 0, idx := [], sent := [] }

/-- `s` with instructions in flight. -/
def flight (s : State) (l : List Job) : State := { s with me := { s.me with jobs := l, seq := 3, horiz := 1 } }

/-- A near word of the frame on plots 0 and 1, or a far one. -/
def nearL (p : Nat) : Loc := ⟨keys4 (nearKey p 0), 0, near0.toNat, p, true, 0, none⟩
def farL : Loc := ⟨keys4 0x2000, 0, 0x2000, 0, false, 0, none⟩
def elemD : Elem := ⟨0, 0, 0, 2 ^ 42, some (nearL 0), none, none, [], none⟩
def elemA (l : Loc) : Elem := ⟨0, 0, 0, 2 ^ 42, some (nearL 0), some l, none, [], none⟩
def twoPlots : State := framed { frameA with log2n := 1 }

/-- PlotsPerformGroups: a group that is performed and one whose frame is withdrawn, with no fault noted and with one; a reduction. -/
theorem wit_PlotsPerformGroups :
    (let j := jobOf .movImm [elemD]
     let s := flight nearUser [j]
     let b := flight gone [j]
     s.swapIn 0 = some s ∧ s.me.status = .run ∧ s.jobAt 2 = some j ∧ State.nextGroup j 0 = some [elemD] ∧
     s.groupReady j [elemD] = true ∧ (s.performGroup s j [elemD]).2.2 = none ∧ s.me.pending = none ∧
     b.swapIn 0 = some b ∧ b.groupReady j [elemD] = true ∧ (b.performGroup b j [elemD]).2.2.isSome = true ∧
     (let p : State := { b with me := { b.me with pending := some (preFault cPOISON 0 3 opA, 3) } }
      p.groupReady j [elemD] = true)) ∧
    (let j := { jobOf (.red .add) [] with sd := some 9 }
     let s := flight user [j]
     s.swapIn 0 = some s ∧ s.me.jobs = [j] ∧ s.me.status = .run ∧ s.me.pending = none ∧ (s.runReduce j .add).2.2 = none) := by
  decide +kernel

/-- A stream of the same context on the other slot of bed 0, with a group that it can perform at plot 0. -/
def rival : Band := { other with beds := [0], jobs := [jobOf .movImm [elemD]], seq := 3, horiz := 1 }
def rivalled (s : State) : State :=
  { s with bands := rival :: s.bands.drop 1, dregs := (State.spanTable 1 + 192, 1) :: s.dregs }

/-- PlotsPerformGroups, FaultAndEventSteps: work at a plot where another slot can begin a group. -/
theorem wit_PlotsPerformGroups_contended :
    (let j := { jobOf (.red .add) [elemA (nearL 0)] with sd := some 9 }
     let s := rivalled (flight nearUser [j])
     s.swapIn 0 = some s ∧ s.contendedAt j.elems = true ∧ (flight nearUser [j]).contendedAt j.elems = false ∧
     (flight nearUser [j]).me.jobs = [j] ∧ s.contended = true ∧
     (let p : State := { s with me := { s.me with pending := some (dataFaultRec cSTALE 0 0 opA 0x1FFF, 2) } }
      p.swapIn 0 = some p ∧ p.contended = true)) := by decide +kernel

/-- PullsAndPacketsMove: a pull with room, without, and behind a write; a served one and a retry; a far group; packets and answers. -/
theorem wit_PullsAndPacketsMove :
    (let g := nearKey 1 0 / 64
     let j := jobOf .mov [elemA (nearL 1)]
     let s := flight twoPlots [j]
     let full := { jobOf .mov [] with seq := 1, fetches := List.replicate 64 ⟨5, g, .sent, []⟩ }
     let older := { jobOf .movImm [⟨0, 0, 1, g, some (nearL 1), none, none, [], none⟩] with seq := 1 }
     let x : State.Src := ⟨g, true, 1, 0, []⟩
     s.swapIn 0 = some s ∧ s.jobAt 2 = some j ∧ State.wanted j 0 g true = some (elemA (nearL 1), x) ∧ s.me.status = .run ∧
     State.landedAt j 0 g = false ∧ s.begun j = true ∧ s.slotsAt 0 < 28 ∧ s.entriesAt 1 < 60 ∧ s.readWaits j x = false ∧
     (j.fetches.find? fun f => f.plot == 0 && f.grp == g) = none ∧
     (flight twoPlots [full, j]).jobAt 2 = some j ∧ 64 ≤ (flight twoPlots [full, j]).entriesAt 1 ∧
     (flight twoPlots [older, j]).readWaits j x = true ∧
     (let k := { j with fetches := [⟨0, g, .sent, []⟩] }
      (k.fetches.find? fun f => f.plot == 0 && f.grp == g).map Fetch.leg = some .sent ∧ State.landedAt k 0 g = false)) ∧
    (let p : RPkt := ⟨0, pktA, 0, 0, 0, 0x2000, 0, 0, 1, 4, 0, 0, 0, 0, false⟩
     let j := { jobOf .mov [elemA farL] with pkts := [p] }
     let s := flight nearUser [j]
     let x : State.Src := ⟨0x80, false, 0, 0, keys4 0x2000⟩
     State.wanted j 0 0x80 false = some (elemA farL, x) ∧ j.landed = [] ∧ s.readWaits j x = false ∧ s.begun j = true ∧ j.routes = [] ∧
     State.packetOf j (elemA farL) 0x80 = some (0, p) ∧ s.pktReady j 0 p = true ∧
     (let k := { j with seq := 1, pkts := [{ p with firstIdx := 0 }] }
      (flight nearUser [k, j]).pktReady j 0 p = false) ∧
     State.packetOf { j with pkts := [{ p with sent := true }] } (elemA farL) 0x80 = some (0, { p with sent := true })) ∧
    (let x : FarItem := ⟨0, pktA, false, 0, 0, farL, 32, .i32, none⟩
     x.geom = none ∧ x.ty.subByte = false ∧ x.opnd = pktA ∧ ({ x with single := true } : FarItem).single = true) ∧
    (⟨0, 7, .served, []⟩ : Fetch) ∈ ({ jobOf .mov [] with fetches := [⟨0, 7, .served, []⟩] } : Job).fetches ∧
    (⟨0, 7, .retry, []⟩ : Fetch) ∈ ({ jobOf .mov [] with fetches := [⟨0, 7, .retry, []⟩] } : Job).fetches ∧
    (let p : WPkt := ⟨0x20, [(0x2000, 5)], []⟩
     let s : State := { user with me := { user.me with wpkts := [p] } }
     (s.me.wpkts.find? fun p => p.granule == 0x2000 / 256) = some p ∧ s.MemOk ∧ s.PairsOk ∧ (p.cells.map Prod.fst).Nodup) := by
  decide +kernel

/-- A command with one line to fill. -/
def rcmd : RCmd :=
  { id := 5, kind := .fill, arrival := none, mode := .none, chn := false, cmp := false, seed := 0, expect := 0, word := none,
    pred := none, predStat := 0, predValue := 0, width := 1, base := 0x3000, far := 0, index := [], flat := [0x3000], view := none, begun := true,
    dests := [(0x3000, 1)], lines := [⟨0x30, 0, [(0, .inr 7, 0x3000)]⟩], delivered := [], saved := [], pois := false, stat := 0, faultAt := 0, frame := 0,
    issued := 0, entry := none }
def nearLine : RLine := ⟨2 ^ 40, 0, [(0, .inr 7, 2 ^ 48)]⟩
def withCmd (s : State) (c : RCmd) : State := { s with me := { s.me with runner := [c], rlast := (5, 0) } }

/-- RunnersMoveLines: a far line, a near one whose frame is gone, a broken chain, an end with a word and without, a stopped stream. -/
theorem wit_RunnersMoveLines :
    (let s := withCmd user rcmd
     s.swapIn 0 = some s ∧ (s.me.runner.find? fun c => c.id == 5) = some rcmd ∧
     (rcmd.lines.find? fun l => l.line == 0x30) = some ⟨0x30, 0, [(0, .inr 7, 0x3000)]⟩ ∧
     s.lineWaits rcmd ⟨0x30, 0, [(0, .inr 7, 0x3000)]⟩ = false ∧ s.lineStops ⟨0x30, 0, [(0, .inr 7, 0x3000)]⟩ = false ∧
     s.MemOk ∧ s.PairsOk ∧ s.hbmErr = [] ∧ s.flips = []) ∧
    (let c := { rcmd with lines := [nearLine] }
     let s := withCmd gone c
     s.lineWaits c nearLine = false ∧ s.lineStops nearLine = true ∧
     (c.lines.find? fun l => l.line == 2 ^ 40) = some nearLine) ∧
    (let c := { rcmd with begun := false, chn := true, predStat := 2 }
     c.predStat ≠ 0 ∧ ((withCmd user c).me.runner.takeWhile fun x => x.id != 5).all (fun x => x.arrival.isSome) = true) ∧
    (let c := { rcmd with lines := [], word := some 0x4000 }
     c.kind ≠ .park ∧ (withCmd user c).me.rlast.1 = 5 ∧ user.granted 49 .write (user.route 0x4000) = true ∧ isNear 0x4000 = false) ∧
    (let z : Stopped := { stoppedZ with band := { other with runner := [rcmd] } }
     let s : State := { user with stopped := [z] }
     (∀ x ∈ s.me :: s.bands, x.id = 1 → ∀ k ∈ x.runner, k.id ≠ 5) ∧
     (s.stopped.find? fun x => x.band.id == 1 && x.band.runner.any fun k => k.id == 5) = some z) := by decide +kernel
theorem test_runner_line : after (.runnerLine 0 5 0x30) (withCmd user rcmd)
    (fun t => t.byteAt 0x3000 == 7 && t.me.runner.all fun c => c.lines.isEmpty) = true := by decide +kernel

/-- `s` with the text of one word at 0x100, waiting there. -/
def waitingAt (s : State) (i : Instr) : State :=
  { s with me := { s.me with waiting := some .other, text := [⟨0, 2 ^ 55, State.cellsOf 0x100 (bytesLE 16 (encode i).toNat)⟩] } }

/-- QueuedWorkCompletes: a Trellis command, arrivals in both queues at a barrier that trips, does not, and is poisoned; a request
that is granted and a wait that ends. -/
theorem wit_QueuedWorkCompletes_waits :
    (let s := waitingAt objU (.acq true ⟨false, 4, 6⟩)
     s.waitingWord = some (.acq true ⟨false, 4, 6⟩) ∧ s.swapIn 0 = some s ∧ objOk s 4 isBarrier O = true ∧
     (let v := objV s 4 O
      v.holdsOf O = none ∧ v.me.holds.length < 16 ∧ v.oPois O = false ∧ v.oXhold O = 0 ∧ v.oNsh O = 0 ∧
      v.aheadOf O (v.acqOrder O) = [] ∧ v.sharers O = [])) ∧
    (let s := waitingAt user (.wait ⟨false, 6⟩)
     s.waitingWord = some (.wait ⟨false, 6⟩) ∧ s.swapIn 0 = some s ∧ (s.settled matches .ok _) ∧
     (s.reg 6).toInt ≤ (s.now : Int)) := by decide +kernel
theorem test_grant : after (.acqGrant 0) (waitingAt objU (.acq true ⟨false, 4, 6⟩))
    (fun t => t.oNsh O == 1 && t.me.waiting == none && t.me.pc == 0x110) = true := by decide +kernel
theorem wit_QueuedWorkCompletes :
    (let c := user.tcmd (.tzero ⟨false, none⟩) 0 0 0 0
     let s := user.setTrl { user.me.trl with queue := [c] }
     s.swapIn 0 = some s ∧ s.me.status = .run ∧ s.me.trl.queue = [c] ∧ c.arrival = none ∧
     ({ c with arrival := some (O, 0) } : TCmd).arrival.isSome = true) ∧
    (let c := { rcmd with arrival := some (O, 0) }
     let s := withCmd (setObj user 28 4 1) c
     s.me.runner = [c] ∧ s.MemOk ∧ s.PairsOk ∧ isNear O = false ∧ O % 64 = 0 ∧ s.oPois O = false ∧ s.oGen O = 0 ∧
     (s.oHave O + 1) % 2 ^ 32 = s.oNeed O ∧ (setObj s 28 4 3).oNeed O = 3 ∧ (setObj s 1 1 1).oPois O = true ∧
     (setObj s 24 4 9).oGen O = 9) ∧
    (let i : Instr := .acq true ⟨false, 4, 6⟩
     let s := waitingAt objU i
     s.waitingWord = some i ∧ (exec i s matches .next _)) ∧
    (let i : Instr := .wait ⟨false, 6⟩
     let s := waitingAt user i
     s.waitingWord = some i ∧ (exec i s matches .next _)) := by decide +kernel

/-! ### Steps of the Arbour, of faults and of events -/

/-- A ready program node of group 1 in queue 3, at the head of its queue. -/
def readyN : NodeCopy := { nodeA with gidx := 1, wdog := 2 }
def readyU : State := { graphU with ready := [readyN], heads := [⟨3, none, 2 ^ 30, 0, 2⟩] }

/-- NodeLaunches: an armed node to stage and one to leave; nothing to launch; a node with a watchdog and one without. -/
theorem wit_NodeLaunches :
    (let s := graphU.writeNat (2 ^ 30 + 48) 1 1
     (∃ x ∈ s.me :: s.bands, x.id = 1 ∧ x.status = .free) ∧ s.staged = [] ∧ (s.graphOwner (2 ^ 30 / 65536)).isSome = true ∧
     s.readNat (2 ^ 30) 4 = 1 ∧ s.readNat (2 ^ 30 + 48) 1 = 1 ∧ s.readNat 0 4 ≠ 1) ∧ user.bestHead = none ∧
    readyU.bestHead = some ⟨3, none, 2 ^ 30, 0, 2⟩ ∧ readyU.headWork ⟨3, none, 2 ^ 30, 0, 2⟩ = some (.inr readyN) ∧
    readyU.launchStand readyN.pa = some 1 ∧ readyU.groupSpan readyN.ctx readyN.gidx = some 1 ∧ readyN.kind = 0 ∧ readyN.wdog ≠ 0 ∧
    ({ readyN with wdog := 0 } : NodeCopy).wdog = 0 ∧ readyU.MemOk ∧ readyU.PairsOk ∧
    readyU.granted 52 .write (readyU.route (readyN.pa + 48)) = true := by decide +kernel
theorem test_launch : after .nodeLaunch readyU
    (fun t => t.ready == [] && t.bands.any fun b => b.id == 1 && b.pc == 0x100 && b.reg 2 == 2 ^ 30 && b.spane == 1) = true := by
  decide +kernel

def ended (c : NodeCopy) (final : Nat) : State := { onNode with completing := [(c, final, 0)] }

/-- NodeCompletes: ends in state 4 with a completion word and without, of an interrupt node, and in states 5 and 6. -/
theorem wit_NodeCompletes :
    (∀ f ∈ [4, 5, 6], ((ended nodeA f).due.find? fun x => x.1.pa == 2 ^ 30) = some (nodeA, f, 0)) ∧ nodeA.nsucc = 0 ∧
    nodeA.donew = 0 ∧ onNode.MemOk ∧ onNode.PairsOk ∧ onNode.granted 52 .write (onNode.route (2 ^ 30 + 48)) = true ∧
    (let c := { nodeA with donew := 0x4000 }
     let w := (ended c 4).setNodeState (2 ^ 30) 4
     w.arbourPlace c.ctx .write c.donew = some 0x4000 ∧ w.granted 52 .write (w.route 0x4000) = true) ∧
    ({ nodeA with kind := 2 } : NodeCopy).kind = 2 := by decide +kernel
theorem test_complete : after (.nodeComplete (2 ^ 30)) (ended nodeA 4)
    (fun t => t.nodes == [] && t.me.status == .free && t.readNat (2 ^ 30 + 48) 1 == 4) = true := by decide +kernel

/-- A head at level 7 with no free Bandstand: queue 3 is at level 7. -/
def fullU : State :=
  { onNode with
    bands := [{ other with spane := 2 }], ready := [{ readyN with level := 7 }], heads := [⟨3, none, 2 ^ 30, 0, 7⟩],
    dregs := (arbourBase + 0x3000, 0x100000) :: user.dregs }

/-- QueuesAgeAndWatch: a queue that ages, one that does not; a head that takes a Bandstand, and one that need not; a watchdog. -/
theorem wit_QueuesAgeAndWatch :
    readyU.headWork ⟨3, none, 2 ^ 30, 0, 2⟩ = some (.inr readyN) ∧ readyU.qAge 3 = 0 ∧
    ({ readyU with dregs := (arbourBase + 0x1000 + 8 * 3, 0x10000) :: readyU.dregs } : State).qAge 3 = 1 ∧
    fullU.freeStand = none ∧ (⟨3, none, 2 ^ 30, 0, 7⟩ : Head) ∈ fullU.heads ∧ fullU.headFit ⟨3, none, 2 ^ 30, 0, 7⟩ = true ∧
    fullU.headLevel ⟨3, none, 2 ^ 30, 0, 7⟩ = 7 ∧ fullU.victim = some fullU.me ∧ user.heads = [] ∧ user.freeStand ≠ none ∧
    (let s : State := { onNode with timers := [(3, 50)] }
     assoc s.timers 3 = some 50 ∧ s.now < 50 ∧ ∃ n ∈ s.nodes, n.copy.queue = 3) := by decide +kernel
theorem test_watchdog : after (.watchdogExpiry 3) { onNode with timers := [(3, 50)], now := 50 }
    (fun t => t.timers == [] && t.sysPend == [⟨cWDOG, 2 ^ 30, 3 + 0x10000⟩]) = true := by decide +kernel

/-- A checkpoint, and a stream with a journalled group. -/
def checkA : Checkpoint :=
  ⟨user.me.regs, user.me.masks, 0, .rne, 0, 0, false, 0, 0, 0, 0, 0x1000, false, 0, 0, 0, 0, 0, 0, 0, user.me.slots⟩
def journalU : State :=
  { user with me := { user.me with strip := { user.me.strip with
    check := some checkA, journal := [(2 ^ 42, List.replicate 64 9)] } } }

/-- FaultAndEventSteps: a checkpoint and a journal; a met fault that rewinds and one that does not; none; a lane mismatch before
and after the seal; a system event for a supervisor stream outside its handler and in it. -/
theorem wit_FaultAndEventSteps :
    (journalU.me.strip.check = some checkA ∧ journalU.MemOk ∧ journalU.PairsOk ∧
      (journalU.me.strip.journal.map Prod.fst).Nodup ∧
      ∀ e ∈ journalU.me.strip.journal, e.2.length = 64 ∧ isNear (e.1 * 64) = true) ∧
    (let p := (dataFaultRec cPOISON 0 0 opA 0x1FFF, 2)
     let s : State := { user with me := { user.me with pending := some p } }
     s.swapIn 0 = some s ∧ s.rewindsFor p.1 = true ∧ (s.settled matches .ok _)) ∧
    user.rewindsFor (dataFaultRec cSTALE 0 0 opA 0x1FFF) = false ∧ user.swapIn 0 = some user ∧ user.me.pending = none ∧
    (let j := jobOf .movImm [elemD]
     let s := flight (withSave nearUser) [j]
     (s.me.jobs.find? fun j => j.seq == 2) = some j ∧ 2 % 64 = 2 % 64 ∧ s.me.strip.sealed = false ∧ s.me.strip.rewound = false ∧
     s.me.supv = false ∧ s.spsave s.me.spane ≠ 0 ∧
     (∃ e ∈ (jobOf .movImm [{ elemD with plot := 2 }]).elems, e.plot = 2)) ∧
    (let e : SysEv := ⟨cWDOG, 0, 0⟩
     let s : State := { sup2 with sysPend := [e] }
     s.sysPend = [e] ∧ s.swapIn 63 = some s ∧ s.me.status = .run ∧ s.me.inh = false ∧ s.settled = .ok s ∧ s.CanTrap ∧
     s.me.waiting ≠ some .ending ∧ s.endedWait.CanTrap ∧
     ({ s with me := { s.me with inh := true } } : State).me.inh = true ∧
     ({ s with me := { s.me with waiting := some .ending } } : State).me.waiting = some .ending) := by
  refine ⟨by decide +kernel, by decide +kernel, by decide +kernel, by decide +kernel, by decide +kernel, by decide +kernel,
    rfl, ?_, ?_, ?_, rfl, ?_, ?_, ?_, ?_, ?_⟩ <;> decide +kernel
theorem test_rewind : (journalU.rewind.byteAt (2 ^ 48) == 9 && journalU.rewind.me.strip.rewound) = true := by decide +kernel
theorem test_event : after .systemEventEntry { sup2 with sysPend := [⟨cWDOG, 7, 9⟩] }
    (fun t => t.sysPend == [] && t.me.pc == 0x1000 && t.me.eaddr == 7 && t.me.einfo == 9) = true := by decide +kernel

/-- StreamsStopAndResume: a stream with a save area and nothing in flight, no stream; a stopped stream that is resumed. -/
theorem wit_StreamsStopAndResume :
    user.streamOn 1 = none ∧
    (let s := withSave user
     s.streamOn 0 = some s.me ∧ s.swapIn 0 = some s ∧ s.spsave s.me.spane ≠ 0 ∧ s.me.pending = none ∧ s.me.jobs = []) ∧
    (let z := { stoppedZ with queued := some ⟨0, true, 1⟩ }
     let s := withSave { user with stopped := [z], heads := [⟨3, some 9, 0, 0, 2⟩] }
     (s.bestHead.bind s.headWork matches some (.inl _)) ∧ (s.bestHead.bind s.headWork) = some (.inl z) ∧ z.band.spane = 1 ∧
     s.freeStand = some 1 ∧ z.reissue = [] ∧ z.band.trl.att = false) := by decide +kernel

/-- ContextKills: a kill asked for, and none. -/
theorem wit_ContextKills :
    (let s : State := { user with pendKill := [⟨1, cSTALE, 0x100⟩] }
     (s.pendKill.find? fun k => k.ctx == 1) = some ⟨1, cSTALE, 0x100⟩ ∧ (s.pendKill.find? fun k => k.ctx == 2) = none) := by
  decide +kernel

/-! ### Steps of the rest of the part -/

/-- SwapPairsMove: no pair, one that is moving, and one that flips. -/
theorem wit_SwapPairsMove :
    (user.pairs.find? fun p => p.q == 0) = none ∧
    (let s : State := { swapU with pairs := [pairE] }
     (s.pairs.find? fun p => p.q == 0) = some pairE ∧ pairE.moved < 256 ∧ s.MemOk ∧ s.PairsOk ∧ s.hbmErr = []) ∧
    (let p := { pairE with moved := 256 }
     let s : State := { swapU with pairs := [p] }
     let w := s.quiesceAll
     256 ≤ p.moved ∧ w.MemOk ∧ w.PairsOk ∧ p.pc % 8 = 0 ∧ p.ph % 8 = 0 ∧ p.pc ≠ p.ph ∧ p.pc < hbmEnd ∧ p.ph < hbmEnd ∧
     ∀ x ∈ w.pairs, x.c ≠ p.pc / 65536 ∧ x.h ≠ p.pc / 65536 ∧ x.c ≠ p.ph / 65536 ∧ x.h ≠ p.ph / 65536) := by decide +kernel
theorem test_flip : after (.swapFlip 0) { swapU with pairs := [{ pairE with moved := 256 }] }
    (fun t => t.pairs == [] && t.readNat 0x8000 8 == 0x26F + 0x10 * 2 ^ 20 && t.readNat 0x9000 8 == 0x7F + 2 ^ 48) = true := by
  decide +kernel

/-- FramesRenewAndRailsSwitch: a frame that is zeroed and one that is done; a kept one and one that is not; a bus that is sound and one that
has failed; a layer without power; ports with the feature and without. -/
theorem wit_FramesRenewAndRailsSwitch :
    nearUser.findCtx 1 = some { ctxA with frames := [frameA] } ∧ ({ ctxA with frames := [frameA] } : Ctx).frame 0 = some frameA ∧
    frameA.zeroing = false ∧ ({ frameA with zeroing := true } : Frame).zeroing = true ∧
    (let f := { frameA with keep := true }
     (framed f).findCtx 1 = some { ctxA with frames := [f] } ∧ (framed f).keeps f = true) ∧ frameA.keep = false ∧
    (0 : Nat) ∉ user.holes ∧ (0 : Nat) ∈ ({ user with holes := [0] } : State).holes ∧
    (let s : State := { user with rails := 0xFFFFFE }
     s.railOn 0 0 = false ∧ (s.rails.getLsbD 0) = false) ∧ user.featZynfy = false ∧ super.featZynfy = true := by decide +kernel
theorem test_bus_fail : after (.busFail 0) nearUser
    (fun t => t.holes == [0] && t.ctxs.all fun c => c.frames.all Frame.wd) = true := by decide +kernel

/-- `user` with a window of function 0 at 0x10000 whose slot 0 maps the page at 0x20000, writable, and slot 1 read-only. -/
def hostU : State :=
  let s : State := { user with
    dregs := (controlBase + 0x100, 0x10000) :: (tableBase + 512 * State.targetOf 0x20000, 7) :: (tableBase + 512 * 58, 0x1F) :: user.dregs }
  (s.writeNat 0x10000 8 (2 ^ 63 + 2 ^ 62 + 2)).writeNat 0x10008 8 (2 ^ 63 + 3)

/-- HostAccessesAnswer: accesses that do not fit, a slot that maps nothing, a read-only page, and reads, writes and atomics that go through;
the feature registers with the right and without. -/
theorem wit_HostAccessesAnswer :
    hostU.windowPage 0 0 = some (0x20000, true) ∧ hostU.windowPage 0 1 = some (0x30000, false) ∧ hostU.windowPage 0 2 = none ∧
    (hostU.granted 0 .read (hostU.route 0x20000) = true ∧ hostU.granted 0 .write (hostU.route 0x20000) = true ∧
      hostU.granted 0 .atomic (hostU.route 0x20000) = true) ∧ hostU.hbmErr = [] ∧ hostU.MemOk ∧ hostU.PairsOk ∧
    hostU.graphOwner (0x20000 / 65536) = none ∧ hostU.featWritten = false ∧ (hostU.tableEntry 58 0).getLsbD 3 = true ∧
    (hostU.tableEntry 58 0).getLsbD 0 = true ∧ (hostU.tableEntry 58 32).getLsbD 3 = true ∧
    (let s : State := { hostU with dregs := [(tableBase + 512 * 58, 0x10), (tableBase + 512 * 58 + 8 * 32, 0x10)] }
     (s.tableEntry 58 0).getLsbD 0 = false ∧ (s.tableEntry 58 32).getLsbD 3 = false) ∧
    hostU.dreg (controlBase + 0x28) ≠ BitVec.allOnes 64 := by decide +kernel
theorem test_host_write : after (.hostBarAccess 0 false .write 8 ⟨[1, 2], false⟩ 0) hostU
    (fun t => t.byteAt 0x20008 == 1 && t.byteAt 0x20009 == 2 && t.answers == []) = true := by decide +kernel

/-- RegisterWritesStore: a register that has no bits, a queue's, one that may not be written, a free palette entry and one in use, and
access tables under the right and without it. -/
theorem wit_RegisterWritesStore :
    (user.tableEntry (State.targetOf (arbourBase + 0x1000)) 32).getLsbD 3 = true ∧ State.regMask (arbourBase + 0x2000) = 0 ∧
    State.regMask (arbourBase + 0x3000) ≠ 0 ∧
    (let s : State := { user with dregs := [(tableBase + 512 * 56 + 8 * 32, 0x10), (tableBase + 512 * 57, 1), (tableBase + 512 * 59, 0)] }
     (s.tableEntry (State.targetOf arbourBase) 32).getLsbD 3 = false ∧ (s.tableEntry 57 0).getLsbD 4 = false ∧
     (s.tableEntry 59 0).getLsbD 4 = false) ∧
    (user.tableEntry 57 32).getLsbD 3 = true ∧ user.chpop 0 2 = 0 ∧
    (∀ j : Fin 14, j ≠ 0 → user.dreg (chReg 0 (0x010 + 8 * j.val)) ≠ 5) ∧
    (let s : State := { user with dregs := [(chReg 0 0x018, 5)] }
     s.dreg (chReg 0 (0x010 + 8 * (1 : Fin 14).val)) = 5) ∧ (user.tableEntry 57 32).getLsbD 4 = true := by decide +kernel

/-- The part with its ports up and a peer, device 5, of class 34. -/
def peerU : State :=
  { super with ports := 1, dregs := (controlBase + 0x9028, 0) :: (tableBase + 512 * 61 + 8 * 34, 7) ::
      (tableBase + 512 * State.targetOf 0x2000 + 8 * 34, 7) :: super.dregs }

/-- PeerAccessesAnswer: the ports up and down, a right that is there and one that is not, an address here and none. -/
theorem wit_PeerAccessesAnswer :
    peerU.featZynfy = true ∧ peerU.ports ≠ 0 ∧ peerU.peerClass 5 = some 34 ∧
    (peerU.dreg (tableBase + 512 * 61 + 8 * 34)).getLsbD 2 = true ∧ isHbm 0x2000 = true ∧
    (∀ o < 4, peerU.granted 34 .read (peerU.route (0x2000 + o)) = true ∧ peerU.granted 34 .write (peerU.route (0x2000 + o)) = true) ∧
    peerU.hbmErr = [] ∧ peerU.MemOk ∧ peerU.PairsOk ∧ user.ports = 0 ∧
    (super.dreg (tableBase + 512 * 61 + 8 * 34)).getLsbD 0 = false ∧ isHbm (2 ^ 47) = false ∧ isCxl (2 ^ 47) = false ∧
    tyFOf (46 / 8) = some (some .i32) ∧ 46 % 8 = 6 ∧ 0x2008 % 64 ≠ 0 := by decide +kernel

/-- `user` with the injection feature. -/
def injU : State := { user with dregs := (controlBase + 0x10, 0x7F) :: user.dregs }

/-- LodgeCommandsAnswer: a halted part and one that runs, with the rights and without, images that do not verify, injection with its
feature and without. -/
theorem wit_LodgeCommandsAnswer :
    ({ user with phase := .halted } : State).phase = .halted ∧ user.phase ≠ .halted ∧
    (user.tableEntry 58 33).getLsbD 0 = true ∧ (user.tableEntry 58 33).getLsbD 3 = true ∧
    (let s : State := { user with dregs := [(tableBase + 512 * 58 + 8 * 33, 0x10)] }
     (s.tableEntry 58 33).getLsbD 0 = false) ∧
    (let s : State := { user with dregs := (tableBase + 512 * State.targetOf 0x2000 + 8 * 33, 0x10) :: user.dregs }
     s.granted 33 .write 0x2000 = false ∧ user.granted 33 .write 0x2000 = true) ∧
    (let s : State := { user with dregs := (tableBase + 512 * State.targetOf (nearKey 0 0) + 8 * 33, 0x10) :: user.dregs }
     s.granted 33 .write (nearKey 0 0) = false ∧ user.granted 33 .write (nearKey 0 0) = true) ∧
    (user.tableEntry 0 33).getLsbD 1 = true ∧
    (let s : State := { user with dregs := [(tableBase + 8 * 33, 0x10)] }; (s.tableEntry 0 33).getLsbD 1 = false) ∧
    user.hbmErr = [] ∧
    pssVerify user.flashA.key (imageMessage Image.empty) Image.empty.sig = false ∧ user.featInject = false ∧ injU.featInject = true ∧
    isHbm 0x2000 = true ∧ user.MemOk ∧ assoc user.nearFlip 0 = none ∧
    assoc ({ user with nearFlip := [(0, 3)] } : State).nearFlip 0 = some 3 := by decide +kernel
/-- A development part, and no other, offers injection (R370). -/
theorem wit_LodgeSteps_offer : featOffer.getLsbD 6 = true ↔ Config.developmentPart = true := by
  unfold featOffer
  cases Config.developmentPart <;> decide +kernel
theorem test_flip_near : (injU.flipNear (nearKey 0 0 / 8) 3).nearFlip = [(nearKey 0 0 / 8, 3)] := by decide +kernel

/-- BootVerifiesAndStarts: the ROM with no image that starts, and the later phases, where Bandstand 63 is there. -/
theorem wit_BootVerifiesAndStarts :
    State.reset.phase = .rom ∧ State.reset.flashA.bootable = false ∧ State.reset.flashB.bootable = false ∧
    ({ State.reset with phase := .stage1 } : State).phase = .stage1 ∧
    ({ State.reset with phase := .firmware } : State).pairs = [] ∧
    ({ State.reset with phase := .pavilion } : State).me.id = 63 ∧
    pssVerify State.reset.flashA.key (imageMessage State.reset.flashA.fw) State.reset.flashA.fw.sig = false := by decide +kernel

/-! ### The machine -/

/-- `ADDI s5, s0, 96` as the table numbers its bits, and the state that fetches it next. -/
def addiWord : Nat := 0x03800004 * 2 ^ 96 + 0x14000000 * 2 ^ 64 + 0x60
def fetching : State := State.reset.withFetchWord 128 addiWord

/-- The state in which `step` moves the stream of `fetching`. -/
def turned : State := { fetching with agenda := fetching.agenda.tail }

theorem test_first_step : (match step fetching with
    | .next t => (t.me :: t.bands).any fun b => b.reg 5 == 96
    | _ => false) = true := by decide +kernel

/-- StepRunsTheInstruction: a turn of a running stream at a word that decodes, a turn of the part, and a halted part. -/
theorem wit_StepRunsTheInstruction :
    fetching.nextTurn = ⟨1, 0, .issue 63 false false⟩ ∧ fetching.phase ≠ .halted ∧ turned.swapIn 63 = some turned ∧
    turned.me.status = .run ∧ turned.me.list = none ∧
    turned.fetchWord turned.me.pc.toNat = some (BitVec.ofNat 128 addiWord) ∧
    (decode (BitVec.ofNat 128 addiWord) matches .ok (.addi _)) ∧ opcOf (BitVec.ofNat 128 addiWord) ≠ 0x10C ∧
    turned.pairs = [] ∧
    (let s : State := { user with agenda := [⟨1, 0, .event .readSensors⟩] }
     s.nextTurn = ⟨1, 0, .event .readSensors⟩ ∧ s.phase ≠ .halted ∧ Instr.isWord .readSensors = false ∧ s.pairs = [] ∧
     ({ s with phase := .halted } : State).phase = .halted ∧ State.lodgeCommand .romBoot = false) := by decide +kernel

/-- `user` at the end of the page at 2^30, with a word there that is not followed by another, and its turn to move. -/
def lastWord (w : Nat) : State :=
  { user with
    agenda := [⟨1, 0, .issue 0 false false⟩],
    me := { user.me with pc := 2 ^ 30 + 0xFFF0, text := [⟨0, 2 ^ 55, State.cellsOf (2 ^ 30 + 0xFFF0) (bytesLE 16 w)⟩] } }

/-- WordsThatDoNotIssue: a word with no form, a prefix that is cut off, and a pc that no page maps. -/
theorem wit_WordsThatDoNotIssue :
    (let s := lastWord 0
     let t : State := { s with agenda := s.agenda.tail }
     s.nextTurn = ⟨1, 0, .issue 0 false false⟩ ∧ s.phase ≠ .halted ∧ t.swapIn 0 = some t ∧ t.me.status = .run ∧ t.me.list = none ∧
     t.settled = .ok t ∧ t.CanTrap ∧ t.fetchWord t.me.pc.toNat = some 0 ∧ (decode 0 matches .error _) ∧ opcOf 0 ≠ 0x10C) ∧
    (let w := encode (.pfx ⟨false, some .rdn, some 2, none⟩)
     let s := lastWord w.toNat
     s.fetchWord s.me.pc.toNat = some w ∧ s.me.pfx = none ∧ opcOf w = 0x10C ∧ s.fetchWord (s.me.pc + 16).toNat = none) ∧
    (let s : State := { lastWord 0 with me := { user.me with pc := 2 ^ 32 } }
     s.fetchWord s.me.pc.toNat = none ∧ s.me.pfx = none) := by
  refine ⟨⟨?_, ?_, ?_, ?_, ?_, rfl, ?_, ?_, ?_, ?_⟩, ?_, ?_⟩ <;> decide +kernel

/-- StepKeepsMemory, StepKeepsModes: the step above starts in a state of either invariant. -/
theorem wit_StepKeeps : (step fetching matches .next _) ∧ fetching.MemOk ∧ fetching.PairsOk := by decide +kernel
theorem wit_StepKeepsModes : (∀ b ∈ fetching.me :: fetching.bands, b.supv = (b.id == 63) ∧ (b.id = 63 → b.node = none)) ∧
    fetching.stopped = [] := by decide +kernel

/-- EncodingsRoundTrip, and the encoder's words with every operand at its greatest value. -/
theorem wit_EncodingsRoundTrip :
    (let i : Instr := .add ⟨true, 63, 63, 63⟩
     i.isWord = true ∧ i.wf = true ∧ (decode (encode i) matches .ok (.add ⟨true, 63, 63, 63⟩))) ∧
    (let i : Instr := .csrw true 0xFFFF 63
     i.isWord = true ∧ i.wf = true ∧ (decode (encode i) matches .ok (.csrw true 0xFFFF 63))) := by decide +kernel

/-- `user` with a data granule of zeros whose byte 7 was struck by 5 and, in a second state, byte 9 by 3 as well (R109). -/
def struck (more : List (Nat × Nat)) : State :=
  { user with gcode := [(0x3000, 0)], mem := Memory.put user.mem 0x300007 5, hbmErr := (0x300007, 5) :: more }

/-- One bad byte of a sector is corrected and written back; two are found, and poison the granule, at a read as at a write
of a part of the sector (R107, R109). -/
theorem test_ecc :
    (let s := (struck []).eccRead [0x300000]
     s.mem = user.mem ∧ s.hbmErr = [] ∧ s.poison = user.poison) ∧
    (struck []).soundByte 0x300007 = some 0 ∧
    (let s := (struck [(0x300009, 3)]).eccRead [0x300000]
     s.mem = (struck []).mem ∧ s.poison.contains 0x3000 = true) ∧
    (let s := (struck [(0x300009, 3)]).writeCells [(0x300000, 1)] false
     s.poison.contains 0x3000 = true ∧ s.hbmErr = [] ∧ s.byteAt 0x300007 = 5) := by decide +kernel

/-! ### Witnesses of further clauses -/

/-- `user` with far stores in its open strip, and where their target refuses the stream. -/
def buffU : State := { user with me := { user.me with strip := { user.me.strip with
  far := [⟨1, 0, [(0x2000, 5)], []⟩], farAt := [(33, 0x80)] } } }
def shutOut (s : State) : State := { s with dregs := (tableBase + 512 * State.targetOf 0x2000 + 8 * 48, 0x10) :: s.dregs }

/-- StripsOpenAndWaitsStand, FencesAndShadowsComplete: a strip with a buffered store, one whose target refuses it, an empty one. -/
theorem wit_StripsOpenAndWaitsStand_stores :
    buffU.settled = .ok buffU ∧ buffU.MemOk ∧ buffU.PairsOk ∧ buffU.PacketsOk ∧ buffU.me.strip.ntf = none ∧ buffU.me.strip.far ≠ [] ∧
    buffU.holdBack = false ∧ buffU.me.strip.sealed = false ∧ buffU.Accepts 0x2000 ∧ ¬(shutOut buffU).Accepts 0x2000 ∧
    user.me.strip.far = [] ∧ buffU.me.runner = [] ∧ buffU.me.trl.queue = [] ∧ buffU.me.wpkts = [] := by
  refine ⟨rfl, ?_⟩; decide +kernel
theorem test_setvl_commits : after (.setvl ⟨false, 6, 4⟩) buffU (fun t => t.byteAt 0x2000 == 5 && t.me.strip.far == []) = true ∧
    after (.setvl ⟨false, 6, 4⟩) (shutOut buffU) (fun t => t.byteAt 0x2000 == 0 && t.me.strip.far == []) = true := by decide +kernel

/-- CsrReads, HorizonAndReductions: a reduction in flight that has still to write register 9. -/
theorem wit_CsrReads_jobs :
    (let s := flight user [{ jobOf (.red .add) [] with sd := some 9 }]
     (s.settled matches .ok _) ∧ (∃ j ∈ s.me.jobs, j.sd = some 9) ∧ ∀ j ∈ s.me.jobs, j.sd ≠ some 8) := by decide +kernel

/-- `vec` with poisoned index elements, for a gather. -/
def gathU : State :=
  { withReg vec 7 0x4000 with gcode := [(0x40, 0)], poison := [0x40] }
def gathI : Instr := .vgath { v2 (some .i32) with a := ⟨6, .indexed, 0⟩ }
def failsAt (i : Instr) (s : State) (p : State → FaultRec → Bool) : Bool :=
  (descOf i).any fun d =>
    let bits := s.guardBitsOf d.g
    let v := s.readIndexes d bits
    match v.planV d bits, v.settled with
    | .error f, .ok y => decide y.CanTrap && p y f
    | _, _ => false
/-- BroadcastWordsRun: words whose probe finds a cause: a misaligned operand, and index elements that are poisoned, in a strip that
can be rewound and in one that cannot. -/
theorem wit_BroadcastWordsRun_causes :
    failsAt (.vadd (v3 (some .i32) none)) (withReg vec 4 0x2002) (fun _ f => f.cls != 1 && f.code == cALIGN) = true ∧
    failsAt gathI gathU (fun y f => f.cls == 1 && f.code == cPOISON && y.rewindsFor f) = true ∧
    failsAt gathI { gathU with me := { gathU.me with strip := { gathU.me.strip with sealed := true } } }
      (fun y f => f.cls == 1 && !y.rewindsFor f) = true := by decide +kernel

/-- A source of a reduction with a pattern at a plot, and its value in `f32`. -/
def redE (i pos p : Nat) : State.RedElem := ⟨i, pos, pos, (p, 0)⟩
def val32 (l : List State.RedElem) : List Machine.Num := l.map fun e => State.valueOf none .f32 e.pat

/-- ReductionsGiveTheirValue: sums of integers of a block, of finite values, of values with infinities and with NaN, of zeros; sums
of `f64` of one plot and of two; the least of patterns with NaN and without. -/
theorem wit_ReductionsGiveTheirValue_values :
    (let xs := [State.valueOf (some .mx32) .i8 (64, 127)]
     (∀ x ∈ xs, x.isNaN = false ∧ x.isInf = false) ∧ (xs.map fun x => x.scaled (-160)).sum % 2 ^ 160 = 0) ∧
    (let xs := val32 [redE 0 0 0x7F800000, redE 1 0 0xFF800000]; Machine.Num.inf true ∈ xs ∧ Machine.Num.inf false ∈ xs) ∧
    (let xs := val32 [redE 0 0 0x7FC00000, redE 1 0 0xFF800000]; Machine.Num.inf false ∉ xs ∧ Machine.Num.nan ∈ xs) ∧
    (let xs := val32 [redE 0 0 0x3F800000, redE 1 0 0xFF800000]; Machine.Num.inf true ∈ xs ∧ Machine.Num.inf false ∉ xs ∧ Machine.Num.nan ∉ xs) ∧
    (let xs := val32 [redE 0 0 0x3F800000]; (∀ x ∈ xs, x.isNaN = false ∧ x.isInf = false) ∧ (xs.map fun x => x.scaled (-160)).sum ≠ 0) ∧
    (let xs := val32 [redE 0 0 0x80000000]; (∀ x ∈ xs, x.isZero = true ∧ x.neg? = true) ∧ (xs.map fun x => x.scaled (-160)).sum = 0) ∧
    (let es := [redE 0 2 5, redE 1 3 6]
     (∃ e ∈ es, e.pos = 2 * 1) ∧ (∃ e ∈ es, e.pos = 2 * 1 + 1) ∧ (∀ e ∈ es, e.pos / 2 = 1) ∧ 2 * 1 + 1 < 64) ∧
    (∃ p ∈ [redE 0 0 0x3F800000].map State.RedElem.pat, (decodeTy .f32 p.1).isNaN = false) ∧
    (∀ p ∈ [redE 0 0 0x7FC00000].map State.RedElem.pat, (decodeTy .f32 p.1).isNaN = true) ∧ nanCode .f32 = some 0x7FC00000 ∧
    (∃ p ∈ [redE 0 0 64].map State.RedElem.pat, (State.valueOf (some .mx32) .i8 p).isNaN = false) := by decide +kernel
/-- Infinities of both signs give NaN and NV. -/
theorem test_vred_inf : State.reduceList .add .f32 none (fun _ => ⟨.rne, 0, 0⟩) 64 0 [redE 0 0 0x7F800000, redE 1 0 0xFF800000] =
    (0x7FC00000, fNV) := by decide +kernel

/-- A near word of plot 0 as an operand of a job, n bytes from the frame's base. -/
def nearAt (n : Nat) : Loc := ⟨keys4 (2 ^ 48 + n), 0, near0.toNat + n, 0, true, 0, none⟩
def elemAB (i : Nat) (d a b : Option Loc) : Elem := ⟨i, 0, 0, 2 ^ 42, d, a, b, [], none⟩
def sealedU : State := { nearUser with me := { nearUser.me with strip := { nearUser.me.strip with sealed := true } } }

/-- ElementResults: operands whose product is a number, whole and not, a count below the width and one above it; selections; compares
of numbers, of NaN and of values of two exponents; a destination mask. -/
theorem wit_ElementResults_values :
    (let j := jobOf .mulh [elemAB 0 (some (nearAt 0)) (some (nearAt 4)) none]
     let x := nearUser.elemInp j (elemAB 0 (some (nearAt 0)) (some (nearAt 4)) none)
     let b := (j.imm.map (immNum j.t1)).getD x.b
     x.a.whole = some 0 ∧ b.whole = some 5 ∧ (Machine.Num.mul x.a b).1.isNaN = false) ∧
    (let c : Machine.Num := (((jobOf .shl []).imm).map fun v => Machine.Num.ofInt v.toInt).getD Machine.Num.zero
     c.floorAt 0 = 5 ∧ c.whole = some 5) ∧
    (Machine.Num.ofInt (-1)).floorAt 0 < 0 ∧ (32 : Int) ≤ (Machine.Num.ofInt 32).floorAt 0 ∧ (Machine.Num.fin false 3 (-1)).whole = none ∧
    (elemAB 0 none (some (nearAt 4)) none).a = some (nearAt 4) ∧ (elemAB 0 none none (some (nearAt 4))).a = none ∧
    (jobOf (.cmp .lt) []).op = .cmp .lt ∧ Machine.Num.nan.isNaN = true ∧ ((-3 : Int) ≤ -1 ∧ (-3 : Int) ≤ 2) ∧
    ({ jobOf (.cmp .lt) [] with kd := some 2 } : Job).kd = some 2 := by decide +kernel

/-- ElementResults: blocks with a NaN, and finite with a largest value that is not 0; a block's first element; a place of bits. -/
theorem wit_ElementResults_blocks :
    (∃ x ∈ [Machine.Num.nan], x.isNaN = true ∨ x.isInf = true) ∧
    (let xs := [Machine.Num.fin false 3 0, Machine.Num.fin true 5 1]
     (∀ x ∈ xs, x.isNaN = false ∧ x.isInf = false) ∧
     xs.foldl (fun a x => if a.cmp x.abs < 0 then x.abs else a) Machine.Num.zero = .fin false 5 1 ∧ xs[0]? = some (.fin false 3 0)) ∧
    (let l : Loc := ⟨[2 ^ 48], 4, near0.toNat, 0, true, 0, some (2 ^ 48 + 255)⟩
     let g := [elemAB 0 (some l) (some farL) none]
     g.head? = some (elemAB 0 (some l) (some farL) none) ∧ l.scale = some (2 ^ 48 + 255) ∧ l.keys.Nodup ∧
     l.bit + 4 ≤ 8 * l.keys.length) ∧
    (let cells : List (Nat × Byte) := [(2 ^ 48, 1), (2 ^ 48 + 255, 7)]
     cells ≠ [] ∧ (cells.map Prod.fst).Nodup ∧ (∀ c ∈ cells, isNear c.1 = true ∧ c.1 / 256 = 2 ^ 40)) ∧
    sealedU.MemOk ∧ sealedU.pairs = [] ∧ sealedU.me.strip.sealed = true := by decide +kernel

/-- ElementResults: a vector atomic on a near word that returns its old value beside it; a scan of one element; a transform of two
records of one `f32` of which there are snapshots, and its source index. -/
theorem wit_ElementResults_whole :
    (let l := nearAt 4
     let e := elemAB 0 (some (nearAt 8)) (some l) none
     State.isAtomicOp .aadd = true ∧ e.a = some l ∧ l.keys ≠ [] ∧ l.keys.Nodup ∧ 8 * l.keys.length = Ty.i32.width ∧
     (∀ k ∈ l.keys, isNear k = l.near ∧ k / 64 = l.keys.headD 0 / 64 ∧ sealedU.buffered k = none) ∧ l.near = true ∧
     (∀ d, e.d = some d → ∀ k ∈ d.keys, k ∉ l.keys ∧ isNear k = true)) ∧
    (let j := jobOf (.scan false) [elemAB 0 (some (nearAt 0)) (some (nearAt 4)) none]
     (sealedU.runScan j false).2.2 = none ∧ (j.elems.flatMap fun e => (e.d.map Loc.keys).getD []).Nodup ∧ (j.elems.map Elem.i).Nodup ∧
     ∀ e ∈ j.elems, e.i < 2 ^ 20) ∧
    (jobOf .xform []).op = .xform ∧
    (let s : State := { user with me := { user.me with
       recs := [(0x5000, matrix 0x6000 17 1 1 4), (0x5100, matrix 0x7000 17 1 1 4)] } }
     isOkAnd (s.planRecords ⟨0, false, false⟩ 0x5000 0x5100 none).2 fun p => p.elems.any fun e => e.d.isSome && e.a.isSome) = true := by
  refine ⟨⟨?_, rfl, ?_, ?_, ?_, ?_, ?_, ?_⟩, ?_, ?_, ?_⟩
  case refine_7 => intro d hd; cases hd; decide +kernel
  all_goals decide +kernel

/-- ObjectsAreCheckedAndBound, HoldsAreTakenAndReleased: a shared request ahead of which nothing but shared ones wait, and one that
another request stands in front of. -/
def sharing : State :=
  { objU with bands := { other with regs := objU.me.regs, waiting := some (.acq O true 0 ⟨false, 4, 6⟩) } :: objU.bands.drop 1 }
theorem wit_HoldsAreTakenAndReleased_sharers :
    objOk sharing 4 isBarrier O = true ∧
    (let v := objV sharing 4 O
     v.holdsOf O = none ∧ v.sharers O ≠ [] ∧ v.oXhold O = 0 ∧ v.oNsh O = 0 ∧ v.oPois O = false ∧
     ∀ sh ∈ v.aheadOf O (v.acqOrder O), sh = true) ∧
    (let v := objV { objU with bands := { other with waiting := some (.acq O false 0 ⟨false, 4, 6⟩) } :: objU.bands.drop 1 } 4 O
     false ∈ v.aheadOf O (v.acqOrder O)) ∧
    (let v := objV (holding objU [⟨O, true⟩]) 4 O
     (v.drainBound O).MemOk ∧ (v.drainBound O).PairsOk) := by decide +kernel
theorem test_acq_shares : after (.acq true ⟨false, 4, 6⟩) sharing
    (fun t => t.oNsh O == 2 && (t.me :: t.bands).all fun b => b.holds == [⟨O, true⟩] || b.status == .free || b.id == 63) = true := by
  decide +kernel

/-- BarriersCountArrivals: an `AWAIT` whose generation has ended, and one that waits on the present one. -/
def awaiting (r : Option Word) : State :=
  { objU with me := { objU.me with waiting := some (.await O 0 ⟨false, 4, 5, 6⟩ r) } }
theorem wit_BarriersCountArrivals_waits :
    (awaiting (some 1)).awaited O 0 = some 1 ∧ (awaiting none).awaited O 0 = none ∧ objU.awaited O 0 = none ∧
    objOk (awaiting (some 1)) 4 isLock O = true ∧ (objV (awaiting (some 1)) 4 O).awaited O 0 = some 1 ∧
    (let v := objV { objU with bands := { other with waiting := some (.await O 0 ⟨false, 4, 5, 6⟩ none) } :: objU.bands.drop 1 } 4 O
     ∃ b ∈ v.bands, b.waiting = some (.await O (v.oGen O) ⟨false, 4, 5, 6⟩ none)) := by decide +kernel

/-- FencesAndShadowsComplete: a commit that notifies; addresses with no frame and no leaf; frames that differ, that a shadow uses,
and 64 shadows; two far leaves, and a far shadow of them. -/
def ntfU : State := { user with me := { user.me with strip := { user.me.strip with ntf := some (2 ^ 29, 7) } } }
def farTwins (sh : List Shadow) : State :=
  let s := withCtx user fun c => { c with ptRoot := 0x100000, shadows := sh }
  let s : State := { s with tlb := [] }
  let s := (s.writeNat 0x100000 8 (0x120000 / 65536 * 2 ^ 20 + 1)).writeNat 0x120000 8 (0x140000 / 65536 * 2 ^ 20 + 1)
  (s.writeNat 0x140008 8 (0x6F + 0x21 * 2 ^ 20)).writeNat 0x140010 8 (0x6F + 0x22 * 2 ^ 20)
def farS : List Shadow := [⟨false, 1, 2⟩]
/-- Two leaves of level 3 beside each other. -/
def leafPair (l m : Option Leaf) : Bool :=
  match l, m with
  | some l, some m => l.level == 3 && m.level == 3 && pteW l.entry && pteW m.entry && decide (pteTier l.entry < 2) &&
      decide (l.at_ + 8 ≤ m.at_)
  | _, _ => false
theorem wit_FencesAndShadowsComplete_further :
    (let v := ({ ntfU with me := { ntfU.me with strip := { ntfU.me.strip with ntf := none } } }).commitStrip.performed
     isOkAnd (v.translate .atomic true (2 ^ 29 : Word).toNat) fun w => w.sync && decide (v.Accepts w.key)) = true ∧
    ntfU.MemOk ∧ ntfU.PairsOk ∧ ntfU.PacketsOk ∧
    (ctxA.frame (slotOf near0.toNat) = none ∧ isNearVa near0.toNat = true) ∧ user.leafOf ctxA (2 ^ 40) = none ∧
    (let v := (farTwins []).sealStrip.performed
     let c : Ctx := { ctxA with ptRoot := 0x100000 }
     v.myCtx = some c ∧ leafPair (v.leafOf c 65536) (v.leafOf c 131072) = true) ∧
    (let c : Ctx := { ctxA with ptRoot := 0x100000, shadows := farS }
     let v := (farTwins farS).sealStrip.performed
     let w := v.drained.quiesce v.me.ctx
     let x := ({ w with dcache := [] } : State).setCtx { c with shadows := [] }
     v.myCtx = some c ∧ State.shadowAt c 65536 = some ⟨false, 1, 2⟩ ∧ w.myCtx = some c ∧ w.drainStopped c.id ⟨false, 1, 2⟩ = false ∧
     w.MemOk ∧ w.PairsOk ∧ leafPair (x.walkFrom 65536 3 1 0x100000) (x.walkFrom 131072 3 1 0x100000) = true) := by
  decide +kernel
theorem test_pub_far : after (.pub ⟨false, 4, 6⟩) (withReg (farTwins farS) 4 65536)
    (fun t => t.reg 6 == 0 && t.readNat 0x140008 8 == 0x6F + 0x22 * 2 ^ 20 && t.readNat 0x140010 8 == 0x6F + 0x21 * 2 ^ 20) = true := by
  decide +kernel

/-- PlotsPerformGroups: a slot whose turn runs, one that can begin, and one that has spent its deficit; a word that finishes; a reduction
that meets a data fault. -/
theorem wit_PlotsPerformGroups_turns :
    (let s := flight nearUser [jobOf .movImm [elemD]]
     (s.bandSlot s.me 0).bind (s.takeSlot 0) = some ⟨0, 0, true, [(0, 256)]⟩ ∧ (s.arbAt 0).on = false ∧ s.slotReady 0 0 = true ∧
     (let t : State := { s with arb := [⟨0, 0, true, [(0, 5)]⟩] }
      (t.arbAt 0).on = true ∧ 0 < State.arbLeft (t.arbAt 0) 0 ∧ t.slotReady 0 0 = true)) ∧
    (let v := flight nearUser [jobOf .movImm [elemD]]
     (v.settled matches .ok _) ∧ v.MemOk ∧ v.pairs = [] ∧ v.PacketsOk ∧ v.me.pending = none ∧
     (∀ l, elemD.d = some l → l.bit = 0 ∧ l.keys ≠ [] ∧ 8 * l.keys.length = Ty.i32.width ∧
       ∀ k ∈ l.keys, isRemote k = false ∧ k / 64 = elemD.grp ∧ (isNear k = true → v.buffered k = none)) ∧
     (∀ p ∈ v.me.strip.far, p.seq < 2)) ∧
    (let j := { jobOf (.red .add) [elemAB 0 none (some farL) none] with sd := some 9 }
     let s := flight { user with poison := [0x20], gcode := [(0x20, 0)] } [j]
     s.me.pending = none ∧ (s.runJob j).2.2.isSome = true ∧ State.wholeOp j.op = true) := by
  refine ⟨by decide +kernel, ⟨?_, ?_, ?_, ?_, ?_, fun l h => ?_, ?_⟩, by decide +kernel⟩
  case refine_6 => cases h; decide +kernel
  all_goals decide +kernel

/-- RunnersMoveLines: a line that waits for an earlier command, one that does not; no frame is still being zeroed. -/
theorem wit_RunnersMoveLines_order :
    (let c := { rcmd with id := 6 }
     let l : RLine := ⟨0x30, 0, [(0, .inr 7, 0x3000)]⟩
     let s : State := { user with me := { user.me with runner := [rcmd, c], rlast := (6, 0) } }
     s.lineWaits c l = true ∧ s.lineWaits rcmd l = false ∧ (s.me.runner.find? fun c => c.id == 6) = some c ∧
     s.completionWaits { rcmd with lines := [] } = false ∧ s.myCtx = some ctxA ∧
     ctxA.frames = []) := by decide +kernel

/-- QueuedWorkCompletes: a step and a drain that go on, whole and in part, and a command after a failure. -/
theorem wit_QueuedWorkCompletes_parts :
    (let c := trlU.tcmd (.tstep ⟨false, 1, 2, 3⟩) 0 1 32 0
     let s := trlU.setTrl { trlU.me.trl with queue := [c] }
     s.me.trl.queue = [c] ∧ c.arrival = none ∧ c.begun = false ∧ (c.vals[2]).toNat ≤ 2 ^ 12 ∧ (c.vals[2]).toNat % 32 = 0 ∧
     c.instr = some (.tstep ⟨false, 1, 2, 3⟩) ∧ s.me.trl.rows ≤ 2 ^ 16) ∧
    (let s := trlU.setTrl { trlU.me.trl with failed := some 1 }
     s.me.trl.failed.isSome = true ∧ trlU.me.trl.failed.isSome = false) := by decide +kernel

/-- NodeLaunches: an armed node that is one release short, the first of its level, and one that is not armed; a node that a trigger
arms. NodeCompletes: an interrupt node with its vector on and masked. -/
theorem wit_NodeLaunches_armed :
    (let s : State := { graphU.writeNat (2 ^ 30 + 48) 1 1 with armed := [2 ^ 30] }
     s.armed = [] ++ 2 ^ 30 :: [] ∧ (∃ x ∈ s.me :: s.bands, x.id = 1 ∧ x.status = .free) ∧ s.staged = [] ∧ 2 ^ 30 + 64 ∉ s.armed ∧
     s.readNat (2 ^ 30 + 48) 1 = 1 ∧ s.readNat (2 ^ 30) 4 = 1) ∧
    (let c := { nodeA with kind := 2 }
     ((ended c 4).due.find? fun x => x.1.pa == 2 ^ 30) = some (c, 4, 0) ∧ ((0, 0x100) : Nat × Nat) ∉ (ended c 4).msixOn ∧
     ((0, 0x100) : Nat × Nat) ∈ ({ ended c 4 with msixOn := [(0, 0x100)] } : State).msixOn ∧ c.code.toNat % 2048 = 0x100) := by
  decide +kernel
theorem test_stage : after (.nodeStage 1 (2 ^ 30)) { graphU with armed := [2 ^ 30] } (fun t => t.staged == [(1, 2 ^ 30)]) = true := by
  decide +kernel

/-- FaultAndEventSteps: instructions in flight that meet a fault; one that is stopped with a mask; an M form that is the last. -/
theorem wit_FaultAndEventSteps_stops :
    (let s := flight gone [jobOf .movImm [elemD]]
     s.contended = false ∧ (s.settled matches .error _) ∧ s.CanTrap) ∧
    (let j := { jobOf (.cmp .lt) [elemD] with kd := some 2, maskBits := [(0, true, 0)] }
     let w := flight nearUser [j]
     w.me.jobs.filter (fun j => decide (2 ≤ j.seq)) = [j] ∧ j.kd = some 2) ∧
    (let s := flight nearUser [jobOf .movImm [elemD]]
     s.checkedAt 2 0 = some 0xF0 ∧ ({ s with me := { s.me with strip := { s.me.strip with sealed := true } } } : State).checkedAt 2 0 =
       some 0xF0) ∧
    (let i : Instr := .mset ⟨⟨0, false, false⟩, 3, none⟩
     let s := waitingAt { vec with me := { vec.me with seq := 5, pc := 0x110 } } i
     s.checkedAt 4 0 = some 0x100) := by decide +kernel

/-- StreamsStopAndResume: a stream that waits for a generation still to end, and one whose masks stand in its record. -/
theorem wit_StreamsStopAndResume_waits :
    (∀ k g x r, user.me.waiting ≠ some (.await k g x (some r)) ∧ user.me.waiting ≠ some (.awaitGe k g x (some r))) ∧ stoppedZ.out = false ∧ stoppedZ.band.trl.queue = [] ∧
    (let s : State := { swapU with pairs := [pairE] }; ∀ x ∈ s.pairs, x.q = pairE.q → x = pairE) := by
  refine ⟨?_, ?_⟩
  · intro k g x r; exact ⟨fun h => (by cases h), fun h => (by cases h)⟩
  · decide +kernel

/-- FramesRenewAndRailsSwitch: a kept frame that the Keepers may renew, one whose layer bars them; the Lodge's rail; an M rail of HBM. -/
def keptU : State := { framed { frameA with keep := true, expiry := 10000 } with retn := 50000 }
theorem wit_FramesRenewAndRailsSwitch_keepers :
    (let f := { frameA with keep := true, expiry := 10000 }
     keptU.keeps f = true ∧ keptU.keeperBarred f = none ∧ f.expiry < keptU.now + 1 + keptU.lifeCap / 2 ∧
     ¬frameA.expiry < keptU.now + 1 + keptU.lifeCap / 2 ∧ (keptU.ctxs.map Ctx.id).Nodup ∧
     (let s : State := { keptU with dregs := (tableBase + 512 * State.targetOf (nearKey 0 0) + 8 * 51, 0x10) :: keptU.dregs }
      s.keeps f = true ∧ s.keeperBarred f ≠ none)) ∧
    (20 ≤ (22 : Fin 24).val) ∧ user.rails.getLsbD 23 = true := by decide +kernel

/-- HostAccessesAnswer: accesses that do not fit and that fit, at a page's end; a byte whose target gives no right beside one that does.
PeerAccessesAnswer, LodgeCommandsAnswer: the main domain up, and down with every other rail off. -/
theorem wit_HostAccessesAnswer_bytes :
    (65532 % 65536 + 8 > 65536 ∧ 65528 % 65536 + 8 ≤ 65536 ∧ 65528 < 2 ^ 36) ∧
    (let s : State := { hostU with dregs := (tableBase + 512 * State.targetOf 0x20800, 0x10) :: hostU.dregs }
     let w := s.eccRead [s.windowEntry 0 0]
     w.windowPage 0 0 = some (0x20000, true) ∧ w.granted 0 .write (w.route 0x207FF) = true ∧ w.granted 0 .write (w.route 0x20800) = false) ∧
    (4 : Nat) = 4 ∧ (0x20004 : Nat) % 64 ≠ 0 ∧ user.mainDown = false ∧ ({ user with rails := 0x800000 } : State).mainDown = true ∧
    (∀ i < 23, ({ user with rails := 0x800000 } : State).rails.getLsbD i = false) ∧ (user.rails.getLsbD 22 = true) := by decide +kernel
theorem test_host_part : after (.hostBarAccess 0 false .write 0x7FF ⟨[1, 2], true⟩ 0)
    { hostU with dregs := (tableBase + 512 * State.targetOf 0x20800, 0x10) :: hostU.dregs }
    (fun t => t.byteAt 0x207FF == 1 && t.byteAt 0x20800 == 0 && t.isPoisoned 0x207FF && t.errlog.length == 1) = true := by decide +kernel

/-- RegisterWritesStore: plain registers, with the right and without; a span-table entry that a stream runs on; a context that is still
to be created, one with a stream on a Bandstand and one without, and a frame's entry. -/
theorem wit_RegisterWritesStore_contexts :
    (arbourBase + 0x3000) % 8 = 0 ∧ user.mayConfigure 32 (arbourBase + 0x3000) = true ∧
    (let s : State := { user with dregs := (tableBase + 512 * 56 + 8 * 32, 0x10) :: user.dregs }
     s.mayConfigure 32 (arbourBase + 0x3000) = false) ∧ user.spanKept 0 = true ∧ user.spanKept 9 = false ∧
    (user.tableEntry 60 32).getLsbD 3 = true ∧ (user.tableEntry 60 32).getLsbD 0 = true ∧ user.findCtx 5 = none ∧
    (∃ b ∈ nearUser.me :: nearUser.bands, b.status = .run ∧ b.ctx = 1) ∧
    (let s : State := { nearUser with me := { Band.reset 0 with status := .free } }
     (∀ b ∈ s.me :: s.bands, ¬(b.status = .run ∧ b.ctx = 1)) ∧ s.findCtx 1 = some { ctxA with frames := [frameA] } ∧
     ({ ctxA with frames := [frameA] } : Ctx).frame 0 = some frameA) := by decide +kernel
/-- Word 0 of the entry of a frame of `KEEP` at local base 0x300 with a tag (R151): bit 63 V, 62 KEEP, 7 TV. -/
theorem test_frame_word : State.frameWord { frameA with keep := true, run := false, lb := 0x300, log2n := 2, tv := true } 0 =
    BitVec.ofNat 64 (2 ^ 63 + 2 ^ 62 + 2 * 2 ^ 26 + 0x300 * 2 ^ 8 + 2 ^ 7) := by decide +kernel
theorem test_context_created : after (.registerWrite ⟨32, State.recordBase + 65536 * 8192 + 256 * 5, 8⟩ (some (2 ^ 63 + 0x10000))) user
    (fun t => t.ctxs.any fun c => c.id == 5 && c.ptRoot == 0x10000) = true := by decide +kernel

/-- The worked address of R106 (04): its channel, chunk and slot, where its byte and its check bytes lie. -/
theorem test_channel_place : channelOf 0x2ABCD1E40 = 0x7A ∧ chunkOf 0x2ABCD1E40 = 11670 ∧ slotIn 0x2ABCD1E40 = 3 ∧
    dataPlace 0x2ABCD1E40 = 0x2D96340 ∧ checkPlace 0x2ABCD1E40 = 0x2D96F34 := by decide +kernel
/-- The two sectors that R107 gives check bytes for. -/
theorem test_parity : State.parity (List.replicate 31 0 ++ [1]) = (3, 2) ∧ State.parity (List.replicate 30 0 ++ [1, 0]) = (7, 6) := by
  decide +kernel

/-- StepRunsTheInstruction: a flip whose waiting sends the stream that was to issue into its handler, and one that leaves it there. -/
theorem wit_StepRunsTheInstruction_flip :
    (let f := { pairE with moved := 256 }
     let u : State := { flight gone [jobOf .movImm [elemD]] with pairs := [f] }
     let v : State := { swapU with pairs := [f] }
     (u.flipFirst (.nop false)).me.pc ≠ u.me.pc ∧ (v.flipFirst (.nop false)).me.status = .run ∧
     (v.flipFirst (.nop false)).me.pc = v.me.pc ∧ (v.flipFirst (.nop false)).me.pfx = v.me.pfx) := by decide +kernel

/-- ScalarAccessesAreChecked: a typed frame asked for another type, a near write that no plot of the span owns, an atomic on a sync
page beside its progress word, and there with another type. -/
theorem wit_ScalarAccessesAreChecked_further :
    (let s := framed { frameA with tv := true, ty := some .f32 }
     s.scalarPlace .read .i32 near0.toNat matches .error 9) ∧
    (let s : State := { nearUser with me := { nearUser.me with beds := [5] } }
     (s.scalarPlace .write .i32 near0.toNat matches .error 11) ∧ (s.scalarPlace .read .i32 near0.toNat matches .ok _)) ∧
    (user.scalarPlace .atomic .i32 (2 ^ 29 + 20) matches .error 13) ∧ (user.scalarPlace .atomic .i32 (2 ^ 29 + 16) matches .error 9) ∧
    (user.scalarPlace .atomic .i64 (2 ^ 29 + 16) matches .ok _) := by decide +kernel

/-- BarriersCountArrivals: a stream that waits for a progress word, whose end it has been told or not. -/
def awaitingGe (r : Option Word) : State :=
  { objU with me := { objU.me with waiting := some (.awaitGe O 3 ⟨false, 4, 5, 6⟩ r) } }
theorem wit_BarriersCountArrivals_progress :
    (awaitingGe (some 7)).awaitedGe O 3 = some 7 ∧ (awaitingGe none).awaitedGe O 3 = none ∧ objU.awaitedGe O 3 = none ∧
    objOk (awaitingGe (some 7)) 4 (fun _ => false) O = true ∧ (objV (awaitingGe (some 7)) 4 O).awaitedGe O 3 = some 7 ∧
    (let s : State := { objU with bands := [{ other with waiting := some (.awaitGe O 3 ⟨false, 4, 5, 6⟩ none) }] }
     ∃ b ∈ s.bands, b.waiting = some (.awaitGe O 3 ⟨false, 4, 5, 6⟩ none)) := by decide +kernel
/-- What waits for 3 has 7 once the word holds 7, and −1 once the object is poisoned. -/
theorem test_latchGe :
    (let s := awaitingGe none
     ((setObj s 16 8 7).latchGe O).me.waiting = some (.awaitGe O 3 ⟨false, 4, 5, 6⟩ (some 7)) ∧
     (s.latchGe O).me.waiting = s.me.waiting ∧
     (s.poisonObject O).me.waiting = some (.awaitGe O 3 ⟨false, 4, 5, 6⟩ (some (-1)))) := by decide +kernel

/-- ElementResults: an MX16 block whose scale is not 0, one so small that it is, and a block of zeros of both signs. -/
theorem wit_ElementResults_scales :
    (let S := fun (m : Nat) (e : Int) =>
       let big := State.blockMax .e2m1
       let ratio := magQuot m big.2.1 (e - big.2.2)
       (roundGrid ⟨.rne, 0, 0⟩ false ratio (max ratio.lg (-6) - 3)).1
     S 6 0 = 8 ∧ S 6 (-40) = 0) ∧
    (∀ x ∈ [Machine.Num.fin false 0 0, Machine.Num.fin true 0 3], ∃ n e, x = Machine.Num.fin n 0 e) := by
  refine ⟨by decide +kernel, fun x h => ?_⟩
  rcases List.mem_cons.mp h with rfl | h
  · exact ⟨_, _, rfl⟩
  · exact ⟨_, _, List.mem_singleton.mp h⟩
/-- The largest e2m1 value has scale 1 in both geometries and its own code; a block of zeros keeps their signs. -/
theorem test_quantise :
    State.quantise .mx16 false .e2m1 (fun _ => ⟨.rne, 0, 0⟩) 0 [.fin false 6 0, .fin true 3 0] = (0x38, [7, 13], 0) ∧
    State.quantise .mx32 false .e2m1 (fun _ => ⟨.rne, 0, 0⟩) 0 [.fin false 6 0, .fin true 3 0] = (127, [7, 13], 0) ∧
    State.quantise .mx16 false .e2m1 (fun _ => ⟨.rne, 0, 0⟩) 0 [.zero, .fin true 0 0] = (0, [0, 8], 0) := by decide +kernel

/-- A reserved field, an unassigned opcode and a bad operand have no form (R9, R10, R43). -/
theorem test_decode_refuses :
    (decode (BitVec.ofNat 128 (0x03800004 * 2 ^ 96 + 2 ^ 33))).isOk = false ∧
    (decode (BitVec.ofNat 128 (0x03800FFC * 2 ^ 96))).isOk = false ∧ (decode 0).isOk = false := by decide +kernel

end Sys2Proof.Tests
end

section
/-! The Runner (05 R134 to R145): what issuing a command, moving a line and completing a command do (O33, O39). -/

namespace Sys2Proof.Machine.Runner

open State

/-! ### Issue (R134, R135, R143) -/

/-- Sealing and performing change memory, counts, and the stream's own stores and strip alone. -/
theorem sealStrip_performed_eq (u : State) : ∃ m g p h d c l w st,
    u.sealStrip.performed = { u with mem := m, gcode := g, poison := p, hbmErr := h, dregs := d, dcache := c, errlog := l,
                                     me := { u.me with wpkts := w, strip := st } } := by
  obtain ⟨_, _, _, _, _, _, _, _, st, sealed, -⟩ := sealStrip_eq u
  obtain ⟨m, g, p, h, d, c, l, w, perf⟩ := sentLike_performed u.sealStrip
  rw [sealed] at perf
  exact ⟨m, g, p, h, d, c, l, w, st, by rw [sealed]; exact perf⟩

theorem chained_arrival (c : RCmd) (p : Option RPred) : (chained c p).arrival = c.arrival := by
  unfold chained
  split
  · rfl
  · split <;> rfl

theorem chained_id (c : RCmd) (p : Option RPred) : (chained c p).id = c.id := by
  unfold chained
  split
  · rfl
  · split <;> rfl

/-- What a command is as it joins the queue (R140). -/
def enqueued (c : RCmd) (p : Option RPred) : RCmd := if c.chn = true then chained c p else c

theorem enqueued_arrival (c : RCmd) (p : Option RPred) : (enqueued c p).arrival = c.arrival := by
  unfold enqueued
  split
  · exact chained_arrival c p
  · rfl

theorem enqueued_id (c : RCmd) (p : Option RPred) : (enqueued c p).id = c.id := by
  unfold enqueued
  split
  · exact chained_id c p
  · rfl

/-- A queue with room takes the command and, while the turn holds work back, nothing else happens. -/
theorem queueCmd_held {s : State} (c : RCmd) (held : s.holdBack = true) (room : s.me.runner.length < 32) :
    s.queueCmd c =
      let q := enqueued c s.me.rpred
      { s with
        nextOrder := s.nextOrder + 1,
        me := { s.me with
          runner := s.me.runner ++ [q],
          rlast := if q.arrival.isSome then s.me.rlast else (q.id, 0),
          rpred := if q.arrival.isNone && q.mode != .none then some ⟨q.id, none⟩ else s.me.rpred } } := by
  have notFull : ¬32 ≤ s.me.runner.length := by omega
  unfold queueCmd
  simp only [notFull, if_false, held, if_true]
  rfl

/-- What O33 says of a command that has joined the queue of u and waits there. -/
def Queued (u : State) (c : RCmd) (t : State) : Prop :=
  u.holdBack = true → u.me.runner.length < 32 →
    t.me.runner = u.me.runner ++ [if c.chn = true then chained c u.me.rpred else c] ∧
    t.me.rlast.1 = (if c.arrival.isSome = true then u.me.rlast.1 else c.id) ∧
    (∀ q, t.reg q = u.reg q) ∧ t.me.pc = u.me.pc + 16 ∧ t.me.seq = u.me.seq + 1 ∧ t.me.fpsr = u.me.fpsr ∧
    u.sealStrip.performed.SameBytes t

theorem queued_retire (u : State) (c : RCmd) : Queued u c ((u.sealStrip.performed.queueCmd c).retire) := by
  intro held room
  obtain ⟨_, _, _, _, _, _, _, _, _, perf⟩ := sealStrip_performed_eq u
  generalize u.sealStrip.performed = v at perf ⊢
  have vHeld : v.holdBack = true := by rw [perf]; exact held
  have vRoom : v.me.runner.length < 32 := by rw [perf]; exact room
  rw [queueCmd_held c vHeld vRoom]
  refine ⟨?_, ?_, fun q => ?_, ?_, ?_, ?_, fun k => byteAt_congr rfl rfl rfl rfl rfl k⟩
  · rw [perf]; rfl
  · simp only [retire, enqueued_arrival, enqueued_id, perf]
    split <;> rfl
  all_goals rw [perf]; rfl

/-- The form issues, and its command joins the queue. -/
theorem queues_of_exec {i : Instr} {s u : State} {c : RCmd}
    (h : exec i s = .next ((u.sealStrip.performed.queueCmd c).retire)) :
    Completes i s fun t => t = (u.sealStrip.performed.queueCmd c).retire ∧ Queued u c t :=
  ⟨_, h, rfl, queued_retire u c⟩

theorem issueRunner_ok {s u : State} {c : RCmd} {r : State → RReq} (h : s.settled = .ok u)
    (hc : u.probeRunner (r u) = .ok c) : s.issueRunner r = .next ((u.sealStrip.performed.queueCmd c).retire) := by
  unfold issueRunner
  rw [afterAll_ok h, hc]

theorem issuePark_ok {s u : State} {kind : RKind} {x : EABD} {r : RReq} {c : RCmd} (h : s.settled = .ok u)
    (hr : parkReq kind x u = .ok r) (hc : u.probeRunner r = .ok c) :
    s.issuePark kind x = .next ((u.sealStrip.performed.queueCmd c).retire) := by
  unfold issuePark
  rw [afterAll_ok h, hr]
  simp only [hc]

theorem exec_rqwait {s u : State} (x : ED) (h : s.settled = .ok u) :
    exec (.rqwait x) s = .next (u.drainRunner.finish x.d u.drainRunner.me.rlast.2) :=
  (afterAll_ok h : s.afterAll _ = _)

/-! ### The completion word (R141) -/

theorem bitOf_lt_two (b : Bool) : bitOf b < 2 := by cases b <;> decide

/-- The fields of the word stand one above the other. -/
theorem completionWord_toNat (c : RCmd) : (completionWord c).toNat =
    min c.faultAt (2 ^ 24 - 1) + 2 ^ 24 * (c.stat % 16) + 2 ^ 28 * bitOf c.pois +
      2 ^ 29 * bitOf (c.cmp && c.stat == 0 && valueOfCmd c == c.expect) + 2 ^ 30 * bitOf (c.cmp && c.stat == 0) +
      2 ^ 31 + 2 ^ 32 * (valueOfCmd c).toNat := by
  have pois := bitOf_lt_two c.pois
  have equal := bitOf_lt_two (c.cmp && c.stat == 0 && valueOfCmd c == c.expect)
  have cmpd := bitOf_lt_two (c.cmp && c.stat == 0)
  have value := (valueOfCmd c).isLt
  simp only [completionWord, packFields, BitVec.toNat_ofNat]
  omega

/-! ### What the accesses of a Runner leave as it was -/

/-- `t` differs from `s` in memory, in what stands beside its bytes, in what accesses count and log, and in the armed flips. -/
def EngineLike (s t : State) : Prop :=
  ∃ m g p h d c l ue nf fl, t = { s with mem := m, gcode := g, poison := p, hbmErr := h, dregs := d, dcache := c,
                                         errlog := l, nearUE := ue, nearFlip := nf, flips := fl }

theorem EngineLike.refl (s : State) : EngineLike s s := ⟨_, _, _, _, _, _, _, _, _, _, rfl⟩

theorem EngineLike.trans {s t u : State} (h : EngineLike s t) (k : EngineLike t u) : EngineLike s u := by
  obtain ⟨_, _, _, _, _, _, _, _, _, _, rfl⟩ := h
  obtain ⟨_, _, _, _, _, _, _, _, _, _, rfl⟩ := k
  exact ⟨_, _, _, _, _, _, _, _, _, _, rfl⟩

theorem EngineLike.of_memLike {s t : State} (h : s.MemLike t) : EngineLike s t := by
  obtain ⟨_, _, _, _, _, _, rfl⟩ := h
  exact ⟨_, _, _, _, _, _, _, _, _, _, rfl⟩

theorem EngineLike.me {s t : State} (h : EngineLike s t) : t.me = s.me := by
  obtain ⟨_, _, _, _, _, _, _, _, _, _, rfl⟩ := h; rfl

/-- A fold whose steps are such accesses, whatever else it carries along. -/
theorem EngineLike.foldl {α β : Type} (f : State × β → α → State × β)
    (step : ∀ r a, EngineLike r.1 (f r a).1) (l : List α) (r : State × β) : EngineLike r.1 (l.foldl f r).1 := by
  induction l generalizing r with
  | nil => exact EngineLike.refl _
  | cons a l ih => exact (step r a).trans (ih (f r a))

theorem memLike_eccSector (s : State) (sec : Nat) : s.MemLike (s.eccSector sec) :=
  (memLike_eccChunk s sec).trans (memLike_eccData _ sec)

theorem memLike_eccRead (s : State) (keys : List Nat) : s.MemLike (s.eccRead keys) :=
  MemLike.foldl _ memLike_eccSector _ s

theorem engineLike_refuse (s : State) (cls k : Nat) : EngineLike s (s.refuse cls k) :=
  ⟨_, _, _, _, _, _, _, _, _, _, rfl⟩

theorem engineLike_refuseEach (s : State) (cls unit : Nat) (ks : List Nat) : EngineLike s (s.refuseEach cls unit ks) := by
  unfold refuseEach
  generalize ks.foldl _ [] = firsts
  induction firsts generalizing s with
  | nil => exact EngineLike.refl s
  | cons k firsts ih => exact (engineLike_refuse s cls k).trans (ih _)

theorem engineLike_nearRead (s : State) (keys : List Nat) : EngineLike s (s.nearRead keys) :=
  ⟨_, _, _, _, _, _, _, _, _, _, rfl⟩

theorem engineLike_takeFlip (s : State) (bed k : Nat) (v : Byte) : EngineLike s (s.takeFlip bed k v).1 := by
  unfold takeFlip
  split
  · exact ⟨_, _, _, _, _, _, _, _, _, _, rfl⟩
  · exact EngineLike.refl s

/-! ### Which bytes a Runner writes -/

/-- The near part of a Runner's write, which goes to its bytes directly. -/
def writeNear (s : State) (near : List (Nat × Byte × Bool)) : State :=
  let t := (s.putMem (near.map fun c => (c.1, c.2.1))).nearWritten (near.map Prod.fst)
  { t with nearUE := near.foldl (fun l c => if c.2.2 then insertNat (c.1 / 8) l else l) t.nearUE }

theorem runnerWrite_eq (s : State) (cells : List (Nat × Byte × Bool)) :
    s.runnerWrite cells = (writeNear s (cells.filter fun c => isNear c.1)).writeCells
      ((cells.filter fun c => !isNear c.1).map fun c => (c.1, c.2.1)) ((cells.filter fun c => !isNear c.1).any fun c => c.2.2) :=
  rfl

theorem engineLike_runnerWrite (s : State) (cells : List (Nat × Byte × Bool)) : EngineLike s (s.runnerWrite cells) := by
  have near : ∀ l, EngineLike s (writeNear s l) := fun l => ⟨_, _, _, _, _, _, _, _, _, _, rfl⟩
  rw [runnerWrite_eq]
  exact (near _).trans (EngineLike.of_memLike (memLike_writeCells _ _ _))

/-- Near memory has no swap pairs: an access to it stays where it is. -/
theorem route_near {s : State} {k : Nat} (h : isNear k = true) : s.route k = k := by
  have above : ¬k < nearBase := by
    unfold isNear at h
    simp only [Bool.and_eq_true, decide_eq_true_eq] at h
    omega
  unfold route
  split
  · rw [if_neg fun both => above both.1]
  · rfl

theorem byteAt_writeNear {s : State} (mem : s.MemOk) (pairs : s.PairsOk) {near : List (Nat × Byte × Bool)}
    (h : ∀ c ∈ near, isNear c.1 = true) (k : Nat) :
    (writeNear s near).byteAt k = (cellAt (near.map fun c => (c.1, c.2.1)) k).getD (s.byteAt k) := by
  generalize hc : (near.map fun c => (c.1, c.2.1)) = cells
  have cellsNear : ∀ d ∈ cells, isNear d.1 = true := by
    intro d hd
    rw [← hc, List.mem_map] at hd
    obtain ⟨c, hmem, rfl⟩ := hd
    exact h c hmem
  have stored : (writeNear s near).byteAt k = (s.putMem cells).byteAt k := by
    rw [← hc]; exact byteAt_congr rfl rfl rfl rfl rfl k
  have route : (s.putMem cells).route k = s.route k := rfl
  rw [stored]
  unfold byteAt
  rw [route, heldByte_putNear mem cells cellsNear]
  congr 1
  by_cases home : isNear (s.route k) = true
  · rw [← route_route pairs k, route_near home, route_near home]
  · have away : isNear k ≠ true := fun near => home (by rw [route_near near]; exact near)
    rw [cellAt_none_of fun d hd e => home (by rw [← e]; exact cellsNear d hd),
      cellAt_none_of fun d hd e => away (by rw [← e]; exact cellsNear d hd)]

theorem memOk_writeNear {s : State} (mem : s.MemOk) (near : List (Nat × Byte × Bool)) : (writeNear s near).MemOk :=
  memOk_putMem mem _

/-- Every byte of a Runner's write reads as written, near and far, and every other as it did. -/
theorem byteAt_runnerWrite {s : State} (mem : s.MemOk) (pairs : s.PairsOk) (cells : List (Nat × Byte × Bool)) (k : Nat) :
    (s.runnerWrite cells).byteAt k = (cellAt (cells.map fun c => (c.1, c.2.1)) k).getD (s.byteAt k) := by
  have part : ∀ p : Nat → Bool, (cells.filter fun c => p c.1).map (fun c => (c.1, c.2.1)) =
      (cells.map fun c => (c.1, c.2.1)).filter fun d => p d.1 := fun p => by rw [List.filter_map]; rfl
  rw [runnerWrite_eq, byteAt_writeCells (memOk_writeNear mem _) pairs,
    byteAt_writeNear mem pairs fun c hc => (List.mem_filter.mp hc).2, part isNear, part fun k => !isNear k]
  generalize cells.map (fun c => (c.1, c.2.1)) = all
  by_cases near : isNear k = true
  · rw [cellAt_none_of (c := all.filter fun d => !isNear d.1) (fun d hd e => by
        have far := (List.mem_filter.mp hd).2
        rw [e, near] at far; cases far),
      cellAt_filter all _ k fun d _ e => by rw [e]; exact near]
    rfl
  · have far : isNear k = false := by simpa using near
    rw [cellAt_none_of (c := all.filter fun d => isNear d.1) (fun d hd e => near (by
        rw [← e]; exact (List.mem_filter.mp hd).2)),
      cellAt_filter all _ k fun d _ e => by rw [e, far]; rfl]
    rfl

/-! ### Lists of cells -/

theorem cellAt_cons (a : Nat × Byte) (c : List (Nat × Byte)) (k : Nat) :
    cellAt (a :: c) k = (cellAt c k).or (if a.1 = k then some a.2 else none) := by
  unfold cellAt
  rw [List.reverse_cons, List.find?_append]
  cases List.find? (fun d => d.1 == k) c.reverse with
  | some x => rfl
  | none => by_cases h : a.1 = k <;> simp [h]

theorem cellAt_of_mem {c : List (Nat × Byte)} (keys : (c.map Prod.fst).Nodup) {k : Nat} {v : Byte} (h : (k, v) ∈ c) :
    cellAt c k = some v := by
  induction c with
  | nil => cases h
  | cons a c ih =>
    rw [List.map_cons, List.nodup_cons] at keys
    rw [cellAt_cons]
    rcases List.mem_cons.mp h with rfl | later
    · rw [cellAt_none_of fun d hd e => keys.1 (List.mem_map.mpr ⟨d, hd, e⟩), if_pos rfl]; rfl
    · rw [ih keys.2 later]; rfl

theorem cellAt_cellsOf (bs : List Byte) (k j : Nat) : cellAt (cellsOf k bs) j = if k ≤ j then bs[j - k]? else none := by
  induction bs generalizing k with
  | nil => unfold cellsOf cellAt; simp
  | cons b bs ih =>
    have tail : cellsOf k (b :: bs) = (k, b) :: cellsOf (k + 1) bs := by
      unfold cellsOf
      rw [List.mapIdx_cons]
      simp only [Nat.add_zero, Nat.add_assoc, Nat.add_comm 1]
    rw [tail, cellAt_cons, ih]
    rcases Nat.lt_trichotomy j k with below | rfl | above
    · rw [if_neg (by omega), if_neg (by omega), if_neg (by omega)]; rfl
    · rw [if_neg (by omega), if_pos rfl, if_pos (Nat.le_refl j), Nat.sub_self]; rfl
    · obtain ⟨i, rfl⟩ := Nat.exists_eq_add_of_lt above
      rw [if_pos (by omega), if_neg (by omega), if_pos (by omega), show k + i + 1 - (k + 1) = i by omega,
        show k + i + 1 - k = i + 1 by omega, List.getElem?_cons_succ, Option.or_none]

theorem length_bytesLE (n v : Nat) : (bytesLE n v).length = n := by
  induction n generalizing v with
  | zero => rfl
  | succ n ih => rw [bytesLE, List.length_cons, ih]

theorem ofBytesLE_bytesLE (n v : Nat) : ofBytesLE (bytesLE n v) = v % 256 ^ n := by
  induction n generalizing v with
  | zero => simp [bytesLE, ofBytesLE, Nat.mod_one]
  | succ n ih =>
    rw [bytesLE, ofBytesLE, ih, BitVec.toNat_ofNat, Nat.pow_succ' (m := 256), Nat.mod_mul]

/-- A word written as its bytes reads as that word, and nothing else reads differently. -/
theorem readNat_of_cells {s t : State} {k n v : Nat} (small : v < 256 ^ n)
    (h : ∀ j, t.byteAt j = (cellAt (cellsOf k (bytesLE n v)) j).getD (s.byteAt j)) :
    t.readNat k n = v ∧ s.SameBytesBut t k n := by
  have len := length_bytesLE n v
  constructor
  · have read : t.readBytes k n = bytesLE n v := by
      refine List.ext_getElem (by simp [readBytes, len]) fun o ho hb => ?_
      simp only [readBytes, List.getElem_map, List.getElem_range]
      rw [h, cellAt_cellsOf, if_pos (by omega), Nat.add_sub_cancel_left,
        List.getElem?_eq_getElem hb]
      rfl
    rw [readNat, read, ofBytesLE_bytesLE, Nat.mod_eq_of_lt small]
  · intro j outside
    have untouched : cellAt (cellsOf k (bytesLE n v)) j = none := by
      rw [cellAt_cellsOf]
      rcases outside with below | beyond
      · rw [if_neg (by omega)]
      · rw [if_pos (by omega), List.getElem?_eq_none (by omega)]
    rw [h, untouched]; rfl

/-! ### What reading leaves as it was (R109, R373) -/

theorem channelOf_lt (k : Nat) : channelOf k < 256 := by
  have byte : ∀ n lo, bits n lo 8 < 2 ^ 8 := fun n lo => Nat.mod_lt _ (by decide)
  have join : ∀ {a b : Nat}, a < 2 ^ 8 → b < 2 ^ 8 → Nat.xor a b < 2 ^ 8 := fun ha hb => Nat.xor_lt_two_pow ha hb
  exact join (byte ..) (join (join (byte ..) (byte ..)) (join (byte ..) (byte ..)))

/-- What a byte reads depends on memory, its codes and errors, the swap pairs, and the registers of the channels. -/
theorem byteAt_of_channels {s t : State} (mem : t.mem = s.mem) (codes : t.gcode = s.gcode) (errs : t.hbmErr = s.hbmErr)
    (pairs : t.pairs = s.pairs) (regs : ∀ c < 256, ∀ off < 4096, t.dreg (chReg c off) = s.dreg (chReg c off)) (k : Nat) :
    t.byteAt k = s.byteAt k := by
  have route : t.route k = s.route k := by unfold route; rw [pairs]
  have code : ∀ g, t.codeOf g = s.codeOf g := fun g => by unfold codeOf; rw [codes]
  have pattern : ∀ g c o, t.patternByte g c o = s.patternByte g c o := fun g c o => by
    unfold patternByte; rw [regs _ (channelOf_lt _) _ (by omega)]
  have raw : ∀ j, t.rawByte j = s.rawByte j := fun j => by unfold rawByte; simp only [code, mem, pattern]
  have sector : ∀ sec, t.sectorErrs sec = s.sectorErrs sec := fun sec => by unfold sectorErrs; rw [errs]
  unfold byteAt
  rw [route]
  exact heldByte_congr (sectorRead_congr _ (sector _) (code _) (regs _ (channelOf_lt _) _ (by decide))) (raw _)

/-- A device register that no access counts in. -/
def Uncounted (pa : Nat) : Prop := pa ≠ controlBase + 0x28 ∧ ∀ c < 256, pa ≠ chReg c 0x100

/-- `t` follows `s` by reads: every byte, every way and every right is as it was. -/
structure ReadsOnly (s t : State) : Prop where
  memOk : t.MemOk
  bytes : s.SameBytes t
  pairs : t.pairs = s.pairs
  ports : t.ports = s.ports
  flips : t.flips = s.flips
  regs : ∀ pa, Uncounted pa → t.dreg pa = s.dreg pa

theorem ReadsOnly.refl {s : State} (h : s.MemOk) : ReadsOnly s s :=
  ⟨h, fun _ => rfl, rfl, rfl, rfl, fun _ _ => rfl⟩

theorem ReadsOnly.trans {s t u : State} (h : ReadsOnly s t) (k : ReadsOnly t u) : ReadsOnly s u :=
  ⟨k.memOk, fun j => (k.bytes j).trans (h.bytes j), k.pairs.trans h.pairs, k.ports.trans h.ports, k.flips.trans h.flips,
    fun pa hp => (k.regs pa hp).trans (h.regs pa hp)⟩

theorem ReadsOnly.foldl {α : Type} (f : State → α → State) (step : ∀ (s : State) a, s.MemOk → ReadsOnly s (f s a))
    (l : List α) {s : State} (h : s.MemOk) : ReadsOnly s (l.foldl f s) := by
  induction l generalizing s with
  | nil => exact ReadsOnly.refl h
  | cons a l ih =>
    have first := step s a h
    exact first.trans (ih first.memOk)

/-- A refusal counts in a register of the device control alone. -/
theorem readsOnly_refuse {s : State} (cls k : Nat) (h : s.MemOk) : ReadsOnly s (s.refuse cls k) := by
  have dreg : ∀ pa, pa ≠ controlBase + 0x28 → (s.refuse cls k).dreg pa = s.dreg pa := fun pa hp =>
    (dreg_setDreg s (controlBase + 0x28) pa _).trans (if_neg hp)
  refine ⟨h, byteAt_of_channels rfl rfl rfl rfl fun c hc off ho => dreg _ ?_, rfl, rfl, rfl, fun pa hp => dreg pa hp.1⟩
  unfold chReg channelBase controlBase
  omega

theorem readsOnly_refuseEach {s : State} (cls unit : Nat) (ks : List Nat) (h : s.MemOk) :
    ReadsOnly s (s.refuseEach cls unit ks) :=
  ReadsOnly.foldl _ (fun _ k => readsOnly_refuse cls k) _ h

theorem dreg_eccData_uncounted (s : State) (sec : Nat) {pa : Nat} (h : Uncounted pa) : (s.eccData sec).dreg pa = s.dreg pa := by
  have bump : ∀ (t : State) lo, (t.bumpField (chReg (channelOf (sec * 32)) 0x100) lo).dreg pa = t.dreg pa := fun t lo =>
    dreg_bumpField t _ lo pa (h.2 _ (channelOf_lt _))
  have settle : ∀ t : State, (t.settleSector sec).dreg pa = t.dreg pa := fun _ => rfl
  unfold eccData
  split
  · rfl
  · simp only
    rw [bump, settle]
    split <;> rfl
  · rw [bump]; rfl

theorem dreg_eccSector_uncounted (s : State) (sec : Nat) {pa : Nat} (h : Uncounted pa) :
    (s.eccSector sec).dreg pa = s.dreg pa := by
  obtain ⟨_, _, chunk, -⟩ := eccChunk_cases s sec
  unfold eccSector
  rw [dreg_eccData_uncounted _ _ h, chunk]; rfl

theorem readsOnly_eccSector {s : State} (sec : Nat) (h : s.MemOk) : ReadsOnly s (s.eccSector sec) := by
  refine ⟨memOk_eccSector h sec, byteAt_eccAll [sec] h, ?_, ?_, ?_, fun pa hp => dreg_eccSector_uncounted s sec hp⟩
  all_goals
    obtain ⟨_, _, _, _, _, _, e⟩ := memLike_eccSector s sec
    rw [e]

theorem readsOnly_eccRead {s : State} (keys : List Nat) (h : s.MemOk) : ReadsOnly s (s.eccRead keys) :=
  ReadsOnly.foldl _ (fun _ sec => readsOnly_eccSector sec) _ h

theorem readsOnly_nearRead {s : State} (keys : List Nat) (h : s.MemOk) : ReadsOnly s (s.nearRead keys) :=
  ⟨h, byteAt_congr rfl rfl rfl rfl rfl, rfl, rfl, rfl, fun _ _ => rfl⟩

theorem ReadsOnly.route {s t : State} (h : ReadsOnly s t) (k : Nat) : t.route k = s.route k := by
  unfold State.route; rw [h.pairs]

/-- The access tables and the peers' table are no counters. -/
theorem ReadsOnly.granted {s t : State} (h : ReadsOnly s t) (cls : Nat) (acc : Access) (k : Nat) :
    t.granted cls acc k = s.granted cls acc k := by
  have control : ∀ pa, controlBase + 0x28 < pa → t.dreg pa = s.dreg pa := fun pa hp => h.regs pa ⟨by omega, fun c hc => by
    unfold chReg channelBase
    unfold controlBase at hp
    omega⟩
  have peers : ∀ n, t.dreg (controlBase + 0x1000 + 8 * n) = s.dreg (controlBase + 0x1000 + 8 * n) := fun n =>
    control _ (by omega)
  have table : ∀ n c, t.tableEntry n c = s.tableEntry n c := fun n c => control _ (by unfold tableBase controlBase; omega)
  unfold State.granted
  rw [h.ports]
  simp only [peers, table]

/-! ### Moving a line (R134, R136, R138) -/

/-- One move of a line: the place in the delivered sequence, the source, the destination key. -/
abbrev Move := Nat × (Nat ⊕ Byte) × Nat

/-- The state after the reads of a line: those refused are counted, the others go through their codes. -/
def lineRead (s : State) (c : RCmd) (l : RLine) : State :=
  let keys := freshReads c l ++ blockReads c l
  let ok := keys.filter fun k => s.granted 49 .read (s.route k)
  ((s.refuseEach 49 64 (keys.filter fun k => !s.granted 49 .read (s.route k))).eccRead ok).nearRead (ok.filter isNear)

/-- The bytes that the command has read ahead, those of the line's blocks among them. -/
def readAhead (s : State) (c : RCmd) (l : RLine) : List (Nat × Byte × Bool) :=
  (blockReads c l).foldl (fun l k => assocSet l k (s.runnerRead [] k)) c.saved

/-- One move: the state with the flips used up, the cells to write, the bytes delivered, and whether one was poisoned. -/
def moveStep (saved : List (Nat × Byte × Bool)) (bed : Nat)
    (r : State × List (Nat × Byte × Bool) × List (Nat × Byte) × Bool) (m : Move) :
    State × List (Nat × Byte × Bool) × List (Nat × Byte) × Bool :=
  match m.2.1 with
  | .inr v => (r.1, assocSet r.2.1 m.2.2 (v, false), r.2.2.1 ++ [(m.1, v)], r.2.2.2)
  | .inl k =>
    let x := r.1.flippedRead saved bed k
    (x.1, assocSet r.2.1 m.2.2 x.2, r.2.2.1 ++ [(m.1, x.2.1)], r.2.2.2 || x.2.2)

/-- All moves of a line. -/
def movesOf (s : State) (c : RCmd) (l : RLine) : State × List (Nat × Byte × Bool) × List (Nat × Byte) × Bool :=
  let r := lineRead s c l
  l.moves.foldl (moveStep (readAhead r c l) (r.lineBed l)) (r, [], [], false)

theorem moveLine_state (s : State) (c : RCmd) (l : RLine) :
    (s.moveLine c l).1 = (movesOf s c l).1.runnerWrite (movesOf s c l).2.1 := rfl

theorem moveLine_cmd (s : State) (c : RCmd) (l : RLine) : ∃ delivered saved pois, (s.moveLine c l).2 =
    { c with lines := c.lines.filter fun x => x.line != l.line, delivered := delivered, saved := saved, pois := pois } :=
  ⟨_, _, _, rfl⟩

theorem engineLike_lineRead (s : State) (c : RCmd) (l : RLine) : EngineLike s (lineRead s c l) :=
  ((engineLike_refuseEach s _ _ _).trans (EngineLike.of_memLike (memLike_eccRead _ _))).trans (engineLike_nearRead _ _)

theorem readsOnly_lineRead {s : State} (c : RCmd) (l : RLine) (h : s.MemOk) : ReadsOnly s (lineRead s c l) := by
  have refused := readsOnly_refuseEach 49 64
    ((freshReads c l ++ blockReads c l).filter fun k => !s.granted 49 .read (s.route k)) h
  have through := refused.trans (readsOnly_eccRead
    ((freshReads c l ++ blockReads c l).filter fun k => s.granted 49 .read (s.route k)) refused.memOk)
  exact through.trans (readsOnly_nearRead _ through.memOk)

theorem engineLike_moveLine (s : State) (c : RCmd) (l : RLine) : EngineLike s (s.moveLine c l).1 := by
  have step : ∀ saved bed r (m : Move), EngineLike r.1 (moveStep saved bed r m).1 := by
    intro saved bed r m
    unfold moveStep
    split
    · exact EngineLike.refl _
    · exact engineLike_takeFlip _ _ _ _
  rw [moveLine_state]
  exact ((engineLike_lineRead s c l).trans (EngineLike.foldl _ (step _ _) l.moves _)).trans (engineLike_runnerWrite _ _)

/-- The byte that a move carries, where no flip is armed. -/
def carried (s : State) (saved : List (Nat × Byte × Bool)) (m : Move) : Byte × Bool :=
  match m.2.1 with
  | .inr v => (v, false)
  | .inl k => s.runnerRead saved k

theorem moveStep_unflipped {s : State} (h : s.flips = []) (saved : List (Nat × Byte × Bool)) (bed : Nat)
    (cells : List (Nat × Byte × Bool)) (d : List (Nat × Byte) × Bool) (m : Move) :
    ∃ d', moveStep saved bed (s, cells, d) m = (s, assocSet cells m.2.2 (carried s saved m), d') := by
  unfold moveStep carried
  split
  · exact ⟨_, rfl⟩
  · simp only [flippedRead, takeFlip, h, List.find?_nil]
    exact ⟨_, rfl⟩

theorem assocSet_of_new {α : Type} (l : List (Nat × α)) (k : Nat) (v : α) (h : k ∉ l.map Prod.fst) :
    assocSet l k v = l ++ [(k, v)] := by
  induction l with
  | nil => rfl
  | cons p l ih =>
    rw [List.map_cons, List.mem_cons, not_or] at h
    rw [assocSet, if_neg (Ne.symm h.1), ih h.2]; rfl

/-- Moves to different bytes each leave their own cell. -/
theorem moves_unflipped {s : State} (h : s.flips = []) (saved : List (Nat × Byte × Bool)) (bed : Nat) (moves : List Move)
    (cells : List (Nat × Byte × Bool)) (d : List (Nat × Byte) × Bool)
    (apart : (cells.map Prod.fst ++ moves.map fun m => m.2.2).Nodup) :
    ∃ d', moves.foldl (moveStep saved bed) (s, cells, d) = (s, cells ++ moves.map fun m => (m.2.2, carried s saved m), d') := by
  induction moves generalizing cells d with
  | nil => exact ⟨d, by simp⟩
  | cons m moves ih =>
    have new : m.2.2 ∉ cells.map Prod.fst := fun old => by
      rw [List.nodup_append] at apart
      exact apart.2.2 _ old _ (List.mem_cons_self ..) rfl
    obtain ⟨d₁, first⟩ := moveStep_unflipped h saved bed cells d m
    rw [assocSet_of_new _ _ _ new] at first
    obtain ⟨d₂, rest⟩ := ih (cells ++ [(m.2.2, carried s saved m)]) d₁ (by simpa using apart)
    exact ⟨d₂, by rw [List.foldl_cons, first, rest, List.map_cons, List.append_assoc]; rfl⟩

theorem runnerRead_assocSet (s : State) (saved : List (Nat × Byte × Bool)) (j k : Nat) (v : Byte × Bool) :
    s.runnerRead (assocSet saved j v) k = if k = j then v else s.runnerRead saved k := by
  unfold runnerRead
  rw [assoc_set]
  by_cases h : k = j
  · rw [if_pos h, if_pos h]
  · rw [if_neg h, if_neg h]

/-- A byte read ahead is the byte that a read gives. -/
theorem runnerRead_readAhead (s : State) (c : RCmd) (l : RLine) (h : c.saved = []) (k : Nat) :
    s.runnerRead (readAhead s c l) k = s.runnerRead [] k := by
  have ahead : ∀ (ks : List Nat) (saved : List (Nat × Byte × Bool)), s.runnerRead saved k = s.runnerRead [] k →
      s.runnerRead (ks.foldl (fun l k => assocSet l k (s.runnerRead [] k)) saved) k = s.runnerRead [] k := by
    intro ks
    induction ks with
    | nil => exact fun _ same => same
    | cons j ks ih =>
      intro saved same
      refine ih _ ?_
      rw [runnerRead_assocSet]
      split
      · next e => rw [e]
      · exact same
  exact ahead _ _ (by rw [h])

theorem runnerRead_granted {s : State} {k : Nat} (h : s.granted 49 .read (s.route k) = true) :
    (s.runnerRead [] k).1 = s.byteAt k := by
  unfold runnerRead
  rw [h]; rfl

section
variable {s : State} {c : RCmd} {l : RLine} (mem : s.MemOk) (pairs : s.PairsOk) (flips : s.flips = [])
  (apart : (l.moves.map fun m => m.2.2).Nodup)
include mem pairs flips apart

/-- After a line has moved, each byte is what its move carried, or what it was. -/
theorem byteAt_moveLine (k : Nat) : (s.moveLine c l).1.byteAt k =
    (cellAt (l.moves.map fun m => (m.2.2, (carried (lineRead s c l) (readAhead (lineRead s c l) c l) m).1)) k).getD
      (s.byteAt k) := by
  have reads := readsOnly_lineRead c l mem
  obtain ⟨d, all⟩ := moves_unflipped (reads.flips.trans flips) (readAhead (lineRead s c l) c l) ((lineRead s c l).lineBed l)
    l.moves [] ([], false) (by simpa using apart)
  have pairsOk : (lineRead s c l).PairsOk := by unfold PairsOk; rw [reads.pairs]; exact pairs
  rw [moveLine_state]
  unfold movesOf
  rw [all, byteAt_runnerWrite reads.memOk pairsOk, reads.bytes, List.nil_append, List.map_map]
  rfl

theorem byteAt_moveLine_moved {m : Move} (h : m ∈ l.moves) : (s.moveLine c l).1.byteAt m.2.2 =
    (carried (lineRead s c l) (readAhead (lineRead s c l) c l) m).1 := by
  rw [byteAt_moveLine mem pairs flips apart, cellAt_of_mem (by rw [List.map_map]; exact apart)
    (List.mem_map.mpr ⟨m, h, rfl⟩)]
  rfl

/-- A destination byte becomes its source byte. -/
theorem byteAt_moveLine_copied (saved : c.saved = []) {m : Move} (h : m ∈ l.moves) {k : Nat} (source : m.2.1 = .inl k)
    (granted : s.granted 49 .read (s.route k) = true) : (s.moveLine c l).1.byteAt m.2.2 = s.byteAt k := by
  have reads := readsOnly_lineRead c l mem
  rw [byteAt_moveLine_moved mem pairs flips apart h]
  unfold carried
  rw [source]
  simp only
  rw [runnerRead_readAhead _ _ _ saved, runnerRead_granted (by rw [reads.route, reads.granted, granted]), reads.bytes]

/-- A destination byte becomes its byte of the pattern. -/
theorem byteAt_moveLine_filled {m : Move} (h : m ∈ l.moves) {x : Byte} (source : m.2.1 = .inr x) :
    (s.moveLine c l).1.byteAt m.2.2 = x := by
  rw [byteAt_moveLine_moved mem pairs flips apart h]
  unfold carried
  rw [source]

theorem byteAt_moveLine_other {k : Nat} (h : ∀ m ∈ l.moves, m.2.2 ≠ k) : (s.moveLine c l).1.byteAt k = s.byteAt k := by
  rw [byteAt_moveLine mem pairs flips apart, cellAt_none_of fun d hd => ?_]
  · rfl
  · obtain ⟨m, hm, rfl⟩ := List.mem_map.mp hd
    exact h m hm

end

/-! ### Who moves (R145) -/

theorem exec_runnerLine (b : Fin 64) (id line : Nat) (s : State) : exec (.runnerLine b id line) s =
    .next (s.asHolder b (fun x => x.runner.any fun c => c.id == id) fun s => s.runnerLine id line) := rfl

theorem exec_runnerComplete (b : Fin 64) (id : Nat) (s : State) : exec (.runnerComplete b id) s =
    .next (s.asHolder b (fun x => x.runner.any fun c => c.id == id) fun s => s.runnerComplete id) := rfl

/-- The Bandstand that moves in is one of the part's, under its own number. -/
theorem swapIn_me {s v : State} {b : Fin 64} (h : s.swapIn b = some v) : v.me ∈ s.me :: s.bands ∧ v.me.id = b := by
  unfold swapIn at h
  split at h
  · next here => cases h; exact ⟨List.mem_cons_self .., here⟩
  · split at h
    · cases h
    · next x found =>
      cases h
      exact ⟨List.mem_cons_of_mem _ (List.mem_of_find?_eq_some found), by simpa using List.find?_some found⟩

/-- The stream of a Bandstand that holds the command does what is asked, and the stream that moved is back. -/
theorem back_asHolder {s v : State} {b : Fin 64} {has : Band → Bool} {f : State → State} (h : s.swapIn b = some v)
    (holds : has v.me = true) : s.Back (f v) (s.asHolder b has f) := by
  obtain ⟨there, number⟩ := swapIn_me h
  have found : ((s.me :: s.bands).find? fun x => x.id == b && has x).isSome = true :=
    List.find?_isSome.mpr ⟨v.me, there, by simp [number, holds]⟩
  obtain ⟨x, found⟩ := Option.isSome_iff_exists.mp found
  unfold asHolder Back
  rw [found]
  simp only [asBand, h]

/-- A stopped stream does what is asked where no Bandstand of that number holds the command. -/
theorem asHolder_stopped {s : State} {b : Fin 64} {has : Band → Bool} {f : State → State} {x : Stopped}
    (gone : ∀ y ∈ s.me :: s.bands, y.id = b → has y = false)
    (h : (s.stopped.find? fun x => x.band.id == b && has x.band) = some x) : s.asHolder b has f = s.asStopped x f := by
  have notHeld : ((s.me :: s.bands).find? fun x => x.id == b && has x) = none := by
    rw [List.find?_eq_none]
    intro y hy both
    simp only [Bool.and_eq_true, beq_iff_eq] at both
    rw [gone y hy both.1] at both
    exact absurd both.2 (by decide)
  unfold asHolder
  rw [notHeld]
  simp only [h]

theorem runner_any {b : Band} {id : Nat} {c : RCmd} (h : (b.runner.find? fun c => c.id == id) = some c) :
    (b.runner.any fun c => c.id == id) = true :=
  List.any_eq_true.mpr ⟨c, List.mem_of_find?_eq_some h, List.find?_some (p := fun c : RCmd => c.id == id) h⟩

theorem runner_any_eq_false {b : Band} {id : Nat} (h : ∀ k ∈ b.runner, k.id ≠ id) :
    (b.runner.any fun c => c.id == id) = false :=
  List.any_eq_false.mpr fun k hk => by simpa using h k hk

section
variable {s v : State} {b : Fin 64} {id : Nat} {c : RCmd} (swap : s.swapIn b = some v)
  (found : (v.me.runner.find? fun c => c.id == id) = some c)
include swap found

/-- What holds of the stream once its command's line has moved holds of the part's next state, with the stream that moved back. -/
theorem completes_runnerLine {line : Nat} {P : State → Prop} (h : P (v.runnerLine id line)) :
    Completes (.runnerLine b id line) s fun t => ∃ u, s.Back u t ∧ P u :=
  ⟨_, exec_runnerLine b id line s, _, back_asHolder swap (runner_any found), h⟩

theorem completes_runnerComplete {P : State → Prop} (h : P (v.runnerComplete id)) :
    Completes (.runnerComplete b id) s fun t => ∃ u, s.Back u t ∧ P u :=
  ⟨_, exec_runnerComplete b id s, _, back_asHolder swap (runner_any found), h⟩

end

/-! ### The steps of one command (R136, R138, R140, R142) -/

/-- With no frame still to be zeroed, nothing waits for zeroing (R155). -/
theorem zeroFrames_of_built {v : State} (h : ∀ x, v.myCtx = some x → ∀ f ∈ x.frames, f.zeroing = false) :
    v.zeroFrames = v := by
  unfold zeroFrames
  split
  · rfl
  · next x found =>
    have noneZeroing : x.frames.filter Frame.zeroing = [] :=
      List.filter_eq_nil_iff.mpr fun f hf => by rw [h x found f hf]; decide
    simp only [noneZeroing]; rfl

theorem beginCmd_begun {v : State} {c : RCmd} (zeroed : v.zeroFrames = v) (begun : c.begun = true) :
    v.beginCmd c = (v, c) := by
  simp only [beginCmd, zeroed, begun, if_true]

/-- A chained command whose predecessor failed begins with `STAT` 3 and without a line (R140). -/
theorem beginCmd_broken {v : State} {c : RCmd} (zeroed : v.zeroFrames = v) (fresh : c.begun = false) (chn : c.chn = true)
    (failed : c.predStat ≠ 0) : v.beginCmd c = (v, { c with begun := true, lines := [], stat := 3 }) := by
  have broken : (c.chn && c.predStat != 0) = true := by simp [chn, failed]
  unfold beginCmd
  rw [zeroed]
  simp only [fresh, broken, if_true, Bool.false_eq_true, if_false]

theorem runnerLine_of_beginCmd {v w : State} {id line : Nat} {c d : RCmd}
    (found : (v.me.runner.find? fun c => c.id == id) = some c) (arrival : c.arrival = none) (pred : c.pred = none)
    (free : v.beginWaits c = false) (begins : v.beginCmd c = (w, d)) :
    v.runnerLine id line = (d.lines.find? fun l => l.line == line).elim (w.putCmd d) fun l =>
      if w.lineWaits d l then w.putCmd d else (w.lineStep d l).1.putCmd (w.lineStep d l).2 := by
  unfold runnerLine
  rw [found]
  simp only [arrival, pred, free, begins, Option.isSome_none, Bool.or_self, Bool.false_eq_true, if_false]
  cases d.lines.find? fun l => l.line == line <;> rfl

theorem beginWaits_begun {v : State} {c : RCmd} (h : c.begun = true) : v.beginWaits c = false := by
  unfold beginWaits; rw [h]; rfl

/-- The first command but for arrivals waits for no other as it begins. -/
theorem beginWaits_first {v : State} {c : RCmd}
    (h : (v.me.runner.takeWhile fun x => x.id != c.id).all (fun x => x.arrival.isSome) = true) : v.beginWaits c = false := by
  have noEarlier : v.earlierCmds c = [] := List.filter_eq_nil_iff.mpr fun x hx => by
    have isArrival := List.all_eq_true.mp h x hx
    cases arrival : x.arrival with
    | none => rw [arrival] at isArrival; cases isArrival
    | some a => simp
  unfold beginWaits
  rw [noEarlier, List.any_nil, Bool.and_false]

/-- A command put back is in the queue under its number. -/
theorem exists_mem_putCmd {t : State} {id : Nat} {c d : RCmd} (there : c ∈ t.me.runner) (hc : c.id = id) (hd : d.id = id) :
    d ∈ (t.putCmd d).me.runner :=
  List.mem_map.mpr ⟨c, there, if_pos (hc.trans hd.symm)⟩

theorem byteAt_putCmd (t : State) (d : RCmd) (k : Nat) : (t.putCmd d).byteAt k = t.byteAt k :=
  byteAt_congr rfl rfl rfl rfl rfl k

/-- A line that cannot be reached ends the command there, and moves nothing (R142). -/
theorem lineStep_stops {v : State} {c : RCmd} {l : RLine} (h : v.lineStops l = true) :
    EngineLike v (v.lineStep c l).1 ∧ (v.lineStep c l).1.mem = v.mem ∧
      (v.lineStep c l).2 =
        let at_ := if c.stat = 2 then min c.faultAt l.low else l.low
        { c with stat := 2, faultAt := at_, lines := c.lines.filter fun x => decide (x.low < at_) } := by
  unfold lineStep
  rw [if_pos h]
  refine ⟨?_, ?_, rfl⟩
  · simp only
    split
    · exact engineLike_refuse _ _ _
    · exact EngineLike.refl v
  · simp only
    split <;> rfl

theorem lineStep_moves {v : State} {c : RCmd} {l : RLine} (h : v.lineStops l = false) : v.lineStep c l = v.moveLine c l := by
  unfold lineStep
  rw [h]; rfl

/-! ### Completion (R139 to R141, R143) -/

/-- What a completed command tells one that is chained to it (R140). -/
def told (c x : RCmd) : RCmd :=
  if x.pred = some c.id then { x with pred := none, predStat := c.stat, predValue := valueOfCmd c } else x

theorem told_id (c x : RCmd) : (told c x).id = x.id := by unfold told; split <;> rfl

/-- Any command but `RPARK` and `RUNPARK` writes its word and leaves the queue. -/
theorem finishCmd_eq {s : State} {c : RCmd} (arrival : c.arrival = none) (noPark : c.kind ≠ .park)
    (noUnpark : c.kind ≠ .unpark) : ∃ pred list, s.finishCmd c =
      { s.writeWord c with me := { (s.writeWord c).me with
          runner := ((s.writeWord c).me.runner.filter fun x => x.id != c.id).map (told c),
          rlast := if (s.writeWord c).me.rlast.1 = c.id then (c.id, completionWord c) else (s.writeWord c).me.rlast,
          rpred := pred, list := list } } := by
  unfold finishCmd
  rw [arrival]
  simp only [noPark, noUnpark, if_false]
  exact ⟨_, _, rfl⟩

theorem engineLike_writeWord (s : State) (c : RCmd) : EngineLike s (s.writeWord c) := by
  unfold writeWord
  split
  · exact EngineLike.refl s
  · split
    · exact engineLike_refuse _ _ _
    · split
      · exact EngineLike.refl s
      · exact engineLike_runnerWrite _ _

theorem completionWord_small (c : RCmd) : (completionWord c).toNat < 256 ^ 8 :=
  Nat.lt_of_lt_of_eq (completionWord c).isLt (by decide)

/-- A completion word that can still be written is written whole, and no other byte is (R141). -/
theorem byteAt_writeWord {s : State} {c : RCmd} {k : Nat} (word : c.word = some k)
    (granted : s.granted 49 .write (s.route k) = true) (reach : isNear k = true → s.runnerNear k = none) (mem : s.MemOk)
    (pairs : s.PairsOk) (j : Nat) : (s.writeWord c).byteAt j =
      (cellAt (cellsOf k (bytesLE 8 (completionWord c).toNat)) j).getD (s.byteAt j) := by
  have reached : (isNear k && (s.runnerNear k).isSome) = false := by
    cases near : isNear k with
    | false => rfl
    | true => rw [reach near]; rfl
  unfold writeWord
  rw [word]
  simp only [granted, reached, Bool.not_true, Bool.false_eq_true, if_false]
  rw [byteAt_runnerWrite mem pairs, List.map_map]
  exact congrArg (fun cells => (cellAt cells j).getD (s.byteAt j)) (List.map_id _)

theorem runnerComplete_eq {v : State} {id : Nat} {c : RCmd} (found : (v.me.runner.find? fun c => c.id == id) = some c)
    (arrival : c.arrival = none) (begun : c.begun = true) (lines : c.lines = []) (pred : c.pred = none)
    (free : v.completionWaits c = false) : v.runnerComplete id = v.finishCmd c := by
  unfold runnerComplete
  rw [found]
  simp only [arrival, begun, lines, pred, free, Option.isNone_none, List.isEmpty_nil, and_self, if_true]

/-! ### What the statement says of each step -/

section
variable {v : State} {id line : Nat} {c : RCmd} (found : (v.me.runner.find? fun c => c.id == id) = some c)
include found

theorem runner_find_id : c.id = id := by simpa using List.find?_some found

section
variable (arrival : c.arrival = none) (pred : c.pred = none) (begun : c.begun = true)
  (built : ∀ x, v.myCtx = some x → ∀ f ∈ x.frames, f.zeroing = false) {l : RLine}
  (hl : (c.lines.find? fun l => l.line == line) = some l)
include arrival pred begun built hl

theorem runnerLine_begun : v.runnerLine id line =
    if v.lineWaits c l then v.putCmd c else (v.lineStep c l).1.putCmd (v.lineStep c l).2 := by
  rw [runnerLine_of_beginCmd found arrival pred (beginWaits_begun begun) (beginCmd_begun (zeroFrames_of_built built) begun),
    hl, Option.elim_some]

/-- A line in whose way an earlier command stands waits. -/
theorem runnerLine_waits (waits : v.lineWaits c l = true) :
    v.SameBytes (v.runnerLine id line) ∧ ∃ k ∈ (v.runnerLine id line).me.runner, k.id = id ∧ k = c := by
  have number := runner_find_id found
  rw [runnerLine_begun found arrival pred begun built hl, if_pos waits]
  exact ⟨byteAt_putCmd v c, c, exists_mem_putCmd (List.mem_of_find?_eq_some found) number number, number, rfl⟩

theorem runnerLine_stops (free : v.lineWaits c l = false) (stops : v.lineStops l = true) :
    (v.runnerLine id line).mem = v.mem ∧ ∃ k ∈ (v.runnerLine id line).me.runner, k.id = id ∧
      k.stat = 2 ∧ k.faultAt = (if c.stat = 2 then min c.faultAt l.low else l.low) ∧
      ∀ x ∈ k.lines, x.low < k.faultAt ∧ x ∈ c.lines := by
  have number := runner_find_id found
  obtain ⟨like, mem, cmd⟩ := lineStep_stops (c := c) stops
  rw [runnerLine_begun found arrival pred begun built hl, free, cmd]
  refine ⟨mem, _, exists_mem_putCmd (c := c) ?_ number number, number, rfl, rfl, fun x hx => ?_⟩
  · rw [like.me]; exact List.mem_of_find?_eq_some found
  · obtain ⟨there, low⟩ := List.mem_filter.mp hx
    exact ⟨of_decide_eq_true low, there⟩

theorem runnerLine_moves (free : v.lineWaits c l = false) (reached : v.lineStops l = false) :
    (∀ r, (v.runnerLine id line).reg r = v.reg r) ∧
    (∃ k ∈ (v.runnerLine id line).me.runner, k.id = id ∧
      k.stat = c.stat ∧ ∀ x, x ∈ k.lines ↔ x ∈ c.lines ∧ x.line ≠ line) ∧
    ∀ k, (v.runnerLine id line).byteAt k = (v.moveLine c l).1.byteAt k := by
  have number := runner_find_id found
  have lineNumber : l.line = line := by simpa using List.find?_some hl
  have me := (engineLike_moveLine v c l).me
  obtain ⟨_, _, _, cmd⟩ := moveLine_cmd v c l
  rw [runnerLine_begun found arrival pred begun built hl, free, lineStep_moves reached, cmd]
  refine ⟨fun r => ?_, ⟨_, exists_mem_putCmd (c := c) ?_ number number, number, rfl, fun x => ?_⟩, byteAt_putCmd _ _⟩
  · show (v.moveLine c l).1.me.reg r = v.me.reg r
    rw [me]
  · rw [me]; exact List.mem_of_find?_eq_some found
  · rw [List.mem_filter, lineNumber, bne_iff_ne]

end

theorem runnerLine_broken (arrival : c.arrival = none) (pred : c.pred = none) (fresh : c.begun = false) (chn : c.chn = true)
    (failed : c.predStat ≠ 0) (built : ∀ x, v.myCtx = some x → ∀ f ∈ x.frames, f.zeroing = false)
    (first : (v.me.runner.takeWhile fun x => x.id != id).all (fun x => x.arrival.isSome) = true) :
    (v.runnerLine id line).mem = v.mem ∧ ∃ k ∈ (v.runnerLine id line).me.runner, k.id = id ∧
      k.begun = true ∧ k.lines = [] ∧ k.stat = 3 := by
  have number := runner_find_id found
  rw [runnerLine_of_beginCmd found arrival pred (beginWaits_first (by rw [number]; exact first))
    (beginCmd_broken (zeroFrames_of_built built) fresh chn failed)]
  exact ⟨rfl, _, exists_mem_putCmd (c := c) (List.mem_of_find?_eq_some found) number number, number, rfl, rfl, rfl⟩

theorem runnerComplete_finishes (arrival : c.arrival = none) (begun : c.begun = true) (lines : c.lines = [])
    (pred : c.pred = none) (free : v.completionWaits c = false) (noPark : c.kind ≠ .park) (noUnpark : c.kind ≠ .unpark) :
    (∀ x ∈ (v.runnerComplete id).me.runner, x.id ≠ id) ∧ (∀ r, (v.runnerComplete id).reg r = v.reg r) ∧
    (v.me.rlast.1 = id → (v.runnerComplete id).me.rlast = (id, completionWord c)) ∧
    ∀ k, (v.runnerComplete id).byteAt k = (v.writeWord c).byteAt k := by
  have number := runner_find_id found
  have me := (engineLike_writeWord v c).me
  obtain ⟨_, _, done⟩ := finishCmd_eq (s := v) arrival noPark noUnpark
  rw [runnerComplete_eq found arrival begun lines pred free, done, number]
  refine ⟨fun x hx => ?_, fun r => ?_, fun latest => ?_, byteAt_congr rfl rfl rfl rfl rfl⟩
  · obtain ⟨y, hy, rfl⟩ := List.mem_map.mp hx
    rw [told_id]
    exact bne_iff_ne.mp (List.mem_filter.mp hy).2
  · show (v.writeWord c).me.reg r = v.me.reg r
    rw [me]
  · exact if_pos (by rw [me]; exact latest)

end

end Sys2Proof.Machine.Runner

open Sys2Proof Sys2Proof.Machine Sys2Proof.Machine.Runner

/-- Settles O33: each form issues by its own arm, with the command that its probe gives; the queue takes it and holds it. -/
theorem runnerFormsQueue : Obligations.RunnerFormsQueue := by
  intro s u settled
  refine ⟨fun x c probe => ?_, fun x c probe => ?_, fun x c probe => ?_, fun x c probe => ?_, fun x r c req probe => ?_,
    fun x r c req probe => ?_, fun x => ?_, fun c => ?_⟩
  · exact queues_of_exec (issueRunner_ok settled probe)
  · exact queues_of_exec (issueRunner_ok settled probe)
  · exact queues_of_exec (issueRunner_ok settled probe)
  · exact queues_of_exec (issueRunner_ok settled probe)
  · exact queues_of_exec (issuePark_ok settled req probe)
  · exact queues_of_exec (issuePark_ok settled req probe)
  · exact ⟨_, exec_rqwait x settled, State.wrote_finish _ _ _⟩
  · have word := completionWord_toNat c
    have pois := bitOf_lt_two c.pois
    have equal := bitOf_lt_two (c.cmp && c.stat == 0 && State.valueOfCmd c == c.expect)
    have cmpd := bitOf_lt_two (c.cmp && c.stat == 0)
    have value := (State.valueOfCmd c).isLt
    dsimp only
    omega

/-- Settles O39: a step of a Runner is one of `runnerLine_waits`, `runnerLine_stops`, `runnerLine_moves`, `runnerLine_broken`
and `runnerComplete_finishes`, done by the stream that holds the command. -/
theorem runnersMoveLines : Obligations.RunnersMoveLines := by
  intro s v b id line c swap has built
  refine ⟨fun l found arrival pred begun zeroed hl waits => ?_,
    fun l found arrival pred begun zeroed hl free =>
    ⟨fun stops => ?_, fun reached => ?_⟩, fun found arrival pred fresh chn failed zeroed first => ?_,
    fun found arrival begun lines pred free noPark noUnpark => ?_, fun gone x stopped => ?_⟩
  · exact completes_runnerLine swap found (runnerLine_waits found arrival pred begun zeroed hl waits)
  · exact completes_runnerLine swap found (runnerLine_stops found arrival pred begun zeroed hl free stops)
  · obtain ⟨regs, kept, bytes⟩ := runnerLine_moves found arrival pred begun zeroed hl free reached
    refine completes_runnerLine swap found ⟨regs, kept, fun mem pairs flips saved apart =>
      ⟨fun m hm k source granted => ?_, fun m hm x source => ?_, fun k others => ?_⟩⟩
    · rw [bytes, byteAt_moveLine_copied mem pairs flips apart saved hm source granted]
    · rw [bytes, byteAt_moveLine_filled mem pairs flips apart hm source]
    · rw [bytes, byteAt_moveLine_other mem pairs flips apart others]
  · exact completes_runnerLine swap found (runnerLine_broken found arrival pred fresh chn failed zeroed first)
  · obtain ⟨left, regs, latest, bytes⟩ := runnerComplete_finishes found arrival begun lines pred free noPark noUnpark
    refine completes_runnerComplete swap found ⟨left, regs, latest, fun noWord k => ?_, fun k word granted reach mem pairs => ?_⟩
    · rw [bytes]; unfold State.writeWord; rw [noWord]
    · refine readNat_of_cells (completionWord_small c) fun j => ?_
      rw [bytes, byteAt_writeWord word granted reach mem pairs]
  · have away := fun y hy number => runner_any_eq_false (gone y hy number)
    exact ⟨⟨_, exec_runnerLine b id line s, asHolder_stopped away stopped⟩,
      ⟨_, exec_runnerComplete b id s, asHolder_stopped away stopped⟩⟩

end
